-- ==== Sys2Proof/Word.lean ====
section
/-!
DEFINITION. The plain words of the model: a payload byte, a temperature, the saturating sum, and a group of
four like things (the recorder has four probes, four filters and four door inputs).
-/
namespace Sys2Proof

/-- One byte of a telegram payload. -/
abbrev Byte := BitVec 8

/-- A temperature in whole tenths of a degree Celsius (1.5.1). -/
abbrev Temperature := Int

/-- A sum that stops at its largest value and stays there (1.5.7). -/
def satAdd (cap a b : Nat) : Nat := min (a + b) cap

/-- Four like things, numbered 1 to 4 in the manual (1.5.6) and `0` to `3` as `Fin 4` here. -/
structure Four (α : Type) where
  n1 : α
  n2 : α
  n3 : α
  n4 : α
deriving DecidableEq, Repr

/-- The thing with a given number. -/
def Four.get {α : Type} (v : Four α) (i : Fin 4) : α :=
  match i with
  | 0 => v.n1
  | 1 => v.n2
  | 2 => v.n3
  | 3 => v.n4

/-- Replace the thing with a given number. -/
def Four.set {α : Type} (v : Four α) (i : Fin 4) (x : α) : Four α :=
  match i with
  | 0 => { v with n1 := x }
  | 1 => { v with n2 := x }
  | 2 => { v with n3 := x }
  | 3 => { v with n4 := x }

/-- All four alike. -/
def Four.all {α : Type} (x : α) : Four α := ⟨x, x, x, x⟩

/-- The four in the order of their numbers. -/
def Four.toList {α : Type} (v : Four α) : List α := [v.n1, v.n2, v.n3, v.n4]

/-- Work on each of the four, knowing its number. -/
def Four.build {α : Type} (f : Fin 4 → α) : Four α := ⟨f 0, f 1, f 2, f 3⟩

end Sys2Proof
end

