-- ==== Sys2Proof/Syntax.lean ====
section
/-!
DEFINITION. The commands of the recorder: one constructor per row of spec/opcode_table.json, with the operands the
outside world brings to that event. A command that takes a telegram has no operand: it takes the OLDEST telegram of
the receive buffer (R117), which an earlier ACKNOWLEDGE_SLOT put there.
-/
namespace Sys2Proof

/-- A telegram as sampled on the line up to its check bits (TABLE 7-2). The length field is the number of payload
bytes. -/
structure Frame where
  cls      : BitVec 2
  sender   : BitVec 5
  receiver : BitVec 5
  kind     : BitVec 6
  payload  : List Byte
  check    : BitVec 16
deriving DecidableEq, Repr

/-- The level of an input line. -/
inductive LineLevel
  | low | high
deriving DecidableEq, Repr

/-- What stopped the core (R171). -/
inductive StopCause
  | supply | resetPin
deriving DecidableEq, Repr

/-- The commands, in the order of the table. -/
inductive Instr
  -- telegrams from consoles, taken from the receive buffer
  | configSet
  | tripStart
  | tripEnd
  | load
  | move
  | release
  | queryStation
  | queryRecord
  | list
  | discardMirror
  -- telegrams from peers, taken from the receive buffer
  | beacon
  | door
  | hold
  | offer
  | accept
  | decline
  | mirrorPut
  | mirrorDrop
  | restoreAsk
  | restoreBegin
  | restoreRecord
  | restoreEnd
  /-- A received telegram reaches its acknowledge slot. -/
  | acknowledgeSlot (frame : Frame)
  | busIdle
  | arbitrationLoss
  | lineError
  | telegramAbandoned
  /-- The acknowledge slot of a sent telegram: `acked` says that it was sampled low. -/
  | telegramOutcome (acked : Bool)
  | offerOutcome (acked : Bool)
  | acceptOutcome (acked : Bool)
  | certificateReplyOutcome (acked : Bool)
  | mirrorPutOutcome (acked : Bool)
  | mirrorDropOutcome (acked : Bool)
  | holdOutcome (acked : Bool)
  | restoreAskOutcome (acked : Bool)
  | restoreSessionOutcome (acked : Bool)
  | epochExpiry
  | windowExpiry
  /-- The answer deadline of the open offer naming `id`. -/
  | answerTimeout (id : Nat)
  /-- The silence deadline of the roster entry of `address`. -/
  | silenceDeadline (address : Nat)
  | askingTimeout
  | restoreDeadline
  | listeningTimeout
  | holdPendingTimeout
  /-- An edge on a probe line at the sample of counter value `count`; probe 1 to 4 is `0` to `3`. -/
  | risingEdge (probe : Fin 4) (count : Nat)
  | fallingEdge (probe : Fin 4) (count : Nat)
  /-- A run-out in ARMING; `level` is the sample at which the counter ran out. -/
  | runOutInArming (probe : Fin 4) (level : LineLevel)
  /-- A run-out in MEASURING; a change of the line at its own sample is an edge of count 65,536 before it. -/
  | runOutInMeasuring (probe : Fin 4)
  | doorLineLevelChange (input : Fin 4) (level : LineLevel)
  | initialAcceptance (input : Fin 4)
  | acceptedChange (input : Fin 4)
  /-- The end of a Setup Store write: `completed`, or failed. -/
  | tripStartWriteEnd (completed : Bool)
  | tripEndWriteEnd (completed : Bool)
  | rejoinEndWriteEnd (completed : Bool)
  /-- The supply monitor's reading in millivolts. -/
  | supplyBelowWarning (millivolts : Nat)
  | supplyAboveRelease (millivolts : Nat)
  /-- The core stops; `landed` says whether a Setup Store write then under way had replaced the store (R167). -/
  | coreStop (cause : StopCause) (landed : Bool)
  /-- A start: the strap pins, the outcomes of the two check codes, and the supply when the start's work is done. -/
  | start (straps : BitVec 4) (domainGood : Bool) (storeGood : Bool) (millivolts : Nat)
  /-- A receiver samples a length field. -/
  | sampledLengthAbove160 (length : Nat)
  | backupCellBelowRetention
deriving DecidableEq, Repr

end Sys2Proof
end

