-- ==== Sys2Proof/Decode.lean ====
section
/-!
DEFINITION. The command a word of the opcode table spells. The recorder is a block: its commands are events and
telegrams, and no row of spec/opcode_table.json gives bits, so no word spells a command. (The telegrams' own layouts
are in Machine/Operands.lean.)
-/
namespace Sys2Proof

/-- No row of the table has bits: every word spells nothing. -/
def decodeTableWord (_nbits _w : Nat) : Option Instr := none

end Sys2Proof
end

