-- ==== Sys2Proof/Config.lean ====
section
/-!
DEFINITION. What one WCR548 is built with (capacities, thresholds, fixed times), and the free values: constants
without a body that stand for what the manual leaves open.
-/
namespace Sys2Proof.Config

/-- The largest unsigned 32-bit number (1.5.3). -/
def max32 : Nat := 4294967295
/-- The largest unsigned 16-bit number. -/
def max16 : Nat := 65535
/-- The largest unsigned 8-bit number. -/
def max8 : Nat := 255
/-- Lowest and highest temperature, −50.0 °C and +70.0 °C (1.5.1). -/
def tempMin : Int := -500
def tempMax : Int := 700

/-- Records in a Custody Table (R13). -/
def custodySlots : Nat := 48
/-- Mirror records in a Mirror Table (R138). -/
def mirrorSlots : Nat := 48
/-- Ids in the Drop List (R144). -/
def dropSlots : Nat := 8
/-- Legs of one record (R9). -/
def maxLegs : Nat := 6
/-- Open offers (R94). -/
def offerSlots : Nat := 2
/-- Restore sessions served at one time (R148). -/
def sessionSlots : Nat := 2
/-- Telegrams in the transmit queue (R118). -/
def queueSlots : Nat := 8
/-- Telegrams in the receive buffer (R117). -/
def bufferSlots : Nat := 4
/-- Longest payload in bytes (R110). -/
def maxPayload : Nat := 160

/-- Counts after which a capture channel runs out (R25, R27). -/
def runOutCounts : Nat := 65536
/-- Shortest accepted period in counts (R29). -/
def minPeriod : Nat := 1000
/-- Most seconds of one account step to which temperatures are applied (R75). -/
def appliedLimit : Nat := 1210
/-- Seconds an owner waits for an answer to an acknowledged OFFER (R95). -/
def answerSeconds : Nat := 10
/-- Seconds of ASKING (R150). -/
def askSeconds : Nat := 10
/-- Seconds of RECEIVING after a RESTORE-BEGIN (R151). -/
def restoreSeconds : Nat := 30
/-- Re-puts queued at one epoch expiry (R140). -/
def rePutsPerExpiry : Nat := 4
/-- Entries of one LIST reply (R160). -/
def listEntries : Nat := 10

/-- Supply levels in millivolts (11.6, TABLE 11-5): warning and release. -/
def warningMv : Nat := 8000
def releaseMv : Nat := 8600

/-- FREE VALUE (log entry 2). The order in which timed events that fall due at one trip second are taken: the manual
lets either of two come first (R33, R49, R66, R68, R86, R130). -/
opaque coincidenceOrder : Nat → Nat

/-- FREE VALUE (log entry 3). Whether another station's start mark has been seen on a line the recorder last saw
idle: the opcode table has no row for another station's start mark (R111, R119). -/
opaque foreignStart : Nat → Bool

/-- FREE VALUE (log entry 6). Whether the last check bit of an ACCEPT in transmission had been sent when HOLD_PENDING was
entered: the opcode table has no row for single bits of a telegram (R122). -/
opaque checkBitsSent : Nat → Bool

/-- FREE VALUE (log entry 4). The four-byte time written for an epoch end that lies beyond the trip clock's range of
32 bits: the manual states no result for it (R39, R87, R152). -/
opaque timeBeyondClock : Nat → BitVec 32

end Sys2Proof.Config
end

