-- ==== Sys2Proof/Machine/State.lean ====
section
/-!
DEFINITION. The recorder's state as plain data: everything TABLE 0-2 and the sections' state tables name, the pins
the recorder reads, the queue of waiting commands, and one counter of the model's own. `State.reset` is a new part
whose core is held stopped by the reset input.
-/
namespace Sys2Proof.Machine

/-! ### Codes and names -/

/-- Station modes (TABLE 11-3). -/
inductive Mode
  | unstrapped | idle | starting | active | holdPending | hold | rejoining | ending
deriving DecidableEq, Repr

/-- Telegram kinds (TABLE 0-7). -/
inductive Kind
  | configSet | tripStart | tripEnd | load | move | release | queryStation | queryRecord | list | discardMirror
  | reply
  | beacon | door | hold | offer | accept | decline | mirrorPut | mirrorDrop
  | restoreAsk | restoreBegin | restoreRecord | restoreEnd
deriving DecidableEq, Repr

/-- Result codes of a REPLY (TABLE 7-11). -/
inductive Result
  | ok | moveDone | notIdle | notActive | busy | tableFull | duplicate | unknownId | unknownClass | targetAbsent
  | targetAmbiguous | sameCompartment | moveFailed | setupInvalid | setupWriteFailed | notEmpty | badRequest
deriving DecidableEq, Repr

/-- Outcomes of a telegram's send (R121). -/
inductive SendOutcome
  | acked | notAcked | lineError | queueFull | flushed
deriving DecidableEq, Repr

/-- Causes of the last start (R171). -/
inductive ResetCause
  | supplyWarm | resetPin | supplyCold | retentionFault
deriving DecidableEq, Repr

/-- Trip states of the Setup Store (TABLE 11-1). -/
inductive TripState
  | none | running | ended
deriving DecidableEq, Repr

/-! ### Consignment records (section 1) -/

inductive BreachCause
  | warmCeiling | coldFloor | warmBudget | coldBudget
deriving DecidableEq, Repr

/-- A verdict; the breach fields are present exactly when it is BREACHED (R6). -/
inductive Verdict
  | intact | excursion | unproven
  | breached (cause : BreachCause) (time : Nat)
deriving DecidableEq, Repr

/-- Tmin and cold budget, present together (TABLE 1-1). -/
structure ColdLimit where
  tmin   : Temperature
  budget : Nat
deriving DecidableEq, Repr

/-- The limits a record or a class carries (R2). -/
structure Limits where
  tmax         : Temperature
  warmBudget   : Nat
  ceiling      : Option Temperature
  cold         : Option ColdLimit
  floor        : Option Temperature
  gapAllowance : Nat
deriving DecidableEq, Repr

/-- One leg (TABLE 1-2). -/
structure Leg where
  compartment : Nat
  station     : Nat
  entry       : Nat
  exit        : Option Nat
  restored    : Bool
deriving DecidableEq, Repr

/-- Warmest and coldest temperature, of a summary or of a record's peaks. -/
structure Temps where
  warm : Temperature
  cold : Temperature
deriving DecidableEq, Repr

/-- A consignment record, as it travels (TABLE 7-8). -/
structure Record where
  id         : Nat
  classIndex : Nat
  loadedTime : Nat
  limits     : Limits
  warm       : Nat
  cold       : Nat
  door       : Nat
  gap        : Nat
  peaks      : Option Temps
  verdict    : Verdict
  openings   : Nat
  legs       : List Leg
  elided     : Nat
  carriedIn  : Bool
  restored   : Bool
  unmirrored : Bool
deriving DecidableEq, Repr

/-- Table-local record states (TABLE 1-3); an ARRIVING record keeps its receipt time and sender (R98). -/
inductive RecordState
  | arriving (receipt : Nat) (sender : Nat)
  | held
  | offered
  | releasing
deriving DecidableEq, Repr

/-- One place of the Custody Table: the record, its accounted-to (R7) and its state (R10). -/
structure Holding where
  record      : Record
  accountedTo : Nat
  state       : RecordState
deriving DecidableEq, Repr

/-- A mirror record (TABLE 9-2); `seq` is `none` for a stored sequence of "none". -/
structure MirrorRecord where
  owner  : Nat
  seq    : Option Nat
  record : Record
deriving DecidableEq, Repr

/-! ### Setup (section 11) -/

structure ProbeSetup where
  enabled : Bool
  counted : Bool
  k       : Nat
deriving DecidableEq, Repr

structure ClassSetup where
  enabled : Bool
  limits  : Limits
deriving DecidableEq, Repr

/-- The setup items of TABLE 11-2. -/
structure Setup where
  compartment : Option Nat
  epoch       : Nat
  prescale    : Nat
  probes      : Four ProbeSetup
  localDoors  : Four (Option Nat)
  doorMap     : List Nat
  grace       : Nat
  buddy       : Option Nat
  classes     : List ClassSetup
deriving DecidableEq, Repr

/-- The content of a disabled class no CONFIG-SET has written. -/
def ClassSetup.unset : ClassSetup :=
  ⟨false, ⟨0, 0, none, none, none, 0⟩⟩

/-- The defaults of TABLE 11-2. -/
def Setup.default : Setup where
  compartment := none
  epoch := 60
  prescale := 3
  probes := Four.all ⟨true, true, 16⟩
  localDoors := Four.all none
  doorMap := []
  grace := 300
  buddy := none
  classes := List.replicate 8 ClassSetup.unset

/-- The Setup Store (TABLE 11-1); `checkGood` says that its check code agrees with its content. -/
structure Store where
  setup     : Setup
  tripId    : Option Nat
  tripState : TripState
  checkGood : Bool
deriving DecidableEq, Repr

/-- What a Setup Store write under way is for, and what its end needs. -/
inductive WriteJob
  | tripStart (requester : Nat) (disabled : Nat)
  | tripEnd (requester : Nat)
  | rejoinEnd
deriving DecidableEq, Repr

/-- A Setup Store write under way: the content it writes. -/
structure StoreWrite where
  setup     : Setup
  tripId    : Option Nat
  tripState : TripState
  job       : WriteJob
deriving DecidableEq, Repr

/-! ### Probe capture and filters (sections 2 and 3) -/

inductive ChannelState
  | off | arming | measuring
deriving DecidableEq, Repr

/-- The statuses of TABLE 2-4 other than NONE, each with the value or line level it carries. -/
inductive Status
  | valid (value : Temperature)
  | clampedLow
  | clampedHigh
  | faultPeriod
  | faultStuck (level : LineLevel)
  | faultLowDuty
  | faultHighDuty
deriving DecidableEq, Repr

/-- A completed reading; a channel whose latest reading is NONE holds no `Reading`. -/
structure Reading where
  status : Status
  time   : Nat
  fresh  : Bool
deriving DecidableEq, Repr

/-- The last measurement's P and H. -/
structure Measurement where
  period : Nat
  high   : Nat
deriving DecidableEq, Repr

/-- One capture channel (2.3). `counter` is the count at the channel's last event, `high` the H captured with the
falling-edge mark, `sample` the last sample known from an event. -/
structure Channel where
  state   : ChannelState
  counter : Nat
  high    : Option Nat
  sample  : Option LineLevel
  last    : Option Measurement
  reading : Option Reading
deriving DecidableEq, Repr

/-- A stopped channel (R24). -/
def Channel.stopped : Channel := ⟨.off, 0, none, none, none, none⟩

/-- A channel just started in ARMING (R24, R25). -/
def Channel.started : Channel := ⟨.arming, 0, none, none, none, none⟩

/-- One simulant filter (TABLE 3-2). -/
structure Filter where
  value  : Temperature
  seeded : Bool
  missed : Nat
  used   : Bool
deriving DecidableEq, Repr

/-- A cleared filter (R44). -/
def Filter.cleared : Filter := ⟨0, false, 0, false⟩

/-- An epoch summary (TABLE 3-4). -/
structure Summary where
  sequence : Nat
  time     : Nat
  epoch    : Nat
  temps    : Option Temps
  grace    : Bool
  used     : Four Bool
deriving DecidableEq, Repr

/-! ### Doors and grace (section 4) -/

inductive DoorState
  | closed | opened
deriving DecidableEq, Repr

/-- One door input (4.1): the line's level, whether the input runs, its accepted state and opening count, and whether
a 250 ms count is in progress. -/
structure DoorInput where
  line     : LineLevel
  running  : Bool
  accepted : Option DoorState
  count    : Nat
  settling : Bool
deriving DecidableEq, Repr

/-- What the tracker knows of a sighted door (TABLE 4-2). -/
structure Sighted where
  state  : DoorState
  count  : Nat
  source : Nat
deriving DecidableEq, Repr

/-- A door entry of the tracker; `known` is `none` while the known mark is clear. -/
structure DoorEntry where
  door  : Nat
  known : Option Sighted
deriving DecidableEq, Repr

/-- Tracker states; the window start is present in GRACE. -/
inductive TrackerPhase
  | closed
  | grace (start : Nat)
  | overdue
deriving DecidableEq, Repr

structure Tracker where
  phase : TrackerPhase
  doors : List DoorEntry
deriving DecidableEq, Repr

/-- A cleared tracker with one unknown entry per door of the compartment door map (R62). -/
def Tracker.cleared (doorMap : List Nat) : Tracker := ⟨.closed, doorMap.map (⟨·, none⟩)⟩

/-! ### Handover, roster and restore (sections 6, 8 and 9) -/

inductive OfferPhase
  | sending
  | awaiting (deadline : Nat)
  | answered
deriving DecidableEq, Repr

/-- An open offer (TABLE 6-3), with the target compartment that its MOVE_DONE reply names (R102). -/
structure Offer where
  id          : Nat
  target      : Nat
  requester   : Nat
  compartment : Nat
  phase       : OfferPhase
deriving DecidableEq, Repr

inductive RosterState
  | unheard | live | holding | silent
deriving DecidableEq, Repr

/-- What a roster entry holds once a BEACON has been recorded (TABLE 8-1). -/
structure PeerReport where
  compartment  : Nat
  epoch        : Nat
  restartCount : Nat
  resetCause   : Nat
  heard        : Nat
deriving DecidableEq, Repr

structure RosterEntry where
  address  : Nat
  state    : RosterState
  report   : Option PeerReport
  deadline : Option Nat
deriving DecidableEq, Repr

/-- A cleared roster: fifteen UNHEARD entries (R128). -/
def clearedRoster : List RosterEntry := (List.range' 1 15).map (⟨·, .unheard, none, none⟩)

/-- A restore session (R148): the keys fixed at its opening, the position reached and the count sent. -/
structure Session where
  asker    : Nat
  keys     : List Nat
  position : Nat
  sent     : Nat
deriving DecidableEq, Repr

/-- Phases of REJOINING (TABLE 9-5); `ending` is the write of "ended" after LISTENING (R153). -/
inductive RejoinPhase
  | asking
  | receiving (deadline : Nat) (recordCount : Nat)
  | listening
  | ending
deriving DecidableEq, Repr

/-! ### The compartment bus (section 7) -/

/-- A telegram offered for sending; its class follows from its kind and its sender is the recorder. -/
structure TxTelegram where
  receiver : Nat
  kind     : Kind
  payload  : List Byte
deriving DecidableEq, Repr

/-- The originating block of a queued telegram, with what its outcome needs (TABLE 7-4). -/
inductive Origin
  /-- BEACON, DOOR, DECLINE and REPLYs without a release certificate: no action on any outcome. -/
  | plain
  | hold
  | offer (id : Nat)
  | accept (id : Nat)
  | certificate (id : Nat)
  /-- `staying`: the record has not left the table since the put was queued (R139). -/
  | mirrorPut (id : Nat) (staying : Bool)
  | mirrorDrop (id : Nat)
  | restoreAsk
  /-- `current`: the session that queued it has not ended. -/
  | session (asker : Nat) (last : Bool) (current : Bool)
deriving DecidableEq, Repr

/-- A place of the transmit queue. -/
structure TxEntry where
  telegram : TxTelegram
  origin   : Origin
  sending  : Bool
  /-- An ACCEPT whose remaining check bits are sent inverted (R122). -/
  spoiled  : Bool
deriving DecidableEq, Repr

/-- A telegram in the receive buffer. -/
structure RxTelegram where
  cls      : Nat
  sender   : Nat
  receiver : Nat
  kind     : Kind
  payload  : List Byte
deriving DecidableEq, Repr

/-- The line as the recorder sees it; `ignoring`: until the next idle bus (R109, R110). -/
inductive Line
  | idle | busy | ignoring
deriving DecidableEq, Repr

/-- The six bus counters (R124). -/
structure Counters where
  sent              : Nat
  notAcked          : Nat
  lineErrors        : Nat
  arbitrationLosses : Nat
  overruns          : Nat
  replacedBeacons   : Nat
deriving DecidableEq, Repr

def Counters.zero : Counters := ⟨0, 0, 0, 0, 0, 0⟩

/-- The state of the Bus Interface (TABLE 7-1). -/
structure Bus where
  line       : Line
  queue      : List TxEntry
  beaconHold : Option TxTelegram
  rx         : List RxTelegram
  counters   : Counters
deriving DecidableEq, Repr

/-- The Bus Interface after a restart: everything empty, the receiver waiting for an idle bus (R109, R123). -/
def Bus.restarted : Bus := ⟨.ignoring, [], none, [], .zero⟩

/-! ### The machine -/

/-- The backup domain (1.3). -/
structure Domain where
  clock             : Nat
  /-- The clock counts: from a completed TRIP-START to a completed TRIP-END (R39). -/
  counting          : Bool
  custody           : List Holding
  mirror            : List MirrorRecord
  drops             : List Nat
  discardedDrops    : Nat
  filters           : Four Filter
  tracker           : Tracker
  restartCount      : Nat
  tripId            : Option Nat
  custodyLost       : Bool
  restoreIncomplete : Bool
deriving DecidableEq, Repr

/-- A cleared backup domain, with a tracker for a given compartment door map. -/
def Domain.cleared (doorMap : List Nat) : Domain where
  clock := 0
  counting := false
  custody := []
  mirror := []
  drops := []
  discardedDrops := 0
  filters := Four.all Filter.cleared
  tracker := Tracker.cleared doorMap
  restartCount := 0
  tripId := none
  custodyLost := false
  restoreIncomplete := false

/-- The whole recorder. -/
structure State where
  /-- Commands waiting, the first to be taken first. -/
  pending     : List Instr
  /-- The core runs (it is stopped between a CORE_STOP and the next START). -/
  running     : Bool
  /-- What stopped the core last. -/
  stopCause   : StopCause
  /-- The backup cell has fallen below its retention level since the domain was last tested. -/
  cellFell    : Bool
  /-- The supply in millivolts, as last reported. -/
  supplyMv    : Nat
  /-- The bus address read from the straps; 0 is "none". -/
  address     : Nat
  mode        : Mode
  /-- The phase of REJOINING; meaningful in that mode only. -/
  rejoin      : RejoinPhase
  resetCause  : ResetCause
  staged      : Setup
  store       : Store
  storeWrite  : Option StoreWrite
  domain      : Domain
  channels    : Four Channel
  /-- The trip second of the next epoch expiry (R43, TABLE 3-6). -/
  nextExpiry  : Nat
  lastSummary : Option Summary
  inputs      : Four DoorInput
  offers      : List Offer
  roster      : List RosterEntry
  sessions    : List Session
  bus         : Bus
  /-- The MODEL's own counter of free values used (log entries 2, 3 and 6). -/
  freeCount   : Nat
deriving DecidableEq, Repr

/-- Faults. The manual names nothing that stops the recorder, so the type has no constructor: no meaning can end
in a fault (safe). -/
inductive Fault
deriving DecidableEq, Repr

/-- Refusals. -/
inductive Refusal
  /-- Raised by `exec` for a command that has no meaning yet (safe); no arm of this model raises it. -/
  | notModelled (mnemonic : String)
deriving DecidableEq, Repr

/-- A new part with its core held stopped by the reset input: Setup Store NONE, no trip id, a valid check code
(section 11); the backup domain has not been powered throughout. Values the manual gives no reset for are log
entry 1's. -/
def State.reset : State where
  pending := []
  running := false
  stopCause := .resetPin
  cellFell := true
  supplyMv := 0
  address := 0
  mode := .unstrapped
  rejoin := .listening
  resetCause := .supplyCold
  staged := Setup.default
  store := ⟨Setup.default, none, .none, true⟩
  storeWrite := none
  domain := Domain.cleared []
  channels := Four.all Channel.stopped
  nextExpiry := 0
  lastSummary := none
  inputs := Four.all ⟨.high, false, none, 0, false⟩
  offers := []
  roster := clearedRoster
  sessions := []
  bus := Bus.restarted
  freeCount := 0

end Sys2Proof.Machine
end

