-- ==== Sys2Proof/Machine/Flags.lean ====
section
/-!
DEFINITION. Codes of TABLE 7-6, TABLE 7-8 and TABLE 7-11, mode tests that several rules share, and the alert
reasons with the ALERT output (section 10.4).
-/
namespace Sys2Proof.Machine

/-! ### Codes -/

/-- TABLE 7-6. -/
def Kind.code : Kind → Nat
  | .configSet => 1
  | .tripStart => 2
  | .tripEnd => 3
  | .load => 4
  | .move => 5
  | .release => 6
  | .queryStation => 7
  | .queryRecord => 8
  | .list => 9
  | .discardMirror => 10
  | .reply => 16
  | .beacon => 32
  | .door => 33
  | .hold => 34
  | .offer => 40
  | .accept => 41
  | .decline => 42
  | .mirrorPut => 48
  | .mirrorDrop => 49
  | .restoreAsk => 56
  | .restoreBegin => 57
  | .restoreRecord => 58
  | .restoreEnd => 59

/-- Every kind, in the order of TABLE 7-6. -/
def allKinds : List Kind :=
  [.configSet, .tripStart, .tripEnd, .load, .move, .release, .queryStation, .queryRecord, .list, .discardMirror,
   .reply, .beacon, .door, .hold, .offer, .accept, .decline, .mirrorPut, .mirrorDrop, .restoreAsk, .restoreBegin,
   .restoreRecord, .restoreEnd]

/-- The kind a code names; `none` for a code that TABLE 7-6 does not list. -/
def Kind.ofCode (n : Nat) : Option Kind := allKinds.find? (·.code == n)

/-- The ten console kinds (TABLE 0-7). -/
def Kind.isConsole : Kind → Bool
  | .configSet | .tripStart | .tripEnd | .load | .move | .release | .queryStation | .queryRecord | .list
  | .discardMirror => true
  | _ => false

/-- The priority class of a recorder telegram (R118). -/
def Kind.cls : Kind → Nat
  | .door | .hold => 0
  | .offer | .accept | .decline => 1
  | .beacon => 3
  | _ => 2

/-- TABLE 7-11, result codes. -/
def Result.code : Result → Nat
  | .ok => 0
  | .moveDone => 1
  | .notIdle => 2
  | .notActive => 3
  | .busy => 4
  | .tableFull => 5
  | .duplicate => 6
  | .unknownId => 7
  | .unknownClass => 8
  | .targetAbsent => 9
  | .targetAmbiguous => 10
  | .sameCompartment => 11
  | .moveFailed => 12
  | .setupInvalid => 13
  | .setupWriteFailed => 14
  | .notEmpty => 15
  | .badRequest => 16

/-- TABLE 7-11, sub-reasons of MOVE_FAILED. -/
def subUndelivered : Nat := 1
def subNoAnswer : Nat := 2
def subDeclined : Nat := 3

/-- TABLE 7-11, decline reasons. -/
def declineNotActive : Nat := 1
def declineCompartmentMismatch : Nat := 2
def declineDuplicate : Nat := 3
def declineTableFull : Nat := 4

/-- TABLE 7-11, modes. -/
def Mode.code : Mode → Nat
  | .unstrapped => 0
  | .idle => 1
  | .starting => 2
  | .active => 3
  | .holdPending => 4
  | .hold => 5
  | .rejoining => 6
  | .ending => 7

/-- TABLE 7-11, reset causes. -/
def ResetCause.code : ResetCause → Nat
  | .supplyWarm => 1
  | .resetPin => 2
  | .supplyCold => 3
  | .retentionFault => 4

/-- A reset cause code of a cold start: SUPPLY_COLD or RETENTION_FAULT (R133). -/
def isColdCode (n : Nat) : Bool := n == 3 || n == 4

/-- Verdict codes (TABLE 7-8), which also give the order of R5. -/
def Verdict.rank : Verdict → Nat
  | .intact => 0
  | .excursion => 1
  | .unproven => 2
  | .breached _ _ => 3

/-- Breach cause codes (TABLE 7-8). -/
def BreachCause.code : BreachCause → Nat
  | .warmCeiling => 0
  | .coldFloor => 1
  | .warmBudget => 2
  | .coldBudget => 3

def BreachCause.ofCode : Nat → BreachCause
  | 0 => .warmCeiling
  | 1 => .coldFloor
  | 2 => .warmBudget
  | _ => .coldBudget

/-- The interim mark: a record state's code (TABLE 10-1). -/
def RecordState.mark : RecordState → Nat
  | .arriving _ _ => 1
  | .held => 2
  | .offered => 3
  | .releasing => 4

/-- QUERY-STATION codes (section 10.3). -/
def ChannelState.code : ChannelState → Nat
  | .off => 0
  | .arming => 1
  | .measuring => 2

def Status.code : Status → Nat
  | .valid _ => 1
  | .clampedLow => 2
  | .clampedHigh => 3
  | .faultPeriod => 4
  | .faultStuck _ => 5
  | .faultLowDuty => 6
  | .faultHighDuty => 7

def RosterState.code : RosterState → Nat
  | .unheard => 0
  | .live => 1
  | .holding => 2
  | .silent => 3

def DoorState.code : DoorState → Nat
  | .closed => 0
  | .opened => 1

def levelCode : LineLevel → Nat
  | .low => 0
  | .high => 1

/-! ### Short names for what rules read -/

/-- The committed setup. -/
def State.committed (s : State) : Setup := s.store.setup

/-- The running trip's id, or 0 when the Setup Store holds none (R161). -/
def State.tripNumber (s : State) : Nat := s.store.tripId.getD 0

/-- The recorder's own compartment. -/
def State.compartment (s : State) : Nat := s.committed.compartment.getD 0

/-- A recorder has a temperature value in a VALID or CLAMPED reading (TABLE 2-4). -/
def Status.value? : Status → Option Temperature
  | .valid v => some v
  | .clampedLow => some Config.tempMin
  | .clampedHigh => some Config.tempMax
  | _ => none

/-- Modes in which an epoch or window expiry is raised (R42, R66). -/
def Mode.runsEpochs : Mode → Bool
  | .active | .holdPending | .hold | .ending => true
  | _ => false

/-- Modes in which BEACON, DOOR and HOLD telegrams have their use (R63, R127, R131). -/
def Mode.takesPeers : Mode → Bool
  | .active | .holdPending | .ending => true
  | _ => false

/-- The transmitter and receiver are on: the core runs, in any mode but HOLD and UNSTRAPPED (R113, R122, R164). -/
def State.busOn (s : State) : Bool :=
  s.running && !(s.mode == .hold) && !(s.mode == .unstrapped)

/-- The epoch in progress (R41). -/
def State.currentSequence (s : State) : Nat := s.domain.clock / s.committed.epoch

/-- The last completed sequence, absent in the trip's first epoch (R41). -/
def State.lastSequence (s : State) : Option Nat :=
  if s.domain.clock < s.committed.epoch then none else some (s.currentSequence - 1)

/-- The roster entry of an address. -/
def State.peer? (s : State) (address : Nat) : Option RosterEntry :=
  s.roster.find? (·.address == address)

/-! ### Alert reasons (R162) and the ALERT output (R163) -/

/-- Reason 0: a HELD record is BREACHED or UNPROVEN. -/
def State.alertRecord (s : State) : Bool :=
  s.domain.custody.any fun h => h.state == .held && decide (2 ≤ h.record.verdict.rank)

/-- Reason 1: an enabled counted probe was not used at the last expiry. -/
def State.alertProbe (s : State) : Bool :=
  match s.lastSummary with
  | none => false
  | some m =>
    [0, 1, 2, 3].any fun i =>
      (s.committed.probes.get i).enabled && (s.committed.probes.get i).counted && !(m.used.get i)

/-- Reason 2: the configured buddy's entry is SILENT (R135). -/
def State.alertBuddy (s : State) : Bool :=
  match s.committed.buddy with
  | none => false
  | some b => s.roster.any fun e => e.address == b && e.state == .silent

/-- Reason 3: the custody-lost flag is set. -/
def State.alertCustodyLost (s : State) : Bool := s.domain.custodyLost

def bit (b : Bool) (weight : Nat) : Nat := if b then weight else 0

/-- The alert reasons as BEACON and QUERY-STATION carry them (TABLE 7-7). -/
def State.alertReasons (s : State) : Nat :=
  bit s.alertRecord 1 + bit s.alertProbe 2 + bit s.alertBuddy 4 + bit s.alertCustodyLost 8

/-- The ALERT pin is driven low (R163). -/
def State.alertDriven (s : State) : Bool :=
  s.running && (s.mode.runsEpochs || s.mode == .rejoining) && decide (0 < s.alertReasons)

end Sys2Proof.Machine
end

