-- ==== Sys2Proof/Machine/Operands.lean ====
section
/-!
DEFINITION. The telegrams as bits and bytes: the check code and the bits of a telegram on the line (R110), the number
encodings of R125, the record, leg and beacon layouts (TABLE 7-7 to TABLE 7-9), the record check (R116), and the
clamps and forms of the CONFIG-SET items (TABLE 11-2, R165).
-/
namespace Sys2Proof.Machine

/-! ### Bits of a telegram and its check (R110) -/

/-- The low `n` bits of a number, most significant first. -/
def bitsOf : Nat → Nat → List Bool
  | 0, _ => []
  | n + 1, v => v.testBit n :: bitsOf n v

/-- One bit through the CRC of polynomial x^16 + x^12 + x^5 + 1. -/
def crcStep (c : BitVec 16) (b : Bool) : BitVec 16 :=
  if c.msb != b then (c <<< 1) ^^^ 0x1021#16 else c <<< 1

/-- The check over a sequence of bits: seed 0xFFFF, no final inversion. -/
def crc16 (bits : List Bool) : BitVec 16 := bits.foldl crcStep 0xFFFF#16

/-- Fields 2 to 7 of TABLE 7-2, in the order they are sent. -/
def fieldBits (cls sender receiver kind : Nat) (payload : List Byte) : List Bool :=
  bitsOf 2 cls ++ bitsOf 5 sender ++ bitsOf 5 receiver ++ bitsOf 6 kind ++ bitsOf 8 payload.length ++
    payload.flatMap fun b => bitsOf 8 b.toNat

/-- The check a receiver computes over a sampled telegram. -/
def frameCheck (f : Frame) : BitVec 16 :=
  crc16 (fieldBits f.cls.toNat f.sender.toNat f.receiver.toNat f.kind.toNat f.payload)

/-- The telegram as a recorder at `address` sends it. -/
def TxTelegram.frame (address : Nat) (t : TxTelegram) : Frame where
  cls := BitVec.ofNat 2 t.kind.cls
  sender := BitVec.ofNat 5 address
  receiver := BitVec.ofNat 5 t.receiver
  kind := BitVec.ofNat 6 t.kind.code
  payload := t.payload
  check := crc16 (fieldBits t.kind.cls address t.receiver t.kind.code t.payload)

/-- The arbitration field as a number: class times 32 plus sender (7.2). -/
def arbitrationField (cls sender : Nat) : Nat := cls * 32 + sender

/-! ### Numbers in a payload (R125) -/

/-- A number in `n` bytes, most significant byte first. -/
def beBytes : Nat → Nat → List Byte
  | 0, _ => []
  | n + 1, v => BitVec.ofNat 8 (v / 256 ^ n) :: beBytes n v

/-- The number that bytes spell, most significant byte first. -/
def beNat (bs : List Byte) : Nat := bs.foldl (fun a b => a * 256 + b.toNat) 0

/-- The number in `len` bytes from byte `off` of a payload. -/
def field (p : List Byte) (off len : Nat) : Nat := beNat ((p.drop off).take len)

/-- A temperature in two bytes of two's complement. -/
def tempBytes (t : Temperature) : List Byte := beBytes 2 (t % 65536).toNat

/-- The temperature that a two-byte number stands for. -/
def tempOf (n : Nat) : Temperature := if n < 32768 then (n : Int) else (n : Int) - 65536

/-- The temperature in two bytes from byte `off`. -/
def tempField (p : List Byte) (off : Nat) : Temperature := tempOf (field p off 2)

/-- An absent optional temperature is sent as 0. -/
def optTempBytes (t : Option Temperature) : List Byte := tempBytes (t.getD 0)

/-- A present optional field, as its presence mark says. -/
def present {α : Type} (mark : Bool) (x : α) : Option α := if mark then some x else none

/-- A sequence of 4,294,967,295 stands for "none completed". -/
def seqBytes (q : Option Nat) : List Byte := beBytes 4 (q.getD Config.max32)

def seqOf (n : Nat) : Option Nat := if n = Config.max32 then none else some n

/-! ### The record as carried (TABLE 7-8, TABLE 7-9) -/

def legBytes (l : Leg) : List Byte :=
  beBytes 1 l.compartment ++ beBytes 1 l.station ++ beBytes 1 (bit l.exit.isSome 2 + bit l.restored 1) ++
    beBytes 4 l.entry ++ beBytes 4 (l.exit.getD 0)

/-- The leg in the place that starts at byte `off`. -/
def legAt (p : List Byte) (off : Nat) : Leg where
  compartment := field p off 1
  station := field p (off + 1) 1
  exit := present ((field p (off + 2) 1).testBit 1) (field p (off + 7) 4)
  restored := (field p (off + 2) 1).testBit 0
  entry := field p (off + 3) 4

def Verdict.causeCode : Verdict → Nat
  | .breached c _ => c.code
  | _ => 0

def Verdict.time : Verdict → Nat
  | .breached _ t => t
  | _ => 0

def verdictOf (code cause time : Nat) : Verdict :=
  match code with
  | 0 => .intact
  | 1 => .excursion
  | 2 => .unproven
  | _ => .breached (.ofCode cause) time

def recordMarks (r : Record) : Nat :=
  bit r.carriedIn 128 + bit r.restored 64 + bit r.unmirrored 32 + bit r.limits.ceiling.isSome 16 +
    bit r.limits.cold.isSome 8 + bit r.limits.floor.isSome 4 + bit r.peaks.isSome 2

/-- A record in 126 bytes. -/
def recordBytes (r : Record) : List Byte :=
  beBytes 6 r.id ++
  beBytes 1 (r.classIndex * 32 + r.verdict.rank * 8 + r.verdict.causeCode * 2) ++
  beBytes 1 (recordMarks r) ++
  beBytes 4 r.loadedTime ++
  tempBytes r.limits.tmax ++
  optTempBytes r.limits.ceiling ++
  optTempBytes (r.limits.cold.map (·.tmin)) ++
  optTempBytes r.limits.floor ++
  beBytes 4 r.limits.warmBudget ++
  beBytes 4 ((r.limits.cold.map (·.budget)).getD 0) ++
  beBytes 4 r.limits.gapAllowance ++
  beBytes 4 r.warm ++ beBytes 4 r.cold ++ beBytes 4 r.door ++ beBytes 4 r.gap ++
  optTempBytes (r.peaks.map (·.warm)) ++
  optTempBytes (r.peaks.map (·.cold)) ++
  beBytes 4 r.verdict.time ++
  beBytes 2 r.openings ++
  beBytes 1 r.elided ++
  beBytes 1 r.legs.length ++
  r.legs.flatMap legBytes ++ List.replicate (66 - 11 * r.legs.length) 0

/-- The record in the 126 bytes that start at byte `off` of a payload. -/
def recordAt (p : List Byte) (off : Nat) : Record :=
  let b6 := field p (off + 6) 1
  let b7 := field p (off + 7) 1
  { id := field p off 6
    classIndex := b6 / 32
    loadedTime := field p (off + 8) 4
    limits :=
      { tmax := tempField p (off + 12)
        ceiling := present (b7.testBit 4) (tempField p (off + 14))
        cold := present (b7.testBit 3) ⟨tempField p (off + 16), field p (off + 24) 4⟩
        floor := present (b7.testBit 2) (tempField p (off + 18))
        warmBudget := field p (off + 20) 4
        gapAllowance := field p (off + 28) 4 }
    warm := field p (off + 32) 4
    cold := field p (off + 36) 4
    door := field p (off + 40) 4
    gap := field p (off + 44) 4
    peaks := present (b7.testBit 1) ⟨tempField p (off + 48), tempField p (off + 50)⟩
    verdict := verdictOf (b6 / 8 % 4) (b6 / 2 % 4) (field p (off + 52) 4)
    openings := field p (off + 56) 2
    elided := field p (off + 58) 1
    legs := (List.range (field p (off + 59) 1)).map fun i => legAt p (off + 60 + 11 * i)
    carriedIn := b7.testBit 7
    restored := b7.testBit 6
    unmirrored := b7.testBit 5 }

/-- A temperature within −500 to +700 (1.5.1). -/
def tempInRange (t : Temperature) : Bool := decide (Config.tempMin ≤ t) && decide (t ≤ Config.tempMax)

/-- Every temperature of an option lies in the range. -/
def optTempInRange (t : Option Temperature) : Bool := t.all tempInRange

/-- Limits whose temperatures lie in the range. -/
def limitsInRange (l : Limits) : Bool :=
  tempInRange l.tmax && optTempInRange l.ceiling && optTempInRange (l.cold.map (·.tmin)) && optTempInRange l.floor

/-- Every temperature of a record lies in the range. -/
def recordTempsInRange (r : Record) : Bool :=
  limitsInRange r.limits && optTempInRange (r.peaks.map (·.warm)) && optTempInRange (r.peaks.map (·.cold))

/-- Between 1 and 6 legs, each naming a compartment and a station of 1 to 15, the last one open and no other (R9,
R116). -/
def legsWf (ls : List Leg) : Bool :=
  decide (1 ≤ ls.length) && decide (ls.length ≤ Config.maxLegs) &&
  ls.all (fun l => decide (1 ≤ l.compartment) && decide (l.compartment ≤ 15) &&
    decide (1 ≤ l.station) && decide (l.station ≤ 15)) &&
  ls.dropLast.all (fun l => l.exit.isSome) &&
  (ls.getLast?.all fun l => l.exit.isNone)

/-- The record check of R116. -/
def recordCheck (r : Record) : Bool :=
  decide (r.id ≠ 0) && legsWf r.legs && recordTempsInRange r

/-! ### The BEACON payload (TABLE 7-7) -/

/-- A door entry of a BEACON, or the content of a DOOR notice. -/
structure DoorReport where
  door  : Nat
  state : DoorState
  count : Nat
deriving DecidableEq, Repr

def doorReportBytes (d : DoorReport) : List Byte :=
  beBytes 1 d.door ++ beBytes 1 d.state.code ++ beBytes 2 d.count

/-- The door report in the four bytes from byte `off`, when its state byte is 0 or 1. -/
def doorReportAt (p : List Byte) (off : Nat) : Option DoorReport :=
  match field p (off + 1) 1 with
  | 0 => some ⟨field p off 1, .closed, field p (off + 2) 2⟩
  | 1 => some ⟨field p off 1, .opened, field p (off + 2) 2⟩
  | _ => none

/-- What a BEACON carries. -/
structure Beacon where
  tripId       : Nat
  clock        : Nat
  compartment  : Nat
  epoch        : Nat
  sequence     : Nat
  temps        : Option Temps
  grace        : Bool
  used         : Four Bool
  mode         : Nat
  restartCount : Nat
  resetCause   : Nat
  custodyCount : Nat
  alerts       : Nat
  doors        : List DoorReport
deriving DecidableEq, Repr

def usedMarks (u : Four Bool) : Nat := bit u.n1 1 + bit u.n2 2 + bit u.n3 4 + bit u.n4 8

def beaconBytes (b : Beacon) : List Byte :=
  beBytes 4 b.tripId ++ beBytes 4 b.clock ++ beBytes 1 b.compartment ++ beBytes 2 b.epoch ++ beBytes 4 b.sequence ++
  optTempBytes (b.temps.map (·.warm)) ++ optTempBytes (b.temps.map (·.cold)) ++
  beBytes 1 (bit b.temps.isSome 128 + bit b.grace 64 + usedMarks b.used) ++
  beBytes 1 b.mode ++ beBytes 1 b.restartCount ++ beBytes 1 b.resetCause ++ beBytes 1 b.custodyCount ++
  beBytes 1 b.alerts ++ beBytes 1 b.doors.length ++ b.doors.flatMap doorReportBytes

/-- All of a list of options, or none of them. -/
def allSome {α : Type} : List (Option α) → Option (List α)
  | [] => some []
  | none :: _ => none
  | some x :: xs => (allSome xs).map (x :: ·)

/-- The BEACON a payload carries, or `none` for one that R127 discards. -/
def beaconOf (p : List Byte) : Option Beacon :=
  let n := field p 25 1
  if p.length < 26 ∨ p.length ≠ 26 + 4 * n ∨ 4 < n then none else
  match allSome ((List.range n).map fun i => doorReportAt p (26 + 4 * i)) with
  | none => none
  | some doors =>
    let marks := field p 19 1
    let b : Beacon :=
      { tripId := field p 0 4
        clock := field p 4 4
        compartment := field p 8 1
        epoch := field p 9 2
        sequence := field p 11 4
        temps := present (marks.testBit 7) ⟨tempField p 15, tempField p 17⟩
        grace := marks.testBit 6
        used := ⟨marks.testBit 0, marks.testBit 1, marks.testBit 2, marks.testBit 3⟩
        mode := field p 20 1
        restartCount := field p 21 1
        resetCause := field p 22 1
        custodyCount := field p 23 1
        alerts := field p 24 1
        doors := doors }
    if b.compartment = 0 ∨ 15 < b.compartment then none
    else if b.epoch < 10 ∨ 600 < b.epoch then none
    else if b.temps.all (fun t => tempInRange t.warm && tempInRange t.cold && decide (t.cold ≤ t.warm)) then some b
    else none

/-! ### CONFIG-SET items (TABLE 11-2, R165) -/

def clampNat (lo hi n : Nat) : Nat := max lo (min hi n)

def clampTemp (t : Temperature) : Temperature := max Config.tempMin (min Config.tempMax t)

/-- A list with every later repeat left out. -/
def keepFirst : List Nat → List Nat
  | [] => []
  | x :: xs => x :: (keepFirst xs).filter (· ≠ x)

/-- The payload length that an item code asks for, `none` for a code not in TABLE 11-2. -/
def configLength (p : List Byte) : Option Nat :=
  match field p 0 1 with
  | 1 => some 2
  | 2 => some 3
  | 3 => some 2
  | 4 => some 4
  | 5 => some 3
  | 6 => some (2 + field p 1 1)
  | 7 => some 3
  | 8 => some 2
  | 9 => some 23
  | _ => none

/-- The payload is one item code with a value of its length. -/
def configWellSized (p : List Byte) : Bool :=
  configLength p == some p.length

/-- The limits of a class as staged: every temperature clamped, absent fields left out. -/
def classOf (p : List Byte) : ClassSetup :=
  let marks := field p 2 1
  { enabled := marks.testBit 0
    limits :=
      { tmax := clampTemp (tempField p 3)
        warmBudget := field p 5 4
        ceiling := present (marks.testBit 1) (clampTemp (tempField p 9))
        cold := present (marks.testBit 2) ⟨clampTemp (tempField p 11), field p 13 4⟩
        floor := present (marks.testBit 3) (clampTemp (tempField p 17))
        gapAllowance := field p 19 4 } }

def classMarks (c : ClassSetup) : Nat :=
  bit c.enabled 1 + bit c.limits.ceiling.isSome 2 + bit c.limits.cold.isSome 4 + bit c.limits.floor.isSome 8

/-- A class item's value as stored. -/
def classBytes (index : Nat) (c : ClassSetup) : List Byte :=
  beBytes 1 index ++ beBytes 1 (classMarks c) ++ tempBytes c.limits.tmax ++ beBytes 4 c.limits.warmBudget ++
  optTempBytes c.limits.ceiling ++ optTempBytes (c.limits.cold.map (·.tmin)) ++
  beBytes 4 ((c.limits.cold.map (·.budget)).getD 0) ++ optTempBytes c.limits.floor ++
  beBytes 4 c.limits.gapAllowance

/-- A probe or input number of 1 to 4 as an index. -/
def index4 (n : Nat) : Option (Fin 4) :=
  match n with
  | 1 => some 0
  | 2 => some 1
  | 3 => some 2
  | 4 => some 3
  | _ => none

/-- Stage one item of a well-sized CONFIG-SET: the new staged setup and the value as stored, or `none` when a
selector lies outside its range or a door map's count is above 8. -/
def stageItem (u : Setup) (p : List Byte) : Option (Setup × List Byte) :=
  match field p 0 1 with
  | 1 =>
    let c := clampNat 1 15 (field p 1 1)
    some ({ u with compartment := some c }, beBytes 1 c)
  | 2 =>
    let e := clampNat 10 600 (field p 1 2)
    some ({ u with epoch := e }, beBytes 2 e)
  | 3 =>
    let n := clampNat 0 7 (field p 1 1)
    some ({ u with prescale := n }, beBytes 1 n)
  | 4 =>
    match index4 (field p 1 1) with
    | none => none
    | some i =>
      let marks := field p 2 1
      let x : ProbeSetup := ⟨marks.testBit 0, marks.testBit 1, clampNat 1 16 (field p 3 1)⟩
      some ({ u with probes := u.probes.set i x },
        beBytes 1 (field p 1 1) ++ beBytes 1 (bit x.enabled 1 + bit x.counted 2) ++ beBytes 1 x.k)
  | 5 =>
    match index4 (field p 1 1) with
    | none => none
    | some i =>
      let d := field p 2 1
      let x : Option Nat := if d = 255 then none else some (clampNat 0 15 d)
      some ({ u with localDoors := u.localDoors.set i x }, beBytes 1 (field p 1 1) ++ beBytes 1 (x.getD 255))
  | 6 =>
    if 8 < field p 1 1 then none
    else
      let m := keepFirst ((p.drop 2).map fun b => clampNat 0 15 b.toNat)
      some ({ u with doorMap := m }, beBytes 1 m.length ++ m.flatMap (beBytes 1))
  | 7 =>
    let g := clampNat 0 1800 (field p 1 2)
    some ({ u with grace := g }, beBytes 2 g)
  | 8 =>
    let b := clampNat 0 15 (field p 1 1)
    some ({ u with buddy := if b = 0 then none else some b }, beBytes 1 b)
  | 9 =>
    if 7 < field p 1 1 then none
    else
      let c := classOf p
      some ({ u with classes := u.classes.set (field p 1 1) c }, classBytes (field p 1 1) c)
  | _ => none

/-- The global door an input carries: of inputs mapped to one door, the lowest-numbered alone (R59). -/
def Setup.doorOf (u : Setup) (i : Fin 4) : Option Nat :=
  match u.localDoors.get i with
  | none => none
  | some d => if (u.localDoors.toList.take i.val).contains (some d) then none else some d

end Sys2Proof.Machine
end

