-- ==== Sys2Proof/Machine/Account.lean ====
section
/-!
DEFINITION. Work on one record: legs (R9), the candidate verdict (R83) and the running maximum (R84), the charge of
one account step (R74 to R82), and the steps of a held record and of a mirror record (R87, R142).
-/
namespace Sys2Proof.Machine

/-! ### Legs (R9) -/

/-- Write the exit time of the open leg, the last of the list. -/
def closeLast : List Leg → Nat → List Leg
  | [], _ => []
  | [l], t => [{ l with exit := some t }]
  | l :: ls, t => l :: closeLast ls t

/-- Leave out the second-oldest leg. -/
def dropSecond : List Leg → List Leg
  | l :: _ :: ls => l :: ls
  | ls => ls

/-- Add a leg to a record: the open leg is closed at `exitTime`; a list of six loses its second-oldest. -/
def addLeg (r : Record) (exitTime : Nat) (leg : Leg) : Record :=
  let closed := closeLast r.legs exitTime
  if Config.maxLegs ≤ closed.length then
    { r with legs := dropSecond closed ++ [leg], elided := satAdd Config.max8 r.elided 1 }
  else
    { r with legs := closed ++ [leg] }

/-! ### The verdict (R18, R83, R84) -/

/-- Warm account above its budget. -/
def warmOver (r : Record) : Bool := decide (r.limits.warmBudget < r.warm)

/-- Cold budget present and the cold account above it. -/
def coldOver (r : Record) : Bool := r.limits.cold.any fun c => decide (c.budget < r.cold)

/-- The candidate verdict of TABLE 5-3, with the causes in the order of TABLE 5-4. -/
def candidate (r : Record) (ceilingCrossed floorCrossed : Bool) (time : Nat) : Verdict :=
  if ceilingCrossed then .breached .warmCeiling time
  else if floorCrossed then .breached .coldFloor time
  else if warmOver r then .breached .warmBudget time
  else if coldOver r then .breached .coldBudget time
  else if r.limits.gapAllowance < r.gap then .unproven
  else if 0 < r.warm ∨ 0 < r.cold then .excursion
  else .intact

/-- The higher of two verdicts in the order of R5; a verdict already BREACHED stays as it is. -/
def Verdict.raise (old new : Verdict) : Verdict := if old.rank < new.rank then new else old

/-! ### One charge (R74 to R82) -/

/-- Temperature above or below a limit, in whole tenths, 0 when it is not beyond it. -/
def excess (above below : Temperature) : Nat := (above - below).toNat

/-- Peaks after a step with temperatures (R4, R81). -/
def peaksWith (p : Option Temps) (t : Temps) : Temps :=
  match p with
  | none => t
  | some q => ⟨max q.warm t.warm, min q.cold t.cold⟩

/-- Charge a record `secs` seconds (one or more) with a summary's temperatures and grace flag; a verdict that
becomes BREACHED does so at `time`. -/
def charge (r : Record) (temps : Option Temps) (grace : Bool) (secs time : Nat) : Record :=
  match temps with
  | none =>
    let r1 := { r with gap := satAdd Config.max32 r.gap secs }
    { r1 with verdict := r1.verdict.raise (candidate r1 false false time) }
  | some t =>
    let applied := min secs Config.appliedLimit
    let warmProduct := excess t.warm r.limits.tmax * applied
    let coldProduct := match r.limits.cold with
      | none => 0
      | some c => excess c.tmin t.cold * applied
    let r1 :=
      { r with
        warm := if grace then r.warm else satAdd Config.max32 r.warm warmProduct
        door := if grace then satAdd Config.max32 r.door warmProduct else r.door
        cold := satAdd Config.max32 r.cold coldProduct
        gap := satAdd Config.max32 r.gap (secs - applied)
        peaks := some (peaksWith r.peaks t) }
    let ceilingCrossed := r.limits.ceiling.any fun c => decide (c < t.warm)
    let floorCrossed := r.limits.floor.any fun f => decide (t.cold < f)
    { r1 with verdict := r1.verdict.raise (candidate r1 ceilingCrossed floorCrossed time) }

/-- The account step of a summary on a place of the Custody Table: HELD records only; 0 seconds change nothing
(R73, R74, R85). -/
def stepHolding (m : Summary) (h : Holding) : Holding :=
  match h.state with
  | .held =>
    let secs := m.time - h.accountedTo
    if secs = 0 then { h with accountedTo := m.time }
    else { h with record := charge h.record m.temps m.grace secs m.time, accountedTo := m.time }
  | _ => h

/-- The four-byte time written for the trip second `t`; one beyond the range of a trip clock has no value stated (log
entry 4). -/
def writtenTime (t : Nat) : Nat := if t ≤ Config.max32 then t else (Config.timeBeyondClock t).toNat

/-- The time written for the second at which epoch `n` of length `e` closes. -/
def epochEnd (n e : Nat) : Nat := writtenTime ((n + 1) * e)

/-- What a BEACON of sequence `b` does to a mirror record of its sender (R142): skipped sequences become gap, then
one account step of E seconds. -/
def stepMirror (b : Beacon) (m : MirrorRecord) : MirrorRecord :=
  let next := match m.seq with
    | none => 0
    | some q => q + 1
  if b.sequence < next then m
  else
    let r := { m.record with gap := satAdd Config.max32 m.record.gap ((b.sequence - next) * b.epoch) }
    { m with
      seq := some b.sequence
      record := charge r b.temps b.grace b.epoch (epochEnd b.sequence b.epoch) }

/-- Time charged as gap at a warm start to a HELD record (R20). -/
def chargeStop (clock : Nat) (h : Holding) : Holding :=
  match h.state with
  | .held =>
    { h with
      record := { h.record with gap := satAdd Config.max32 h.record.gap (clock - h.accountedTo) }
      accountedTo := clock }
  | _ => h

end Sys2Proof.Machine
end

