-- ==== Sys2Proof/Machine/Ops.lean ====
section
/-!
DEFINITION. Shared operations on the state: named updates, the transmit queue (R118 to R122), replies, the Custody
Table, the mirror path (R139, R144), open offers (R94), restore sessions (R148, R149), and what each originator does
with an outcome (TABLE 7-4).
-/
namespace Sys2Proof.Machine

/-! ### Named updates -/

def State.withCustody (s : State) (c : List Holding) : State := { s with domain := { s.domain with custody := c } }
def State.withMirror (s : State) (m : List MirrorRecord) : State := { s with domain := { s.domain with mirror := m } }
def State.withDrops (s : State) (d : List Nat) : State := { s with domain := { s.domain with drops := d } }
def State.withTracker (s : State) (t : Tracker) : State := { s with domain := { s.domain with tracker := t } }
def State.withQueue (s : State) (q : List TxEntry) : State := { s with bus := { s.bus with queue := q } }
def State.withRx (s : State) (r : List RxTelegram) : State := { s with bus := { s.bus with rx := r } }
def State.withCounters (s : State) (c : Counters) : State := { s with bus := { s.bus with counters := c } }
def State.withLine (s : State) (l : Line) : State := { s with bus := { s.bus with line := l } }
def State.withBeaconHold (s : State) (b : Option TxTelegram) : State := { s with bus := { s.bus with beaconHold := b } }
def State.withOffers (s : State) (o : List Offer) : State := { s with offers := o }
def State.withRoster (s : State) (r : List RosterEntry) : State := { s with roster := r }
def State.withSessions (s : State) (x : List Session) : State := { s with sessions := x }
def State.withMode (s : State) (m : Mode) : State := { s with mode := m }
def State.withRejoin (s : State) (p : RejoinPhase) : State := { s with rejoin := p }
def State.withFreeCount (s : State) (n : Nat) : State := { s with freeCount := n }

/-- Change the first element a test finds, or every one when only one passes. -/
def updateWhere {α : Type} (p : α → Bool) (f : α → α) (l : List α) : List α := l.map fun x => if p x then f x else x

/-! ### The transmit queue -/

/-- The class of a queued telegram (R118). -/
def TxEntry.cls (e : TxEntry) : Nat := e.telegram.kind.cls

/-- The lowest class number queued (4 for an empty queue). -/
def lowestClass (q : List TxEntry) : Nat := q.foldr (fun e m => min e.cls m) 4

/-- Mark the first entry of class `c` as in transmission. -/
def markFirst (c : Nat) : List TxEntry → List TxEntry
  | [] => []
  | e :: es => if e.cls == c then { e with sending := true } :: es else e :: markFirst c es

/-- The choice of R119: the lowest class number and, of that class, the telegram queued first. -/
def markNext (q : List TxEntry) : List TxEntry := markFirst (lowestClass q) q

/-- The telegram in transmission. -/
def State.sending? (s : State) : Option TxEntry := s.bus.queue.find? (·.sending)

/-- Begin the chosen telegram (R111). -/
def beginNext (s : State) : State :=
  (s.withQueue (markNext s.bus.queue)).withLine (if s.bus.queue.isEmpty then s.bus.line else .busy)

/-- A telegram offered to an empty queue while the bus is idle is begun at once (R119), unless another station's
start mark, which no command reports, has made the bus busy: log entry 3. -/
def beginAtOnce (s : State) : State :=
  if s.bus.line = .idle ∧ s.bus.queue.length = 1 then
    let s1 := s.withFreeCount (s.freeCount + 1)
    if Config.foreignStart s.freeCount then s1.withLine .busy else beginNext s1
  else s

/-- The queue takes telegrams in this mode (R118). -/
def Mode.queues : Mode → Bool
  | .hold | .unstrapped => false
  | _ => true

/-- Offer a telegram: answers the state and whether the queue took it. A refusal is QUEUE_FULL, or FLUSHED in HOLD
(R118, R121). -/
def send (s : State) (t : TxTelegram) (o : Origin) : State × Bool :=
  if s.mode.queues && decide (s.bus.queue.length < Config.queueSlots) then
    (beginAtOnce (s.withQueue (s.bus.queue ++ [⟨t, o, false, false⟩])), true)
  else (s, false)

/-- Offer a telegram whose refusal nothing acts on. -/
def sendPlain (s : State) (t : TxTelegram) : State := (send s t .plain).1

def Counters.addReplaced (c : Counters) : Counters :=
  { c with replacedBeacons := satAdd Config.max16 c.replacedBeacons 1 }

/-- Offer a BEACON (R120): it takes the place of a waiting one, waits in the beacon hold while one is in transmission,
and is queued as any telegram otherwise. -/
def sendBeacon (s : State) (t : TxTelegram) : State :=
  if s.bus.queue.any fun e => e.telegram.kind == .beacon && !e.sending then
    (s.withQueue (updateWhere (fun e => e.telegram.kind == .beacon && !e.sending)
      (fun e => { e with telegram := t }) s.bus.queue)).withCounters s.bus.counters.addReplaced
  else if s.bus.queue.any fun e => e.telegram.kind == .beacon then
    (s.withBeaconHold (some t)).withCounters
      (if s.bus.beaconHold.isSome then s.bus.counters.addReplaced else s.bus.counters)
  else sendPlain s t

/-- The queue when the telegram in transmission leaves it; a sent BEACON leaves its place to the held one (R120). -/
def dropSending (held : Option TxTelegram) : List TxEntry → List TxEntry
  | [] => []
  | e :: es =>
    if e.sending then
      if e.telegram.kind == .beacon then
        match held with
        | some t => ⟨t, .plain, false, false⟩ :: es
        | none => es
      else es
    else e :: dropSending held es

/-- What an outcome adds to the counters (R124). -/
def Counters.count (c : Counters) : SendOutcome → Counters
  | .acked => { c with sent := satAdd Config.max16 c.sent 1 }
  | .notAcked =>
    { c with sent := satAdd Config.max16 c.sent 1, notAcked := satAdd Config.max16 c.notAcked 1 }
  | .lineError => { c with lineErrors := satAdd Config.max16 c.lineErrors 1 }
  | .queueFull => c
  | .flushed => c

/-- The telegram in transmission ends with an outcome and leaves the queue; the bus stays busy until it is next idle
(R109, R121). -/
def endSending (s : State) (e : TxEntry) (oc : SendOutcome) : State :=
  { s with
    bus :=
      { s.bus with
        line := .busy
        queue := dropSending s.bus.beaconHold s.bus.queue
        beaconHold := if e.telegram.kind = .beacon then none else s.bus.beaconHold
        counters := s.bus.counters.count oc } }

/-! ### Replies (R125) -/

def replyTelegram (receiver : Nat) (request : Kind) (r : Result) (sub decline : Nat) (body : List Byte) : TxTelegram :=
  ⟨receiver, .reply, beBytes 1 request.code ++ beBytes 1 r.code ++ beBytes 1 sub ++ beBytes 1 decline ++ body⟩

/-- Queue a REPLY to the sender of a request. -/
def answer (s : State) (t : RxTelegram) (r : Result) (body : List Byte) : State :=
  sendPlain s (replyTelegram t.sender t.kind r 0 0 body)

/-- Queue a REPLY MOVE_FAILED to the requester of an offer. -/
def answerMoveFailed (s : State) (o : Offer) (sub decline : Nat) : State :=
  sendPlain s (replyTelegram o.requester .move .moveFailed sub decline (beBytes 6 o.id))

/-- What a request that needs ACTIVE is answered in another mode (R16, R91, R156). -/
def Mode.refusal : Mode → Option Result
  | .active => none
  | .starting => some .busy
  | _ => some .notActive

/-! ### Taking a telegram from the receive buffer (R117) -/

/-- Take the oldest telegram when it is of kind `k`, and deal with it; otherwise the command is not one that can
arise now, and nothing happens. -/
def taking (k : Kind) (s : State) (deal : RxTelegram → State → State) : State :=
  match s.bus.rx with
  | [] => s
  | t :: rest => if s.running && t.kind == k then deal t (s.withRx rest) else s

/-! ### The Custody Table -/

def State.find (s : State) (id : Nat) : Option Holding := s.domain.custody.find? (·.record.id == id)

/-- Change the record of an id. -/
def State.updateHolding (s : State) (id : Nat) (f : Holding → Holding) : State :=
  s.withCustody (updateWhere (·.record.id == id) f s.domain.custody)

def Holding.setState (st : RecordState) (h : Holding) : Holding := { h with state := st }

/-- Puts of these ids in the queue are of a stay that has ended (R139). -/
def markLeft (ids : List Nat) (e : TxEntry) : TxEntry :=
  match e.origin with
  | .mirrorPut id _ => if ids.contains id then { e with origin := .mirrorPut id false } else e
  | _ => e

/-- Remove records from the table; those after them close up (R14). -/
def State.removeWhere (s : State) (p : Holding → Bool) : State :=
  (s.withCustody (s.domain.custody.filter fun h => !p h)).withQueue
    (s.bus.queue.map (markLeft ((s.domain.custody.filter p).map (·.record.id))))

def State.remove (s : State) (id : Nat) : State := s.removeWhere (·.record.id == id)

def RecordState.isArriving : RecordState → Bool
  | .arriving _ _ => true
  | _ => false

/-- Append a record after all present, and withdraw its id from the Drop List (R14, R144). -/
def State.admitHeld (s : State) (h : Holding) : State :=
  (s.withCustody (s.domain.custody ++ [h])).withDrops (s.domain.drops.filter (· ≠ h.record.id))

/-- Every record is marked UNMIRRORED (R19, R133). -/
def State.unmirrorAll (s : State) : State :=
  s.withCustody (s.domain.custody.map fun h => { h with record := { h.record with unmirrored := true } })

/-! ### The mirror path (R139, R144) -/

/-- Queue a MIRROR-PUT of a record to the buddy; nothing without a buddy (R137). -/
def putToBuddy (s : State) (r : Record) : State :=
  match s.committed.buddy with
  | none => s
  | some b => (send s ⟨b, .mirrorPut, seqBytes s.lastSequence ++ recordBytes r⟩ (.mirrorPut r.id true)).1

/-- Place an id in the Drop List; a full list loses its oldest. -/
def placeDrop (s : State) (id : Nat) : State :=
  if s.domain.drops.contains id then s
  else if Config.dropSlots ≤ s.domain.drops.length then
    { s with
      domain :=
        { s.domain with
          drops := s.domain.drops.tail ++ [id]
          discardedDrops := satAdd Config.max16 s.domain.discardedDrops 1 } }
  else s.withDrops (s.domain.drops ++ [id])

/-- Queue a MIRROR-DROP to the buddy. -/
def queueDrop (s : State) (buddy id : Nat) : State :=
  (send s ⟨buddy, .mirrorDrop, beBytes 6 id⟩ (.mirrorDrop id)).1

/-- Custody of a record has ended: its drop is listed and sent, when a buddy is configured. -/
def dropAtBuddy (s : State) (id : Nat) : State :=
  match s.committed.buddy with
  | none => s
  | some b => queueDrop (placeDrop s id) b id

/-! ### Certificates (R155) -/

def certificateBytes (s : State) (h : Holding) (mark : Nat) : List Byte :=
  recordBytes h.record ++ beBytes 4 h.accountedTo ++ beBytes 4 (s.domain.clock - h.accountedTo) ++
    beBytes 4 s.tripNumber ++ beBytes 1 mark

/-! ### Open offers (R94) -/

/-- Close an offer otherwise than by completion: its slot empties and its record returns to HELD. -/
def closeOffer (s : State) (id : Nat) : State :=
  (s.withOffers (s.offers.filter (·.id ≠ id))).withCustody
    (updateWhere (fun h => h.record.id == id && h.state == .offered) (Holding.setState .held) s.domain.custody)

/-- Close every offer, with no REPLY (R105). -/
def closeAllOffers (s : State) : State :=
  (s.withOffers []).withCustody
    (updateWhere (fun h => h.state == .offered) (Holding.setState .held) s.domain.custody)

/-- What the Handover Controller does with the outcome of an OFFER (R95). -/
def offerResolved (s : State) (id : Nat) (oc : SendOutcome) : State :=
  match s.offers.find? fun o => o.id == id && o.phase == .sending with
  | none => s
  | some o =>
    if oc = .acked then
      s.withOffers (updateWhere (·.id == id)
        (fun x => { x with phase := .awaiting (s.domain.clock + Config.answerSeconds) }) s.offers)
    else answerMoveFailed (closeOffer s id) o subUndelivered 0

/-- A record HELD here by an acknowledged ACCEPT: the sender's leg closed at receipt, an own leg added (R99). -/
def acceptedRecord (s : State) (r : Record) (receipt : Nat) : Record :=
  { addLeg r receipt ⟨s.compartment, s.address, s.domain.clock, none, false⟩ with unmirrored := true }

/-- What the Handover Controller does with the outcome of an ACCEPT (R99, R100). -/
def acceptResolved (s : State) (id : Nat) (oc : SendOutcome) : State :=
  match s.find id with
  | none => s
  | some h =>
    match h.state with
    | .arriving receipt _ =>
      if oc = .acked then
        let r := acceptedRecord s h.record receipt
        let s1 := s.updateHolding id fun x => { x with record := r, state := .held }
        putToBuddy (s1.withDrops (s1.domain.drops.filter (· ≠ id))) r
      else s.remove id
    | _ => s

/-- What the release path does with the outcome of a certificate REPLY (R158). The exit time of the open leg is
written on a record that leaves the table in the same step. -/
def certificateResolved (s : State) (id : Nat) (oc : SendOutcome) : State :=
  match s.find id with
  | none => s
  | some h =>
    if h.state = .releasing then
      if oc = .acked then
        dropAtBuddy ((s.updateHolding id fun x =>
          { x with record := { x.record with legs := closeLast x.record.legs s.domain.clock } }).remove id) id
      else s.updateHolding id (Holding.setState .held)
    else s

/-- The mirror path on the outcome of a MIRROR-PUT (R139). -/
def putResolved (s : State) (id : Nat) (staying : Bool) (oc : SendOutcome) : State :=
  if oc = .acked ∧ staying = true then
    s.updateHolding id fun h => { h with record := { h.record with unmirrored := false } }
  else s

/-- The mirror path on the outcome of a MIRROR-DROP (R145). -/
def dropResolved (s : State) (id : Nat) (oc : SendOutcome) : State :=
  if oc = .acked then
    (s.withDrops (s.domain.drops.filter (· ≠ id))).updateHolding id fun h =>
      { h with record := { h.record with unmirrored := true } }
  else s

/-- The outcome of a RESTORE-ASK (R150). -/
def askResolved (s : State) (oc : SendOutcome) : State :=
  if s.mode = .rejoining ∧ s.rejoin = .asking ∧ oc ≠ .acked then s.withRejoin .listening else s

/-! ### Restore sessions (R148, R149) -/

def endSession (s : State) (asker : Nat) : State := s.withSessions (s.sessions.filter (·.asker ≠ asker))

/-- Telegrams of an asker's ended session, or of every session's, no longer belong to a session. -/
def markEnded (p : Nat → Bool) (e : TxEntry) : TxEntry :=
  match e.origin with
  | .session a last _ => if p a then { e with origin := .session a last false } else e
  | _ => e

def endAllSessions (s : State) : State :=
  (s.withSessions []).withQueue (s.bus.queue.map (markEnded fun _ => true))

/-- The keys of a session not yet reached, from the first whose mirror record is still present; one removed and put anew
since the session opened counts as present (log entry 42). -/
def restKeys (s : State) (x : Session) : List Nat :=
  (x.keys.drop x.position).dropWhile fun id =>
    !s.domain.mirror.any fun m => m.owner == x.asker && m.record.id == id

/-- Queue the session's next telegram: a RESTORE-RECORD, or RESTORE-END when no key remains. A refused one ends the
session. -/
def sessionNext (s : State) (x : Session) : State :=
  match restKeys s x with
  | [] =>
    let (s1, taken) := send s ⟨x.asker, .restoreEnd, beBytes 1 x.sent⟩ (.session x.asker true true)
    let s2 := s1.withSessions (updateWhere (·.asker == x.asker)
      (fun y => { y with position := x.keys.length }) s1.sessions)
    if taken then s2 else endSession s2 x.asker
  | id :: rest =>
    match s.domain.mirror.find? fun m => m.owner == x.asker && m.record.id == id with
    | none => s
    | some m =>
      let (s1, taken) := send s ⟨x.asker, .restoreRecord, seqBytes m.seq ++ recordBytes m.record⟩
        (.session x.asker false true)
      let s2 := s1.withSessions (updateWhere (·.asker == x.asker)
        (fun y => { y with position := x.keys.length - rest.length, sent := x.sent + 1 }) s1.sessions)
      if taken then s2 else endSession s2 x.asker

/-- The outcome of a session's telegram (R149). -/
def sessionResolved (s : State) (asker : Nat) (last current : Bool) (oc : SendOutcome) : State :=
  if current then
    match s.sessions.find? (·.asker == asker) with
    | none => s
    | some x => if last = true ∨ oc ≠ .acked then endSession s asker else sessionNext s x
  else s

/-- What an originator other than the Mode Controller does with an outcome (TABLE 7-4). -/
def resolve (s : State) (o : Origin) (oc : SendOutcome) : State :=
  match o with
  | .plain => s
  | .hold => s
  | .offer id => offerResolved s id oc
  | .accept id => acceptResolved s id oc
  | .certificate id => certificateResolved s id oc
  | .mirrorPut id staying => putResolved s id staying oc
  | .mirrorDrop id => dropResolved s id oc
  | .restoreAsk => askResolved s oc
  | .session a last current => sessionResolved s a last current oc

end Sys2Proof.Machine
end

