-- ==== Sys2Proof/Machine/Capture.lean ====
section
/-!
DEFINITION. The capture channels (R22 to R33), the simulant filters (R44 to R47), the epoch summary (R48 to R50) and
the roster's records and deadlines (R129, R130) as far as several commands share them.
-/
namespace Sys2Proof.Machine

/-! ### Classifying a measurement (TABLE 2-5) -/

/-- The value of a VALID measurement (R32). -/
def conversion (period high : Nat) : Temperature :=
  (((3000 * high + period) / (2 * period) : Nat) : Int) - 650

/-- The first test that applies decides (R29 to R32). -/
def classify (period high : Nat) : Status :=
  if period < Config.minPeriod then .faultPeriod
  else if 20 * high < period then .faultLowDuty
  else if 19 * period < 20 * high then .faultHighDuty
  else if 10 * high < period then .clampedLow
  else if 9 * period < 10 * high then .clampedHigh
  else .valid (conversion period high)

/-- Complete a reading: it replaces the latest whole, with its fresh mark set (R28). -/
def Channel.complete (c : Channel) (st : Status) (clock : Nat) : Channel := { c with reading := some ⟨st, clock, true⟩ }

/-- An edge to `level` at the sample of counter value `n` is one: the sample comes after the channel's last event and
not after the run-out, and the sample before it was not of that level (R22, R25, R27). R22 does not say whether a channel
just started takes its first sample at counter 0 or at the first count: it is taken at counter 0, so an edge at count 1 is
one (DESIGN CHOICE, log entry 47). -/
def Channel.edgeAt (c : Channel) (n : Nat) (level : LineLevel) : Bool :=
  !(c.state == .off) && !(c.sample == some level) && decide (c.counter < n) && decide (n ≤ Config.runOutCounts)

/-- A rising edge at counter value `n` (R25, R26). At the sample of count 65,536 a channel in MEASURING runs out (R27, and
R29: no period is above 65,535 counts), so that edge is seen there as a sample only. -/
def Channel.rise (c : Channel) (n clock : Nat) : Channel :=
  if c.edgeAt n .high then
    match c.state with
    | .off => c
    | .arming => { c with state := .measuring, counter := 0, high := none, sample := some .high }
    | .measuring =>
      if n = Config.runOutCounts then { c with counter := n, sample := some .high }
      else
        match c.high with
        | none => c
        | some h =>
          { (c.complete (classify n h) clock) with
            counter := 0, high := none, sample := some .high, last := some ⟨n, h⟩ }
  else c

/-- A falling edge at counter value `n` (R26); in ARMING the line is only seen low. -/
def Channel.fall (c : Channel) (n : Nat) : Channel :=
  if c.edgeAt n .low then
    match c.state with
    | .off => c
    | .arming => { c with counter := n, sample := some .low }
    | .measuring => { c with counter := n, sample := some .low, high := some n }
  else c

/-- A run-out in ARMING (R25): FAULT_STUCK with the level of the sample at which the counter ran out. A HIGH sample there
after a LOW one is a rising edge, which arms the channel, and no run-out (log entry 44). -/
def Channel.runOutArming (c : Channel) (level : LineLevel) (clock : Nat) : Channel :=
  match c.state with
  | .arming =>
    if c.sample = some .low ∧ level = .high then c
    else { (c.complete (.faultStuck level) clock) with counter := 0, sample := some level }
  | _ => c

/-- A run-out in MEASURING (R27): FAULT_PERIOD, and the channel is back in ARMING. Its last sample stands: a change of the
line at the run-out's own sample was an edge of count 65,536 before it. Such a rising edge does not arm the channel (log
entry 44). -/
def Channel.runOutMeasuring (c : Channel) (clock : Nat) : Channel :=
  match c.state with
  | .measuring => { (c.complete .faultPeriod clock) with state := .arming, counter := 0, high := none }
  | _ => c

/-- Change one channel of a running core. -/
def State.updateChannel (s : State) (i : Fin 4) (f : Channel → Channel) : State :=
  if s.running then { s with channels := s.channels.set i (f (s.channels.get i)) } else s

/-- Start the channels of enabled probes (R24); the others stay OFF. -/
def startChannels (s : State) : State :=
  { s with
    channels := Four.build fun i => if (s.committed.probes.get i).enabled then Channel.started else Channel.stopped }

def stopChannels (s : State) : State := { s with channels := Four.all Channel.stopped }

/-! ### Filters (R45 to R47) -/

/-- A seeded filter's new value (R46): the truncated step, at least one tenth toward the reading. -/
def filterStep (k : Nat) (value reading : Temperature) : Temperature :=
  let delta := reading - value
  let step := Int.tdiv (delta * k) 16
  if step = 0 then value + delta.sign else value + step

/-- The value of a fresh usable reading (R33). -/
def Channel.freshValue? (c : Channel) : Option Temperature :=
  match c.reading with
  | some r => if r.fresh then r.status.value? else none
  | none => none

/-- What an epoch expiry does to a probe's filter (R44 to R47). -/
def Filter.take (p : ProbeSetup) (c : Channel) (f : Filter) : Filter :=
  if p.enabled then
    match c.freshValue? with
    | some t =>
      { value := if f.seeded then filterStep p.k f.value t else t, seeded := true, missed := f.missed, used := true }
    | none => { f with missed := satAdd Config.max16 f.missed 1, used := false }
  else f

/-- The channel after its reading was taken: the fresh mark is cleared (R33). -/
def Channel.taken (c : Channel) : Channel := { c with reading := c.reading.map fun r => { r with fresh := false } }

/-! ### The summary (R48 to R50) -/

/-- Values of the filters whose probes are counted and used. -/
def countedValues (u : Setup) (fs : Four Filter) : List Temperature :=
  ([0, 1, 2, 3] : List (Fin 4)).filterMap fun i =>
    if (u.probes.get i).counted && (fs.get i).used then some (fs.get i).value else none

/-- Rwarm and Rcold, absent when no counted probe was used. -/
def summaryTemps : List Temperature → Option Temps
  | [] => none
  | v :: vs => some ⟨vs.foldl max v, vs.foldl min v⟩

def TrackerPhase.isGrace : TrackerPhase → Bool
  | .grace _ => true
  | _ => false

/-- The summary of the epoch that the expiry at the present clock closes. -/
def formSummary (s : State) (fs : Four Filter) : Summary where
  sequence := s.domain.clock / s.committed.epoch - 1
  time := s.domain.clock
  epoch := s.committed.epoch
  temps := summaryTemps (countedValues s.committed fs)
  grace := s.domain.tracker.phase.isGrace
  used := Four.build fun i => (fs.get i).used

/-- The filters step, the fresh marks are cleared and the summary replaces the last one. -/
def takeReadings (s : State) : State :=
  let fs := Four.build fun i =>
    Filter.take (s.committed.probes.get i) (s.channels.get i) (s.domain.filters.get i)
  { s with
    channels := Four.build fun i => (s.channels.get i).taken
    domain := { s.domain with filters := fs }
    lastSummary := some (formSummary s fs) }

/-! ### The roster (section 8) -/

/-- Change the roster entry of an address. -/
def State.updatePeer (s : State) (address : Nat) (f : RosterEntry → RosterEntry) : State :=
  s.withRoster (updateWhere (·.address == address) f s.roster)

/-- The buddy's entry gets its deadline when the mode becomes ACTIVE with it UNHEARD (R130); also where a change of
straps has made the buddy's address the recorder's own (log entry 41). -/
def buddyDeadline (s : State) : State :=
  match s.committed.buddy with
  | none => s
  | some b => s.updatePeer b fun e =>
      if e.state = .unheard then { e with deadline := some (s.domain.clock + 3 * s.committed.epoch) } else e

/-- The entry after recording a BEACON (R129). -/
def recordBeacon (b : Beacon) (clock : Nat) (e : RosterEntry) : RosterEntry :=
  { e with
    state := .live
    report := some ⟨b.compartment, b.epoch, b.restartCount, b.resetCause, clock⟩
    deadline := some (clock + 3 * b.epoch) }

/-- A recording that makes every record due for re-put (R133), when the entry is the buddy's: a cold cause with a
restart event, a first recording, or a return from SILENT or HOLDING. -/
def coldBuddy (b : Beacon) (e : RosterEntry) : Bool :=
  isColdCode b.resetCause &&
    (match e.report with
     | none => true
     | some r => !(r.restartCount == b.restartCount) || e.state == .silent || e.state == .holding)

end Sys2Proof.Machine
end

