-- ==== Sys2Proof/Machine/Grace.lean ====
section
/-!
DEFINITION. The Grace Tracker: sightings (R64, R65) and the end of a window (R66); the Door Unit's inputs (R56 to
R61) as far as several commands share them.
-/
namespace Sys2Proof.Machine

/-! ### Sightings -/

/-- What a sighting means for a door entry (R64): `none` for a first sighting (or a count gone back), `some d` for an
advance of `d` openings. -/
def advance (known : Option Sighted) (count source : Nat) : Option Nat :=
  match known with
  | none => none
  | some k =>
    if k.source ≠ source then none
    else
      let d := (count + 65536 - k.count) % 65536
      if 32768 ≤ d then none else some d

/-- A door of the map is known open (R62). -/
def DoorEntry.knownOpen (e : DoorEntry) : Bool := e.known.any fun k => k.state == .opened

/-- The tracker state after a sighting (TABLE 4-3), from the door entries as they stand after it. -/
def phaseAfter (phase : TrackerPhase) (doors : List DoorEntry) (state : DoorState) (first : Bool) (grace clock : Nat) :
    TrackerPhase :=
  match phase with
  | .closed =>
    if state = .opened then
      if first then .overdue else if 0 < grace then .grace clock else .overdue
    else .closed
  | .grace w => .grace w
  | .overdue => if doors.any DoorEntry.knownOpen then .overdue else .closed

/-- Openings added to a HELD record (R8). -/
def addOpenings (d : Nat) (h : Holding) : Holding :=
  match h.state with
  | .held => { h with record := { h.record with openings := satAdd Config.max16 h.record.openings d } }
  | _ => h

/-- A sighting of one global door (R64, R65); a door outside the compartment door map is passed over (R63). -/
def sight (s : State) (door : Nat) (state : DoorState) (count source : Nat) : State :=
  match s.domain.tracker.doors.find? (·.door == door) with
  | none => s
  | some e =>
    let adv := advance e.known count source
    let doors := updateWhere (·.door == door) (fun x => { x with known := some ⟨state, count, source⟩ })
      s.domain.tracker.doors
    let phase := phaseAfter s.domain.tracker.phase doors state adv.isNone s.committed.grace s.domain.clock
    (s.withTracker ⟨phase, doors⟩).withCustody (s.domain.custody.map (addOpenings (adv.getD 0)))

/-- Sightings of a BEACON's door entries, in their order (R63). -/
def sightAll (s : State) (source : Nat) : List DoorReport → State
  | [] => s
  | d :: ds => sightAll (sight s d.door d.state d.count source) source ds

/-- The tracker after a window expiry (R66). -/
def Tracker.windowEnded (t : Tracker) : Tracker :=
  { t with phase := if t.doors.any DoorEntry.knownOpen then .overdue else .closed }

/-- The tracker as settled by a warm start (R71): a passed window is ended, then this recorder's own doors become
unknown. -/
def Tracker.settled (t : Tracker) (grace clock address : Nat) : Tracker :=
  let t1 := match t.phase with
    | .grace w => if w + grace ≤ clock then t.windowEnded else t
    | _ => t
  { t1 with
    doors := t1.doors.map fun e =>
      if e.known.any fun k => k.source == address then { e with known := none } else e }

/-! ### Door inputs -/

/-- A LOW line reads CLOSED, a HIGH one OPEN (R56). -/
def doorStateOf : LineLevel → DoorState
  | .low => .closed
  | .high => .opened

/-- An input that is started has no accepted state and a count of 0; its 250 ms run from the start (R56, R57). -/
def DoorInput.start (d : DoorInput) : DoorInput :=
  { d with running := true, accepted := none, count := 0, settling := true }

def DoorInput.stop (d : DoorInput) : DoorInput :=
  { d with running := false, accepted := none, count := 0, settling := false }

/-- Start the inputs of mapped doors (R56, R59). -/
def startInputs (s : State) : State :=
  { s with
    inputs := Four.build fun i =>
      if (s.committed.doorOf i).isSome then (s.inputs.get i).start else (s.inputs.get i).stop }

def stopInputs (s : State) : State := { s with inputs := Four.build fun i => (s.inputs.get i).stop }

/-- An input's report: its global door, accepted state and count, when it has them (R61). -/
def doorReport (s : State) (i : Fin 4) : Option DoorReport :=
  match s.committed.doorOf i, (s.inputs.get i).accepted with
  | some d, some a => some ⟨d, a, (s.inputs.get i).count⟩
  | _, _ => none

/-- Announce an accepted state on the bus, in ACTIVE (R60), and sight it locally (R59) in the modes of R63. -/
def announce (s : State) (i : Fin 4) : State :=
  match doorReport s i with
  | none => s
  | some r =>
    let s1 := if s.mode.runsEpochs then sight s r.door r.state r.count s.address else s
    if s1.mode = .active then sendPlain s1 ⟨0, .door, doorReportBytes r⟩ else s1

end Sys2Proof.Machine
end

