-- ==== Sys2Proof/Machine/Modes.lean ====
section
/-!
DEFINITION. The mode machine (TABLE 11-3): entry to HOLD_PENDING (R169), to HOLD (R122) and return to ACTIVE (R170),
the ways a trip becomes active, the end of a trip, and a start (R171, R172).
-/
namespace Sys2Proof.Machine

/-! ### HOLD -/

/-- An ACCEPT in transmission at the entry is spoiled, unless its check bits had all been sent (R122). -/
def spoilAccept (checkSent : Bool) (e : TxEntry) : TxEntry :=
  match e.origin with
  | .accept _ => { e with spoiled := e.spoiled || !checkSent }
  | _ => e

/-- Give each of the flushed telegrams its outcome FLUSHED, in queuing order (R121). -/
def flushAll (s : State) : List TxEntry → State
  | [] => s
  | e :: es => flushAll (resolve s e.origin .flushed) es

/-- Flush the queue and the beacon hold, but for a telegram in transmission (R122); how far that one has come is a free
value (log entry 6). -/
def flushWaiting (s : State) : State :=
  let kept := (s.bus.queue.filter (·.sending)).map (spoilAccept (Config.checkBitsSent s.freeCount))
  flushAll (((s.withQueue kept).withBeaconHold none).withFreeCount (s.freeCount + 1))
    (s.bus.queue.filter fun e => !e.sending)

/-- Entry to HOLD_PENDING (R169): offers close with no REPLY, ARRIVING records are removed, restore sessions end, the
queue is flushed, and the HOLD telegram is queued. -/
def enterHoldPending (s : State) : State :=
  let s1 := (closeAllOffers s).removeWhere fun h => h.state.isArriving
  let s2 := (flushWaiting (endAllSessions s1)).withMode .holdPending
  (send s2 ⟨0, .hold, beBytes 4 s2.tripNumber⟩ .hold).1

/-- Return from HOLD (R170): the bus is switched on with an empty queue and waits for an idle line, every record is
UNMIRRORED and an UNHEARD buddy gets its deadline. -/
def leaveHold (s : State) : State :=
  buddyDeadline (((s.withMode .active).withLine .ignoring).unmirrorAll)

/-- Entry to HOLD (R122, R170): every telegram is flushed or broken off and the bus is switched off; with the supply
already above the release level the recorder returns to ACTIVE. -/
def enterHold (s : State) : State :=
  let s1 := flushAll ((((s.withMode .hold).withQueue []).withBeaconHold none).withLine .ignoring) s.bus.queue
  if Config.releaseMv < s1.supplyMv then leaveHold s1 else s1

/-- The mode is ACTIVE; a supply below the warning level takes it to HOLD_PENDING at once (R169, R172). -/
def becomeActive (s : State) : State :=
  let s1 := buddyDeadline (s.withMode .active)
  if s1.supplyMv < Config.warningMv then enterHoldPending s1 else s1

/-- The first multiple of E strictly greater than the clock (R43). -/
def firstExpiryAfter (clock epoch : Nat) : Nat := (clock / epoch + 1) * epoch

/-- Channels and door inputs start, the last summary is absent and the next expiry is set (R24, R43, R50, R56). -/
def startBlocks (s : State) : State :=
  startInputs (startChannels
    { s with lastSummary := none, nextExpiry := firstExpiryAfter s.domain.clock s.committed.epoch })

/-- The end of REJOINING in ACTIVE (R154). -/
def rejoinActive (s : State) : State :=
  becomeActive (startBlocks { s with domain := { s.domain with tripId := s.store.tripId } })

/-! ### Trip start and trip end -/

/-- The state that a completed TRIP-START write leaves, before the recorder becomes ACTIVE (R167). -/
def tripStarted (s : State) (w : StoreWrite) : State :=
  { s.withRoster clearedRoster with
    store := ⟨w.setup, w.tripId, w.tripState, true⟩
    storeWrite := none
    bus := { s.bus with counters := .zero, queue := s.bus.queue.map (markLeft (s.domain.custody.map (·.record.id))) }
    domain :=
      { Domain.cleared w.setup.doorMap with
        counting := true, tripId := w.tripId, restartCount := s.domain.restartCount } }

/-- The recorder stands in IDLE with the trip over: the clock holds, channels and inputs are stopped and the tracker
is cleared (R39, R62, R168). -/
def tripOver (s : State) : State :=
  stopInputs (stopChannels
    { s.withMode .idle with
      domain :=
        { s.domain with counting := false, tracker := Tracker.cleared s.committed.doorMap } })

/-- The store's content is replaced whole by a completed write (R167). -/
def Store.written (w : StoreWrite) : Store := ⟨w.setup, w.tripId, w.tripState, true⟩

/-! ### Starts -/

/-- The volatile state is lost (R123, R171) and the staged setup is loaded (R165). -/
def restartVolatile (s : State) (staged : Setup) : State :=
  stopInputs (stopChannels
    { s with
      running := true
      staged := staged
      storeWrite := none
      lastSummary := none
      offers := []
      roster := clearedRoster
      sessions := []
      bus := Bus.restarted })

/-- The Custody Table settled at a warm start (R20). -/
def settleCustody (clock : Nat) (l : List Holding) : List Holding :=
  ((l.filter fun h => !h.state.isArriving).map (Holding.setState .held)).map (chargeStop clock)

/-- A warm start in a running trip (R172): the table and the tracker are settled, the blocks start. -/
def warmRunning (s : State) : State :=
  becomeActive (startBlocks
    { s with
      domain :=
        { s.domain with
          custody := settleCustody s.domain.clock s.domain.custody
          tracker := s.domain.tracker.settled s.committed.grace s.domain.clock s.address } })

/-- A start into IDLE with the domain as found: the clock does not count there (R39, R172). -/
def warmIdle (s : State) : State := { s.withMode .idle with domain := { s.domain with counting := false } }

/-- Entry to REJOINING after a cold start in a running trip (R150): the clock counts from 0 and the buddy is asked. -/
def enterRejoining (s : State) : State :=
  let s1 := { s with mode := .rejoining, domain := { s.domain with counting := true } }
  match s1.committed.buddy with
  | none => s1.withRejoin .listening
  | some b =>
    let (s2, taken) := send (s1.withRejoin .asking) ⟨b, .restoreAsk, beBytes 4 s1.tripNumber⟩ .restoreAsk
    if taken then s2 else s2.withRejoin .listening

/-- Clear the backup domain, for a cold start, with a restart count of 1 (R171). The mark that the cell fell goes with it:
after the start that found it the cell counts as above its retention level again (DESIGN CHOICE, log entry 50). -/
def clearDomain (s : State) : State :=
  { s with domain := { Domain.cleared s.store.setup.doorMap with restartCount := 1 }, cellFell := false }

/-- A Setup Store found bad (R171): nothing of its content is used any more (log entry 9). -/
def storeLost : Store := ⟨Setup.default, none, .none, false⟩

/-- A warm start raises the restart count, 255 wrapping to 0 (R171). -/
def raiseRestartCount (s : State) : State :=
  { s with domain := { s.domain with restartCount := (s.domain.restartCount + 1) % 256 } }

/-- The rest of a start once the domain was tested (R171, R172): `cold` is the finding, `storeGood` the store's. -/
def proceed (s : State) (cold storeGood : Bool) : State :=
  if !storeGood then { clearDomain { s with store := storeLost } with mode := .idle }
  else if cold then
    if s.store.tripState = .running then enterRejoining (clearDomain s) else { clearDomain s with mode := .idle }
  else if s.store.tripState = .running then
    if s.domain.tripId = s.store.tripId then warmRunning (raiseRestartCount s)
    else enterRejoining (clearDomain { s with resetCause := .retentionFault })
  else warmIdle (raiseRestartCount s)

end Sys2Proof.Machine
end

