-- ==== Sys2Proof/Machine/BusEvents.lean ====
section
/-!
DEFINITION. Events on the line: the acknowledge slot of a received telegram with the acceptance filter (R113 to
R115), the idle bus (R119), a lost arbitration (R111), a line error (R112), an abandoned telegram (R109) and a length
above 160 (R110).
-/
namespace Sys2Proof.Machine

/-! ### The acceptance filter (R114, R115) -/

/-- The open offer an answer from `sender` about `id` is awaited for (R101). -/
def State.awaits (s : State) (id sender : Nat) : Bool :=
  s.offers.any fun o => o.id == id && o.target == sender &&
    (match o.phase with
     | .awaiting _ => true
     | _ => false)

/-- MIRROR-PUTs waiting in the receive buffer: each holds a reservation (R115). -/
def State.reservations (s : State) : Nat := (s.bus.rx.filter (·.kind == .mirrorPut)).length

/-- The room test (R115). -/
def State.roomFor (s : State) (owner id : Nat) : Bool :=
  (s.domain.mirror.any fun m => m.owner == owner && m.record.id == id) ||
    decide (s.reservations < Config.mirrorSlots - s.domain.mirror.length)

/-- TABLE 7-3 for a telegram addressed to this recorder or to all; HOLD and UNSTRAPPED have no row. -/
def State.accepts (s : State) (kind : Kind) (sender receiver : Nat) (p : List Byte) : Bool :=
  let console := decide (16 ≤ sender)
  let recorder := decide (1 ≤ sender) && decide (sender ≤ 15)
  let own := receiver == s.address && decide (receiver ≠ 0)
  match kind with
  | .tripStart => console && (own || receiver == 0)
  | .configSet | .tripEnd | .load | .move | .release | .queryStation | .queryRecord | .list | .discardMirror =>
    console && own
  | .beacon | .door | .hold => recorder && receiver == 0
  | .offer | .mirrorDrop => recorder && own
  | .accept => recorder && own && p.length == 6 && s.awaits (field p 0 6) sender
  | .decline => recorder && own && p.length == 7 && s.awaits (field p 0 6) sender
  | .mirrorPut =>
    recorder && own && (s.mode == .active || s.mode == .holdPending) && decide (10 ≤ p.length) &&
      s.roomFor sender (field p 4 6)
  | .restoreAsk => recorder && own && s.mode == .active
  | .restoreBegin | .restoreRecord | .restoreEnd =>
    recorder && own && s.mode == .rejoining && s.committed.buddy == some sender
  | .reply => false

/-- The recorder takes part in receiving now: the bus is on, it is not sending, and it has seen the telegram's start
(R109, R110, R113). After a line error it receives the rest of another station's telegram, as R111 says after a lost
arbitration; R112 leaves that open (log entry 40). -/
def State.listening (s : State) : Bool := s.busOn && s.sending?.isNone && !(s.bus.line == .ignoring)

/-- An acknowledged ACCEPT or DECLINE answers its offer and stops its timer (R101, R115). -/
def answerOffer (kind : Kind) (id : Nat) (l : List Offer) : List Offer :=
  match kind with
  | .accept | .decline => updateWhere (·.id == id) (fun o => { o with phase := .answered }) l
  | _ => l

/-- The telegram that a frame spells, of a kind TABLE 7-6 lists. -/
def frameTelegram (f : Frame) : Option RxTelegram :=
  (Kind.ofCode f.kind.toNat).map fun k => ⟨f.cls.toNat, f.sender.toNat, f.receiver.toNat, k, f.payload⟩

/-- Tests 1 to 3 of R113. -/
def State.takes (s : State) (f : Frame) : Option RxTelegram :=
  match frameTelegram f with
  | none => none
  | some t =>
    if (t.receiver = s.address ∨ t.receiver = 0) ∧ frameCheck f = f.check ∧
        s.accepts t.kind t.sender t.receiver t.payload = true then some t
    else none

def Counters.addOverrun (c : Counters) : Counters := { c with overruns := satAdd Config.max16 c.overruns 1 }

/-- The decision at the end of the last check bit (R113). -/
def receive (s : State) (f : Frame) : State :=
  if s.listening && decide (f.payload.length ≤ Config.maxPayload) then
    let s1 := s.withLine .busy
    match s1.takes f with
    | none => s1
    | some t =>
      if Config.bufferSlots ≤ s1.bus.rx.length then s1.withCounters s1.bus.counters.addOverrun
      else (s1.withRx (s1.bus.rx ++ [t])).withOffers (answerOffer t.kind (field t.payload 0 6) s1.offers)
  else s

/-- The recorder drives the acknowledge slot of this telegram low (R113): it takes it and a slot is free. -/
def State.acknowledges (s : State) (f : Frame) : Bool :=
  s.listening && decide (f.payload.length ≤ Config.maxPayload) && (s.takes f).isSome &&
    decide (s.bus.rx.length < Config.bufferSlots)

/-- ACKNOWLEDGE_SLOT. -/
def execAcknowledgeSlot (f : Frame) (s : State) : Host.Outcome State Fault Refusal := .next (receive s f)

/-! ### The line -/

/-- The bus is idle: with a telegram queued, the recorder begins one (R111, R119). -/
def busBecomesIdle (s : State) : State :=
  if s.busOn && s.sending?.isNone then beginNext (s.withLine .idle) else s

/-- BUS_IDLE (R119). -/
def execBusIdle (s : State) : Host.Outcome State Fault Refusal := .next (busBecomesIdle s)

/-- TELEGRAM_ABANDONED (R109): nothing gathered of it is kept, and the bus is idle. -/
def execTelegramAbandoned (s : State) : Host.Outcome State Fault Refusal := .next (busBecomesIdle s)

/-- SAMPLED_LENGTH_ABOVE_160 (R110): the line is ignored until the bus is next idle. -/
def execSampledLengthAbove160 (length : Nat) (s : State) : Host.Outcome State Fault Refusal :=
  .next (if s.busOn && s.sending?.isNone && decide (Config.maxPayload < length) then s.withLine .ignoring else s)

def Counters.addArbitrationLoss (c : Counters) : Counters :=
  { c with arbitrationLosses := satAdd Config.max16 c.arbitrationLosses 1 }

/-- The queue after a lost arbitration: the telegram waits in its place; a BEACON gives way to a held one (R120). -/
def backToWaiting (held : Option TxTelegram) (e : TxEntry) : TxEntry :=
  if e.sending then
    if e.telegram.kind = .beacon then { e with sending := false, telegram := held.getD e.telegram }
    else { e with sending := false }
  else e

def loseArbitration (s : State) : State :=
  match s.sending? with
  | none => s
  | some e =>
    let replaced := decide (e.telegram.kind = .beacon) && s.bus.beaconHold.isSome
    { s with
      bus :=
        { s.bus with
          line := .busy
          queue := s.bus.queue.map (backToWaiting s.bus.beaconHold)
          beaconHold := if e.telegram.kind = .beacon then none else s.bus.beaconHold
          counters :=
            if replaced then s.bus.counters.addArbitrationLoss.addReplaced
            else s.bus.counters.addArbitrationLoss } }

/-- ARBITRATION_LOSS (R111). -/
def execArbitrationLoss (s : State) : Host.Outcome State Fault Refusal :=
  .next (if s.busOn then loseArbitration s else s)

/-- A line error ends the telegram in transmission and reaches its originator (R112, TABLE 7-4). To an ACCEPT
that the entry to HOLD_PENDING has spoiled R122 gives the outcome FLUSHED; when it meets a line error before its slot the
model takes R112, LINE_ERROR and its count (DESIGN CHOICE, log entry 46). -/
def lineErrorMet (s : State) : State :=
  match s.sending? with
  | none => s
  | some e =>
    let s1 := endSending s e .lineError
    if e.origin = .hold then (if s1.mode = .holdPending then enterHold s1 else s1)
    else resolve s1 e.origin .lineError

/-- LINE_ERROR (R112). -/
def execLineError (s : State) : Host.Outcome State Fault Refusal := .next (if s.busOn then lineErrorMet s else s)

end Sys2Proof.Machine
end

