-- ==== Sys2Proof/Machine/Console.lean ====
section
/-!
DEFINITION. The ten requests of consoles, each taken from the receive buffer: CONFIG-SET, TRIP-START, TRIP-END, LOAD,
MOVE, RELEASE, QUERY-STATION, QUERY-RECORD, LIST and DISCARD-MIRROR.
-/
namespace Sys2Proof.Machine

/-! ### CONFIG-SET (R165) -/

def takeConfigSet (t : RxTelegram) (s : State) : State :=
  if !configWellSized t.payload then answer s t .badRequest []
  else if s.mode ≠ .idle then answer s t .notIdle []
  else
    match stageItem s.staged t.payload with
    | none => answer s t .badRequest []
    | some (u, stored) => answer { s with staged := u } t .ok (t.payload.take 1 ++ stored)

/-- CONFIG-SET taken. -/
def execConfigSet (s : State) : Host.Outcome State Fault Refusal := .next (taking .configSet s takeConfigSet)

/-! ### TRIP-START (R166) -/

/-- An enabled class whose limits contradict one another. -/
def classInconsistent (c : ClassSetup) : Bool :=
  c.enabled &&
    ((c.limits.cold.any fun x => decide (c.limits.tmax ≤ x.tmin)) ||
     (c.limits.ceiling.any fun x => decide (x < c.limits.tmax)) ||
     (c.limits.cold.any fun x => c.limits.floor.any fun f => decide (x.tmin < f)))

/-- The classes with every inconsistent one disabled. -/
def checkedClasses (cs : List ClassSetup) : List ClassSetup :=
  cs.map fun c => if classInconsistent c then { c with enabled := false } else c

/-- Bit i is set for each class i that is disabled. -/
def disabledMask : List ClassSetup → Nat
  | [] => 0
  | c :: cs => bit (classInconsistent c) 1 + 2 * disabledMask cs

/-- No probe is both enabled and counted. -/
def noCountedProbe (u : Setup) : Bool := !(u.probes.toList.any fun p => p.enabled && p.counted)

/-- The reasons byte of SETUP_INVALID. -/
def setupFaults (s : State) : Nat :=
  bit s.staged.compartment.isNone 1 + bit (noCountedProbe s.staged) 2 + bit (s.staged.buddy == some s.address) 4

def takeTripStart (t : RxTelegram) (s : State) : State :=
  let id := field t.payload 0 4
  let body := beBytes 4 id
  if t.payload.length ≠ 4 then answer s t .badRequest []
  else if id = 0 then answer s t .badRequest body
  else if s.mode = .starting then answer s t .busy body
  else if s.mode = .active ∧ s.store.tripId = some id then answer s t .ok body
  else if s.mode ≠ .idle then answer s t .notIdle body
  else if setupFaults s ≠ 0 then answer s t .setupInvalid (body ++ beBytes 1 (setupFaults s))
  else
    let u := { s.staged with classes := checkedClasses s.staged.classes }
    { s with
      mode := .starting
      staged := u
      storeWrite := some ⟨u, some id, .running, .tripStart t.sender (disabledMask s.staged.classes)⟩
      domain := { s.domain with tripId := none } }

/-- TRIP-START taken. -/
def execTripStart (s : State) : Host.Outcome State Fault Refusal := .next (taking .tripStart s takeTripStart)

/-! ### TRIP-END (R168) -/

def takeTripEnd (t : RxTelegram) (s : State) : State :=
  if t.payload ≠ [] then answer s t .badRequest []
  else
    match s.mode.refusal with
    | some r => answer s t r []
    | none =>
      if s.domain.custody ≠ [] ∨ s.domain.mirror ≠ [] then answer s t .notEmpty []
      else
        { s with
          mode := .ending
          storeWrite := some ⟨s.store.setup, s.store.tripId, .ended, .tripEnd t.sender⟩ }

/-- TRIP-END taken. -/
def execTripEnd (s : State) : Host.Outcome State Fault Refusal := .next (taking .tripEnd s takeTripEnd)

/-! ### LOAD (R16 to R18) -/

/-- The class an index names; an index above 7 names none. -/
def State.enabledClass (s : State) (index : Nat) : Option Limits :=
  match s.committed.classes[index]? with
  | none => none
  | some c => if c.enabled then some c.limits else none

/-- The record a LOAD creates (R17), with its verdict as computed at LOAD (R18). -/
def loadedRecord (s : State) (p : List Byte) (l : Limits) : Record :=
  let carried : Bool := p.length == 23
  let account (off : Nat) : Nat := if carried then field p off 4 else 0
  let r : Record :=
    { id := field p 0 6
      classIndex := field p 6 1
      loadedTime := s.domain.clock
      limits := l
      warm := account 7
      cold := account 11
      door := account 15
      gap := account 19
      peaks := none
      verdict := .intact
      openings := 0
      legs := [⟨s.compartment, s.address, s.domain.clock, none, false⟩]
      elided := 0
      carriedIn := carried
      restored := false
      unmirrored := true }
  { r with verdict := candidate r false false s.domain.clock }

/-- LOAD's tests (R16, TABLE 1-6), the record it appends (R17, R18) and its REPLY (R125). R125 gives the verdict in the OK
REPLY no width: it is sent as one byte holding the verdict's code (DEDUCED, log entry 45). R17 leaves the order of the
MIRROR-PUT and the REPLY open: the MIRROR-PUT is offered first, so with one free place the REPLY is refused (DESIGN CHOICE,
log entry 48). -/
def takeLoad (t : RxTelegram) (s : State) : State :=
  let p := t.payload
  let id := field p 0 6
  let body := beBytes 6 id
  if p.length ≠ 7 ∧ p.length ≠ 23 then answer s t .badRequest []
  else
    match s.mode.refusal with
    | some r => answer s t r body
    | none =>
      if id = 0 then answer s t .badRequest body
      else
        match s.enabledClass (field p 6 1) with
        | none => answer s t .unknownClass body
        | some l =>
          if (s.find id).isSome then answer s t .duplicate body
          else if Config.custodySlots ≤ s.domain.custody.length then answer s t .tableFull body
          else
            let r := loadedRecord s p l
            let s1 := s.admitHeld ⟨r, s.domain.clock, .held⟩
            answer (putToBuddy s1 r) t .ok
              (body ++ beBytes 1 r.verdict.rank ++ beBytes 1 s1.domain.custody.length)

/-- LOAD taken. -/
def execLoad (s : State) : Host.Outcome State Fault Refusal := .next (taking .load s takeLoad)

/-! ### MOVE (R91 to R93) -/

/-- The LIVE roster entries that record compartment `k` (R92). -/
def liveAt (s : State) (k : Nat) : List RosterEntry :=
  s.roster.filter fun e => e.state == .live && e.report.any fun r => r.compartment == k

/-- The OFFER of a record: k, the unaccounted seconds and the record as it stands (R93). -/
def offerTelegram (s : State) (h : Holding) (k target : Nat) : TxTelegram :=
  ⟨target, .offer, beBytes 1 k ++ beBytes 4 (s.domain.clock - h.accountedTo) ++ recordBytes h.record⟩

/-- Open an offer for a HELD record (R93). A refused OFFER closes it at once (R95). -/
def openOffer (s : State) (h : Holding) (k target requester : Nat) : State :=
  let o : Offer := ⟨h.record.id, target, requester, k, .sending⟩
  let s1 := (s.updateHolding h.record.id (Holding.setState .offered)).withOffers (s.offers ++ [o])
  let (s2, taken) := send s1 (offerTelegram s h k target) (.offer h.record.id)
  if taken then s2 else offerResolved s2 h.record.id .queueFull

def takeMove (t : RxTelegram) (s : State) : State :=
  let p := t.payload
  let id := field p 0 6
  let k := field p 6 1
  let body := beBytes 6 id
  if p.length ≠ 7 then answer s t .badRequest []
  else
    match s.mode.refusal with
    | some r => answer s t r body
    | none =>
      if id = 0 ∨ k = 0 ∨ 15 < k then answer s t .badRequest body
      else
        match s.find id with
        | none => answer s t .unknownId body
        | some h =>
          if h.state ≠ .held then answer s t .busy body
          else if s.committed.compartment = some k then answer s t .sameCompartment body
          else if Config.offerSlots ≤ s.offers.length then answer s t .busy body
          else
            match liveAt s k with
            | [] => answer s t .targetAbsent body
            | [e] => openOffer s h k e.address t.sender
            | _ => answer s t .targetAmbiguous body

/-- MOVE taken. -/
def execMove (s : State) : Host.Outcome State Fault Refusal := .next (taking .move s takeMove)

/-! ### RELEASE (R156, R157) -/

def takeRelease (t : RxTelegram) (s : State) : State :=
  let p := t.payload
  let id := field p 0 6
  let body := beBytes 6 id
  if p.length ≠ 6 then answer s t .badRequest []
  else
    match s.mode.refusal with
    | some r => answer s t r body
    | none =>
      if id = 0 then answer s t .badRequest body
      else
        match s.find id with
        | none => answer s t .unknownId body
        | some h =>
          if h.state ≠ .held then answer s t .busy body
          else
            let s1 := s.updateHolding id (Holding.setState .releasing)
            let (s2, taken) := send s1
              (replyTelegram t.sender .release .ok 0 0 (certificateBytes s h 0)) (.certificate id)
            if taken then s2 else certificateResolved s2 id .queueFull

/-- RELEASE taken. -/
def execRelease (s : State) : Host.Outcome State Fault Refusal := .next (taking .release s takeRelease)

/-! ### QUERY-STATION (R161) -/

def TrackerPhase.code : TrackerPhase → Nat
  | .closed => 0
  | .grace _ => 1
  | .overdue => 2

def TrackerPhase.windowStart : TrackerPhase → Nat
  | .grace w => w
  | _ => 0

def countersBytes (c : Counters) : List Byte :=
  beBytes 2 c.sent ++ beBytes 2 c.notAcked ++ beBytes 2 c.lineErrors ++ beBytes 2 c.arbitrationLosses ++
    beBytes 2 c.overruns ++ beBytes 2 c.replacedBeacons

/-- The value or line level of a reading, 0 when it has neither. -/
def Status.valueBytes (st : Status) : List Byte :=
  match st with
  | .faultStuck l => beBytes 2 (levelCode l)
  | _ => optTempBytes st.value?

/-- A probe status in 17 bytes. -/
def probeBytes (c : Channel) (f : Filter) : List Byte :=
  beBytes 1 c.state.code ++
  beBytes 1 ((c.reading.map (·.status.code)).getD 0) ++
  ((c.reading.map (·.status.valueBytes)).getD (beBytes 2 0)) ++
  beBytes 4 ((c.reading.map (·.time)).getD 0) ++
  beBytes 1 (bit (c.reading.any (·.fresh)) 1 + bit f.used 2 + bit c.last.isSome 4 + bit f.seeded 8) ++
  beBytes 2 ((c.last.map (·.period)).getD 0) ++ beBytes 2 ((c.last.map (·.high)).getD 0) ++
  beBytes 2 f.missed ++ tempBytes f.value

/-- The station part (TABLE 10-4). -/
def stationPart (s : State) : List Byte :=
  beBytes 1 1 ++ beBytes 1 s.mode.code ++ beBytes 4 s.tripNumber ++ beBytes 4 s.domain.clock ++
  beBytes 4 s.currentSequence ++ beBytes 1 s.domain.custody.length ++ beBytes 1 s.domain.mirror.length ++
  beBytes 1 s.domain.drops.length ++ beBytes 2 s.domain.discardedDrops ++
  beBytes 1 s.domain.tracker.phase.code ++ beBytes 4 s.domain.tracker.phase.windowStart ++
  beBytes 1 s.domain.restartCount ++ beBytes 1 s.resetCause.code ++
  beBytes 1 (bit s.domain.custodyLost 1 + bit s.domain.restoreIncomplete 2 + bit s.lastSummary.isSome 4) ++
  beBytes 1 s.alertReasons ++ countersBytes s.bus.counters ++
  ([0, 1, 2, 3] : List (Fin 4)).flatMap fun i => probeBytes (s.channels.get i) (s.domain.filters.get i)

def rosterEntryBytes (e : RosterEntry) : List Byte :=
  beBytes 1 e.address ++ beBytes 1 e.state.code ++
  beBytes 1 ((e.report.map (·.compartment)).getD 0) ++ beBytes 2 ((e.report.map (·.epoch)).getD 0) ++
  beBytes 4 ((e.report.map (·.heard)).getD 0) ++ beBytes 1 ((e.report.map (·.restartCount)).getD 0) ++
  beBytes 1 ((e.report.map (·.resetCause)).getD 0)

/-- The roster part (TABLE 10-5). -/
def rosterPart (s : State) : List Byte :=
  beBytes 1 2 ++ (s.roster.filter (·.address ≠ s.address)).flatMap rosterEntryBytes

def takeQueryStation (t : RxTelegram) (s : State) : State :=
  if t.payload ≠ [] then answer s t .badRequest []
  else answer (answer s t .ok (stationPart s)) t .ok (rosterPart s)

/-- QUERY-STATION taken. -/
def execQueryStation (s : State) : Host.Outcome State Fault Refusal := .next (taking .queryStation s takeQueryStation)

/-! ### QUERY-RECORD (R159) -/

def takeQueryRecord (t : RxTelegram) (s : State) : State :=
  let id := field t.payload 0 6
  if t.payload.length ≠ 6 then answer s t .badRequest []
  else if id = 0 then answer s t .badRequest []
  else
    match s.find id with
    | none => answer s t .unknownId (beBytes 6 id)
    | some h => answer s t .ok (certificateBytes s h h.state.mark)

/-- QUERY-RECORD taken. -/
def execQueryRecord (s : State) : Host.Outcome State Fault Refusal := .next (taking .queryRecord s takeQueryRecord)

/-! ### LIST (R160) -/

def listEntryBytes (h : Holding) : List Byte :=
  beBytes 6 h.record.id ++ beBytes 1 h.state.mark ++ beBytes 1 h.record.verdict.rank

def takeList (t : RxTelegram) (s : State) : State :=
  let start := field t.payload 0 1
  if t.payload.length ≠ 1 then answer s t .badRequest []
  else
    let entries := (s.domain.custody.drop start).take Config.listEntries
    answer s t .ok
      (beBytes 1 start ++ beBytes 1 s.domain.custody.length ++ beBytes 1 entries.length ++
        entries.flatMap listEntryBytes)

/-- LIST taken. -/
def execList (s : State) : Host.Outcome State Fault Refusal := .next (taking .list s takeList)

/-! ### DISCARD-MIRROR (R147) -/

def takeDiscardMirror (t : RxTelegram) (s : State) : State :=
  let owner := field t.payload 0 1
  let id := field t.payload 1 6
  let body (n : Nat) := beBytes 1 owner ++ beBytes 6 id ++ beBytes 1 n
  let hit (m : MirrorRecord) : Bool := m.owner == owner && (id == 0 || m.record.id == id)
  let n := (s.domain.mirror.filter hit).length
  if t.payload.length ≠ 7 then answer s t .badRequest []
  else if owner = 0 ∨ 15 < owner then answer s t .badRequest (body 0)
  else if id ≠ 0 ∧ n = 0 then answer s t .unknownId (body 0)
  else answer (s.withMirror (s.domain.mirror.filter fun m => !hit m)) t .ok (body n)

/-- DISCARD-MIRROR taken. -/
def execDiscardMirror (s : State) : Host.Outcome State Fault Refusal :=
  .next (taking .discardMirror s takeDiscardMirror)

end Sys2Proof.Machine
end

