-- ==== Sys2Proof/Machine/Outcomes.lean ====
section
/-!
DEFINITION. The outcomes that come at the acknowledge slot of a telegram this recorder sends, one command for each
originator of TABLE 7-4 (R121). A command whose telegram is not in transmission is not one that can arise, and
changes nothing.
-/
namespace Sys2Proof.Machine

/-- The outcome a sampled acknowledge slot gives; a spoiled ACCEPT's is FLUSHED (R113, R122). -/
def slotOutcome (e : TxEntry) (acked : Bool) : SendOutcome :=
  if e.spoiled then .flushed else if acked then .acked else .notAcked

/-- End the telegram in transmission when `mine` owns it, and hand its outcome on. -/
def outcomeFor (s : State) (mine : Origin → Bool) (acked : Bool)
    (handle : State → Origin → SendOutcome → State) : State :=
  if s.busOn then
    match s.sending? with
    | none => s
    | some e =>
      if mine e.origin then handle (endSending s e (slotOutcome e acked)) e.origin (slotOutcome e acked) else s
  else s

/-- TELEGRAM_OUTCOME (R121): BEACON, DOOR, DECLINE or plain REPLY. -/
def execTelegramOutcome (acked : Bool) (s : State) : Host.Outcome State Fault Refusal :=
  .next (outcomeFor s (· == .plain) acked fun s1 _ _ => s1)

def Origin.isOffer : Origin → Bool
  | .offer _ => true
  | _ => false

/-- OFFER_OUTCOME (R95). -/
def execOfferOutcome (acked : Bool) (s : State) : Host.Outcome State Fault Refusal :=
  .next (outcomeFor s Origin.isOffer acked resolve)

def Origin.isAccept : Origin → Bool
  | .accept _ => true
  | _ => false

/-- ACCEPT_OUTCOME (R99, R100). -/
def execAcceptOutcome (acked : Bool) (s : State) : Host.Outcome State Fault Refusal :=
  .next (outcomeFor s Origin.isAccept acked resolve)

def Origin.isCertificate : Origin → Bool
  | .certificate _ => true
  | _ => false

/-- CERTIFICATE_REPLY_OUTCOME (R158). -/
def execCertificateReplyOutcome (acked : Bool) (s : State) : Host.Outcome State Fault Refusal :=
  .next (outcomeFor s Origin.isCertificate acked resolve)

def Origin.isMirrorPut : Origin → Bool
  | .mirrorPut _ _ => true
  | _ => false

/-- MIRROR_PUT_OUTCOME (R139). -/
def execMirrorPutOutcome (acked : Bool) (s : State) : Host.Outcome State Fault Refusal :=
  .next (outcomeFor s Origin.isMirrorPut acked resolve)

def Origin.isMirrorDrop : Origin → Bool
  | .mirrorDrop _ => true
  | _ => false

/-- MIRROR_DROP_OUTCOME (R145). -/
def execMirrorDropOutcome (acked : Bool) (s : State) : Host.Outcome State Fault Refusal :=
  .next (outcomeFor s Origin.isMirrorDrop acked resolve)

/-- HOLD_OUTCOME (R169): whatever it is, HOLD_PENDING ends and HOLD begins. -/
def execHoldOutcome (acked : Bool) (s : State) : Host.Outcome State Fault Refusal :=
  .next (outcomeFor s (· == .hold) acked fun s1 _ _ => if s1.mode = .holdPending then enterHold s1 else s1)

/-- RESTORE_ASK_OUTCOME (R150). -/
def execRestoreAskOutcome (acked : Bool) (s : State) : Host.Outcome State Fault Refusal :=
  .next (outcomeFor s (· == .restoreAsk) acked resolve)

def Origin.isSession : Origin → Bool
  | .session _ _ _ => true
  | _ => false

/-- RESTORE_SESSION_OUTCOME (R149). -/
def execRestoreSessionOutcome (acked : Bool) (s : State) : Host.Outcome State Fault Refusal :=
  .next (outcomeFor s Origin.isSession acked resolve)

end Sys2Proof.Machine
end

