-- ==== Sys2Proof/Machine/Peer.lean ====
section
/-!
DEFINITION. The twelve telegrams of peers, each taken from the receive buffer: BEACON, DOOR, HOLD, OFFER, ACCEPT,
DECLINE, MIRROR-PUT, MIRROR-DROP, RESTORE-ASK, RESTORE-BEGIN, RESTORE-RECORD and RESTORE-END.
-/
namespace Sys2Proof.Machine

/-! ### BEACON (R127) -/

/-- The fallback of LISTENING (R153): the peer's clock is adopted and custody is lost. -/
def adoptBeacon (b : Beacon) (s : State) : State :=
  rejoinActive { s with domain := { s.domain with clock := b.clock, custodyLost := true } }

/-- The three uses of a recorded BEACON (R127): the roster with the restart test (R129, R132, R133), the sightings
(R63), and the mirror records of the sender (R142). -/
def useBeacon (b : Beacon) (sender : Nat) (s : State) : State :=
  let cold := s.committed.buddy == some sender && (s.peer? sender).any (coldBuddy b)
  let s1 := s.updatePeer sender (recordBeacon b s.domain.clock)
  let s2 := if cold then s1.unmirrorAll else s1
  let s3 := sightAll s2 sender b.doors
  s3.withMirror (s3.domain.mirror.map fun m => if m.owner = sender then stepMirror b m else m)

def takeBeacon (t : RxTelegram) (s : State) : State :=
  match beaconOf t.payload with
  | none => s
  | some b =>
    if t.sender = s.address ∨ s.store.tripId ≠ some b.tripId then s
    else if s.mode = .rejoining then
      if s.rejoin = .listening then adoptBeacon b s else s
    else if s.mode.takesPeers then useBeacon b t.sender s
    else s

/-- BEACON taken. -/
def execBeacon (s : State) : Host.Outcome State Fault Refusal := .next (taking .beacon s takeBeacon)

/-! ### DOOR (R63) -/

def takeDoor (t : RxTelegram) (s : State) : State :=
  if t.payload.length ≠ 4 then s
  else
    match doorReportAt t.payload 0 with
    | none => s
    | some d => if s.mode.takesPeers then sight s d.door d.state d.count t.sender else s

/-- DOOR taken. -/
def execDoor (s : State) : Host.Outcome State Fault Refusal := .next (taking .door s takeDoor)

/-! ### HOLD (R131) -/

def takeHold (t : RxTelegram) (s : State) : State :=
  if t.payload.length = 4 ∧ s.mode.takesPeers = true ∧ s.store.tripId = some (field t.payload 0 4) ∧
      t.sender ≠ s.address then
    s.updatePeer t.sender fun e => { e with state := .holding, deadline := none }
  else s

/-- HOLD taken. -/
def execHold (s : State) : Host.Outcome State Fault Refusal := .next (taking .hold s takeHold)

/-! ### OFFER (R97, R98) -/

/-- Why an OFFER for compartment `k` of a record `id` is declined, by the first test that fails (TABLE 6-4). -/
def declineReason (s : State) (k id : Nat) : Option Nat :=
  if s.mode ≠ .active then some declineNotActive
  else if s.committed.compartment ≠ some k then some declineCompartmentMismatch
  else if (s.find id).isSome then some declineDuplicate
  else if Config.custodySlots ≤ s.domain.custody.length then some declineTableFull
  else none

/-- Admit an offered record as ARRIVING and accept it (R98); an ACCEPT the queue refuses removes it again (R100). -/
def admitOffer (s : State) (sender u : Nat) (r : Record) : State :=
  let h : Holding := ⟨r, s.domain.clock - u, .arriving s.domain.clock sender⟩
  let s1 := s.withCustody (s.domain.custody ++ [h])
  let (s2, taken) := send s1 ⟨sender, .accept, beBytes 6 r.id⟩ (.accept r.id)
  if taken then s2 else acceptResolved s2 r.id .queueFull

def takeOffer (t : RxTelegram) (s : State) : State :=
  if t.payload.length ≠ 131 then s
  else
    let r := recordAt t.payload 5
    if recordCheck r then
      match declineReason s (field t.payload 0 1) r.id with
      | some why => sendPlain s ⟨t.sender, .decline, beBytes 6 r.id ++ beBytes 1 why⟩
      | none => admitOffer s t.sender (field t.payload 1 4) r
    else s

/-- OFFER taken. -/
def execOffer (s : State) : Host.Outcome State Fault Refusal := .next (taking .offer s takeOffer)

/-! ### ACCEPT and DECLINE at the owner (R102, R103) -/

/-- The open offer that an answer from `sender` about `id` belongs to. -/
def State.answeredOffer? (s : State) (id sender : Nat) : Option Offer :=
  s.offers.find? fun o => o.id == id && o.target == sender && o.phase == .answered

def takeAccept (t : RxTelegram) (s : State) : State :=
  let id := field t.payload 0 6
  if t.payload.length ≠ 6 then s
  else
    match s.answeredOffer? id t.sender with
    | none => s
    | some o =>
      let s1 := (s.withOffers (s.offers.filter (·.id ≠ id))).remove id
      sendPlain (dropAtBuddy s1 id)
        (replyTelegram o.requester .move .moveDone 0 0 (beBytes 6 id ++ beBytes 1 o.target ++ beBytes 1 o.compartment))

/-- ACCEPT taken. -/
def execAccept (s : State) : Host.Outcome State Fault Refusal := .next (taking .accept s takeAccept)

def takeDecline (t : RxTelegram) (s : State) : State :=
  let id := field t.payload 0 6
  if t.payload.length ≠ 7 then s
  else
    match s.answeredOffer? id t.sender with
    | none => s
    | some o => answerMoveFailed (closeOffer s id) o subDeclined (field t.payload 6 1)

/-- DECLINE taken. -/
def execDecline (s : State) : Host.Outcome State Fault Refusal := .next (taking .decline s takeDecline)

/-! ### MIRROR-PUT and MIRROR-DROP at the buddy (R141, R146) -/

/-- Modes in which a MIRROR-PUT is dealt with when taken (R141). -/
def Mode.storesMirrors : Mode → Bool
  | .active | .holdPending | .hold => true
  | _ => false

/-- Store a carried record under its key: in place when the key is present, at the end otherwise (R138). The room
test has left a slot; a full table takes nothing (log entry 14). -/
def storeMirror (l : List MirrorRecord) (m : MirrorRecord) : List MirrorRecord :=
  let same (x : MirrorRecord) : Bool := x.owner == m.owner && x.record.id == m.record.id
  if l.any same then updateWhere same (fun _ => m) l
  else if Config.mirrorSlots ≤ l.length then l
  else l ++ [m]

def takeMirrorPut (t : RxTelegram) (s : State) : State :=
  let r := recordAt t.payload 4
  if t.payload.length = 130 ∧ recordCheck r = true ∧ s.mode.storesMirrors = true then
    s.withMirror (storeMirror s.domain.mirror ⟨t.sender, seqOf (field t.payload 0 4), r⟩)
  else s

/-- MIRROR-PUT taken. -/
def execMirrorPut (s : State) : Host.Outcome State Fault Refusal := .next (taking .mirrorPut s takeMirrorPut)

def takeMirrorDrop (t : RxTelegram) (s : State) : State :=
  let id := field t.payload 0 6
  if t.payload.length ≠ 6 then s
  else s.withMirror (s.domain.mirror.filter fun m => !(m.owner == t.sender && m.record.id == id))

/-- MIRROR-DROP taken. -/
def execMirrorDrop (s : State) : Host.Outcome State Fault Refusal := .next (taking .mirrorDrop s takeMirrorDrop)

/-! ### RESTORE-ASK at the buddy (R148) -/

/-- Put a session in its asker's slot, or in a free one. -/
def placeSession (l : List Session) (x : Session) : List Session :=
  if l.any (·.asker == x.asker) then updateWhere (·.asker == x.asker) (fun _ => x) l else l ++ [x]

/-- Open a restore session and queue its RESTORE-BEGIN. -/
def openSession (s : State) (asker : Nat) : State :=
  let x : Session := ⟨asker, (s.domain.mirror.filter (·.owner == asker)).map (·.record.id), 0, 0⟩
  let s1 := (s.withSessions (placeSession s.sessions x)).withQueue (s.bus.queue.map (markEnded (· == asker)))
  let (s2, taken) := send s1
    ⟨asker, .restoreBegin, beBytes 4 s.tripNumber ++ beBytes 4 s.domain.clock ++ beBytes 1 x.keys.length⟩
    (.session asker false true)
  if taken then s2 else endSession s2 asker

def takeRestoreAsk (t : RxTelegram) (s : State) : State :=
  if t.payload.length = 4 ∧ s.mode = .active ∧ s.store.tripId = some (field t.payload 0 4) ∧
      ((s.sessions.any (·.asker == t.sender)) = true ∨ s.sessions.length < Config.sessionSlots) then
    openSession s t.sender
  else s

/-- RESTORE-ASK taken. -/
def execRestoreAsk (s : State) : Host.Outcome State Fault Refusal := .next (taking .restoreAsk s takeRestoreAsk)

/-! ### The restore answers at the rejoining owner (R151 to R153) -/

def takeRestoreBegin (t : RxTelegram) (s : State) : State :=
  let clock := field t.payload 4 4
  if t.payload.length = 9 ∧ s.mode = .rejoining ∧ s.rejoin = .asking ∧
      s.store.tripId = some (field t.payload 0 4) then
    { s with
      rejoin := .receiving (clock + Config.restoreSeconds) (field t.payload 8 1)
      domain := { s.domain with clock := clock } }
  else s

/-- RESTORE-BEGIN taken. -/
def execRestoreBegin (s : State) : Host.Outcome State Fault Refusal := .next (taking .restoreBegin s takeRestoreBegin)

/-- The close of the last epoch a buddy's copy was stepped for: (q + 1)·E, and 0 for "none" (R152). -/
def closeOf (q : Option Nat) (e : Nat) : Nat :=
  match q with
  | none => 0
  | some n => (n + 1) * e

/-- A restored record (R152): gap since the copy's last epoch, the open leg closed, a restored leg. -/
def restoredRecord (s : State) (q : Option Nat) (r : Record) : Record :=
  let closed := closeOf q s.committed.epoch
  { addLeg r (writtenTime closed) ⟨s.compartment, s.address, s.domain.clock, none, true⟩ with
    gap := satAdd Config.max32 r.gap (s.domain.clock - closed)
    restored := true
    unmirrored := true }

def setIncomplete (s : State) : State := { s with domain := { s.domain with restoreIncomplete := true } }

def takeRestoreRecord (t : RxTelegram) (s : State) : State :=
  let r := recordAt t.payload 4
  match s.rejoin with
  | .receiving _ _ =>
    if t.payload.length = 130 ∧ recordCheck r = true ∧ s.mode = .rejoining then
      if (s.find r.id).isSome ∨ Config.custodySlots ≤ s.domain.custody.length then setIncomplete s
      else s.admitHeld ⟨restoredRecord s (seqOf (field t.payload 0 4)) r, s.domain.clock, .held⟩
    else s
  | _ => s

/-- RESTORE-RECORD taken. -/
def execRestoreRecord (s : State) : Host.Outcome State Fault Refusal :=
  .next (taking .restoreRecord s takeRestoreRecord)

def takeRestoreEnd (t : RxTelegram) (s : State) : State :=
  match s.rejoin with
  | .receiving _ n =>
    if t.payload.length = 1 ∧ s.mode = .rejoining then
      rejoinActive (if field t.payload 0 1 < n then setIncomplete s else s)
    else s
  | _ => s

/-- RESTORE-END taken. -/
def execRestoreEnd (s : State) : Host.Outcome State Fault Refusal := .next (taking .restoreEnd s takeRestoreEnd)

end Sys2Proof.Machine
end

