-- ==== Sys2Proof/Machine/Probes.lean ====
section
/-!
DEFINITION. Events of the probe lines (R25 to R28) and of the door inputs (R57 to R60).
-/
namespace Sys2Proof.Machine

/-- RISING_EDGE (R25, R26). -/
def execRisingEdge (probe : Fin 4) (count : Nat) (s : State) : Host.Outcome State Fault Refusal :=
  .next (s.updateChannel probe fun c => c.rise count s.domain.clock)

/-- FALLING_EDGE (R26). -/
def execFallingEdge (probe : Fin 4) (count : Nat) (s : State) : Host.Outcome State Fault Refusal :=
  .next (s.updateChannel probe fun c => c.fall count)

/-- RUN_OUT_IN_ARMING (R25). -/
def execRunOutInArming (probe : Fin 4) (level : LineLevel) (s : State) : Host.Outcome State Fault Refusal :=
  .next (s.updateChannel probe fun c => c.runOutArming level s.domain.clock)

/-- RUN_OUT_IN_MEASURING (R27). -/
def execRunOutInMeasuring (probe : Fin 4) (s : State) : Host.Outcome State Fault Refusal :=
  .next (s.updateChannel probe fun c => c.runOutMeasuring s.domain.clock)

/-- The input after its line takes a level: a running input's 250 ms begin again, or are cancelled by a return to the
accepted state (R57); a stopped input only has a new level (R56). -/
def DoorInput.lineTo (d : DoorInput) (level : LineLevel) : DoorInput :=
  if d.line = level then d
  else if d.running then { d with line := level, settling := !(d.accepted == some (doorStateOf level)) }
  else { d with line := level }

/-- DOOR_LINE_LEVEL_CHANGE (R57). -/
def execDoorLineLevelChange (input : Fin 4) (level : LineLevel) (s : State) : Host.Outcome State Fault Refusal :=
  .next { s with inputs := s.inputs.set input ((s.inputs.get input).lineTo level) }

/-- The input after its line held a level for 250 ms: the accepted state follows it, and an accepted change from
CLOSED to OPEN is an opening (R57, R58). -/
def DoorInput.settle (d : DoorInput) : DoorInput :=
  { d with
    accepted := some (doorStateOf d.line)
    settling := false
    count := if d.accepted = some .closed ∧ doorStateOf d.line = .opened then (d.count + 1) % 65536 else d.count }

/-- An input's accepted state follows its line, is sighted locally and announced (R59, R60). -/
def settleInput (s : State) (input : Fin 4) : State :=
  announce { s with inputs := s.inputs.set input (s.inputs.get input).settle } input

/-- INITIAL_ACCEPTANCE (R57): the first level held since the input started. -/
def execInitialAcceptance (input : Fin 4) (s : State) : Host.Outcome State Fault Refusal :=
  let d := s.inputs.get input
  .next (if s.running && d.running && d.settling && d.accepted.isNone then settleInput s input else s)

/-- ACCEPTED_CHANGE (R57, R58): a level other than the accepted state's was held. -/
def execAcceptedChange (input : Fin 4) (s : State) : Host.Outcome State Fault Refusal :=
  let d := s.inputs.get input
  .next (if s.running && d.running && d.settling && d.accepted.any (· != doorStateOf d.line) then settleInput s input
    else s)

end Sys2Proof.Machine
end

