-- ==== Sys2Proof/Machine/Supply.lean ====
section
/-!
DEFINITION. The ends of Setup Store writes (R153, R167, R168), the supply monitor (R169, R170), the stop of the core,
the backup cell, and a start (R171, R172).
-/
namespace Sys2Proof.Machine

/-! ### Ends of Setup Store writes -/

/-- The REPLY that ends a TRIP-START (R167). -/
def tripStartReply (s : State) (requester : Nat) (r : Result) (tripId : Nat) (more : List Byte) : State :=
  sendPlain s (replyTelegram requester .tripStart r 0 0 (beBytes 4 tripId ++ more))

/-- The end of the TRIP-START write. -/
def tripStartEnds (completed : Bool) (s : State) : State :=
  match s.storeWrite with
  | none => s
  | some w =>
    match w.job with
    | .tripStart requester disabled =>
      if completed then
        tripStartReply (becomeActive (startBlocks (tripStarted s w))) requester .ok (w.tripId.getD 0)
          (beBytes 1 disabled)
      else
        tripStartReply { s with mode := .idle, storeWrite := none } requester .setupWriteFailed (w.tripId.getD 0) []
    | _ => s

/-- TRIP_START_WRITE_END (R167). -/
def execTripStartWriteEnd (completed : Bool) (s : State) : Host.Outcome State Fault Refusal :=
  .next (if s.running && s.mode == .starting then tripStartEnds completed s else s)

/-- The end of the TRIP-END write. -/
def tripEndEnds (completed : Bool) (s : State) : State :=
  match s.storeWrite with
  | none => s
  | some w =>
    match w.job with
    | .tripEnd requester =>
      let reply (r : Result) := replyTelegram requester .tripEnd r 0 0 []
      if completed then sendPlain (tripOver { s with store := Store.written w, storeWrite := none }) (reply .ok)
      else sendPlain (becomeActive { s with storeWrite := none }) (reply .setupWriteFailed)
    | _ => s

/-- TRIP_END_WRITE_END (R168). -/
def execTripEndWriteEnd (completed : Bool) (s : State) : Host.Outcome State Fault Refusal :=
  .next (if s.running && s.mode == .ending then tripEndEnds completed s else s)

/-- REJOIN_END_WRITE_END (R153): IDLE, whether the write completes or fails. -/
def execRejoinEndWriteEnd (completed : Bool) (s : State) : Host.Outcome State Fault Refusal :=
  .next (if s.running && s.mode == .rejoining && s.rejoin == .ending then
      match s.storeWrite with
      | none => s
      | some w => tripOver { s with store := if completed then Store.written w else s.store, storeWrite := none }
    else s)

/-! ### The supply monitor -/

/-- SUPPLY_BELOW_WARNING (R169): the supply's reading; below 8.0 V in ACTIVE it leads to HOLD_PENDING. A reading that does
not cross this command's own level is only kept (DESIGN CHOICE, log entry 11). -/
def execSupplyBelowWarning (millivolts : Nat) (s : State) : Host.Outcome State Fault Refusal :=
  let s1 := { s with supplyMv := millivolts }
  .next (if s.running && s.mode == .active && decide (millivolts < Config.warningMv) then enterHoldPending s1 else s1)

/-- SUPPLY_ABOVE_RELEASE (R170): the supply's reading; above 8.6 V in HOLD it leads back to ACTIVE. A reading that does not
cross this command's own level is only kept (DESIGN CHOICE, log entry 11). -/
def execSupplyAboveRelease (millivolts : Nat) (s : State) : Host.Outcome State Fault Refusal :=
  let s1 := { s with supplyMv := millivolts }
  .next (if s.running && s.mode == .hold && decide (Config.releaseMv < millivolts) then leaveHold s1 else s1)

/-! ### Stop, cell and start -/

/-- A write under way when the core stops ends in one content or the other (R167); a landed end of trip also ends
the clock's counting (R39). A landed TRIP-START does not start it: R39 does not say whether a write that lands at the stop is
the completion from which the clock counts (DESIGN CHOICE, log entry 49). -/
def writeStops (landed : Bool) (s : State) : State :=
  match s.storeWrite with
  | none => s
  | some w =>
    if landed then
      { s with
        store := Store.written w
        storeWrite := none
        domain := { s.domain with counting := s.domain.counting && decide (w.tripState = .running) } }
    else { s with storeWrite := none }

/-- The backup domain without power: nothing of it is left (R171). -/
def loseDomain (s : State) : State := { s with domain := Domain.cleared s.store.setup.doorMap }

/-- CORE_STOP (R171): the domain runs on from the cell, unless the cell has fallen below its retention level. -/
def execCoreStop (cause : StopCause) (landed : Bool) (s : State) : Host.Outcome State Fault Refusal :=
  .next (if s.running then
      let s1 := writeStops landed { s with running := false, stopCause := cause }
      if s1.cellFell then loseDomain s1 else s1
    else s)

/-- BACKUP_CELL_BELOW_RETENTION (R171): with the core stopped the domain is lost at once; while the core runs the
domain is held by the core's supply until the core stops (log entry 10). -/
def execBackupCellBelowRetention (s : State) : Host.Outcome State Fault Refusal :=
  let s1 := { s with cellFell := true }
  .next (if s.running then s1 else loseDomain s1)

/-- The cause that the test of the domain gives (R171). -/
def startCause (s : State) (domainGood : Bool) : ResetCause :=
  if s.cellFell then .supplyCold
  else if !domainGood then .retentionFault
  else match s.stopCause with
    | .resetPin => .resetPin
    | .supply => .supplyWarm

/-- START (R164, R171, R172): from a stopped core only. A start into UNSTRAPPED tests no domain and keeps the last reset
cause (log entry 43). -/
def execStart (straps : BitVec 4) (domainGood storeGood : Bool) (millivolts : Nat) (s : State) :
    Host.Outcome State Fault Refusal :=
  let good := storeGood && s.store.checkGood
  let s1 := restartVolatile { s with supplyMv := millivolts, address := straps.toNat }
    (if good then s.store.setup else Setup.default)
  .next (if s.running then s
    else if straps = 0 then { s1 with mode := .unstrapped }
    else proceed { s1 with resetCause := startCause s domainGood } (s.cellFell || !domainGood) good)

end Sys2Proof.Machine
end

