-- ==== Sys2Proof/Machine/Timers.lean ====
section
/-!
DEFINITION. Timed events: the epoch expiry (R42) with all that it hands on (TABLE 3-5, R140), the window expiry (R66),
the deadlines of offers, roster and REJOINING, the second of HOLD_PENDING, and the passing of one second of the trip
clock (R39), which raises those that have fallen due. A timed event that is not due changes nothing.
-/
namespace Sys2Proof.Machine

/-! ### The epoch expiry -/

/-- A MIRROR-PUT of the record waits in the queue or is in transmission (R140). -/
def putOutstanding (q : List TxEntry) (id : Nat) : Bool :=
  q.any fun e => match e.origin with
    | .mirrorPut x _ => x == id
    | _ => false

/-- A MIRROR-DROP for the id waits in the queue or is in transmission (R145). -/
def dropOutstanding (q : List TxEntry) (id : Nat) : Bool :=
  q.any fun e => match e.origin with
    | .mirrorDrop x => x == id
    | _ => false

/-- The re-puts of an expiry (R140): the oldest UNMIRRORED HELD records without a put outstanding, at most `room`. -/
def rePut (s : State) (room : Nat) : List Holding → State
  | [] => s
  | h :: hs =>
    if h.state = .held ∧ h.record.unmirrored = true ∧ putOutstanding s.bus.queue h.record.id = false ∧ 0 < room then
      rePut (putToBuddy s h.record) (room - 1) hs
    else rePut s room hs

/-- The re-sent drop of an expiry (R145). -/
def reDrop (s : State) : State :=
  match s.committed.buddy, s.domain.drops with
  | some b, id :: _ => if dropOutstanding s.bus.queue id then s else queueDrop s b id
  | _, _ => s

/-- The BEACON of an expiry in ACTIVE (R52, R126). -/
def beaconNow (s : State) (m : Summary) : Beacon where
  tripId := s.tripNumber
  clock := s.domain.clock
  compartment := s.compartment
  epoch := s.committed.epoch
  sequence := m.sequence
  temps := m.temps
  grace := m.grace
  used := m.used
  mode := s.mode.code
  restartCount := s.domain.restartCount
  resetCause := s.resetCause.code
  custodyCount := s.domain.custody.length
  alerts := s.alertReasons
  doors := ([0, 1, 2, 3] : List (Fin 4)).filterMap (doorReport s)

/-- The telegrams of an expiry in ACTIVE, in the order of R140. -/
def expiryTelegrams (s : State) (m : Summary) : State :=
  let s1 := if s.committed.buddy.isSome then rePut s Config.rePutsPerExpiry s.domain.custody else s
  let s2 := reDrop s1
  sendBeacon s2 ⟨0, .beacon, beaconBytes (beaconNow s2 m)⟩

/-- An expiry is due: the clock, counting in a mode that raises expiries, stands at the timer's next one (R42, R43). -/
def State.expiryDue (s : State) : Bool :=
  s.running && s.mode.runsEpochs && decide (s.domain.clock = s.nextExpiry) && decide (0 < s.domain.clock)

/-- The work of an epoch expiry. -/
def expire (s : State) : State :=
  let s1 := takeReadings { s with nextExpiry := s.nextExpiry + s.committed.epoch }
  match s1.lastSummary with
  | none => s1
  | some m =>
    let s2 := s1.withCustody (s1.domain.custody.map (stepHolding m))
    if s2.mode = .active then expiryTelegrams s2 m else s2

/-- EPOCH_EXPIRY (R42). -/
def execEpochExpiry (s : State) : Host.Outcome State Fault Refusal := .next (if s.expiryDue then expire s else s)

/-! ### Other deadlines -/

/-- The window of the tracker has reached its end (R66). -/
def State.windowDue (s : State) : Bool :=
  s.running && s.mode.runsEpochs &&
    (match s.domain.tracker.phase with
     | .grace w => decide (w + s.committed.grace ≤ s.domain.clock)
     | _ => false)

/-- WINDOW_EXPIRY (R66). -/
def execWindowExpiry (s : State) : Host.Outcome State Fault Refusal :=
  .next (if s.windowDue then s.withTracker s.domain.tracker.windowEnded else s)

/-- The offer awaits an answer and its deadline has come (R96). -/
def Offer.timedOut (clock : Nat) (o : Offer) : Bool :=
  match o.phase with
  | .awaiting d => decide (d ≤ clock)
  | _ => false

/-- ANSWER_TIMEOUT (R96). -/
def execAnswerTimeout (id : Nat) (s : State) : Host.Outcome State Fault Refusal :=
  .next (if s.running then
      match s.offers.find? fun o => o.id == id && o.timedOut s.domain.clock with
      | none => s
      | some o => answerMoveFailed (closeOffer s id) o subNoAnswer 0
    else s)

/-- The entry's silence deadline has come: LIVE, or UNHEARD with a deadline, which only the buddy's has (R130). -/
def RosterEntry.overdue (clock : Nat) (e : RosterEntry) : Bool :=
  (e.state == .live || e.state == .unheard) && e.deadline.any fun d => decide (d ≤ clock)

/-- SILENCE_DEADLINE (R130). -/
def execSilenceDeadline (address : Nat) (s : State) : Host.Outcome State Fault Refusal :=
  .next (if s.running && s.mode.runsEpochs then
      s.updatePeer address fun e =>
        if e.overdue s.domain.clock then { e with state := .silent, deadline := none } else e
    else s)

/-- The core is in REJOINING. -/
def State.rejoins (s : State) : Bool := s.running && s.mode == .rejoining

def State.askingOver (s : State) : Bool :=
  s.rejoins && s.rejoin == .asking && decide (Config.askSeconds ≤ s.domain.clock)

/-- ASKING_TIMEOUT (R150). -/
def execAskingTimeout (s : State) : Host.Outcome State Fault Refusal :=
  .next (if s.askingOver then s.withRejoin .listening else s)

def State.receivingOver (s : State) : Bool :=
  s.rejoins && (match s.rejoin with
    | .receiving d _ => decide (d ≤ s.domain.clock)
    | _ => false)

/-- RESTORE_DEADLINE (R151). -/
def execRestoreDeadline (s : State) : Host.Outcome State Fault Refusal :=
  .next (if s.receivingOver then
      rejoinActive { s with domain := { s.domain with restoreIncomplete := true } }
    else s)

def State.listeningOver (s : State) : Bool :=
  s.rejoins && s.rejoin == .listening && decide (2 * s.committed.epoch + 10 ≤ s.domain.clock)

/-- LISTENING_TIMEOUT (R153): "ended" is written; the clock holds the value it reached (R39, log entry 13). -/
def execListeningTimeout (s : State) : Host.Outcome State Fault Refusal :=
  .next (if s.listeningOver then
      { s with
        rejoin := .ending
        storeWrite := some ⟨s.store.setup, s.store.tripId, .ended, .rejoinEnd⟩
        domain := { s.domain with counting := false } }
    else s)

/-- HOLD_PENDING_TIMEOUT (R169). -/
def execHoldPendingTimeout (s : State) : Host.Outcome State Fault Refusal :=
  .next (if s.running && s.mode == .holdPending then enterHold s else s)

/-! ### One second of the trip clock -/

/-- The timed events that have fallen due. -/
def dueEvents (s : State) : List Instr :=
  (if s.expiryDue then [.epochExpiry] else []) ++
  (if s.windowDue then [.windowExpiry] else []) ++
  (if s.running then
    (s.offers.filter (·.timedOut s.domain.clock)).map fun o => Instr.answerTimeout o.id else []) ++
  (if s.running && s.mode.runsEpochs then
    (s.roster.filter (·.overdue s.domain.clock)).map fun e => Instr.silenceDeadline e.address else []) ++
  (if s.askingOver then [.askingTimeout] else []) ++
  (if s.receivingOver then [.restoreDeadline] else []) ++
  (if s.listeningOver then [.listeningTimeout] else [])

/-- One of the orders of a list, chosen by a number; every order is chosen by some number. -/
def arrange (k : Nat) : List Instr → List Instr
  | [] => []
  | c :: cs => (arrange (k / (cs.length + 1)) cs).insertIdx (k % (cs.length + 1)) c

/-- The trip clock counts: between a completed TRIP-START and a completed TRIP-END, while the core runs or the backup
cell holds the domain, and not beyond its largest value (R39). -/
def State.clockCounts (s : State) : Bool :=
  s.domain.counting && (s.running || !s.cellFell) && decide (s.domain.clock < Config.max32)

/-- What happens while no command waits: one second of the trip clock passes, and the timed events that fall due wait
to be taken, in an order left open (log entries 2 and 5). A clock that does not count leaves the recorder idle. -/
def tick (s : State) : State :=
  if s.clockCounts then
    let s1 := { s with domain := { s.domain with clock := s.domain.clock + 1 } }
    let due := dueEvents s1
    if due.length ≤ 1 then { s1 with pending := due }
    else { s1 with pending := arrange (Config.coincidenceOrder s1.freeCount) due, freeCount := s1.freeCount + 1 }
  else s

end Sys2Proof.Machine
end

