-- ==== Sys2Proof/Machine/Dispatch.lean ====
section
/-!
DEFINITION. One arm per command, in the order of spec/opcode_table.json.
-/
namespace Sys2Proof.Machine

def exec (i : Instr) (s : State) : Host.Outcome State Fault Refusal :=
  match i with
  | .configSet => Sys2Proof.Machine.execConfigSet s
  | .tripStart => Sys2Proof.Machine.execTripStart s
  | .tripEnd => Sys2Proof.Machine.execTripEnd s
  | .load => Sys2Proof.Machine.execLoad s
  | .move => Sys2Proof.Machine.execMove s
  | .release => Sys2Proof.Machine.execRelease s
  | .queryStation => Sys2Proof.Machine.execQueryStation s
  | .queryRecord => Sys2Proof.Machine.execQueryRecord s
  | .list => Sys2Proof.Machine.execList s
  | .discardMirror => Sys2Proof.Machine.execDiscardMirror s
  | .beacon => Sys2Proof.Machine.execBeacon s
  | .door => Sys2Proof.Machine.execDoor s
  | .hold => Sys2Proof.Machine.execHold s
  | .offer => Sys2Proof.Machine.execOffer s
  | .accept => Sys2Proof.Machine.execAccept s
  | .decline => Sys2Proof.Machine.execDecline s
  | .mirrorPut => Sys2Proof.Machine.execMirrorPut s
  | .mirrorDrop => Sys2Proof.Machine.execMirrorDrop s
  | .restoreAsk => Sys2Proof.Machine.execRestoreAsk s
  | .restoreBegin => Sys2Proof.Machine.execRestoreBegin s
  | .restoreRecord => Sys2Proof.Machine.execRestoreRecord s
  | .restoreEnd => Sys2Proof.Machine.execRestoreEnd s
  | .acknowledgeSlot frame => Sys2Proof.Machine.execAcknowledgeSlot frame s
  | .busIdle => Sys2Proof.Machine.execBusIdle s
  | .arbitrationLoss => Sys2Proof.Machine.execArbitrationLoss s
  | .lineError => Sys2Proof.Machine.execLineError s
  | .telegramAbandoned => Sys2Proof.Machine.execTelegramAbandoned s
  | .telegramOutcome acked => Sys2Proof.Machine.execTelegramOutcome acked s
  | .offerOutcome acked => Sys2Proof.Machine.execOfferOutcome acked s
  | .acceptOutcome acked => Sys2Proof.Machine.execAcceptOutcome acked s
  | .certificateReplyOutcome acked => Sys2Proof.Machine.execCertificateReplyOutcome acked s
  | .mirrorPutOutcome acked => Sys2Proof.Machine.execMirrorPutOutcome acked s
  | .mirrorDropOutcome acked => Sys2Proof.Machine.execMirrorDropOutcome acked s
  | .holdOutcome acked => Sys2Proof.Machine.execHoldOutcome acked s
  | .restoreAskOutcome acked => Sys2Proof.Machine.execRestoreAskOutcome acked s
  | .restoreSessionOutcome acked => Sys2Proof.Machine.execRestoreSessionOutcome acked s
  | .epochExpiry => Sys2Proof.Machine.execEpochExpiry s
  | .windowExpiry => Sys2Proof.Machine.execWindowExpiry s
  | .answerTimeout id => Sys2Proof.Machine.execAnswerTimeout id s
  | .silenceDeadline address => Sys2Proof.Machine.execSilenceDeadline address s
  | .askingTimeout => Sys2Proof.Machine.execAskingTimeout s
  | .restoreDeadline => Sys2Proof.Machine.execRestoreDeadline s
  | .listeningTimeout => Sys2Proof.Machine.execListeningTimeout s
  | .holdPendingTimeout => Sys2Proof.Machine.execHoldPendingTimeout s
  | .risingEdge probe count => Sys2Proof.Machine.execRisingEdge probe count s
  | .fallingEdge probe count => Sys2Proof.Machine.execFallingEdge probe count s
  | .runOutInArming probe level => Sys2Proof.Machine.execRunOutInArming probe level s
  | .runOutInMeasuring probe => Sys2Proof.Machine.execRunOutInMeasuring probe s
  | .doorLineLevelChange input level => Sys2Proof.Machine.execDoorLineLevelChange input level s
  | .initialAcceptance input => Sys2Proof.Machine.execInitialAcceptance input s
  | .acceptedChange input => Sys2Proof.Machine.execAcceptedChange input s
  | .tripStartWriteEnd completed => Sys2Proof.Machine.execTripStartWriteEnd completed s
  | .tripEndWriteEnd completed => Sys2Proof.Machine.execTripEndWriteEnd completed s
  | .rejoinEndWriteEnd completed => Sys2Proof.Machine.execRejoinEndWriteEnd completed s
  | .supplyBelowWarning millivolts => Sys2Proof.Machine.execSupplyBelowWarning millivolts s
  | .supplyAboveRelease millivolts => Sys2Proof.Machine.execSupplyAboveRelease millivolts s
  | .coreStop cause landed => Sys2Proof.Machine.execCoreStop cause landed s
  | .start straps domainGood storeGood millivolts => Sys2Proof.Machine.execStart straps domainGood storeGood millivolts s
  | .sampledLengthAbove160 length => Sys2Proof.Machine.execSampledLengthAbove160 length s
  | .backupCellBelowRetention => Sys2Proof.Machine.execBackupCellBelowRetention s

end Sys2Proof.Machine
end

