-- ==== Sys2Proof/Safety.lean ====
section
/-!
DEFINITION. What a sound state of the recorder is: the laws of the manual ("the following law holds"), each as a
predicate of one state, in the terms the statements use.
-/
namespace Sys2Proof.Machine

/-! ### Tables -/

/-- R13: at most 48 records, never two with one consignment id. -/
abbrev State.custodyLaw (s : State) : Prop :=
  s.domain.custody.length ≤ Config.custodySlots ∧ (s.domain.custody.map (·.record.id)).Nodup

/-- The key of a mirror record (R138). -/
def MirrorRecord.key (m : MirrorRecord) : Nat × Nat := (m.owner, m.record.id)

/-- R138: at most 48 mirror records, never two with one owner and consignment id. -/
def State.mirrorLaw (s : State) : Prop :=
  s.domain.mirror.length ≤ Config.mirrorSlots ∧ (s.domain.mirror.map MirrorRecord.key).Nodup

/-- TABLE 9-4, R144: at most eight pending ids, no two alike; the discarded-drop count has 16 bits. -/
def State.dropLaw (s : State) : Prop :=
  s.domain.drops.length ≤ Config.dropSlots ∧ s.domain.drops.Nodup ∧ s.domain.discardedDrops ≤ Config.max16

/-- Queued BEACONs. -/
def beaconCount (q : List TxEntry) : Nat := (q.filter fun e => e.telegram.kind == .beacon).length

/-- R118: at most 8 telegrams in the transmit queue, of which at most one is a BEACON; at most 4 in the receive
buffer. The recorder sends one telegram at a time (R119). -/
def State.busLaw (s : State) : Prop :=
  s.bus.queue.length ≤ Config.queueSlots ∧ beaconCount s.bus.queue ≤ 1 ∧
    (s.bus.queue.filter (·.sending)).length ≤ 1 ∧ s.bus.rx.length ≤ Config.bufferSlots

/-- R113, R122: with the bus off in HOLD and UNSTRAPPED no telegram waits or is in transmission. -/
def State.silentLaw (s : State) : Prop :=
  s.running = true → (s.mode = .hold ∨ s.mode = .unstrapped) → s.bus.queue = [] ∧ s.bus.beaconHold = none

/-! ### Records -/

/-- R9: between 1 and 6 legs, and exactly one leg without an exit time, its last. -/
def legsLaw (ls : List Leg) : Prop :=
  1 ≤ ls.length ∧ ls.length ≤ Config.maxLegs ∧ (∀ l ∈ ls.dropLast, l.exit ≠ none) ∧
    (∀ l ∈ ls.getLast?, l.exit = none)

/-- R3, R8, R9: accounts and gap lie between 0 and 4,294,967,295, and the counts within their widths. -/
def accountsLaw (r : Record) : Prop :=
  r.warm ≤ Config.max32 ∧ r.cold ≤ Config.max32 ∧ r.door ≤ Config.max32 ∧ r.gap ≤ Config.max32 ∧
    r.openings ≤ Config.max16 ∧ r.elided ≤ Config.max8

/-- R3, R9: the legs and the accounts of every record, held or mirrored. -/
def State.recordLaw (s : State) : Prop :=
  (∀ h ∈ s.domain.custody, legsLaw h.record.legs ∧ accountsLaw h.record) ∧
    (∀ m ∈ s.domain.mirror, legsLaw m.record.legs ∧ accountsLaw m.record)

/-! ### The setup (TABLE 11-2) -/

/-- Every item of a setup lies in its range (TABLE 11-2, R165); a door map names each door once. -/
def Setup.inRange (u : Setup) : Prop :=
  (∀ c ∈ u.compartment, 1 ≤ c ∧ c ≤ 15) ∧ (10 ≤ u.epoch ∧ u.epoch ≤ 600) ∧ u.prescale ≤ 7 ∧
  (∀ i, 1 ≤ (u.probes.get i).k ∧ (u.probes.get i).k ≤ 16) ∧ (∀ i, ∀ d ∈ u.localDoors.get i, d ≤ 15) ∧
  u.doorMap.length ≤ 8 ∧ u.doorMap.Nodup ∧ (∀ d ∈ u.doorMap, d ≤ 15) ∧ u.grace ≤ 1800 ∧
  (∀ b ∈ u.buddy, 1 ≤ b ∧ b ≤ 15) ∧ u.classes.length = 8 ∧ (∀ c ∈ u.classes, limitsInRange c.limits = true)

/-- R165: every setup held (staged, committed, or being written) is in range. -/
def State.setupLaw (s : State) : Prop :=
  s.staged.inRange ∧ s.store.setup.inRange ∧ (∀ w ∈ s.storeWrite, w.setup.inRange)

/-! ### Temperatures (R32) -/

def readingInRange (c : Channel) : Prop := ∀ r ∈ c.reading, optTempInRange r.status.value? = true

/-- R32: every temperature the recorder holds (reading, filter value, summary value, peak, low, class limit) lies
between −500 and +700 tenths of a degree. -/
def State.tempLaw (s : State) : Prop :=
  s.setupLaw ∧
  (∀ i, readingInRange (s.channels.get i)) ∧
  (∀ i, tempInRange (s.domain.filters.get i).value = true) ∧
  (∀ m ∈ s.lastSummary, ∀ t ∈ m.temps, tempInRange t.warm = true ∧ tempInRange t.cold = true) ∧
  (∀ h ∈ s.domain.custody, recordTempsInRange h.record = true) ∧
  (∀ m ∈ s.domain.mirror, recordTempsInRange m.record = true)

/-! ### Capture channels -/

/-- R22, R26, R29: H lies between 1 and P − 1, and P below the run-out. -/
def measurementLaw (m : Measurement) : Prop := 1 ≤ m.high ∧ m.high < m.period ∧ m.period < Config.runOutCounts

/-- R25 to R27: the counter does not pass the run-out, a captured H lies between 1 and the counter, and one is held in
MEASURING only. -/
def channelLaw (c : Channel) : Prop :=
  c.counter ≤ Config.runOutCounts ∧ (∀ h ∈ c.high, 1 ≤ h ∧ h ≤ c.counter) ∧ (c.state ≠ .measuring → c.high = none) ∧
    (∀ m ∈ c.last, measurementLaw m)

def State.captureLaw (s : State) : Prop := ∀ i, channelLaw (s.channels.get i)

/-! ### The Grace Tracker -/

/-- R62: in CLOSED no door of the map is known open. -/
def Tracker.closedLaw (t : Tracker) : Prop := t.phase = .closed → t.doors.any DoorEntry.knownOpen = false

/-- R62, R66, R72: in CLOSED no door of the map is known open; a window has started by now, and while the mode is
ACTIVE, HOLD_PENDING, HOLD or ENDING the tracker is in GRACE only within G seconds after its start, or its window expiry
waits to be taken; in REJOINING it is CLOSED. -/
def State.windowLaw (s : State) : Prop :=
  s.domain.tracker.closedLaw ∧
  (∀ w, s.domain.tracker.phase = .grace w → w ≤ s.domain.clock ∧
    (s.running = true → s.mode.runsEpochs = true →
      s.domain.clock < w + s.committed.grace ∨ Instr.windowExpiry ∈ s.pending)) ∧
  (s.running = true → s.mode = .rejoining → s.domain.tracker.phase = .closed)

/-! ### The epoch timer -/

/-- R42, R43: while expiries are raised, the next one is at a multiple of E that the clock has not passed; once the
clock has reached it, it waits to be taken. -/
def State.timerLaw (s : State) : Prop :=
  s.setupLaw ∧
  (s.running = true → s.mode.runsEpochs = true →
    s.committed.epoch ∣ s.nextExpiry ∧ 0 < s.nextExpiry ∧
    (s.domain.clock < s.nextExpiry ∨ (s.domain.clock = s.nextExpiry ∧ Instr.epochExpiry ∈ s.pending)))

/-! ### Custody operations -/

/-- The store write under way fits the mode that began it (R153, R166, R168). -/
def State.writeFits (s : State) (w : StoreWrite) : Prop :=
  s.running = true ∧
    ((s.mode = .starting ∧ w.tripState = .running) ∨ (s.mode = .ending ∧ w.tripState = .ended) ∨
     (s.mode = .rejoining ∧ s.rejoin = .ending ∧ w.tripState = .ended))

/-- Modes of a running core in which the Setup Store shows the trip running (TABLE 11-3). -/
def Mode.inTrip : Mode → Bool
  | .active | .holdPending | .hold | .rejoining | .ending => true
  | _ => false

/-- Where records may stand (R10, R21, R168): only while the store shows the trip running, and on a running core in
ACTIVE, HOLD_PENDING, HOLD and UNSTRAPPED, and in REJOINING while RECEIVING. -/
def State.custodyPlace (s : State) : Prop :=
  s.domain.custody ≠ [] → s.store.tripState = .running ∧
    (s.running = true → s.mode = .active ∨ s.mode = .holdPending ∨ s.mode = .hold ∨ s.mode = .unstrapped ∨
      (s.mode = .rejoining ∧ ∃ d n, s.rejoin = .receiving d n))

/-- R94: at most 2 open offers, and a record is OFFERED exactly when an open offer names it. (In UNSTRAPPED no block
runs: the offers are gone and the table is as the stop left it.) -/
def State.offerLaw (s : State) : Prop :=
  s.offers.length ≤ Config.offerSlots ∧ (s.offers.map (·.id)).Nodup ∧ (s.offers ≠ [] → s.mode = .active) ∧
  (s.running = true → s.mode ≠ .unstrapped →
    (∀ h ∈ s.domain.custody, h.state = .offered ↔ ∃ o ∈ s.offers, o.id = h.record.id) ∧
    (∀ o ∈ s.offers, ∃ h ∈ s.domain.custody, h.record.id = o.id))

/-- R7, R39: no accounted-to is later than the trip clock, which has 32 bits. -/
def State.clockLaw (s : State) : Prop :=
  s.domain.clock ≤ Config.max32 ∧ ∀ h ∈ s.domain.custody, h.accountedTo ≤ s.domain.clock

/-- The laws of custody operations together: each needs the others to be kept by every step. -/
def State.operationLaw (s : State) : Prop :=
  s.custodyLaw ∧ s.offerLaw ∧ s.clockLaw ∧ s.custodyPlace ∧
  (s.running = true → s.mode.inTrip = true → s.store.tripState = .running) ∧
  (∀ w ∈ s.storeWrite, s.writeFits w)

/-! ### Records from one state to the next -/

/-- What no step takes from a record that stays in the Custody Table: identity and limits (R1, R2), accounts and
counts that only grow (R3, R8), a verdict that never moves lower (R5), breach fields written once (R6), and the
CARRIED_IN and RESTORED flags (R12). -/
def keepsHistory (a b : Record) : Prop :=
  a.id = b.id ∧ a.classIndex = b.classIndex ∧ a.loadedTime = b.loadedTime ∧ a.limits = b.limits ∧
  a.warm ≤ b.warm ∧ a.cold ≤ b.cold ∧ a.door ≤ b.door ∧ a.gap ≤ b.gap ∧ a.openings ≤ b.openings ∧
  a.verdict.rank ≤ b.verdict.rank ∧ (a.verdict.rank = 3 → b.verdict = a.verdict) ∧
  a.carriedIn = b.carriedIn ∧ a.restored = b.restored

/-! ### Fields that fit their layouts (R125) -/

/-- A leg whose fields fit TABLE 7-9. -/
abbrev legFits (l : Leg) : Prop :=
  l.compartment ≤ 255 ∧ l.station ≤ 255 ∧ l.entry ≤ 4294967295 ∧ ∀ x ∈ l.exit, x ≤ 4294967295

/-- A temperature that fits two bytes of two's complement. -/
abbrev tempFits (t : Temperature) : Prop := -32768 ≤ t ∧ t ≤ 32767

/-- A record whose fields fit TABLE 7-8. -/
abbrev recordFits (r : Record) : Prop :=
  r.id < 281474976710656 ∧ r.classIndex ≤ 7 ∧ r.loadedTime ≤ 4294967295 ∧
  tempFits r.limits.tmax ∧ (∀ x ∈ r.limits.ceiling, tempFits x) ∧ (∀ x ∈ r.limits.floor, tempFits x) ∧
  (∀ x ∈ r.limits.cold, tempFits x.tmin ∧ x.budget ≤ 4294967295) ∧ r.limits.warmBudget ≤ 4294967295 ∧
  r.limits.gapAllowance ≤ 4294967295 ∧ r.warm ≤ 4294967295 ∧ r.cold ≤ 4294967295 ∧ r.door ≤ 4294967295 ∧
  r.gap ≤ 4294967295 ∧ (∀ x ∈ r.peaks, tempFits x.warm ∧ tempFits x.cold) ∧
  (∀ c x, r.verdict = .breached c x → x ≤ 4294967295) ∧ r.openings ≤ 65535 ∧ r.elided ≤ 255 ∧
  r.legs.length ≤ 6 ∧ ∀ l ∈ r.legs, legFits l

/-! ### Restore sessions, roster and counters -/

/-- R148: at most two restore sessions, never two of one asker. -/
def State.sessionLaw (s : State) : Prop :=
  s.sessions.length ≤ Config.sessionSlots ∧ (s.sessions.map (·.asker)).Nodup

/-- TABLE 8-1: one roster entry for each address from 1 to 15, in their order. -/
def State.rosterLaw (s : State) : Prop := s.roster.map (·.address) = List.range' 1 15

/-- R124: each of the six counts has 16 bits. -/
def Counters.inRange (c : Counters) : Prop :=
  c.sent ≤ Config.max16 ∧ c.notAcked ≤ Config.max16 ∧ c.lineErrors ≤ Config.max16 ∧
  c.arbitrationLosses ≤ Config.max16 ∧ c.overruns ≤ Config.max16 ∧ c.replacedBeacons ≤ Config.max16

def State.counterLaw (s : State) : Prop := s.bus.counters.inRange

/-! ### Sightings as the statements speak of them -/

/-- A tracker and a Custody Table, before or after a sighting. -/
abbrev Sights := Tracker × List Holding

/-- R64, R65, R8: what one sighting of a door from a source does. A door outside the map is passed over. Otherwise it is a
first sighting, or an advance by `n` openings; the door's entry is rewritten, the tracker changes by TABLE 4-3, and the
openings reach the HELD records. -/
def Sighting (grace clock source : Nat) (d : DoorReport) (a b : Sights) : Prop :=
  ((∀ e ∈ a.1.doors, e.door ≠ d.door) → b = a) ∧
  ∀ e, a.1.doors.find? (·.door == d.door) = some e →
    ∃ (first : Bool) (n : Nat) (phase : TrackerPhase),
      ((e.known = none ∨ ∃ k, e.known = some k ∧ k.source ≠ source) → first = true ∧ n = 0) ∧
      (∀ k, e.known = some k → k.source = source →
        (32768 ≤ (d.count + 65536 - k.count) % 65536 → first = true ∧ n = 0) ∧
        ((d.count + 65536 - k.count) % 65536 < 32768 → first = false ∧ n = (d.count + 65536 - k.count) % 65536)) ∧
      (let doors := a.1.doors.map fun x =>
          if x.door = d.door then { x with known := some ⟨d.state, d.count, source⟩ } else x
       let open' := ∃ x ∈ doors, ∃ k, x.known = some k ∧ k.state = .opened
       (a.1.phase = .closed →
         (d.state = .closed → phase = .closed) ∧
         (d.state = .opened → first = true ∨ grace = 0 → phase = .overdue) ∧
         (d.state = .opened → first = false → 0 < grace → phase = .grace clock)) ∧
       (∀ w, a.1.phase = .grace w → phase = .grace w) ∧
       (a.1.phase = .overdue → (open' → phase = .overdue) ∧ (¬ open' → phase = .closed)) ∧
       b = (⟨phase, doors⟩, a.2.map fun h =>
         if h.state = .held then
           { h with record := { h.record with openings := min (h.record.openings + n) 65535 } }
         else h))

/-- R63: door entries of one telegram are sightings one after another, in the order it lists them. -/
def Sightings (grace clock source : Nat) : List DoorReport → Sights → Sights → Prop
  | [], a, b => b = a
  | d :: ds, a, c => ∃ b, Sighting grace clock source d a b ∧ Sightings grace clock source ds b c

/-! ### How statements speak of telegrams offered for sending -/

/-- A queued MIRROR-PUT of a record that has left the table is of a stay that has ended (R139). -/
def endStay (id : Nat) (e : TxEntry) : TxEntry :=
  if e.origin = .mirrorPut id true then { e with origin := .mirrorPut id false } else e

/-- The state with every queued MIRROR-PUT of `id` marked as of a stay that has ended. -/
def State.stayEnded (s : State) (id : Nat) : State :=
  { s with bus := { s.bus with queue := s.bus.queue.map (endStay id) } }

/-- A telegram with the originator that gets its outcome. -/
abbrev Letter := TxTelegram × Origin

def TxEntry.letter (e : TxEntry) : Letter := (e.telegram, e.origin)

/-- The transmit queue as letters, in queuing order. -/
def State.outbox (s : State) : List Letter := s.bus.queue.map TxEntry.letter

/-- R118: a queue of eight refuses a telegram; another takes it at its end. -/
def post (box : List Letter) (x : Letter) : List Letter :=
  if box.length < Config.queueSlots then box ++ [x] else box

/-- R118: offered one after another; in HOLD and UNSTRAPPED the queue takes nothing. -/
def State.boxAfter (s : State) (xs : List Letter) : List Letter :=
  if s.mode.queues then xs.foldl post s.outbox else s.outbox

/-- A state with the transmit queue, the line and the model's counter of free values of another. -/
def State.transmitOf (s t : State) : State :=
  { s with bus := { s.bus with queue := t.bus.queue, line := t.bus.line }, freeCount := t.freeCount }

/-- `t` is `base` after the telegrams `xs` were offered in this order: nothing but the transmit queue, the line and
the model's counter of free values differs. -/
def Sends (base t : State) (xs : List Letter) : Prop := t = base.transmitOf t ∧ t.outbox = base.boxAfter xs

/-- A REPLY and its originator. -/
def replyLetter (dest : Nat) (request : Kind) (r : Result) (body : List Byte) : Letter :=
  (replyTelegram dest request r 0 0 body, .plain)

/-- A REPLY MOVE_FAILED with its sub-reason and decline reason (R104). -/
def failLetter (dest sub decline id : Nat) : Letter :=
  (replyTelegram dest .move .moveFailed sub decline (beBytes 6 id), .plain)

/-- The result of the first test that holds (TABLE 1-6, TABLE 6-2, TABLE 10-2). -/
def firstTrue (tests : List (Bool × Result)) : Option Result := (tests.find? (·.1)).map (·.2)

/-- A console telegram, MIRROR-PUT and so on of the right length, or not, is answered by one REPLY and nothing else
changes. -/
def AnsweredOnly (c : Instr) (s : State) (rest : List RxTelegram) (x : Letter) : Prop :=
  ∃ t, exec c s = .next t ∧ Sends (s.withRx rest) t [x]

/-- The mode becomes ACTIVE from `base` with the supply at or above the warning level: the channels of enabled probes
arm, the inputs of mapped doors start, the last summary is absent, the next expiry is the first multiple of E after the
clock, and an UNHEARD buddy gets its deadline (R24, R43, R50, R56, R130). -/
def Activates (base t : State) : Prop :=
  t = { base with
        mode := .active, lastSummary := none, nextExpiry := t.nextExpiry, channels := t.channels
        inputs := t.inputs, roster := t.roster } ∧
  base.committed.epoch ∣ t.nextExpiry ∧ base.domain.clock < t.nextExpiry ∧
  t.nextExpiry ≤ base.domain.clock + base.committed.epoch ∧
  (∀ i, t.channels.get i =
    if (base.committed.probes.get i).enabled then Channel.started else Channel.stopped) ∧
  (∀ i, t.inputs.get i =
    ⟨(base.inputs.get i).line, (base.committed.doorOf i).isSome, none, 0, (base.committed.doorOf i).isSome⟩) ∧
  t.roster = base.roster.map fun e =>
    if base.committed.buddy = some e.address ∧ e.state = .unheard then
      { e with deadline := some (base.domain.clock + 3 * base.committed.epoch) }
    else e

/-- The MIRROR-PUT of a record to the buddy, when one is configured (R139). -/
def State.putLetters (s : State) (r : Record) : List Letter :=
  s.committed.buddy.toList.map fun b => (⟨b, .mirrorPut, seqBytes s.lastSequence ++ recordBytes r⟩, .mirrorPut r.id true)

/-- The MIRROR-DROP of an id to the buddy, when one is configured (R144). -/
def State.dropLetters (s : State) (id : Nat) : List Letter :=
  s.committed.buddy.toList.map fun b => (⟨b, .mirrorDrop, beBytes 6 id⟩, .mirrorDrop id)

/-- What a start leaves of the volatile state (R123, R164, R165, R171): everything of it is as after a restart. -/
def volatileFresh (s : State) : Prop :=
  s.running = true ∧ s.storeWrite = none ∧ s.offers = [] ∧ s.sessions = [] ∧ s.bus.rx = [] ∧
  s.bus.beaconHold = none ∧ s.bus.counters = ⟨0, 0, 0, 0, 0, 0⟩ ∧ s.lastSummary = none

/-- What the Drop List is after an id was placed in it (R144): in place when it is there, at the end otherwise, a full
list losing its oldest. -/
def dropListWith (d : List Nat) (id : Nat) : List Nat :=
  if id ∈ d then d else if d.length < 8 then d ++ [id] else d.drop 1 ++ [id]

/-- A telegram of kind `k` is the oldest of the receive buffer of a running core. -/
abbrev State.front (s : State) (k : Kind) (m : RxTelegram) (rest : List RxTelegram) : Prop :=
  s.running = true ∧ s.bus.rx = m :: rest ∧ m.kind = k

/-- The recorder, its bus on, is sending the queued telegram `e`: the entries before and after it are waiting. -/
abbrev State.sends (s : State) (before : List TxEntry) (e : TxEntry) (after : List TxEntry) : Prop :=
  s.busOn = true ∧ s.bus.queue = before ++ e :: after ∧ (∀ x ∈ before, x.sending = false) ∧ e.sending = true

/-- The state when the telegram in transmission, no BEACON, has left the queue with an outcome that changes the
counters to `c` (R121, R124). -/
def State.sent (s : State) (rest : List TxEntry) (c : Counters) : State :=
  { s with bus := { s.bus with line := .busy, queue := rest, counters := c } }

/-- Counters after an acknowledge slot (R124). -/
def Counters.slot (c : Counters) (acked : Bool) : Counters :=
  { c with
    sent := satAdd Config.max16 c.sent 1
    notAcked := if acked then c.notAcked else satAdd Config.max16 c.notAcked 1 }

end Sys2Proof.Machine
end

