-- ==== Sys2Proof/Certificates/Slice0/Obligations.lean ====
section
/-!
DEFINITION. The statements for the provers. Each is about every state and every operand that meet its hypotheses, says
what changes, and says that everything else stays as it was.
-/
open Sys2Proof Sys2Proof.Machine

/-! ### The machine -/

/-- A step takes the command at the front of the queue and is that command on the state with the rest waiting. -/
def Obligations.StepTakesFrontCommand : Prop :=
  ∀ (c : Instr) (rest : List Instr) (s : State),
    s.pending = c :: rest → step s = exec c { s with pending := rest }

/-- No command ends in a fault or a refusal, and none touches the queue of waiting commands. -/
def Obligations.EveryCommandAnswersNextState : Prop :=
  ∀ (c : Instr) (s : State), ∃ t, exec c s = .next t ∧ t.pending = s.pending

/-- R39, the model's tick (log entry 5): with no command waiting a counting clock goes up by one, and exactly the timed
events that have then fallen due wait; with a clock that does not count nothing happens. The order of coinciding events is a
free value (log entry 2). -/
def Obligations.IdleStepIsOneSecond : Prop :=
  ∀ s : State, s.pending = [] →
    ∃ t, step s = .next t ∧
      ((s.domain.counting = true ∧ (s.running = true ∨ s.cellFell = false) ∧ s.domain.clock < 4294967295) →
        t = { s with
              domain := { s.domain with clock := s.domain.clock + 1 }
              pending := t.pending, freeCount := t.freeCount } ∧
        (∀ c, c ∈ t.pending ↔ s.running = true ∧
          ((c = .epochExpiry ∧ s.mode.runsEpochs = true ∧ s.domain.clock + 1 = s.nextExpiry) ∨
           (c = .windowExpiry ∧ s.mode.runsEpochs = true ∧
             ∃ w, s.domain.tracker.phase = .grace w ∧ w + s.committed.grace ≤ s.domain.clock + 1) ∨
           (∃ o ∈ s.offers, c = .answerTimeout o.id ∧ ∃ d, o.phase = .awaiting d ∧ d ≤ s.domain.clock + 1) ∨
           (s.mode.runsEpochs = true ∧ ∃ e ∈ s.roster, c = .silenceDeadline e.address ∧
             (e.state = .live ∨ e.state = .unheard) ∧ ∃ d, e.deadline = some d ∧ d ≤ s.domain.clock + 1) ∨
           (c = .askingTimeout ∧ s.mode = .rejoining ∧ s.rejoin = .asking ∧ 10 ≤ s.domain.clock + 1) ∨
           (c = .restoreDeadline ∧ s.mode = .rejoining ∧
             ∃ d n, s.rejoin = .receiving d n ∧ d ≤ s.domain.clock + 1) ∨
           (c = .listeningTimeout ∧ s.mode = .rejoining ∧ s.rejoin = .listening ∧
             2 * s.committed.epoch + 10 ≤ s.domain.clock + 1)))) ∧
      (¬ (s.domain.counting = true ∧ (s.running = true ∨ s.cellFell = false) ∧ s.domain.clock < 4294967295) →
        t = s)

/-- Section 11: a new part has trip state NONE, no trip id and a valid check code. That its setup items stand at the
defaults of TABLE 11-2, that its domain is a cleared one with a restart count of 0, and that its core is stopped with
nothing in its volatile blocks, is the model's choice (log entry 1). Every law holds of it. -/
def Obligations.ResetStateMeetsEveryLaw : Prop :=
  State.reset.store.tripState = .none ∧ State.reset.store.tripId = none ∧ State.reset.store.checkGood = true ∧
  State.reset.store.setup = Setup.default ∧ State.reset.domain = Domain.cleared [] ∧ State.reset.pending = [] ∧
  State.reset.bus.queue = [] ∧ State.reset.bus.rx = [] ∧ State.reset.offers = [] ∧ State.reset.sessions = [] ∧
  State.reset.running = false ∧
  State.reset.custodyLaw ∧ State.reset.mirrorLaw ∧ State.reset.dropLaw ∧ State.reset.busLaw ∧
  State.reset.silentLaw ∧ State.reset.recordLaw ∧ State.reset.setupLaw ∧ State.reset.tempLaw ∧
  State.reset.captureLaw ∧ State.reset.windowLaw ∧ State.reset.timerLaw ∧ State.reset.operationLaw ∧
  State.reset.sessionLaw ∧ State.reset.rosterLaw ∧ State.reset.counterLaw

/-! ### Laws that every step keeps -/

/-- R13: at most 48 records, never two with one consignment id. -/
def Obligations.StepKeepsCustodyLaw : Prop :=
  ∀ s t : State, s.custodyLaw → step s = .next t → t.custodyLaw

/-- R138: at most 48 mirror records, never two with one owner and consignment id. -/
def Clause.StepKeepsMirrorLaw : Prop :=
  ∀ s t : State, s.mirrorLaw → step s = .next t → t.mirrorLaw

/-- TABLE 9-4: at most eight pending drops, no two alike. -/
def Clause.StepKeepsDropLaw : Prop :=
  ∀ s t : State, s.dropLaw → step s = .next t → t.dropLaw

/-- R138, R144: the laws of the Mirror Table and of the Drop List. -/
def Obligations.StepKeepsMirrorAndDropLaws : Prop :=
  Clause.StepKeepsMirrorLaw ∧ Clause.StepKeepsDropLaw

/-- R118: at most 8 telegrams queued, at most one of them a BEACON; at most 4 received; at most one in transmission. -/
def Clause.StepKeepsBusLaw : Prop :=
  ∀ s t : State, s.busLaw → step s = .next t → t.busLaw

/-- R113, R122: nothing is queued, and so nothing is driven on the bus, in HOLD and UNSTRAPPED. -/
def Clause.StepKeepsHoldSilent : Prop :=
  ∀ s t : State, s.silentLaw → step s = .next t → t.silentLaw

/-- R148: at most two restore sessions, never two of one asker. -/
def Clause.StepKeepsSessionLaw : Prop :=
  ∀ s t : State, s.sessionLaw → step s = .next t → t.sessionLaw

/-- R128: the roster has one entry for each address from 1 to 15. -/
def Clause.StepKeepsRosterLaw : Prop :=
  ∀ s t : State, s.rosterLaw → step s = .next t → t.rosterLaw

/-- R124: each of the six bus counts stays within 16 bits. -/
def Clause.StepKeepsCounterLaw : Prop :=
  ∀ s t : State, s.counterLaw → step s = .next t → t.counterLaw

/-- R113, R118, R122, R124, R128, R148: the laws of the transmit queue and the receive buffer, of the restore sessions, the
roster and the bus counts. -/
def Obligations.StepKeepsBusLaws : Prop :=
  Clause.StepKeepsBusLaw ∧ Clause.StepKeepsHoldSilent ∧ Clause.StepKeepsSessionLaw ∧ Clause.StepKeepsRosterLaw ∧
  Clause.StepKeepsCounterLaw

/-- R3, R9: every record held or mirrored has 1 to 6 legs, the last alone open, and saturating accounts. -/
def Obligations.StepKeepsRecordLaw : Prop :=
  ∀ s t : State, s.recordLaw → step s = .next t → t.recordLaw

/-- TABLE 11-2, R165: every setup held stays in range. -/
def Clause.StepKeepsSetupInRange : Prop :=
  ∀ s t : State, s.setupLaw → step s = .next t → t.setupLaw

/-- R32: every temperature held lies between −500 and +700. -/
def Clause.StepKeepsTemperatureLaw : Prop :=
  ∀ s t : State, s.tempLaw → step s = .next t → t.tempLaw

/-- R32, R165: setups stay in range, and every temperature between −500 and +700. -/
def Obligations.StepKeepsSetupAndTemperatures : Prop :=
  Clause.StepKeepsSetupInRange ∧ Clause.StepKeepsTemperatureLaw

/-- R22, R25, R26, R27: a captured high time lies between 1 and the count reached and is held in MEASURING only, and every
completed measurement has 1 ≤ H < P < 65,536. -/
def Obligations.StepKeepsCaptureLaw : Prop :=
  ∀ s t : State, s.captureLaw → step s = .next t → t.captureLaw

/-- R62, R66: CLOSED knows no open door; a window has started by now, and on a running core in ACTIVE, HOLD_PENDING,
HOLD or ENDING it lasts less than G seconds or its expiry waits to be taken; in REJOINING the tracker is CLOSED. -/
def Obligations.StepKeepsWindowLaw : Prop :=
  ∀ s t : State, s.windowLaw → step s = .next t → t.windowLaw

/-- R42, R43: every setup stays in range, and while expiries are raised the next one is a positive multiple of E; the
clock is below it, or at it with the expiry waiting to be taken. -/
def Obligations.StepKeepsTimerLaw : Prop :=
  ∀ s t : State, s.timerLaw → step s = .next t → t.timerLaw

/-- R7, R13, R21, R94, R168: a record is OFFERED exactly when an open offer names it, at most two offers are open and
in ACTIVE only, accounted-to is never later than the clock, records stand only while the store shows the trip running,
and a Setup Store write belongs to the mode that began it. -/
def Obligations.StepKeepsOperationLaw : Prop :=
  ∀ s t : State, s.operationLaw → step s = .next t → t.operationLaw

/-- R1 to R6, R8, R12: of a record that is in the Custody Table before and after a step, identity, class, loaded time
and limits are the same, no account or count fell, the verdict did not move lower, a breach stays as first written, and
CARRIED_IN and RESTORED are as they were. -/
def Obligations.StepKeepsRecordHistory : Prop :=
  ∀ s t : State, s.custodyLaw → s.recordLaw → step s = .next t →
    ∀ a ∈ s.domain.custody, ∀ b ∈ t.domain.custody, a.record.id = b.record.id → keepsHistory a.record b.record

/-- R40: the clock runs backward only at the end of a TRIP-START write (to 0), at the adoption of a peer's clock in
REJOINING, and where the backup domain is lost or cleared (to 0, with an empty Custody Table). R40 names the cold start for
the last; that a domain lost at a stop of the core, or with its cell, reads 0 at once is the model's choice (log entries 10
and 37). -/
def Obligations.ClockRunsBackOnlyWhereWritten : Prop :=
  ∀ (c : Instr) (s t : State), exec c s = .next t → t.domain.clock < s.domain.clock →
    (c = .tripStartWriteEnd true ∧ s.mode = .starting ∧ t.domain.clock = 0) ∨
    ((c = .restoreBegin ∨ c = .beacon) ∧ s.mode = .rejoining) ∨
    ((c = .backupCellBelowRetention ∨ (∃ x y, c = .coreStop x y) ∨ ∃ a b d e, c = .start a b d e) ∧
      t.domain.clock = 0 ∧ t.domain.custody = [])

/-! ### Layouts -/

/-- TABLE 7-8, TABLE 7-9, R125: a record is carried in 126 bytes, and every field of it is read back from them,
wherever in a payload they stand. -/
def Obligations.RecordSurvivesItsLayout : Prop :=
  ∀ (r : Record) (pre post : List Byte), recordFits r →
    (recordBytes r).length = 126 ∧ recordAt (pre ++ recordBytes r ++ post) pre.length = r

/-- TABLE 7-7, R125, R127: a BEACON in range is carried in 26 bytes and 4 for each door, and read back whole. -/
def Obligations.BeaconSurvivesItsLayout : Prop :=
  ∀ b : Beacon,
    b.tripId ≤ 4294967295 → b.clock ≤ 4294967295 → 1 ≤ b.compartment → b.compartment ≤ 15 → 10 ≤ b.epoch →
    b.epoch ≤ 600 → b.sequence ≤ 4294967295 →
    (∀ t ∈ b.temps, -500 ≤ t.cold ∧ t.cold ≤ t.warm ∧ t.warm ≤ 700) → b.mode ≤ 255 → b.restartCount ≤ 255 →
    b.resetCause ≤ 255 → b.custodyCount ≤ 255 → b.alerts ≤ 255 → b.doors.length ≤ 4 →
    (∀ d ∈ b.doors, d.door ≤ 255 ∧ d.count ≤ 65535) →
    (beaconBytes b).length = 26 + 4 * b.doors.length ∧ beaconOf (beaconBytes b) = some b

/-! ### Readings and filters -/

/-- R30: from a period of 1,000, 20·H < P is FAULT_LOW_DUTY and 20·H > 19·P is FAULT_HIGH_DUTY, neither with a value and
never both; the exact duties are not faults and pass to the clamps. -/
def Clause.DutyFaultsClassified : Prop :=
  ∀ P H : Nat, 1000 ≤ P → 1 ≤ H → H < P →
    (20 * H < P → classify P H = .faultLowDuty ∧ (classify P H).value? = none) ∧
    (19 * P < 20 * H → classify P H = .faultHighDuty ∧ (classify P H).value? = none) ∧
    ¬ (20 * H < P ∧ 19 * P < 20 * H) ∧
    (20 * H = P → classify P H = .clampedLow) ∧ (20 * H = 19 * P → classify P H = .clampedHigh)

/-- R29, R31, R32: a period below 1,000 is a fault whatever H; duties beyond a tenth or nine tenths are clamped; every
other measurement is VALID at 1,500 times the duty to the nearest tenth, a half upward, less 650, and lies within the
range, with its ends at the exact duties. -/
def Clause.MeasurementConverted : Prop :=
  ∀ P H : Nat,
    (P < 1000 → classify P H = .faultPeriod) ∧
    (1000 ≤ P → P ≤ 20 * H → 10 * H < P →
      classify P H = .clampedLow ∧ (classify P H).value? = some (-500)) ∧
    (1000 ≤ P → 20 * H ≤ 19 * P → 9 * P < 10 * H →
      classify P H = .clampedHigh ∧ (classify P H).value? = some 700) ∧
    (1000 ≤ P → P ≤ 10 * H → 10 * H ≤ 9 * P →
      ∃ v : Int, classify P H = .valid v ∧ -500 ≤ v ∧ v ≤ 700 ∧
        2 * (P : Int) * (v + 650) ≤ 3000 * H + P ∧ 3000 * H + P < 2 * (P : Int) * (v + 651) ∧
        (10 * H = P → v = -500) ∧ (10 * H = 9 * P → v = 700))

/-- R29 to R32: every measurement by TABLE 2-5. -/
def Obligations.MeasurementsClassified : Prop :=
  Clause.DutyFaultsClassified ∧ Clause.MeasurementConverted

/-- R46: a seeded filter moves by delta·k/16 truncated toward zero, or by one tenth toward the reading where that is 0;
it never passes the reading, reaches it when k is 16 or delta is 1 or −1, stands still at it, and stays within −500 to
+700. -/
def Obligations.FilterStepNeverPassesReading : Prop :=
  ∀ (k : Nat) (S T : Int), 1 ≤ k → k ≤ 16 →
    ((min S T ≤ filterStep k S T ∧ filterStep k S T ≤ max S T) ∧
     (S = T → filterStep k S T = S) ∧
     (k = 16 ∨ T - S = 1 ∨ T - S = -1 → filterStep k S T = T) ∧
     (16 ≤ (T - S) * k → filterStep k S T = S + (T - S) * k / 16) ∧
     ((T - S) * k ≤ -16 → filterStep k S T = S - (S - T) * k / 16) ∧
     (0 < (T - S) * k ∧ (T - S) * k < 16 → filterStep k S T = S + 1) ∧
     (-16 < (T - S) * k ∧ (T - S) * k < 0 → filterStep k S T = S - 1) ∧
     (-500 ≤ S ∧ S ≤ 700 ∧ -500 ≤ T ∧ T ≤ 700 → -500 ≤ filterStep k S T ∧ filterStep k S T ≤ 700))

/-! ### The epoch expiry -/

/-- R33, R44 to R50: at an expiry every enabled probe's filter is seeded, stepped or missed by its channel's latest
reading, the fresh marks are cleared, and the summary rests on the filters counted and used, with the tracker's state as
its grace flag. -/
def Obligations.ExpiryFormsSummary : Prop :=
  ∀ s : State, s.running = true → s.mode.runsEpochs = true → s.domain.clock = s.nextExpiry → 0 < s.domain.clock →
    ∃ t m, exec .epochExpiry s = .next t ∧ t.lastSummary = some m ∧
      t.nextExpiry = s.nextExpiry + s.committed.epoch ∧ t.domain.clock = s.domain.clock ∧
      (∀ i,
        t.channels.get i =
          { s.channels.get i with reading := (s.channels.get i).reading.map fun r => { r with fresh := false } } ∧
        ((s.committed.probes.get i).enabled = false → t.domain.filters.get i = s.domain.filters.get i) ∧
        ((s.committed.probes.get i).enabled = true →
          (∀ r v, (s.channels.get i).reading = some r → r.fresh = true → r.status.value? = some v →
            t.domain.filters.get i =
              { s.domain.filters.get i with
                value :=
                  if (s.domain.filters.get i).seeded then
                    filterStep (s.committed.probes.get i).k (s.domain.filters.get i).value v
                  else v
                seeded := true, used := true }) ∧
          ((∀ r ∈ (s.channels.get i).reading, r.fresh = false ∨ r.status.value? = none) →
            t.domain.filters.get i =
              { s.domain.filters.get i with
                missed := min ((s.domain.filters.get i).missed + 1) 65535, used := false })) ∧
        m.used.get i = (t.domain.filters.get i).used) ∧
      m.sequence = s.domain.clock / s.committed.epoch - 1 ∧ m.time = s.domain.clock ∧
      m.epoch = s.committed.epoch ∧
      (m.grace = true ↔ ∃ w, s.domain.tracker.phase = .grace w) ∧
      (m.temps = none ↔
        ∀ i, ¬ ((s.committed.probes.get i).counted = true ∧ (t.domain.filters.get i).used = true)) ∧
      ∀ x ∈ m.temps,
        (∀ i, (s.committed.probes.get i).counted = true → (t.domain.filters.get i).used = true →
          x.cold ≤ (t.domain.filters.get i).value ∧ (t.domain.filters.get i).value ≤ x.warm) ∧
        (∃ i, (s.committed.probes.get i).counted = true ∧ (t.domain.filters.get i).used = true ∧
          (t.domain.filters.get i).value = x.warm) ∧
        (∃ i, (s.committed.probes.get i).counted = true ∧ (t.domain.filters.get i).used = true ∧
          (t.domain.filters.get i).value = x.cold)

/-- R73 to R85: at an expiry every HELD record is charged the seconds since its accounted-to with the summary just
formed, and every other record stays as it was; nothing but the records, the epoch blocks and the transmit queue
changes. -/
def Obligations.ExpiryStepsHeldRecords : Prop :=
  ∀ s : State, s.running = true → s.mode.runsEpochs = true → s.domain.clock = s.nextExpiry → 0 < s.domain.clock →
    ∃ (t : State) (m : Summary), exec .epochExpiry s = .next t ∧ t.lastSummary = some m ∧
      t = { s with
            channels := t.channels, nextExpiry := t.nextExpiry, lastSummary := t.lastSummary
            freeCount := t.freeCount
            bus :=
              { s.bus with
                line := t.bus.line, queue := t.bus.queue, beaconHold := t.bus.beaconHold
                counters := t.bus.counters }
            domain := { s.domain with filters := t.domain.filters, custody := t.domain.custody } } ∧
      (s.mode ≠ .active → t.bus = s.bus ∧ t.freeCount = s.freeCount) ∧
      t.domain.custody = s.domain.custody.map fun h =>
        if h.state = .held then
          { h with
            record :=
              if s.domain.clock ≤ h.accountedTo then h.record
              else charge h.record m.temps m.grace (s.domain.clock - h.accountedTo) s.domain.clock
            accountedTo := s.domain.clock }
        else h

/-- R4, R75 to R84: one charge of a record for one second or more. Without temperatures the seconds go to the gap alone;
with them at most 1,210 seconds are applied, the warm excess goes to the door or the warm account by the grace flag, the
cold excess to the cold account, the rest of the seconds to the gap, and the peaks widen. Every sum stops at
4,294,967,295. A BREACHED verdict stays; another becomes the higher of itself and the candidate, with the first cause
that applies. -/
def Obligations.ChargeFollowsTheStages : Prop :=
  ∀ (r : Record) (temps : Option Temps) (grace : Bool) (secs time : Nat), 1 ≤ secs →
    let c := charge r temps grace secs time
    let cap (n : Nat) : Nat := min n 4294967295
    let applied : Nat := min secs 1210
    c = { r with
          warm := c.warm, cold := c.cold, door := c.door, gap := c.gap, peaks := c.peaks, verdict := c.verdict } ∧
    (temps = none →
      c.warm = r.warm ∧ c.cold = r.cold ∧ c.door = r.door ∧ c.peaks = r.peaks ∧ c.gap = cap (r.gap + secs)) ∧
    (∀ x, temps = some x →
      let warmProduct : Nat := (x.warm - r.limits.tmax).toNat * applied
      c.warm = (if grace then r.warm else cap (r.warm + warmProduct)) ∧
      c.door = (if grace then cap (r.door + warmProduct) else r.door) ∧
      (r.limits.cold = none → c.cold = cap r.cold) ∧
      (∀ l, r.limits.cold = some l → c.cold = cap (r.cold + (l.tmin - x.cold).toNat * applied)) ∧
      c.gap = cap (r.gap + (secs - applied)) ∧
      (r.peaks = none → c.peaks = some x) ∧
      (∀ p, r.peaks = some p → c.peaks = some ⟨max p.warm x.warm, min p.cold x.cold⟩)) ∧
    (let ceiling := ∃ x l, temps = some x ∧ r.limits.ceiling = some l ∧ l < x.warm
     let floor := ∃ x l, temps = some x ∧ r.limits.floor = some l ∧ x.cold < l
     let warmOver := r.limits.warmBudget < c.warm
     let coldOver := ∃ l, r.limits.cold = some l ∧ l.budget < c.cold
     let gapOver := r.limits.gapAllowance < c.gap
     (r.verdict.rank = 3 → c.verdict = r.verdict) ∧
     (r.verdict.rank < 3 →
       (ceiling → c.verdict = .breached .warmCeiling time) ∧
       (¬ ceiling → floor → c.verdict = .breached .coldFloor time) ∧
       (¬ ceiling → ¬ floor → warmOver → c.verdict = .breached .warmBudget time) ∧
       (¬ ceiling → ¬ floor → ¬ warmOver → coldOver → c.verdict = .breached .coldBudget time) ∧
       (¬ ceiling → ¬ floor → ¬ warmOver → ¬ coldOver → gapOver → c.verdict = .unproven) ∧
       (¬ ceiling → ¬ floor → ¬ warmOver → ¬ coldOver → ¬ gapOver →
         c.verdict = if r.verdict.rank = 0 ∧ (0 < c.warm ∨ 0 < c.cold) then .excursion else r.verdict)))

/-- R52, R120, R126, R140, R145: at an expiry in ACTIVE the oldest four UNMIRRORED HELD records without a put outstanding
are put to the buddy as their steps left them, then the oldest pending drop is sent again, then the BEACON is offered, each
as far as the queue has room; no Drop List entry changes. With no BEACON queued it is queued last; one still waiting gives it
its place and is counted as replaced; behind one in transmission it goes into the beacon hold. That a BEACON already in the
hold gives way to it and is counted is the model's choice (log entry 20), and so is that a queued put of an earlier stay of
an id holds back its re-put (log entry 21). -/
def Obligations.ExpiryOffersTelegramsInOrder : Prop :=
  ∀ s : State, s.running = true → s.mode = .active → s.domain.clock = s.nextExpiry → 0 < s.domain.clock →
    s.custodyLaw →
    ∃ (t : State) (m : Summary), exec .epochExpiry s = .next t ∧ t.lastSummary = some m ∧
      t.domain.drops = s.domain.drops ∧ t.bus.rx = s.bus.rx ∧
      (let due := (t.domain.custody.filter fun h =>
          h.state == .held && h.record.unmirrored && !putOutstanding s.bus.queue h.record.id).take 4
       let drop := (s.domain.drops.take 1).filter fun id => !dropOutstanding s.bus.queue id
       let beacon : Beacon :=
         { tripId := s.tripNumber, clock := s.domain.clock, compartment := s.compartment
           epoch := s.committed.epoch, sequence := m.sequence, temps := m.temps, grace := m.grace, used := m.used
           mode := 3, restartCount := s.domain.restartCount, resetCause := s.resetCause.code
           custodyCount := s.domain.custody.length, alerts := t.alertReasons
           doors := ([0, 1, 2, 3] : List (Fin 4)).filterMap fun i =>
             match s.committed.doorOf i, (s.inputs.get i).accepted with
             | some d, some a => some ⟨d, a, (s.inputs.get i).count⟩
             | _, _ => none }
       let letters : List Letter := due.flatMap (fun h => t.putLetters h.record) ++ drop.flatMap s.dropLetters
       let b : TxTelegram := ⟨0, .beacon, beaconBytes beacon⟩
       let replaced : Counters :=
         { s.bus.counters with replacedBeacons := min (s.bus.counters.replacedBeacons + 1) 65535 }
       ((∀ e ∈ s.bus.queue, e.telegram.kind ≠ .beacon) →
         t.bus.counters = s.bus.counters ∧ t.bus.beaconHold = s.bus.beaconHold ∧
         t.outbox = s.boxAfter (letters ++ [(b, .plain)])) ∧
       ∀ before e after, s.bus.queue = before ++ e :: after → e.telegram.kind = .beacon →
         (∀ x ∈ before ++ after, x.telegram.kind ≠ .beacon) →
         ∃ added : List TxEntry, s.boxAfter letters = s.outbox ++ added.map TxEntry.letter ∧
           (∀ x ∈ added, x.sending = false ∧ x.spoiled = false) ∧
           (e.sending = false →
             t.bus =
               { s.bus with queue := before ++ { e with telegram := b } :: (after ++ added), counters := replaced }) ∧
           (e.sending = true →
             t.bus =
               { s.bus with
                 queue := s.bus.queue ++ added, beaconHold := some b
                 counters := if s.bus.beaconHold.isSome then replaced else s.bus.counters }))

/-- R120: a BEACON offered while another waits takes its place in the queue, and the one it replaces is counted; one
offered while the previous is in transmission goes into the beacon hold. -/
def Clause.OneBeaconAtATime : Prop :=
  ∀ (s : State) (before after : List TxEntry) (e : TxEntry) (b : TxTelegram), b.kind = .beacon →
    s.bus.queue = before ++ e :: after → e.telegram.kind = .beacon →
    (∀ x ∈ before ++ after, x.telegram.kind ≠ .beacon) →
    (e.sending = false →
      sendBeacon s b =
        { s with
          bus :=
            { s.bus with
              queue := before ++ { e with telegram := b } :: after
              counters :=
                { s.bus.counters with replacedBeacons := min (s.bus.counters.replacedBeacons + 1) 65535 } } }) ∧
    (e.sending = true → s.bus.beaconHold = none →
      sendBeacon s b = { s with bus := { s.bus with beaconHold := some b } })

/-! ### Requests of consoles -/

/-- R165: a CONFIG-SET in IDLE stages its item, clamped, and answers OK with the item code and the value as stored. The
clauses take the items in the order of TABLE 11-2. A class item is staged as sent when its temperatures are in range, and
with every temperature clamped and absent fields left out otherwise. A door map keeps each door once, in the order first
given; that byte 255 in it becomes 15 is the model's choice (log entry 31). -/
def Clause.ConfigSetStagesItem : Prop :=
  ∀ (s : State) (m : RxTelegram) (rest : List RxTelegram), s.front .configSet m rest → s.mode = .idle →
    (let stages (u : Setup) (stored : List Byte) : Prop :=
        ∃ t, exec .configSet s = .next t ∧
          Sends { s.withRx rest with staged := u } t
            [replyLetter m.sender .configSet .ok (m.payload.take 1 ++ stored)]
     (∀ v : Byte, m.payload = [1, v] →
       stages { s.staged with compartment := some (max 1 (min 15 v.toNat)) }
         (beBytes 1 (max 1 (min 15 v.toNat)))) ∧
     (∀ a b : Byte, m.payload = [2, a, b] →
       stages { s.staged with epoch := max 10 (min 600 (a.toNat * 256 + b.toNat)) }
         (beBytes 2 (max 10 (min 600 (a.toNat * 256 + b.toNat))))) ∧
     (∀ v : Byte, m.payload = [3, v] →
       stages { s.staged with prescale := min 7 v.toNat } (beBytes 1 (min 7 v.toNat))) ∧
     (∀ (i : Fin 4) (marks k : Byte), m.payload = [4, BitVec.ofNat 8 (i.val + 1), marks, k] →
       stages
         { s.staged with
           probes := s.staged.probes.set i ⟨marks.getLsbD 0, marks.getLsbD 1, max 1 (min 16 k.toNat)⟩ }
         (beBytes 1 (i.val + 1) ++
           beBytes 1 ((if marks.getLsbD 0 then 1 else 0) + (if marks.getLsbD 1 then 2 else 0)) ++
           beBytes 1 (max 1 (min 16 k.toNat)))) ∧
     (∀ (i : Fin 4) (d : Byte), m.payload = [5, BitVec.ofNat 8 (i.val + 1), d] →
       stages
         { s.staged with
           localDoors := s.staged.localDoors.set i (if d.toNat = 255 then none else some (min 15 d.toNat)) }
         (beBytes 1 (i.val + 1) ++ beBytes 1 (if d.toNat = 255 then 255 else min 15 d.toNat))) ∧
     (∀ doors : List Byte, doors.length ≤ 8 → m.payload = 6 :: BitVec.ofNat 8 doors.length :: doors →
       let numbers := doors.map fun d => min 15 d.toNat
       let kept : List Nat := numbers.foldl (fun sofar d => if d ∈ sofar then sofar else sofar ++ [d]) []
       kept.Nodup ∧ (∀ d, d ∈ kept ↔ d ∈ numbers) ∧
         stages { s.staged with doorMap := kept } (beBytes 1 kept.length ++ kept.flatMap (beBytes 1))) ∧
     (∀ a b : Byte, m.payload = [7, a, b] →
       stages { s.staged with grace := min 1800 (a.toNat * 256 + b.toNat) }
         (beBytes 2 (min 1800 (a.toNat * 256 + b.toNat)))) ∧
     (∀ v : Byte, m.payload = [8, v] →
       stages { s.staged with buddy := if v.toNat = 0 then none else some (min 15 v.toNat) }
         (beBytes 1 (min 15 v.toNat))) ∧
     (∀ (i : Nat) (c : ClassSetup), i ≤ 7 → limitsInRange c.limits = true → c.limits.warmBudget ≤ 4294967295 →
       c.limits.gapAllowance ≤ 4294967295 → (∀ x ∈ c.limits.cold, x.budget ≤ 4294967295) →
       m.payload = 9 :: classBytes i c →
       stages { s.staged with classes := s.staged.classes.set i c } (classBytes i c)) ∧
     (let i := field m.payload 1 1
      let marks := field m.payload 2 1
      let temp (off : Nat) : Temperature := max (-500) (min 700 (tempField m.payload off))
      let bytes (off len : Nat) : List Byte := beBytes len (field m.payload off len)
      let kept (mark : Nat) (b : List Byte) : List Byte := if marks.testBit mark then b else b.map fun _ => 0
      field m.payload 0 1 = 9 → m.payload.length = 23 → i ≤ 7 →
      stages
        { s.staged with
          classes := s.staged.classes.set i
            ⟨marks.testBit 0,
              { tmax := temp 3, warmBudget := field m.payload 5 4
                ceiling := if marks.testBit 1 then some (temp 9) else none
                cold := if marks.testBit 2 then some ⟨temp 11, field m.payload 13 4⟩ else none
                floor := if marks.testBit 3 then some (temp 17) else none
                gapAllowance := field m.payload 19 4 }⟩ }
        (beBytes 1 i ++ beBytes 1 (marks % 16) ++ tempBytes (temp 3) ++ bytes 5 4 ++ kept 1 (tempBytes (temp 9)) ++
          kept 2 (tempBytes (temp 11)) ++ kept 2 (bytes 13 4) ++ kept 3 (tempBytes (temp 17)) ++ bytes 19 4)))

/-- R165: a CONFIG-SET of no listed item or of another length is answered BAD_REQUEST in any mode, a well-sized one
outside IDLE NOT_IDLE, and one whose selector is out of range, or whose door map counts more than 8, BAD_REQUEST; the
staged setup is not changed. That the last two carry an empty body is the model's choice (log entry 17). -/
def Clause.ConfigSetRefused : Prop :=
  ∀ (s : State) (m : RxTelegram) (rest : List RxTelegram), s.front .configSet m rest →
    (let lengths : List (Nat × Nat) := [(1, 2), (2, 3), (3, 2), (4, 4), (5, 3), (7, 3), (8, 2), (9, 23)]
     let item := field m.payload 0 1
     let sized :=
      (item, m.payload.length) ∈ lengths ∨ (item = 6 ∧ m.payload.length = 2 + field m.payload 1 1)
     (¬ sized → AnsweredOnly .configSet s rest (replyLetter m.sender .configSet .badRequest [])) ∧
     (sized → s.mode ≠ .idle → AnsweredOnly .configSet s rest (replyLetter m.sender .configSet .notIdle [])) ∧
     (sized → s.mode = .idle →
       ((item = 4 ∨ item = 5) ∧ ¬ (1 ≤ field m.payload 1 1 ∧ field m.payload 1 1 ≤ 4)) ∨
       (item = 6 ∧ 8 < field m.payload 1 1) ∨ (item = 9 ∧ 7 < field m.payload 1 1) →
       AnsweredOnly .configSet s rest (replyLetter m.sender .configSet .badRequest [])))

/-- R165: what CONFIG-SET stages and what it refuses. -/
def Obligations.SetupItemStagedOrRefused : Prop :=
  Clause.ConfigSetStagesItem ∧ Clause.ConfigSetRefused

/-- R166, R167: a TRIP-START that passes every test enters STARTING and begins the write of the staged setup, in which every
inconsistent class is disabled; nothing is answered yet. The write keeps the sender and a mask with the bit of each class so
disabled, which the REPLY at its end carries. -/
def Clause.TripStartBeginsWrite : Prop :=
  ∀ (s : State) (m : RxTelegram) (rest : List RxTelegram), s.front .tripStart m rest → s.mode = .idle →
    m.payload.length = 4 → field m.payload 0 4 ≠ 0 → s.staged.compartment ≠ none →
    (∃ i, (s.staged.probes.get i).enabled = true ∧ (s.staged.probes.get i).counted = true) →
    s.staged.buddy ≠ some s.address →
    ∃ t w, exec .tripStart s = .next t ∧ t.storeWrite = some w ∧
      t = { s.withRx rest with
            mode := .starting, staged := w.setup, storeWrite := some w
            domain := { s.domain with tripId := none } } ∧
      w.tripId = some (field m.payload 0 4) ∧ w.tripState = .running ∧
      w.setup = { s.staged with classes := w.setup.classes } ∧
      (∃ mask : Nat, w.job = .tripStart m.sender mask ∧
        ∀ i, mask.testBit i = true ↔
          ∃ c c', s.staged.classes[i]? = some c ∧ w.setup.classes[i]? = some c' ∧
            c.enabled = true ∧ c'.enabled = false) ∧
      w.setup.classes = s.staged.classes.map (fun c =>
        { c with
          enabled := c.enabled && !decide
            ((∃ x ∈ c.limits.cold, c.limits.tmax ≤ x.tmin) ∨ (∃ x ∈ c.limits.ceiling, x < c.limits.tmax) ∨
             ∃ x ∈ c.limits.cold, ∃ f ∈ c.limits.floor, x.tmin < f) })

/-- R166: the tests of a TRIP-START in their order, each with its REPLY. -/
def Clause.TripStartRefusedInOrder : Prop :=
  ∀ (s : State) (m : RxTelegram) (rest : List RxTelegram), s.front .tripStart m rest →
    (let id := field m.payload 0 4
     let body := beBytes 4 id
     let unset := s.staged.compartment = none
     let uncounted := ∀ i, ¬ ((s.staged.probes.get i).enabled = true ∧ (s.staged.probes.get i).counted = true)
     let ownBuddy := s.staged.buddy = some s.address
     let answered (r : Result) (b : List Byte) := AnsweredOnly .tripStart s rest (replyLetter m.sender .tripStart r b)
     (m.payload.length ≠ 4 → answered .badRequest []) ∧
     (m.payload.length = 4 → id = 0 → answered .badRequest body) ∧
     (m.payload.length = 4 → id ≠ 0 → s.mode = .starting → answered .busy body) ∧
     (m.payload.length = 4 → id ≠ 0 → s.mode = .active → s.store.tripId = some id → answered .ok body) ∧
     (m.payload.length = 4 → id ≠ 0 → s.mode ≠ .starting → s.mode ≠ .idle →
       ¬ (s.mode = .active ∧ s.store.tripId = some id) → answered .notIdle body) ∧
     (m.payload.length = 4 → id ≠ 0 → s.mode = .idle → unset ∨ uncounted ∨ ownBuddy →
       ∃ why : Nat, why < 8 ∧ (why.testBit 0 = true ↔ unset) ∧ (why.testBit 1 = true ↔ uncounted) ∧
         (why.testBit 2 = true ↔ ownBuddy) ∧ answered .setupInvalid (body ++ beBytes 1 why)))

/-- R166: what TRIP-START begins and what it is answered otherwise. -/
def Obligations.TripStartTestedAndTaken : Prop :=
  Clause.TripStartBeginsWrite ∧ Clause.TripStartRefusedInOrder

/-- R168: a TRIP-END in ACTIVE with both tables empty enters ENDING and begins the write of ENDED; another is answered
BAD_REQUEST, BUSY, NOT_ACTIVE or NOT_EMPTY. That the last three carry an empty body is the model's choice (log entry 17). -/
def Obligations.TripEndBeginsWriteOrRefused : Prop :=
  ∀ (s : State) (m : RxTelegram) (rest : List RxTelegram), s.front .tripEnd m rest →
    (let answered (r : Result) := AnsweredOnly .tripEnd s rest (replyLetter m.sender .tripEnd r [])
     (m.payload = [] → s.mode = .active → s.domain.custody = [] → s.domain.mirror = [] →
       exec .tripEnd s = .next
         { s.withRx rest with
           mode := .ending
           storeWrite := some ⟨s.store.setup, s.store.tripId, .ended, .tripEnd m.sender⟩ }) ∧
     (m.payload ≠ [] → answered .badRequest) ∧
     (m.payload = [] → s.mode = .starting → answered .busy) ∧
     (m.payload = [] → s.mode ≠ .starting → s.mode ≠ .active → answered .notActive) ∧
     (m.payload = [] → s.mode = .active → s.domain.custody ≠ [] ∨ s.domain.mirror ≠ [] → answered .notEmpty))

/-- R16: the tests of a LOAD in their order; the first that fails decides the REPLY and the table is not changed. That a
class index above 7 is answered UNKNOWN_CLASS is the model's choice (log entry 16). -/
def Clause.LoadRefusedInOrder : Prop :=
  ∀ (s : State) (m : RxTelegram) (rest : List RxTelegram) (code : Result), s.front .load m rest →
    (let id := field m.payload 0 6
     let wrongLength := m.payload.length != 7 && m.payload.length != 23
     firstTrue
       [(wrongLength, .badRequest), (s.mode == .starting, .busy), (s.mode != .active, .notActive),
        (id == 0, .badRequest),
        (!(s.committed.classes[field m.payload 6 1]?.any (·.enabled)), .unknownClass),
        (s.domain.custody.any (·.record.id == id), .duplicate),
        (decide (48 ≤ s.domain.custody.length), .tableFull)] = some code →
     AnsweredOnly .load s rest
       (replyLetter m.sender .load code (if wrongLength then [] else beBytes 6 id)))

/-- R2, R14, R17, R18, R125: an accepted LOAD appends the record that R17 describes, with the verdict of R18, puts it to the
buddy and answers OK with the verdict and the number of records. That this REPLY carries the verdict as one byte, and that
the put is offered before it, are the model's choices (log entries 45 and 48). -/
def Obligations.LoadAdmitsRecord : Prop :=
  ∀ (s : State) (m : RxTelegram) (rest : List RxTelegram) (l : Limits), s.front .load m rest → s.mode = .active →
    (m.payload.length = 7 ∨ m.payload.length = 23) → field m.payload 0 6 ≠ 0 →
    s.committed.classes[field m.payload 6 1]? = some ⟨true, l⟩ →
    (∀ h ∈ s.domain.custody, h.record.id ≠ field m.payload 0 6) → s.domain.custody.length < 48 →
    ∃ (t : State) (r : Record), exec .load s = .next t ∧
      (let carried := m.payload.length = 23
       let account (off : Nat) : Nat := if carried then field m.payload off 4 else 0
       r = { id := field m.payload 0 6, classIndex := field m.payload 6 1, loadedTime := s.domain.clock
             limits := l, warm := account 7, cold := account 11, door := account 15, gap := account 19
             peaks := none
             verdict :=
               if l.warmBudget < account 7 then .breached .warmBudget s.domain.clock
               else if l.cold.any (fun c => decide (c.budget < account 11)) then .breached .coldBudget s.domain.clock
               else if l.gapAllowance < account 19 then .unproven
               else if 0 < account 7 ∨ 0 < account 11 then .excursion
               else .intact
             openings := 0, legs := [⟨s.compartment, s.address, s.domain.clock, none, false⟩], elided := 0
             carriedIn := decide carried, restored := false, unmirrored := true }) ∧
      Sends
        { s.withRx rest with
          domain :=
            { s.domain with
              custody := s.domain.custody ++ [⟨r, s.domain.clock, .held⟩]
              drops := s.domain.drops.filter (· ≠ r.id) } }
        t
        (s.putLetters r ++
          [replyLetter m.sender .load .ok
            (beBytes 6 r.id ++ beBytes 1 r.verdict.rank ++ beBytes 1 (s.domain.custody.length + 1))])

/-- R91, R92: the tests of a MOVE in their order. -/
def Clause.MoveRefusedInOrder : Prop :=
  ∀ (s : State) (m : RxTelegram) (rest : List RxTelegram) (code : Result), s.front .move m rest →
    (let id := field m.payload 0 6
     let k := field m.payload 6 1
     let wrongLength := m.payload.length != 7
     let live := s.roster.filter fun e => e.state == .live && e.report.any (·.compartment == k)
     firstTrue
       [(wrongLength, .badRequest), (s.mode == .starting, .busy), (s.mode != .active, .notActive),
        (id == 0 || k == 0 || decide (15 < k), .badRequest),
        ((s.find id).isNone, .unknownId), ((s.find id).any (·.state != .held), .busy),
        (s.committed.compartment == some k, .sameCompartment), (decide (2 ≤ s.offers.length), .busy),
        (decide (live.length = 0), .targetAbsent), (decide (2 ≤ live.length), .targetAmbiguous)] = some code →
     AnsweredOnly .move s rest
       (replyLetter m.sender .move code (if wrongLength then [] else beBytes 6 id)))

/-- R92, R93, R95: a MOVE that passes its tests makes the record OFFERED, opens an offer to the one LIVE recorder of
compartment k and queues the OFFER with k, u and the record as it stands; where the queue is full the offer has opened
and closed at once, and the record is HELD as before. -/
def Obligations.MoveOpensOffer : Prop :=
  ∀ (s : State) (m : RxTelegram) (rest : List RxTelegram) (h : Holding) (e : RosterEntry),
    s.front .move m rest → s.mode = .active → m.payload.length = 7 → s.custodyLaw →
    h ∈ s.domain.custody → h.record.id = field m.payload 0 6 → h.state = .held →
    h.record.id ≠ 0 → 1 ≤ field m.payload 6 1 → field m.payload 6 1 ≤ 15 →
    s.committed.compartment ≠ some (field m.payload 6 1) → s.offers.length < 2 →
    (∀ o ∈ s.offers, o.id ≠ h.record.id) →
    s.roster.filter (fun e => e.state == .live && e.report.any (·.compartment == field m.payload 6 1)) = [e] →
    ∃ t, exec .move s = .next t ∧
      (s.bus.queue.length < 8 →
        Sends
          { s.withRx rest with
            offers := s.offers ++ [⟨h.record.id, e.address, m.sender, field m.payload 6 1, .sending⟩]
            domain :=
              { s.domain with
                custody := s.domain.custody.map fun x =>
                  if x.record.id = h.record.id then { x with state := .offered } else x } }
          t
          [(⟨e.address, .offer,
              beBytes 1 (field m.payload 6 1) ++ beBytes 4 (s.domain.clock - h.accountedTo) ++
                recordBytes h.record⟩, .offer h.record.id)]) ∧
      (8 ≤ s.bus.queue.length → t = s.withRx rest)

/-- R156: the tests of a RELEASE in their order. -/
def Clause.ReleaseRefusedInOrder : Prop :=
  ∀ (s : State) (m : RxTelegram) (rest : List RxTelegram) (code : Result), s.front .release m rest →
    (let id := field m.payload 0 6
     let wrongLength := m.payload.length != 6
     firstTrue
       [(wrongLength, .badRequest), (s.mode == .starting, .busy), (s.mode != .active, .notActive),
        (id == 0, .badRequest), ((s.find id).isNone, .unknownId), ((s.find id).any (·.state != .held), .busy)]
         = some code →
     AnsweredOnly .release s rest
       (replyLetter m.sender .release code (if wrongLength then [] else beBytes 6 id)))

/-- R16, R91, R92, R156: LOAD, MOVE and RELEASE are refused by the first failing test of their tables. -/
def Obligations.RequestsRefusedInTableOrder : Prop :=
  Clause.LoadRefusedInOrder ∧ Clause.MoveRefusedInOrder ∧ Clause.ReleaseRefusedInOrder

/-- R155, R157, R158: a RELEASE that passes its tests makes the record RELEASING and queues the certificate of 139
bytes; where the queue is full the record is HELD as before. -/
def Obligations.ReleaseIssuesCertificate : Prop :=
  ∀ (s : State) (m : RxTelegram) (rest : List RxTelegram) (h : Holding),
    s.front .release m rest → s.mode = .active → m.payload.length = 6 → s.custodyLaw →
    h ∈ s.domain.custody → h.record.id = field m.payload 0 6 → h.state = .held → h.record.id ≠ 0 →
    ∃ t, exec .release s = .next t ∧
      (s.bus.queue.length < 8 →
        Sends
          { s.withRx rest with
            domain :=
              { s.domain with
                custody := s.domain.custody.map fun x =>
                  if x.record.id = h.record.id then { x with state := .releasing } else x } }
          t
          [(replyTelegram m.sender .release .ok 0 0
              (recordBytes h.record ++ beBytes 4 h.accountedTo ++ beBytes 4 (s.domain.clock - h.accountedTo) ++
                beBytes 4 s.tripNumber ++ [0]), .certificate h.record.id)]) ∧
      (8 ≤ s.bus.queue.length → t = s.withRx rest)

/-- R159, R160, R161: each query is answered and changes nothing; QUERY-RECORD with an interim certificate of a record
in any state, LIST with up to ten entries from its start position, QUERY-STATION with its two parts. That QUERY-RECORD's
BAD_REQUEST for an id of 0 has an empty body is the model's choice (log entry 17). -/
def Clause.QueriesAnswered : Prop :=
  ∀ (s : State) (m : RxTelegram) (rest : List RxTelegram),
    (s.front .queryRecord m rest →
      let id := field m.payload 0 6
      (m.payload.length ≠ 6 ∨ id = 0 →
        AnsweredOnly .queryRecord s rest (replyLetter m.sender .queryRecord .badRequest [])) ∧
      (m.payload.length = 6 → id ≠ 0 → (∀ h ∈ s.domain.custody, h.record.id ≠ id) →
        AnsweredOnly .queryRecord s rest (replyLetter m.sender .queryRecord .unknownId (beBytes 6 id))) ∧
      (∀ h, m.payload.length = 6 → id ≠ 0 → s.find id = some h →
        AnsweredOnly .queryRecord s rest (replyLetter m.sender .queryRecord .ok
          (recordBytes h.record ++ beBytes 4 h.accountedTo ++ beBytes 4 (s.domain.clock - h.accountedTo) ++
            beBytes 4 s.tripNumber ++ beBytes 1 h.state.mark)))) ∧
    (s.front .list m rest →
      (m.payload.length ≠ 1 → AnsweredOnly .list s rest (replyLetter m.sender .list .badRequest [])) ∧
      (∀ start : Byte, m.payload = [start] →
        let shown := (s.domain.custody.drop start.toNat).take 10
        AnsweredOnly .list s rest (replyLetter m.sender .list .ok
          ([start] ++ beBytes 1 s.domain.custody.length ++ beBytes 1 shown.length ++
            shown.flatMap fun h =>
              beBytes 6 h.record.id ++ beBytes 1 h.state.mark ++ beBytes 1 h.record.verdict.rank)))) ∧
    (s.front .queryStation m rest →
      (m.payload ≠ [] →
        AnsweredOnly .queryStation s rest (replyLetter m.sender .queryStation .badRequest [])) ∧
      (m.payload = [] → ∃ t, exec .queryStation s = .next t ∧
        Sends (s.withRx rest) t
          [replyLetter m.sender .queryStation .ok (stationPart s),
           replyLetter m.sender .queryStation .ok (rosterPart s)] ∧
        (stationPart s).length = 108 ∧ field (stationPart s) 0 1 = 1 ∧ field (rosterPart s) 0 1 = 2 ∧
        field (stationPart s) 1 1 = s.mode.code ∧
        (s.domain.clock ≤ 4294967295 → field (stationPart s) 6 4 = s.domain.clock) ∧
        (s.domain.custody.length ≤ 48 → field (stationPart s) 14 1 = s.domain.custody.length) ∧
        (s.domain.mirror.length ≤ 48 → field (stationPart s) 15 1 = s.domain.mirror.length) ∧
        field (stationPart s) 27 1 = s.alertReasons ∧
        (rosterPart s).length = 1 + 11 * (s.roster.filter (·.address ≠ s.address)).length))

/-- R161: the station part of QUERY-STATION by TABLE 10-4, but for its probe statuses: each field at its place, most
significant byte first. -/
def Clause.StationPartLaidOut : Prop :=
  ∀ s : State,
    (let read (off len : Nat) : Nat := field (stationPart s) off len
     read 2 4 = s.tripNumber % 4294967296 ∧ read 6 4 = s.domain.clock % 4294967296 ∧
     read 10 4 = s.domain.clock / s.committed.epoch % 4294967296 ∧
     read 14 1 = s.domain.custody.length % 256 ∧ read 15 1 = s.domain.mirror.length % 256 ∧
     read 16 1 = s.domain.drops.length % 256 ∧ read 17 2 = s.domain.discardedDrops % 65536 ∧
     (s.domain.tracker.phase = .closed → read 19 1 = 0 ∧ read 20 4 = 0) ∧
     (∀ w, s.domain.tracker.phase = .grace w → read 19 1 = 1 ∧ read 20 4 = w % 4294967296) ∧
     (s.domain.tracker.phase = .overdue → read 19 1 = 2 ∧ read 20 4 = 0) ∧
     read 24 1 = s.domain.restartCount % 256 ∧
     read 25 1 =
       (match s.resetCause with
        | .supplyWarm => 1
        | .resetPin => 2
        | .supplyCold => 3
        | .retentionFault => 4) ∧
     read 26 1 < 8 ∧ (read 26 1).testBit 0 = s.domain.custodyLost ∧
     (read 26 1).testBit 1 = s.domain.restoreIncomplete ∧ (read 26 1).testBit 2 = s.lastSummary.isSome ∧
     read 28 2 = s.bus.counters.sent % 65536 ∧ read 30 2 = s.bus.counters.notAcked % 65536 ∧
     read 32 2 = s.bus.counters.lineErrors % 65536 ∧ read 34 2 = s.bus.counters.arbitrationLosses % 65536 ∧
     read 36 2 = s.bus.counters.overruns % 65536 ∧ read 38 2 = s.bus.counters.replacedBeacons % 65536)

/-- R34, R161: the four probe statuses, 17 bytes each from byte 40 on; absent fields are sent as 0. -/
def Clause.ProbeStatusesLaidOut : Prop :=
  ∀ (s : State) (i : Fin 4),
    (let read (off len : Nat) : Nat := field (stationPart s) (40 + 17 * i.val + off) len
     let value (off : Nat) : Temperature := tempField (stationPart s) (40 + 17 * i.val + off)
     let c := s.channels.get i
     let f := s.domain.filters.get i
     read 0 1 =
       (match c.state with
        | .off => 0
        | .arming => 1
        | .measuring => 2) ∧
     (c.reading = none → read 1 1 = 0 ∧ read 2 2 = 0 ∧ read 4 4 = 0) ∧
     (∀ r, c.reading = some r → read 4 4 = r.time % 4294967296 ∧
       (∀ v, r.status = .valid v → read 1 1 = 1 ∧ (-500 ≤ v → v ≤ 700 → value 2 = v)) ∧
       (r.status = .clampedLow → read 1 1 = 2 ∧ value 2 = -500) ∧
       (r.status = .clampedHigh → read 1 1 = 3 ∧ value 2 = 700) ∧
       (r.status = .faultPeriod → read 1 1 = 4 ∧ read 2 2 = 0) ∧
       (r.status = .faultStuck .low → read 1 1 = 5 ∧ read 2 2 = 0) ∧
       (r.status = .faultStuck .high → read 1 1 = 5 ∧ read 2 2 = 1) ∧
       (r.status = .faultLowDuty → read 1 1 = 6 ∧ read 2 2 = 0) ∧
       (r.status = .faultHighDuty → read 1 1 = 7 ∧ read 2 2 = 0)) ∧
     read 8 1 < 16 ∧ (read 8 1).testBit 0 = c.reading.any (·.fresh) ∧ (read 8 1).testBit 1 = f.used ∧
     (read 8 1).testBit 2 = c.last.isSome ∧ (read 8 1).testBit 3 = f.seeded ∧
     (c.last = none → read 9 2 = 0 ∧ read 11 2 = 0) ∧
     (∀ x, c.last = some x → read 9 2 = x.period % 65536 ∧ read 11 2 = x.high % 65536) ∧
     read 13 2 = f.missed % 65536 ∧ (-500 ≤ f.value → f.value ≤ 700 → value 15 = f.value))

/-- R161: the roster part of QUERY-STATION by TABLE 10-5: the entries but the own, 11 bytes each, in the roster's order;
absent fields are sent as 0. -/
def Clause.RosterPartLaidOut : Prop :=
  ∀ (s : State) (i : Nat) (e : RosterEntry), (s.roster.filter (·.address ≠ s.address))[i]? = some e →
    (let read (off len : Nat) : Nat := field (rosterPart s) (1 + 11 * i + off) len
     read 0 1 = e.address % 256 ∧
     read 1 1 =
       (match e.state with
        | .unheard => 0
        | .live => 1
        | .holding => 2
        | .silent => 3) ∧
     (e.report = none → read 2 1 = 0 ∧ read 3 2 = 0 ∧ read 5 4 = 0 ∧ read 9 1 = 0 ∧ read 10 1 = 0) ∧
     (∀ r, e.report = some r → read 2 1 = r.compartment % 256 ∧ read 3 2 = r.epoch % 65536 ∧
       read 5 4 = r.heard % 4294967296 ∧ read 9 1 = r.restartCount % 256 ∧ read 10 1 = r.resetCause % 256))

/-- R34, R159, R160, R161: the three queries and the two parts of QUERY-STATION. -/
def Obligations.QueriesAnswerAndChangeNothing : Prop :=
  Clause.QueriesAnswered ∧ Clause.StationPartLaidOut ∧ Clause.ProbeStatusesLaidOut ∧ Clause.RosterPartLaidOut

/-- R147: DISCARD-MIRROR by its table. -/
def Clause.DiscardMirrorByTable : Prop :=
  ∀ (s : State) (m : RxTelegram) (rest : List RxTelegram), s.front .discardMirror m rest →
    (let owner := field m.payload 0 1
     let id := field m.payload 1 6
     let named (x : MirrorRecord) : Bool := x.owner == owner && (id == 0 || x.record.id == id)
     let body (n : Nat) := beBytes 1 owner ++ beBytes 6 id ++ beBytes 1 n
     let reply (r : Result) (b : List Byte) := replyLetter m.sender .discardMirror r b
     (m.payload.length ≠ 7 → AnsweredOnly .discardMirror s rest (reply .badRequest [])) ∧
     (m.payload.length = 7 → owner = 0 ∨ 15 < owner →
       AnsweredOnly .discardMirror s rest (reply .badRequest (body 0))) ∧
     (m.payload.length = 7 → 1 ≤ owner → owner ≤ 15 → id ≠ 0 → s.domain.mirror.any named = false →
       AnsweredOnly .discardMirror s rest (reply .unknownId (body 0))) ∧
     (m.payload.length = 7 → 1 ≤ owner → owner ≤ 15 → id = 0 ∨ s.domain.mirror.any named = true →
       ∃ t, exec .discardMirror s = .next t ∧
         Sends
           { s.withRx rest with
             domain := { s.domain with mirror := s.domain.mirror.filter fun x => !named x } }
           t
           [reply .ok (body (s.domain.mirror.length - (s.domain.mirror.filter fun x => !named x).length))]))

/-! ### Telegrams of peers -/

/-- R87, R127, R129, R132, R133, R142: a recorded BEACON writes the sender's roster entry and no other, steps the sender's
mirror records by its sequence and no other, with (sequence + 1)E as the time of a breach where that fits 32 bits (a free
value beyond, log entry 4), marks every record UNMIRRORED when it shows a cold start of the buddy, and touches nothing else
but the tracker and the door openings its door entries bring, each entry being a sighting, one after another in the BEACON's
order (R63, R64, R65). -/
def Obligations.BeaconRecorded : Prop :=
  ∀ (s : State) (m : RxTelegram) (rest : List RxTelegram) (b : Beacon),
    s.front .beacon m rest → beaconOf m.payload = some b → m.sender ≠ s.address →
    s.store.tripId = some b.tripId → (s.mode = .active ∨ s.mode = .holdPending ∨ s.mode = .ending) →
    ∃ t, exec .beacon s = .next t ∧
      t = { s.withRx rest with
            roster := t.roster
            domain :=
              { s.domain with
                custody := t.domain.custody, mirror := t.domain.mirror, tracker := t.domain.tracker } } ∧
      t.roster = s.roster.map (fun e =>
        if e.address = m.sender then
          ⟨e.address, .live, some ⟨b.compartment, b.epoch, b.restartCount, b.resetCause, s.domain.clock⟩,
            some (s.domain.clock + 3 * b.epoch)⟩
        else e) ∧
      t.domain.mirror = s.domain.mirror.map (fun x =>
        if x.owner = m.sender then
          let next : Nat := match x.seq with
            | none => 0
            | some q => q + 1
          if b.sequence < next then x
          else
            { x with
              seq := some b.sequence
              record :=
                charge
                  { x.record with gap := min (x.record.gap + (b.sequence - next) * b.epoch) 4294967295 }
                  b.temps b.grace b.epoch
                  (if (b.sequence + 1) * b.epoch ≤ 4294967295 then (b.sequence + 1) * b.epoch
                   else epochEnd b.sequence b.epoch) }
        else x) ∧
      (let cold := s.committed.buddy = some m.sender ∧ (b.resetCause = 3 ∨ b.resetCause = 4) ∧
          ∃ e, s.peer? m.sender = some e ∧
            (e.report = none ∨ (∃ r, e.report = some r ∧ r.restartCount ≠ b.restartCount) ∨
              (e.report ≠ none ∧ (e.state = .silent ∨ e.state = .holding)))
       (cold → ∀ h ∈ t.domain.custody, h.record.unmirrored = true) ∧
       (¬ cold → t.domain.custody.map (·.record.unmirrored) = s.domain.custody.map (·.record.unmirrored)) ∧
       ∃ start : List Holding,
         (cold → start = s.domain.custody.map fun h => { h with record := { h.record with unmirrored := true } }) ∧
         (¬ cold → start = s.domain.custody) ∧
         Sightings s.committed.grace s.domain.clock m.sender b.doors
           (s.domain.tracker, start) (t.domain.tracker, t.domain.custody)) ∧
      t.domain.custody.map
          (fun h => { h with record := { h.record with openings := 0, unmirrored := false } }) =
        s.domain.custody.map
          (fun h => { h with record := { h.record with openings := 0, unmirrored := false } }) ∧
      (b.doors = [] → t.domain.tracker = s.domain.tracker ∧
        t.domain.custody.map (·.record.openings) = s.domain.custody.map (·.record.openings))

/-- R127, R151: a BEACON of a wrong form, of another trip id, under the recorder's own address, or in a mode in which it
has no use is taken from the buffer and changes nothing else. That the write which ends a REJOINING is such a mode is the
model's choice (log entry 13). -/
def Clause.BeaconIgnored : Prop :=
  ∀ (s : State) (m : RxTelegram) (rest : List RxTelegram), s.front .beacon m rest →
    (m.payload.length ≠ 26 + 4 * field m.payload 25 1 ∨ 4 < field m.payload 25 1 ∨
      field m.payload 8 1 = 0 ∨ 15 < field m.payload 8 1 ∨ field m.payload 9 2 < 10 ∨ 600 < field m.payload 9 2 ∨
      ((field m.payload 19 1).testBit 7 = true ∧
        ¬ (-500 ≤ tempField m.payload 17 ∧ tempField m.payload 17 ≤ tempField m.payload 15 ∧
          tempField m.payload 15 ≤ 700)) ∨
      (∃ i, i < field m.payload 25 1 ∧ 1 < field m.payload (27 + 4 * i) 1) ∨
      m.sender = s.address ∨ s.store.tripId ≠ some (field m.payload 0 4) ∨
      s.mode = .idle ∨ s.mode = .starting ∨ s.mode = .hold ∨
      (s.mode = .rejoining ∧ s.rejoin ≠ .listening)) →
    exec .beacon s = .next (s.withRx rest)

/-- R153, R154: in LISTENING the first BEACON of the running trip ends REJOINING: its clock is adopted, custody is lost,
and with the supply at or above the warning level the recorder is ACTIVE under the running trip's id. -/
def Clause.BeaconAdoptedInListening : Prop :=
  ∀ (s : State) (m : RxTelegram) (rest : List RxTelegram) (b : Beacon),
    s.front .beacon m rest → beaconOf m.payload = some b → m.sender ≠ s.address →
    s.store.tripId = some b.tripId → s.mode = .rejoining → s.rejoin = .listening → 8000 ≤ s.supplyMv →
    0 < s.committed.epoch →
    ∃ t, exec .beacon s = .next t ∧
      Activates
        { s.withRx rest with
          domain := { s.domain with clock := b.clock, custodyLost := true, tripId := s.store.tripId } }
        t

/-- R63, R64, R65: a DOOR notice of a door in the map is one sighting: openings reach the HELD records, the door's entry
is rewritten, and the tracker changes by TABLE 4-3. A door outside the map is passed over. -/
def Clause.DoorNoticeIsASighting : Prop :=
  ∀ (s : State) (m : RxTelegram) (rest : List RxTelegram) (door count : Nat) (state : DoorState),
    s.front .door m rest → (s.mode = .active ∨ s.mode = .holdPending ∨ s.mode = .ending) → door ≤ 255 →
    count ≤ 65535 → m.payload = beBytes 1 door ++ beBytes 1 state.code ++ beBytes 2 count →
    ((∀ e ∈ s.domain.tracker.doors, e.door ≠ door) → exec .door s = .next (s.withRx rest)) ∧
    ∀ e, s.domain.tracker.doors.find? (·.door == door) = some e →
      ∃ (first : Bool) (d : Nat) (phase : TrackerPhase),
        ((e.known = none ∨ ∃ k, e.known = some k ∧ k.source ≠ m.sender) → first = true ∧ d = 0) ∧
        (∀ k, e.known = some k → k.source = m.sender →
          (32768 ≤ (count + 65536 - k.count) % 65536 → first = true ∧ d = 0) ∧
          ((count + 65536 - k.count) % 65536 < 32768 → first = false ∧ d = (count + 65536 - k.count) % 65536)) ∧
        (let doors := s.domain.tracker.doors.map fun x =>
            if x.door = door then { x with known := some ⟨state, count, m.sender⟩ } else x
         let open' := ∃ x ∈ doors, ∃ k, x.known = some k ∧ k.state = .opened
         (s.domain.tracker.phase = .closed →
           (state = .closed → phase = .closed) ∧
           (state = .opened → first = true ∨ s.committed.grace = 0 → phase = .overdue) ∧
           (state = .opened → first = false → 0 < s.committed.grace → phase = .grace s.domain.clock)) ∧
         (∀ w, s.domain.tracker.phase = .grace w → phase = .grace w) ∧
         (s.domain.tracker.phase = .overdue → (open' → phase = .overdue) ∧ (¬ open' → phase = .closed)) ∧
         exec .door s = .next
           { s.withRx rest with
             domain :=
               { s.domain with
                 tracker := ⟨phase, doors⟩
                 custody := s.domain.custody.map fun h =>
                   if h.state = .held then
                     { h with record := { h.record with openings := min (h.record.openings + d) 65535 } }
                   else h } })

/-- R63, R116: a DOOR notice of another length than 4, with a state byte neither 0 nor 1, or taken in a mode other than
ACTIVE, HOLD_PENDING and ENDING is no sighting: it is taken from the buffer and changes nothing else. -/
def Clause.UselessDoorNoticeDiscarded : Prop :=
  ∀ (s : State) (m : RxTelegram) (rest : List RxTelegram), s.front .door m rest →
    (m.payload.length ≠ 4 ∨ 1 < field m.payload 1 1 ∨
      ¬ (s.mode = .active ∨ s.mode = .holdPending ∨ s.mode = .ending)) →
    exec .door s = .next (s.withRx rest)

/-- R131: a HOLD of the running trip makes its sender's entry HOLDING, without a deadline, and touches no other. A HOLD
of another length or trip, under the own address, or in another mode changes nothing. -/
def Clause.HoldMarksPeerHolding : Prop :=
  ∀ (s : State) (m : RxTelegram) (rest : List RxTelegram), s.front .hold m rest →
    (m.payload.length = 4 → (s.mode = .active ∨ s.mode = .holdPending ∨ s.mode = .ending) →
      s.store.tripId = some (field m.payload 0 4) → m.sender ≠ s.address →
      exec .hold s = .next
        { s.withRx rest with
          roster := s.roster.map fun e =>
            if e.address = m.sender then { e with state := .holding, deadline := none } else e }) ∧
    (m.payload.length ≠ 4 ∨ ¬ (s.mode = .active ∨ s.mode = .holdPending ∨ s.mode = .ending) ∨
      s.store.tripId ≠ some (field m.payload 0 4) ∨ m.sender = s.address →
      exec .hold s = .next (s.withRx rest))

/-- R97, R98, R100, R116: an OFFER that passes the four tests is admitted as ARRIVING, its accounted-to converted
through u, and an ACCEPT is queued; one the queue has no room for leaves no record. A failing test is declined with its
reason and changes no record; an OFFER of another length, or whose record fails the record check, is discarded. -/
def Obligations.OfferAdmittedOrDeclined : Prop :=
  ∀ (s : State) (m : RxTelegram) (rest : List RxTelegram), s.front .offer m rest →
    (m.payload.length ≠ 131 ∨ recordCheck (recordAt m.payload 5) = false → exec .offer s = .next (s.withRx rest)) ∧
    (m.payload.length = 131 → recordCheck (recordAt m.payload 5) = true →
      let r := recordAt m.payload 5
      let declined (why : Nat) : Prop :=
        ∃ t, exec .offer s = .next t ∧
          Sends (s.withRx rest) t [(⟨m.sender, .decline, beBytes 6 r.id ++ beBytes 1 why⟩, .plain)]
      let known := ∃ h ∈ s.domain.custody, h.record.id = r.id
      let mine := s.committed.compartment = some (field m.payload 0 1)
      (s.mode ≠ .active → declined 1) ∧
      (s.mode = .active → ¬ mine → declined 2) ∧
      (s.mode = .active → mine → known → declined 3) ∧
      (s.mode = .active → mine → ¬ known → 48 ≤ s.domain.custody.length → declined 4) ∧
      (s.mode = .active → mine → ¬ known → s.domain.custody.length < 48 →
        ∃ t, exec .offer s = .next t ∧
          (s.bus.queue.length < 8 →
            Sends
              { s.withRx rest with
                domain :=
                  { s.domain with
                    custody := s.domain.custody ++
                      [⟨r, s.domain.clock - field m.payload 1 4, .arriving s.domain.clock m.sender⟩] } }
              t [(⟨m.sender, .accept, beBytes 6 r.id⟩, .accept r.id)]) ∧
          (8 ≤ s.bus.queue.length → t.domain = s.domain ∧ t.offers = s.offers ∧ t.mode = s.mode)))

/-- R102, R103, R139, R144: an ACCEPT taken for its ANSWERED offer removes the record and the offer, lists and sends the
drop when a buddy is configured, and answers MOVE_DONE, and queued MIRROR-PUTs of the record are then of a stay that has
ended; a DECLINE taken for its ANSWERED offer closes it, returns the record
to HELD and answers MOVE_FAILED with the reason carried. -/
def Obligations.AnswersCompleteOrCloseOffers : Prop :=
  ∀ (s : State) (m : RxTelegram) (rest : List RxTelegram) (o : Offer), o ∈ s.offers → (s.offers.map (·.id)).Nodup →
    o.id = field m.payload 0 6 → o.target = m.sender → o.phase = .answered →
    (s.front .accept m rest → m.payload.length = 6 →
      ∃ t, exec .accept s = .next t ∧
        t = { s.withRx rest with
              offers := s.offers.filter (·.id ≠ o.id)
              freeCount := t.freeCount
              bus := { s.bus with rx := rest, queue := t.bus.queue, line := t.bus.line }
              domain :=
                { s.domain with
                  custody := s.domain.custody.filter (·.record.id ≠ o.id)
                  drops := if s.committed.buddy = none then s.domain.drops else dropListWith s.domain.drops o.id
                  discardedDrops :=
                    if s.committed.buddy = none ∨ o.id ∈ s.domain.drops ∨ s.domain.drops.length < 8 then
                      s.domain.discardedDrops
                    else min (s.domain.discardedDrops + 1) 65535 } } ∧
        t.outbox.map (·.1) =
          (s.boxAfter (s.dropLetters o.id ++
            [replyLetter o.requester .move .moveDone
              (beBytes 6 o.id ++ beBytes 1 o.target ++ beBytes 1 o.compartment)])).map (·.1) ∧
        ((∃ h ∈ s.domain.custody, h.record.id = o.id) →
          t.outbox = (s.stayEnded o.id).boxAfter (s.dropLetters o.id ++
            [replyLetter o.requester .move .moveDone
              (beBytes 6 o.id ++ beBytes 1 o.target ++ beBytes 1 o.compartment)]))) ∧
    (s.front .decline m rest → m.payload.length = 7 →
      ∃ t, exec .decline s = .next t ∧
        Sends
          { s.withRx rest with
            offers := s.offers.filter (·.id ≠ o.id)
            domain :=
              { s.domain with
                custody := s.domain.custody.map fun h =>
                  if h.record.id = o.id ∧ h.state = .offered then { h with state := .held } else h } }
          t [failLetter o.requester 3 (field m.payload 6 1) o.id])

/-- R102, R103, R116: an ACCEPT or DECLINE that meets no ANSWERED offer, or has another length, is discarded. R102 and R103
speak of no open offer; that one still in SENDING or AWAITING gives no use either is the model's choice (log entry 18). -/
def Clause.StrayAnswersDiscarded : Prop :=
  ∀ (s : State) (m : RxTelegram) (rest : List RxTelegram),
    (s.front .accept m rest → m.payload.length ≠ 6 ∨
        (∀ o ∈ s.offers, ¬ (o.id = field m.payload 0 6 ∧ o.target = m.sender ∧ o.phase = .answered)) →
      exec .accept s = .next (s.withRx rest)) ∧
    (s.front .decline m rest → m.payload.length ≠ 7 ∨
        (∀ o ∈ s.offers, ¬ (o.id = field m.payload 0 6 ∧ o.target = m.sender ∧ o.phase = .answered)) →
      exec .decline s = .next (s.withRx rest))

/-- R138, R141, R146: a MIRROR-PUT taken in ACTIVE, HOLD_PENDING or HOLD replaces the record of its key whole and in
place, or is placed last; one taken in ENDING is discarded, and so, by the model's choice (log entry 19), is one taken in
IDLE, STARTING or REJOINING, modes R141 does not name; a MIRROR-DROP removes its key's record, in every mode. Nothing else
changes. -/
def Clause.MirrorPutAndDropAtBuddy : Prop :=
  ∀ (s : State) (m : RxTelegram) (rest : List RxTelegram),
    (s.front .mirrorPut m rest → m.payload.length = 130 → recordCheck (recordAt m.payload 4) = true →
      (s.mode = .active ∨ s.mode = .holdPending ∨ s.mode = .hold) →
      let q := field m.payload 0 4
      let x : MirrorRecord := ⟨m.sender, if q = 4294967295 then none else some q, recordAt m.payload 4⟩
      ((∃ y ∈ s.domain.mirror, y.key = x.key) →
        exec .mirrorPut s = .next
          { s.withRx rest with
            domain := { s.domain with mirror := s.domain.mirror.map fun y => if y.key = x.key then x else y } }) ∧
      ((∀ y ∈ s.domain.mirror, y.key ≠ x.key) → s.domain.mirror.length < 48 →
        exec .mirrorPut s = .next
          { s.withRx rest with domain := { s.domain with mirror := s.domain.mirror ++ [x] } })) ∧
    (s.front .mirrorPut m rest →
      m.payload.length ≠ 130 ∨ recordCheck (recordAt m.payload 4) = false ∨ s.mode = .ending ∨ s.mode = .idle ∨
        s.mode = .starting ∨ s.mode = .rejoining →
      exec .mirrorPut s = .next (s.withRx rest)) ∧
    (s.front .mirrorDrop m rest → m.payload.length = 6 →
      exec .mirrorDrop s = .next
        { s.withRx rest with
          domain :=
            { s.domain with
              mirror := s.domain.mirror.filter fun y => y.key ≠ (m.sender, field m.payload 0 6) } }) ∧
    (s.front .mirrorDrop m rest → m.payload.length ≠ 6 → exec .mirrorDrop s = .next (s.withRx rest))

/-- R138, R141, R146, R147: MIRROR-PUT, MIRROR-DROP and DISCARD-MIRROR. -/
def Obligations.MirrorTableEdits : Prop :=
  Clause.DiscardMirrorByTable ∧ Clause.MirrorPutAndDropAtBuddy

/-- R148, R149: a RESTORE-ASK of the running trip in ACTIVE opens a session, in the asker's slot or a free one, with the
keys of its mirror records in table order, and queues RESTORE-BEGIN last; queued telegrams of the asker's earlier session are
then of an ended one, and every other place of the queue stays as it was. Any other RESTORE-ASK changes nothing. -/
def Clause.RestoreAskOpensSession : Prop :=
  ∀ (s : State) (m : RxTelegram) (rest : List RxTelegram), s.front .restoreAsk m rest →
    (let room := (∃ x ∈ s.sessions, x.asker = m.sender) ∨ s.sessions.length < 2
     let keys := (s.domain.mirror.filter fun y => y.owner == m.sender).map (·.record.id)
     (m.payload.length = 4 → s.mode = .active → s.store.tripId = some (field m.payload 0 4) → room →
       s.bus.queue.length < 8 →
       ∃ t, exec .restoreAsk s = .next t ∧
         t = { s.withRx rest with
               sessions := t.sessions, freeCount := t.freeCount
               bus := { s.bus with rx := rest, queue := t.bus.queue, line := t.bus.line } } ∧
         t.sessions =
           (if s.sessions.any (·.asker == m.sender) then
             s.sessions.map fun x => if x.asker = m.sender then ⟨m.sender, keys, 0, 0⟩ else x
           else s.sessions ++ [⟨m.sender, keys, 0, 0⟩]) ∧
         (let begin' : TxTelegram :=
            ⟨m.sender, .restoreBegin,
              beBytes 4 (field m.payload 0 4) ++ beBytes 4 s.domain.clock ++ beBytes 1 keys.length⟩
          let ended (x : TxEntry) : TxEntry :=
            match x.origin with
            | .session asker last _ =>
              if asker = m.sender then { x with origin := .session asker last false } else x
            | _ => x
          ∃ sending, (sending = true → s.bus.queue = []) ∧
            t.bus.queue =
              s.bus.queue.map ended ++ [⟨begin', .session m.sender false true, sending, false⟩])) ∧
     (m.payload.length ≠ 4 ∨ s.mode ≠ .active ∨ s.store.tripId ≠ some (field m.payload 0 4) ∨ ¬ room →
       exec .restoreAsk s = .next (s.withRx rest)))

/-- R151, R152, R153: in ASKING a RESTORE-BEGIN of the running trip gives the clock, the deadline and the count; in
RECEIVING a RESTORE-RECORD is admitted with the gap since (q + 1)·E, a closed and a restored leg (an exit time that does not
fit its 32 bits is a free value, log entry 4), or left out with the restore-incomplete flag; RESTORE-END makes the recorder
ACTIVE, with the supply at or above the warning level. -/
def Obligations.RestoreAnswersTaken : Prop :=
  ∀ (s : State) (m : RxTelegram) (rest : List RxTelegram), s.mode = .rejoining →
    (s.front .restoreBegin m rest → m.payload.length = 9 → s.rejoin = .asking →
      s.store.tripId = some (field m.payload 0 4) →
      exec .restoreBegin s = .next
        { s.withRx rest with
          rejoin := .receiving (field m.payload 4 4 + 30) (field m.payload 8 1)
          domain := { s.domain with clock := field m.payload 4 4 } }) ∧
    (∀ d n, s.rejoin = .receiving d n →
      (s.front .restoreRecord m rest → m.payload.length = 130 → recordCheck (recordAt m.payload 4) = true →
        let r := recordAt m.payload 4
        let q := field m.payload 0 4
        let room := (∀ h ∈ s.domain.custody, h.record.id ≠ r.id) ∧ s.domain.custody.length < 48
        (¬ room → exec .restoreRecord s = .next
          { s.withRx rest with domain := { s.domain with restoreIncomplete := true } }) ∧
        (room → ∀ close, (q = 4294967295 → close = 0) →
          (q < 4294967295 → (q + 1) * s.committed.epoch ≤ 4294967295 ∧ close = (q + 1) * s.committed.epoch) →
          ∃ x : Record, exec .restoreRecord s = .next
              { s.withRx rest with
                domain :=
                  { s.domain with
                    custody := s.domain.custody ++ [⟨x, s.domain.clock, .held⟩]
                    drops := s.domain.drops.filter (· ≠ r.id) } } ∧
            x = { r with
                  gap := min (r.gap + (s.domain.clock - close)) 4294967295
                  legs := x.legs, elided := x.elided, restored := true, unmirrored := true } ∧
            x.legs.getLast? = some ⟨s.compartment, s.address, s.domain.clock, none, true⟩ ∧
            (r.legs.length < 6 → x.legs.length = r.legs.length + 1 ∧ x.elided = r.elided ∧
              x.legs.take r.legs.length = closeLast r.legs close) ∧
            (r.legs.length = 6 → x.legs.length = 6 ∧ x.elided = min (r.elided + 1) 255 ∧
              x.legs.take 5 = (closeLast r.legs close).eraseIdx 1)) ∧
        (room → q < 4294967295 → 4294967295 < (q + 1) * s.committed.epoch →
          ∃ x : Record, exec .restoreRecord s = .next
              { s.withRx rest with
                domain :=
                  { s.domain with
                    custody := s.domain.custody ++ [⟨x, s.domain.clock, .held⟩]
                    drops := s.domain.drops.filter (· ≠ r.id) } } ∧
            x = { r with
                  gap := min (r.gap + (s.domain.clock - (q + 1) * s.committed.epoch)) 4294967295
                  legs := x.legs, elided := x.elided, restored := true, unmirrored := true })) ∧
      (s.front .restoreEnd m rest → m.payload.length = 1 → 8000 ≤ s.supplyMv → 0 < s.committed.epoch →
        ∃ t, exec .restoreEnd s = .next t ∧
          Activates
            { s.withRx rest with
              domain :=
                { s.domain with
                  tripId := s.store.tripId
                  restoreIncomplete := s.domain.restoreIncomplete || decide (field m.payload 0 1 < n) } }
            t))

/-- R150, R151, R153, R116: restore answers of a wrong length or trip, out of their phase or after REJOINING, are
discarded. -/
def Clause.StrayRestoreAnswersDiscarded : Prop :=
  ∀ (s : State) (m : RxTelegram) (rest : List RxTelegram),
    (s.front .restoreBegin m rest →
      m.payload.length ≠ 9 ∨ s.mode ≠ .rejoining ∨ s.rejoin ≠ .asking ∨
        s.store.tripId ≠ some (field m.payload 0 4) →
      exec .restoreBegin s = .next (s.withRx rest)) ∧
    (s.front .restoreRecord m rest →
      m.payload.length ≠ 130 ∨ recordCheck (recordAt m.payload 4) = false ∨ s.mode ≠ .rejoining ∨
        (∀ d n, s.rejoin ≠ .receiving d n) →
      exec .restoreRecord s = .next (s.withRx rest)) ∧
    (s.front .restoreEnd m rest →
      m.payload.length ≠ 1 ∨ s.mode ≠ .rejoining ∨ (∀ d n, s.rejoin ≠ .receiving d n) →
      exec .restoreEnd s = .next (s.withRx rest))

/-- R116, R127, R102, R103, R150 to R153: telegrams of peers that have no use when taken. -/
def Obligations.UselessTelegramsDiscarded : Prop :=
  Clause.BeaconIgnored ∧ Clause.StrayAnswersDiscarded ∧ Clause.StrayRestoreAnswersDiscarded

/-! ### The bus -/

/-- R113, R114, R115, R101, R110: at an acknowledge slot a telegram that passes the first three tests is placed in a
free slot, and one that answers an open offer moves it to ANSWERED; with the buffer full it is counted as an overrun
and the offer stays; any other telegram, and one of a kind that TABLE 7-6 does not list, leaves nothing but a busy
line. -/
def Clause.AcknowledgeSlotDecides : Prop :=
  ∀ (s : State) (f : Frame), s.busOn = true → s.sending? = none → s.bus.line ≠ .ignoring →
    f.payload.length ≤ 160 →
    ((∀ k : Kind, k.code ≠ f.kind.toNat) → exec (.acknowledgeSlot f) s = .next (s.withLine .busy)) ∧
    ∀ k : Kind, k.code = f.kind.toNat →
      (let passes := (f.receiver.toNat = s.address ∨ f.receiver.toNat = 0) ∧ frameCheck f = f.check ∧
          s.accepts k f.sender.toNat f.receiver.toNat f.payload = true
       (¬ passes → exec (.acknowledgeSlot f) s = .next (s.withLine .busy)) ∧
       (passes → 4 ≤ s.bus.rx.length → s.acknowledges f = false ∧
         exec (.acknowledgeSlot f) s = .next
           { s with
             bus :=
               { s.bus with
                 line := .busy
                 counters := { s.bus.counters with overruns := min (s.bus.counters.overruns + 1) 65535 } } }) ∧
       (passes → s.bus.rx.length < 4 → s.acknowledges f = true ∧
         exec (.acknowledgeSlot f) s = .next
           { s with
             bus :=
               { s.bus with
                 line := .busy
                 rx := s.bus.rx ++ [⟨f.cls.toNat, f.sender.toNat, f.receiver.toNat, k, f.payload⟩] }
             offers :=
               if k = .accept ∨ k = .decline then
                 s.offers.map fun o => if o.id = field f.payload 0 6 then { o with phase := .answered } else o
               else s.offers }))

/-- R113, R122, R164: in HOLD and UNSTRAPPED, and while the core is stopped, an acknowledge slot changes nothing, so no
telegram is acknowledged; and no telegram is taken for sending in HOLD and UNSTRAPPED. -/
def Clause.NothingAcknowledgedInHold : Prop :=
  ∀ (s : State) (f : Frame), s.running = false ∨ s.mode = .hold ∨ s.mode = .unstrapped →
    exec (.acknowledgeSlot f) s = .next s ∧ s.acknowledges f = false ∧
    ((s.mode = .hold ∨ s.mode = .unstrapped) → ∀ x o, send s x o = (s, false))

/-- R113 to R115: what an acknowledge slot does, and that it does nothing in HOLD and UNSTRAPPED. -/
def Obligations.AcknowledgeSlotsDecided : Prop :=
  Clause.AcknowledgeSlotDecides ∧ Clause.NothingAcknowledgedInHold

/-- R101, R114, R115: TABLE 7-3 for every kind, with the tests of offers, modes and room that it names. -/
def Obligations.FilterFollowsItsTable : Prop :=
  ∀ (s : State) (k : Kind) (sender receiver : Nat) (p : List Byte), receiver = s.address ∨ receiver = 0 →
    s.address ≠ 0 → s.mode ≠ .hold → s.mode ≠ .unstrapped → sender ≤ 31 →
    (k = .tripStart → (s.accepts k sender receiver p = true ↔ 16 ≤ sender)) ∧
    (k.isConsole = true → k ≠ .tripStart →
      (s.accepts k sender receiver p = true ↔ 16 ≤ sender ∧ receiver = s.address)) ∧
    (k = .beacon ∨ k = .door ∨ k = .hold →
      (s.accepts k sender receiver p = true ↔ 1 ≤ sender ∧ sender ≤ 15 ∧ receiver = 0)) ∧
    (k = .offer ∨ k = .mirrorDrop →
      (s.accepts k sender receiver p = true ↔ 1 ≤ sender ∧ sender ≤ 15 ∧ receiver = s.address)) ∧
    (k = .restoreAsk →
      (s.accepts k sender receiver p = true ↔
        1 ≤ sender ∧ sender ≤ 15 ∧ receiver = s.address ∧ s.mode = .active)) ∧
    (k = .restoreBegin ∨ k = .restoreRecord ∨ k = .restoreEnd →
      (s.accepts k sender receiver p = true ↔
        1 ≤ sender ∧ sender ≤ 15 ∧ receiver = s.address ∧ s.mode = .rejoining ∧
          s.committed.buddy = some sender)) ∧
    (k = .accept ∨ k = .decline →
      (s.accepts k sender receiver p = true ↔
        1 ≤ sender ∧ sender ≤ 15 ∧ receiver = s.address ∧ p.length = (if k = .accept then 6 else 7) ∧
          ∃ o ∈ s.offers, o.id = field p 0 6 ∧ o.target = sender ∧ ∃ d, o.phase = .awaiting d)) ∧
    (k = .mirrorPut →
      (s.accepts k sender receiver p = true ↔
        1 ≤ sender ∧ sender ≤ 15 ∧ receiver = s.address ∧ (s.mode = .active ∨ s.mode = .holdPending) ∧
          10 ≤ p.length ∧
          ((∃ y ∈ s.domain.mirror, y.key = (sender, field p 4 6)) ∨
            (s.bus.rx.filter (·.kind == .mirrorPut)).length < 48 - s.domain.mirror.length))) ∧
    (k = .reply → s.accepts k sender receiver p = false)

/-- R109, R110, R111, R118, R119: when the bus becomes idle, by BUS_IDLE or by an abandoned telegram, the recorder begins the
queued telegram of lowest class, and among those the one queued first; the queue keeps its order and content. With
nothing queued the line is idle. The telegram begun goes out as a frame that carries the class of its kind, the own address,
the receiver, the kind code and the payload, with a check that a receiver's own computation confirms (R110). -/
def Obligations.IdleBusBeginsMostUrgent : Prop :=
  ∀ (s : State) (c : Instr), c = .busIdle ∨ c = .telegramAbandoned → s.busOn = true → s.sending? = none →
    (s.bus.queue = [] → exec c s = .next (s.withLine .idle)) ∧
    (s.bus.queue ≠ [] →
      ∃ before e after, s.bus.queue = before ++ e :: after ∧
        (∀ x ∈ before, e.cls < x.cls) ∧ (∀ x ∈ after, e.cls ≤ x.cls) ∧
        exec c s = .next
          { s with
            bus := { s.bus with line := .busy, queue := before ++ { e with sending := true } :: after } } ∧
        (let kind := e.telegram.kind
         let f := e.telegram.frame s.address
         f.cls.toNat = e.cls ∧
         e.cls =
           (if kind = .door ∨ kind = .hold then 0
            else if kind = .offer ∨ kind = .accept ∨ kind = .decline then 1
            else if kind = .beacon then 3 else 2) ∧
         f.sender.toNat = s.address % 32 ∧ f.receiver.toNat = e.telegram.receiver % 32 ∧ f.kind.toNat = kind.code ∧
         f.payload = e.telegram.payload ∧ frameCheck f = f.check))

/-- R110, R111, R120: a length above 160 makes the recorder ignore the line; a lost arbitration leaves the telegram in
its place and is counted, and a held BEACON then replaces the one that lost, which is counted too. -/
def Clause.LineEventsAtTheRecorder : Prop :=
  ∀ s : State, s.busOn = true →
    (∀ n, 160 < n → s.sending? = none → exec (.sampledLengthAbove160 n) s = .next (s.withLine .ignoring)) ∧
    (∀ before e after, s.sends before e after → (∀ x ∈ after, x.sending = false) →
      (let lost : Counters :=
        { s.bus.counters with arbitrationLosses := min (s.bus.counters.arbitrationLosses + 1) 65535 }
       (e.telegram.kind ≠ .beacon ∨ s.bus.beaconHold = none →
         exec .arbitrationLoss s = .next
           { s with
             bus :=
               { s.bus with
                 line := .busy, queue := before ++ { e with sending := false } :: after, counters := lost } }) ∧
       (∀ b, e.telegram.kind = .beacon → s.bus.beaconHold = some b →
         exec .arbitrationLoss s = .next
           { s with
             bus :=
               { s.bus with
                 line := .busy, beaconHold := none
                 queue := before ++ { e with sending := false, telegram := b } :: after
                 counters := { lost with replacedBeacons := min (lost.replacedBeacons + 1) 65535 } } })))

/-- R110, R111, R120: one BEACON at a time, a lost arbitration, and a length above 160. -/
def Obligations.BeaconReplacementAndArbitration : Prop :=
  Clause.OneBeaconAtATime ∧ Clause.LineEventsAtTheRecorder

/-! ### Outcomes -/

/-- R112, R121, R124: a line error takes the telegram from the queue, is counted, and is the outcome its originator
gets; for a DOOR, DECLINE or plain REPLY nothing else happens, and for the HOLD telegram HOLD begins. The place of a BEACON
goes to a held one (R120). That an ACCEPT spoiled at the entry to HOLD_PENDING counts as a line error too is the model's
choice (log entry 46). -/
def Clause.LineErrorEndsTelegram : Prop :=
  ∀ (s : State) (before : List TxEntry) (e : TxEntry) (after : List TxEntry), s.sends before e after →
    e.telegram.kind ≠ .beacon →
    (let c : Counters := { s.bus.counters with lineErrors := min (s.bus.counters.lineErrors + 1) 65535 }
     (e.origin = .plain → exec .lineError s = .next (s.sent (before ++ after) c)) ∧
     (e.origin ≠ .plain → e.origin ≠ .hold →
       exec .lineError s = .next (resolve (s.sent (before ++ after) c) e.origin .lineError)) ∧
     (e.origin = .hold → s.mode = .holdPending →
       exec .lineError s = .next (enterHold (s.sent (before ++ after) c)))) ∧
  ∀ (s : State) (before : List TxEntry) (e : TxEntry) (after : List TxEntry), s.sends before e after →
    e.telegram.kind = .beacon → e.origin = .plain →
    (let c : Counters := { s.bus.counters with lineErrors := min (s.bus.counters.lineErrors + 1) 65535 }
     (s.bus.beaconHold = none → exec .lineError s = .next (s.sent (before ++ after) c)) ∧
     (∀ b, s.bus.beaconHold = some b →
       exec .lineError s = .next
         { s.sent (before ++ ⟨b, .plain, false, false⟩ :: after) c with
           bus := { (s.sent (before ++ ⟨b, .plain, false, false⟩ :: after) c).bus with beaconHold := none } }))

/-- R95, R100, R121, R139, R145, R149, R150, R158, R169: what each originator does on LINE_ERROR (TABLE 7-4). An offer closes
with MOVE_FAILED and its record is HELD; an ARRIVING record is removed; a RELEASING one is HELD again; flags and Drop List
stay; a RESTORE-ASK leads to LISTENING; a session ends; HOLD begins, or ends at once with a risen supply. -/
def Clause.OriginatorsMeetLineError : Prop :=
  ∀ (s : State) (before : List TxEntry) (e : TxEntry) (after : List TxEntry), s.sends before e after →
    e.telegram.kind ≠ .beacon → s.custodyLaw →
    (let left := s.sent (before ++ after)
       { s.bus.counters with lineErrors := min (s.bus.counters.lineErrors + 1) 65535 }
     (∀ o, e.origin = .offer o.id → o ∈ s.offers → (s.offers.map (·.id)).Nodup → o.phase = .sending →
       ∃ t, exec .lineError s = .next t ∧
         Sends
           { left with
             offers := s.offers.filter (·.id ≠ o.id)
             domain :=
               { s.domain with
                 custody := s.domain.custody.map fun h =>
                   if h.record.id = o.id ∧ h.state = .offered then { h with state := .held } else h } }
           t [failLetter o.requester 1 0 o.id]) ∧
     (∀ h receipt sender, e.origin = .accept h.record.id → h ∈ s.domain.custody → h.state = .arriving receipt sender →
       exec .lineError s = .next
         { left with
           bus := { left.bus with queue := (before ++ after).map (endStay h.record.id) }
           domain := { s.domain with custody := s.domain.custody.filter (·.record.id ≠ h.record.id) } }) ∧
     (∀ h, e.origin = .certificate h.record.id → h ∈ s.domain.custody → h.state = .releasing →
       exec .lineError s = .next
         { left with
           domain :=
             { s.domain with
               custody := s.domain.custody.map fun x =>
                 if x.record.id = h.record.id then { x with state := .held } else x } }) ∧
     (∀ id staying, e.origin = .mirrorPut id staying → exec .lineError s = .next left) ∧
     (∀ id, e.origin = .mirrorDrop id → exec .lineError s = .next left) ∧
     (e.origin = .restoreAsk → s.mode = .rejoining → s.rejoin = .asking →
       exec .lineError s = .next { left with rejoin := .listening }) ∧
     (∀ x last, e.origin = .session x.asker last true → x ∈ s.sessions →
       exec .lineError s = .next { left with sessions := s.sessions.filter (·.asker ≠ x.asker) }) ∧
     (∀ a last, e.origin = .session a last false → exec .lineError s = .next left) ∧
     (e.origin = .hold → s.mode = .holdPending →
       ∃ t, exec .lineError s = .next t ∧ t.bus.queue = [] ∧ t.bus.beaconHold = none ∧
         (s.supplyMv ≤ 8600 → t.mode = .hold) ∧
         (8600 < s.supplyMv → t.mode = .active ∧ ∀ h ∈ t.domain.custody, h.record.unmirrored = true)))

/-- R113, R120, R121, R124: the acknowledge slot of a telegram whose outcome nothing acts on counts it and frees its
place, which a held BEACON takes when the sent one was a BEACON. -/
def Clause.PlainOutcomeOnlyCounts : Prop :=
  ∀ (s : State) (before : List TxEntry) (e : TxEntry) (after : List TxEntry) (acked : Bool),
    s.sends before e after → e.origin = .plain → e.spoiled = false →
    (let c := s.bus.counters.slot acked
     (e.telegram.kind ≠ .beacon → exec (.telegramOutcome acked) s = .next (s.sent (before ++ after) c)) ∧
     (e.telegram.kind = .beacon → s.bus.beaconHold = none →
       exec (.telegramOutcome acked) s = .next (s.sent (before ++ after) c)) ∧
     (∀ b, e.telegram.kind = .beacon → s.bus.beaconHold = some b →
       exec (.telegramOutcome acked) s = .next
         { s.sent (before ++ ⟨b, .plain, false, false⟩ :: after) c with
           bus := { (s.sent (before ++ ⟨b, .plain, false, false⟩ :: after) c).bus with beaconHold := none } }))

/-- R112, R121, R124: line errors, and acknowledge slots that nothing acts on. -/
def Obligations.SendEndsInItsOutcome : Prop :=
  Clause.LineErrorEndsTelegram ∧ Clause.OriginatorsMeetLineError ∧ Clause.PlainOutcomeOnlyCounts

/-- R95, R96, R104: an acknowledged OFFER starts the answer timer of ten seconds; one not acknowledged, or the deadline
reached, closes the offer, returns the record to HELD and answers MOVE_FAILED; before the deadline, and in SENDING and
ANSWERED, a timeout changes nothing. -/
def Obligations.OfferAwaitsOrCloses : Prop :=
  ∀ (s : State) (o : Offer), o ∈ s.offers → (s.offers.map (·.id)).Nodup →
    (let closed (base : State) : State :=
       { base with
         offers := base.offers.filter (·.id ≠ o.id)
         domain :=
           { base.domain with
             custody := base.domain.custody.map fun h =>
               if h.record.id = o.id ∧ h.state = .offered then { h with state := .held } else h } }
     (∀ before e after, s.sends before e after → e.origin = .offer o.id → e.telegram.kind = .offer →
       e.spoiled = false → o.phase = .sending →
       exec (.offerOutcome true) s = .next
         { s.sent (before ++ after) (s.bus.counters.slot true) with
           offers := s.offers.map fun x =>
             if x.id = o.id then { x with phase := .awaiting (s.domain.clock + 10) } else x } ∧
       ∃ t, exec (.offerOutcome false) s = .next t ∧
         Sends (closed (s.sent (before ++ after) (s.bus.counters.slot false))) t [failLetter o.requester 1 0 o.id]) ∧
     (∀ d, s.running = true → o.phase = .awaiting d → d ≤ s.domain.clock →
       ∃ t, exec (.answerTimeout o.id) s = .next t ∧ Sends (closed s) t [failLetter o.requester 2 0 o.id]) ∧
     (o.phase = .sending ∨ o.phase = .answered ∨ (∃ d, o.phase = .awaiting d ∧ s.domain.clock < d) →
       exec (.answerTimeout o.id) s = .next s))

/-- R99, R100, R106, R122: an acknowledged ACCEPT makes the ARRIVING record HELD, closes the sender's leg at the receipt
time, adds the own leg, sets UNMIRRORED, withdraws the id from the Drop List and puts the record to the buddy; without
the acknowledgement, or with a spoiled check, the record is removed. -/
def Obligations.AcceptOutcomeSettlesArrival : Prop :=
  ∀ (s : State) (before : List TxEntry) (e : TxEntry) (after : List TxEntry) (h : Holding) (receipt sender : Nat)
    (acked : Bool),
    s.sends before e after → e.origin = .accept h.record.id → e.telegram.kind = .accept → s.custodyLaw →
    h ∈ s.domain.custody → h.state = .arriving receipt sender → 1 ≤ h.record.legs.length → h.record.legs.length ≤ 6 →
    (acked = true → e.spoiled = false →
      ∃ (t : State) (r : Record), exec (.acceptOutcome acked) s = .next t ∧
        r = { h.record with legs := r.legs, elided := r.elided, unmirrored := true } ∧
        r.legs.getLast? = some ⟨s.compartment, s.address, s.domain.clock, none, false⟩ ∧
        (h.record.legs.length < 6 → r.elided = h.record.elided ∧
          r.legs.take h.record.legs.length = closeLast h.record.legs receipt ∧
          r.legs.length = h.record.legs.length + 1) ∧
        (h.record.legs.length = 6 → r.elided = min (h.record.elided + 1) 255 ∧
          r.legs.take 5 = (closeLast h.record.legs receipt).eraseIdx 1 ∧ r.legs.length = 6) ∧
        Sends
          { s.sent (before ++ after) (s.bus.counters.slot true) with
            domain :=
              { s.domain with
                drops := s.domain.drops.filter (· ≠ h.record.id)
                custody := s.domain.custody.map fun x =>
                  if x.record.id = h.record.id then { x with record := r, state := .held } else x } }
          t (s.putLetters r)) ∧
    (acked = false ∨ e.spoiled = true →
      ∃ t, exec (.acceptOutcome acked) s = .next t ∧
        t = { s with
              bus := t.bus
              domain := { s.domain with custody := s.domain.custody.filter (·.record.id ≠ h.record.id) } } ∧
        t.bus.rx = s.bus.rx ∧ t.bus.beaconHold = s.bus.beaconHold ∧
        t.outbox.map (·.1) = (before ++ after).map (·.telegram) ∧
        t.bus.counters = if e.spoiled then s.bus.counters else s.bus.counters.slot false)

/-- R9, R139, R144, R158: an acknowledged certificate removes the RELEASING record and lists and sends its drop when a buddy
is configured, and queued MIRROR-PUTs of the record are then of a stay that has ended; after one not acknowledged the record
returns to HELD with its accounted-to unchanged. -/
def Obligations.CertificateOutcomeSettlesRelease : Prop :=
  ∀ (s : State) (before : List TxEntry) (e : TxEntry) (after : List TxEntry) (h : Holding),
    s.sends before e after → e.origin = .certificate h.record.id → e.telegram.kind = .reply → e.spoiled = false →
    s.custodyLaw → h ∈ s.domain.custody → h.state = .releasing →
    (∃ t, exec (.certificateReplyOutcome true) s = .next t ∧
      t = { s with
            freeCount := t.freeCount
            bus :=
              { s.bus with queue := t.bus.queue, line := t.bus.line, counters := s.bus.counters.slot true }
            domain :=
              { s.domain with
                custody := s.domain.custody.filter (·.record.id ≠ h.record.id)
                drops :=
                  if s.committed.buddy = none then s.domain.drops else dropListWith s.domain.drops h.record.id
                discardedDrops :=
                  if s.committed.buddy = none ∨ h.record.id ∈ s.domain.drops ∨ s.domain.drops.length < 8 then
                    s.domain.discardedDrops
                  else min (s.domain.discardedDrops + 1) 65535 } } ∧
      t.outbox.map (·.1) =
        ((s.sent (before ++ after) s.bus.counters).boxAfter (s.dropLetters h.record.id)).map (·.1) ∧
      t.outbox =
        ((s.sent (before ++ after) s.bus.counters).stayEnded h.record.id).boxAfter (s.dropLetters h.record.id)) ∧
    exec (.certificateReplyOutcome false) s = .next
      { s.sent (before ++ after) (s.bus.counters.slot false) with
        domain :=
          { s.domain with
            custody := s.domain.custody.map fun x =>
              if x.record.id = h.record.id then { x with state := .held } else x } }

/-- R139, R145: an acknowledged MIRROR-PUT clears UNMIRRORED on its record, when that has not left the table since; an
acknowledged MIRROR-DROP leaves the Drop List, and sets UNMIRRORED where the id is in the table again. Without the
acknowledgement no flag and no list changes. -/
def Obligations.MirrorOutcomesKeepFlagsAndDrops : Prop :=
  ∀ (s : State) (before : List TxEntry) (e : TxEntry) (after : List TxEntry) (id : Nat) (acked : Bool),
    s.sends before e after → e.telegram.kind ≠ .beacon → e.spoiled = false →
    (let left := s.sent (before ++ after) (s.bus.counters.slot acked)
     let flagged (b : Bool) : List Holding := s.domain.custody.map fun h =>
       if h.record.id = id then { h with record := { h.record with unmirrored := b } } else h
     (∀ staying, e.origin = .mirrorPut id staying →
       exec (.mirrorPutOutcome acked) s = .next
         (if acked ∧ staying then { left with domain := { s.domain with custody := flagged false } } else left)) ∧
     (e.origin = .mirrorDrop id →
       exec (.mirrorDropOutcome acked) s = .next
         (if acked then
           { left with
             domain := { s.domain with custody := flagged true, drops := s.domain.drops.filter (· ≠ id) } }
         else left)))

/-- R122, R169, R170: HOLD_PENDING ends at the HOLD telegram's outcome, whatever it is, or after its second: the queue
and the beacon hold are empty and the mode is HOLD, or ACTIVE again with every record UNMIRRORED where the supply is
already above the release level. Every record stays as it is, but that each telegram flushed or broken off has the outcome
FLUSHED: a RELEASING record is then HELD again with its accounted-to unchanged, and so is one whose open offer had its OFFER
flushed, and an ARRIVING one whose ACCEPT was flushed is removed (R19, R121). -/
def Obligations.HoldPendingEndsInHold : Prop :=
  ∀ (s : State) (c : Instr), s.running = true → s.mode = .holdPending → s.custodyLaw →
    (c = .holdPendingTimeout ∨
      ((∃ acked, c = .holdOutcome acked) ∧ ∃ before e after, s.sends before e after ∧ e.origin = .hold ∧
        e.telegram.kind = .hold ∧ e.spoiled = false)) →
    ∃ t, exec c s = .next t ∧ t.bus.queue = [] ∧ t.bus.beaconHold = none ∧ t.bus.rx = s.bus.rx ∧
      t.domain.mirror = s.domain.mirror ∧ t.domain.drops = s.domain.drops ∧ t.domain.clock = s.domain.clock ∧
      t.domain.tracker = s.domain.tracker ∧ t.domain.filters = s.domain.filters ∧ t.channels = s.channels ∧
      t.inputs = s.inputs ∧ t.store = s.store ∧ t.nextExpiry = s.nextExpiry ∧ t.lastSummary = s.lastSummary ∧
      (s.supplyMv ≤ 8600 → t.mode = .hold ∧ t.roster = s.roster) ∧
      (8600 < s.supplyMv → t.mode = .active ∧ ∀ h ∈ t.domain.custody, h.record.unmirrored = true) ∧
      (let flushed (origin : Origin) : Bool := s.bus.queue.any (·.origin == origin)
       t.domain.custody =
         (s.domain.custody.filter fun h => !(h.state.isArriving && flushed (.accept h.record.id))).map fun h =>
           { h with
             state :=
               if (h.state = .releasing ∧ flushed (.certificate h.record.id)) ∨
                  (h.state = .offered ∧ flushed (.offer h.record.id) ∧
                    ∃ o ∈ s.offers, o.id = h.record.id ∧ o.phase = .sending) then .held
               else h.state
             record := if 8600 < s.supplyMv then { h.record with unmirrored := true } else h.record })

/-- R150, R151, R153: ASKING ends in LISTENING when the RESTORE-ASK is not acknowledged or ten seconds have passed;
RECEIVING ends at its deadline, and no sooner, with the restore-incomplete flag set and the recorder ACTIVE (with the
supply at or above the warning level); LISTENING ends at 2E + 10 in the write of ENDED. -/
def Clause.RejoiningPhasesEnd : Prop :=
  ∀ s : State, s.running = true → s.mode = .rejoining →
    (∀ before e after, s.sends before e after → e.origin = .restoreAsk → e.telegram.kind = .restoreAsk →
      e.spoiled = false → s.rejoin = .asking →
      exec (.restoreAskOutcome true) s = .next (s.sent (before ++ after) (s.bus.counters.slot true)) ∧
      exec (.restoreAskOutcome false) s = .next
        { s.sent (before ++ after) (s.bus.counters.slot false) with rejoin := .listening }) ∧
    (s.rejoin = .asking →
      exec .askingTimeout s = .next (if 10 ≤ s.domain.clock then { s with rejoin := .listening } else s)) ∧
    (∀ d n, s.rejoin = .receiving d n → 8000 ≤ s.supplyMv → 0 < s.committed.epoch →
      (d ≤ s.domain.clock →
        ∃ t, exec .restoreDeadline s = .next t ∧
          Activates
            { s with domain := { s.domain with restoreIncomplete := true, tripId := s.store.tripId } } t) ∧
      (s.domain.clock < d → exec .restoreDeadline s = .next s)) ∧
    (s.rejoin = .listening →
      exec .listeningTimeout s = .next
        (if 2 * s.committed.epoch + 10 ≤ s.domain.clock then
          { s with
            rejoin := .ending
            storeWrite := some ⟨s.store.setup, s.store.tripId, .ended, .rejoinEnd⟩
            domain := { s.domain with counting := false } }
        else s))

/-- R150, R151, R153, R154: the ends of the phases of REJOINING, by outcome, deadline and BEACON. That the clock stops
counting at the end of LISTENING, before the write has ended, is the model's choice (log entry 13). -/
def Obligations.RejoiningEndsByPhase : Prop :=
  Clause.BeaconAdoptedInListening ∧ Clause.RejoiningPhasesEnd

/-- R149: a session goes on at each ACKED with the next of its keys whose mirror record is still present, or with
RESTORE-END; it ends without one when a telegram is not acknowledged, and at the outcome of its RESTORE-END. -/
def Clause.SessionSendsOneAtATime : Prop :=
  ∀ (s : State) (before : List TxEntry) (e : TxEntry) (after : List TxEntry) (x : Session) (last acked : Bool),
    s.sends before e after → e.origin = .session x.asker last true → e.telegram.kind ≠ .beacon →
    e.spoiled = false → x ∈ s.sessions → (s.sessions.map (·.asker)).Nodup →
    s.mode ≠ .hold → s.mode ≠ .unstrapped → s.bus.queue.length ≤ 8 →
    (let left := s.sent (before ++ after) (s.bus.counters.slot acked)
     let stands (id : Nat) : Bool := s.domain.mirror.any fun y => y.owner == x.asker && y.record.id == id
     let remaining := (x.keys.drop x.position).dropWhile fun id => !stands id
     (acked = false ∨ last = true →
       exec (.restoreSessionOutcome acked) s = .next
         { left with sessions := s.sessions.filter (·.asker ≠ x.asker) }) ∧
     (acked = true → last = false → remaining = [] →
       ∃ t, exec (.restoreSessionOutcome acked) s = .next t ∧
         Sends
           { left with
             sessions := s.sessions.map fun y =>
               if y.asker = x.asker then { y with position := x.keys.length } else y }
           t [(⟨x.asker, .restoreEnd, beBytes 1 x.sent⟩, .session x.asker true true)]) ∧
     (∀ id more y, acked = true → last = false → remaining = id :: more →
       s.domain.mirror.find? (fun y => y.owner == x.asker && y.record.id == id) = some y →
       ∃ t, exec (.restoreSessionOutcome acked) s = .next t ∧
         Sends
           { left with
             sessions := s.sessions.map fun z =>
               if z.asker = x.asker then
                 { z with position := x.keys.length - more.length, sent := x.sent + 1 }
               else z }
           t [(⟨x.asker, .restoreRecord, seqBytes y.seq ++ recordBytes y.record⟩, .session x.asker false true)]))

/-- R148, R149: a restore session opens, with room in the transmit queue, and goes on. That it goes on in every mode but HOLD
and UNSTRAPPED, ENDING and IDLE included, is the model's choice (log entry 30), and so is that a key removed and put anew
counts as still present (log entry 42). -/
def Obligations.RestoreSessionsServed : Prop :=
  Clause.RestoreAskOpensSession ∧ Clause.SessionSendsOneAtATime

/-! ### Deadlines -/

/-- R66: the window expiry takes GRACE to OVERDUE when a door of the map is known open and to CLOSED otherwise, and
changes no door entry and no record; it comes no earlier than G seconds after the window's start. -/
def Clause.WindowExpiryEndsGrace : Prop :=
  ∀ (s : State) (w : Nat), s.running = true → s.mode.runsEpochs = true → s.domain.tracker.phase = .grace w →
    (w + s.committed.grace ≤ s.domain.clock →
      (let open' := ∃ e ∈ s.domain.tracker.doors, ∃ k, e.known = some k ∧ k.state = .opened
       (open' → exec .windowExpiry s = .next
         { s with domain := { s.domain with tracker := ⟨.overdue, s.domain.tracker.doors⟩ } }) ∧
       (¬ open' → exec .windowExpiry s = .next
         { s with domain := { s.domain with tracker := ⟨.closed, s.domain.tracker.doors⟩ } }))) ∧
    (s.domain.clock < w + s.committed.grace → exec .windowExpiry s = .next s)

/-- R63 to R66, R116: a sighting from a DOOR notice, a notice without use, and the end of a window. -/
def Obligations.SightingsAndWindowExpiry : Prop :=
  Clause.DoorNoticeIsASighting ∧ Clause.UselessDoorNoticeDiscarded ∧ Clause.WindowExpiryEndsGrace

/-- R128, R130: at its deadline a LIVE entry, or the UNHEARD one that has a deadline, becomes SILENT with its recorded fields
kept; every other entry stays, and before the deadline nothing changes. R128 keeps the recorder's own entry UNHEARD all
trip; that the own entry, where it is the committed buddy's and so has a deadline, becomes SILENT by R130 like any other is
the model's choice (log entry 41). -/
def Clause.SilenceAfterDeadline : Prop :=
  ∀ (s : State) (a : Nat), s.running = true → s.mode.runsEpochs = true →
    exec (.silenceDeadline a) s = .next
      { s with
        roster := s.roster.map fun e =>
          if e.address = a ∧ (e.state = .live ∨ e.state = .unheard) ∧ e.deadline.any (fun d => decide (d ≤ s.domain.clock))
          then { e with state := .silent, deadline := none }
          else e }

/-- R128, R130, R131: a HOLD and a silence deadline at the roster; at the own address the deadline follows R130, the model's
choice (log entry 41). -/
def Obligations.RosterMarksHoldingAndSilent : Prop :=
  Clause.HoldMarksPeerHolding ∧ Clause.SilenceAfterDeadline

/-! ### Probes and doors -/

/-- R22, R25, R26, R27, R28: what each event of a probe line does to its channel; no other channel and nothing else
changes. A change of the line at the very sample of count 65,536 is an edge of that count, before the run-out. That a rising
edge there arms a channel in ARMING, with no run-out, and neither completes nor arms one that then runs out in MEASURING, is
the model's choice (log entry 44), and so is that a change at count 1 of a channel just started is an edge (log entry 47). -/
def Obligations.ProbeEventsCaptured : Prop :=
  ∀ (s : State) (i : Fin 4) (n : Nat) (level : LineLevel), s.running = true → n ≤ 65536 →
    (let c := s.channels.get i
     let becomes (k : Instr) (c' : Channel) : Prop := exec k s = .next { s with channels := s.channels.set i c' }
     let reading (st : Status) : Option Reading := some ⟨st, s.domain.clock, true⟩
     (c.state = .arming → c.counter < n → c.sample ≠ some .high →
       becomes (.risingEdge i n)
         { c with state := .measuring, counter := 0, high := none, sample := some .high }) ∧
     (∀ h, c.state = .measuring → c.high = some h → c.counter < n → n < 65536 → c.sample ≠ some .high →
       becomes (.risingEdge i n)
         { c with
           counter := 0, high := none, sample := some .high, last := some ⟨n, h⟩
           reading := reading (classify n h) }) ∧
     (c.state = .measuring → c.counter < n → c.sample ≠ some .low →
       becomes (.fallingEdge i n) { c with counter := n, sample := some .low, high := some n }) ∧
     (c.state = .arming → c.counter < n → c.sample ≠ some .low →
       becomes (.fallingEdge i n) { c with counter := n, sample := some .low }) ∧
     (c.state = .arming → c.sample ≠ some .low ∨ level = .low →
       becomes (.runOutInArming i level)
         { c with counter := 0, sample := some level, reading := reading (.faultStuck level) }) ∧
     (c.state = .measuring →
       becomes (.runOutInMeasuring i)
         { c with state := .arming, counter := 0, high := none, reading := reading .faultPeriod }) ∧
     (c.state = .measuring → c.counter < 65536 → c.sample ≠ some .high → n = 65536 →
       becomes (.risingEdge i n) { c with counter := n, sample := some .high }) ∧
     (c.state = .off →
       becomes (.risingEdge i n) c ∧ becomes (.fallingEdge i n) c ∧ becomes (.runOutInArming i level) c ∧
         becomes (.runOutInMeasuring i) c))

/-- R56, R57, R58: a change of a running input's line begins its 250 ms anew, or cancels them on a return to the
accepted level; a stopped input only has a new level. -/
def Clause.DoorLineFollowed : Prop :=
  ∀ (s : State) (i : Fin 4) (level : LineLevel), (s.inputs.get i).line ≠ level →
    (let d := s.inputs.get i
     let becomes (d' : DoorInput) : Prop :=
       exec (.doorLineLevelChange i level) s = .next { s with inputs := s.inputs.set i d' }
     (d.running = false → becomes { d with line := level }) ∧
     (d.running = true → d.accepted = some (doorStateOf level) → becomes { d with line := level, settling := false }) ∧
     (d.running = true → d.accepted ≠ some (doorStateOf level) → becomes { d with line := level, settling := true }))

/-- R57 to R60: when a level has been held for 250 ms it is the accepted state; only a change from CLOSED to OPEN counts
as an opening, modulo 65,536. In ACTIVE, for a mapped door outside the compartment door map, a DOOR notice with the
door's number, state and count is queued and nothing else changes. For a door in the map the accepted state is a local
sighting, with its openings and its change of the tracker (R59, R64, R65). -/
def Clause.HeldLevelAccepted : Prop :=
  ∀ (s : State) (i : Fin 4) (door : Nat) (c : Instr), s.running = true → (s.inputs.get i).running = true →
    (s.inputs.get i).settling = true → s.committed.doorOf i = some door →
    (c = .initialAcceptance i ∧ (s.inputs.get i).accepted = none ∨
      c = .acceptedChange i ∧ ∃ a, (s.inputs.get i).accepted = some a ∧ a ≠ doorStateOf (s.inputs.get i).line) →
    ∃ (t : State) (d : DoorInput), exec c s = .next t ∧ t.inputs = s.inputs.set i d ∧
      d.line = (s.inputs.get i).line ∧ d.running = true ∧ d.settling = false ∧
      d.accepted = some (doorStateOf (s.inputs.get i).line) ∧
      d.count =
        (if (s.inputs.get i).accepted = some .closed then ((s.inputs.get i).count + 1) % 65536
         else (s.inputs.get i).count) ∧
      t = { s with
            inputs := t.inputs, freeCount := t.freeCount
            bus := { s.bus with queue := t.bus.queue, line := t.bus.line }
            domain := { s.domain with custody := t.domain.custody, tracker := t.domain.tracker } } ∧
      (s.mode = .active → t.outbox = s.boxAfter
        [(⟨0, .door, beBytes 1 door ++ beBytes 1 (doorStateOf d.line).code ++ beBytes 2 d.count⟩, .plain)]) ∧
      (s.mode ≠ .active → t.bus = s.bus) ∧
      ((∀ e ∈ s.domain.tracker.doors, e.door ≠ door) → t.domain = s.domain) ∧
      (s.mode.runsEpochs = true → (∃ e ∈ s.domain.tracker.doors, e.door = door) →
        ∀ e ∈ t.domain.tracker.doors, e.door = door →
          e.known = some ⟨doorStateOf d.line, d.count, s.address⟩) ∧
      (s.mode.runsEpochs = true →
        Sighting s.committed.grace s.domain.clock s.address ⟨door, doorStateOf d.line, d.count⟩
          (s.domain.tracker, s.domain.custody) (t.domain.tracker, t.domain.custody)) ∧
      (s.mode.runsEpochs = false → t.domain = s.domain)

/-- R56 to R60: the line of a door input, and the level it held. -/
def Obligations.DoorInputsDebounced : Prop :=
  Clause.DoorLineFollowed ∧ Clause.HeldLevelAccepted

/-! ### Setup Store writes -/

/-- R38, R62, R123, R128, R138, R144, R154, R167: a completed TRIP-START write commits the setup, empties the tables,
clears roster, counters, filters, tracker and flags, sets the clock to 0, becomes ACTIVE (with the supply at or above
the warning level) and answers OK; a failed one
returns to IDLE with every table as it was and answers SETUP_WRITE_FAILED. That the last carries the trip id as its body is
the model's choice (log entry 32). -/
def Obligations.TripStartWriteEnds : Prop :=
  ∀ (s : State) (w : StoreWrite) (requester disabled : Nat), s.running = true → s.mode = .starting →
    s.storeWrite = some w → w.job = .tripStart requester disabled →
    (8000 ≤ s.supplyMv → 0 < w.setup.epoch →
      ∃ t u, exec (.tripStartWriteEnd true) s = .next t ∧
        Activates
          { s with
            store := ⟨w.setup, w.tripId, w.tripState, true⟩, storeWrite := none
            roster := (List.range' 1 15).map fun a => ⟨a, .unheard, none, none⟩
            bus := { s.bus with counters := ⟨0, 0, 0, 0, 0, 0⟩, queue := u.bus.queue }
            domain :=
              { Domain.cleared w.setup.doorMap with
                counting := true, tripId := w.tripId, restartCount := s.domain.restartCount } }
          u ∧
        u.bus.queue.map (·.telegram) = s.bus.queue.map (·.telegram) ∧
        Sends u t
          [replyLetter requester .tripStart .ok (beBytes 4 (w.tripId.getD 0) ++ beBytes 1 disabled)]) ∧
    ∃ t, exec (.tripStartWriteEnd false) s = .next t ∧
      Sends { s with mode := .idle, storeWrite := none } t
        [replyLetter requester .tripStart .setupWriteFailed (beBytes 4 (w.tripId.getD 0))]

/-- R39, R62, R153, R168: a completed TRIP-END write leaves the recorder in IDLE with the clock held, channels and
inputs stopped and the tracker cleared, and answers OK; a failed one returns to ACTIVE (with the supply at or
above the warning level) and answers SETUP_WRITE_FAILED. The write that ends a REJOINING leads to IDLE either way.
That the REPLYs carry empty bodies is the model's choice (log entry 17). -/
def Obligations.TripEndAndRejoinWritesEnd : Prop :=
  ∀ (s : State) (w : StoreWrite), s.running = true → s.storeWrite = some w →
    (let ended (store : Store) (base u : State) : Prop :=
        u = { base with
              mode := .idle, store := store, storeWrite := none, channels := Four.all Channel.stopped
              inputs := u.inputs
              domain := { base.domain with counting := false, tracker := Tracker.cleared store.setup.doorMap } } ∧
        ∀ i, u.inputs.get i = ⟨(base.inputs.get i).line, false, none, 0, false⟩
     (∀ requester, s.mode = .ending → w.job = .tripEnd requester →
       (∃ t u, exec (.tripEndWriteEnd true) s = .next t ∧ ended ⟨w.setup, w.tripId, w.tripState, true⟩ s u ∧
         Sends u t [replyLetter requester .tripEnd .ok []]) ∧
       (8000 ≤ s.supplyMv →
         ∃ t u, exec (.tripEndWriteEnd false) s = .next t ∧
           u = { s with mode := .active, storeWrite := none, roster := u.roster } ∧
           u.roster = s.roster.map (fun e =>
             if s.committed.buddy = some e.address ∧ e.state = .unheard then
               { e with deadline := some (s.domain.clock + 3 * s.committed.epoch) }
             else e) ∧
           Sends u t [replyLetter requester .tripEnd .setupWriteFailed []])) ∧
     (s.mode = .rejoining → s.rejoin = .ending →
       (∃ u, exec (.rejoinEndWriteEnd true) s = .next u ∧ ended ⟨w.setup, w.tripId, w.tripState, true⟩ s u) ∧
       (∃ u, exec (.rejoinEndWriteEnd false) s = .next u ∧ ended s.store s u)))

/-! ### Supply, stops and starts -/

/-- R19, R105, R106, R122, R169: a supply below 8.0 V in ACTIVE leads to HOLD_PENDING: every offer closes with no REPLY,
every ARRIVING record is removed, OFFERED records and RELEASING records whose certificate was still waiting return to HELD, a
RELEASING record whose certificate was in transmission stays so, sessions end, and of the queue only a telegram in
transmission and the HOLD telegram are left; an ACCEPT in transmission is spoiled unless its check bits had all been sent,
which is a free value (log entry 6). In any other mode the reading is kept and nothing
else changes. That SUPPLY_BELOW_WARNING with a reading of 8,000 mV or more only keeps the reading, even one above 8,600 mV in
HOLD, is the model's choice (log entry 11). -/
def Clause.SupplyWarningEntersHoldPending : Prop :=
  ∀ (s : State) (mv : Nat), s.running = true → s.custodyLaw →
    (s.mode = .active → mv < 8000 →
      ∃ t, exec (.supplyBelowWarning mv) s = .next t ∧ t.mode = .holdPending ∧ t.supplyMv = mv ∧
        t.offers = [] ∧ t.sessions = [] ∧ t.bus.beaconHold = none ∧ t.bus.rx = s.bus.rx ∧
        t.bus.counters = s.bus.counters ∧
        t = { s with
              supplyMv := mv, mode := .holdPending, offers := [], sessions := [], freeCount := t.freeCount
              bus := t.bus, domain := { s.domain with custody := t.domain.custody } } ∧
        (∀ h ∈ t.domain.custody, ∃ h' ∈ s.domain.custody, h.record = h'.record ∧
          h.accountedTo = h'.accountedTo ∧ (h.state = h'.state ∨ h.state = .held)) ∧
        (∀ h ∈ s.domain.custody, h.state = .held ∨ h.state = .offered →
          ⟨h.record, h.accountedTo, .held⟩ ∈ t.domain.custody) ∧
        (∀ h ∈ t.domain.custody, h.state = .held ∨ h.state = .releasing) ∧
        t.domain.custody =
          (s.domain.custody.filter fun h =>
              match h.state with
              | .arriving _ _ => false
              | _ => true).map (fun h =>
            { h with
              state :=
                if h.state = .releasing ∧
                    ∀ e ∈ s.bus.queue, e.origin = .certificate h.record.id → e.sending = true then .releasing
                else .held }) ∧
        (s.bus.queue.filter (·.sending) = [] →
          t.bus.queue.map (·.telegram) = [⟨0, .hold, beBytes 4 s.tripNumber⟩]) ∧
        (∀ e, s.bus.queue.filter (·.sending) = [e] →
          t.bus.queue.map (·.telegram) = [e.telegram, ⟨0, .hold, beBytes 4 s.tripNumber⟩] ∧
          t.bus.queue.map (·.sending) = [true, false] ∧
          (∀ id, e.origin = .accept id → (t.bus.queue.map (·.spoiled)).head? =
            some (e.spoiled || !Config.checkBitsSent s.freeCount)))) ∧
    (s.mode ≠ .active ∨ 8000 ≤ mv → exec (.supplyBelowWarning mv) s = .next { s with supplyMv := mv })

/-- R136, R170, R19: a supply above 8.6 V in HOLD leads back to ACTIVE: the bus waits for an idle line, every record is
UNMIRRORED, an UNHEARD buddy gets its deadline, and nothing else changes. In another mode than HOLD the reading is kept and
nothing else changes. That SUPPLY_ABOVE_RELEASE with a reading of 8,600 mV or less only keeps the reading, and that it leads
to no HOLD_PENDING in ACTIVE even below 8,000 mV, is the model's choice (log entry 11). -/
def Clause.SupplyReleaseLeavesHold : Prop :=
  ∀ (s : State) (mv : Nat), s.running = true →
    (s.mode = .hold → 8600 < mv →
      exec (.supplyAboveRelease mv) s = .next
        { s with
          supplyMv := mv, mode := .active
          bus := { s.bus with line := .ignoring }
          roster := s.roster.map fun e =>
            if s.committed.buddy = some e.address ∧ e.state = .unheard then
              { e with deadline := some (s.domain.clock + 3 * s.committed.epoch) }
            else e
          domain :=
            { s.domain with
              custody := s.domain.custody.map fun h =>
                { h with record := { h.record with unmirrored := true } } } }) ∧
    (s.mode ≠ .hold ∨ mv ≤ 8600 → exec (.supplyAboveRelease mv) s = .next { s with supplyMv := mv })

/-- R39, R167, R171: a stop of the core keeps the backup domain while the cell holds; a write under way ends in one
content or the other. The cell falling below its retention level loses the domain of a stopped core; while the core
runs that the domain is lost only at the stop is the model's choice (log entry 10), and so is that a lost domain is written
as a cleared one at once (log entry 37), and that a TRIP-START write which lands at the stop does not start the clock (log
entry 49). -/
def Obligations.StopKeepsDomainWhileCellHolds : Prop :=
  ∀ (s : State) (cause : StopCause) (landed : Bool),
    (s.running = true → s.storeWrite = none →
      (s.cellFell = false →
        exec (.coreStop cause landed) s = .next { s with running := false, stopCause := cause }) ∧
      (s.cellFell = true →
        exec (.coreStop cause landed) s = .next
          { s with
            running := false, stopCause := cause, domain := Domain.cleared s.store.setup.doorMap })) ∧
    (∀ w, s.running = true → s.storeWrite = some w → s.cellFell = false →
      exec (.coreStop cause false) s = .next { s with running := false, stopCause := cause, storeWrite := none } ∧
      ∃ t, exec (.coreStop cause true) s = .next t ∧
        t = { s with
              running := false, stopCause := cause, storeWrite := none
              store := ⟨w.setup, w.tripId, w.tripState, true⟩
              domain := { s.domain with counting := t.domain.counting } } ∧
        (w.tripState = .ended → t.domain.counting = false) ∧
        (w.tripState = .running → t.domain.counting = s.domain.counting)) ∧
    (s.running = false → exec .backupCellBelowRetention s = .next
      { s with cellFell := true, domain := Domain.cleared s.store.setup.doorMap }) ∧
    (s.running = true → exec .backupCellBelowRetention s = .next { s with cellFell := true })

/-- R20, R36, R43, R71, R128, R164, R171, R172: a start with the domain intact in the running trip of the domain's id:
the table is settled, the passed window ended and the own doors unknown, the restart count raised, and with the supply at
or above the warning level the recorder is ACTIVE. That the own doors are those whose source is the address read at this
start is the model's choice (log entry 23). -/
def Obligations.WarmStartSettlesAndResumes : Prop :=
  ∀ (s : State) (straps : BitVec 4) (mv : Nat), s.running = false → straps ≠ 0 → s.cellFell = false →
    s.store.checkGood = true → s.store.tripState = .running → s.domain.tripId = s.store.tripId → 8000 ≤ mv →
    0 < s.committed.epoch →
    ∃ t doors phase, exec (.start straps true true mv) s = .next t ∧ volatileFresh t ∧ t.bus.queue = [] ∧
      t.bus.line = .ignoring ∧
      Activates
        { s with
          running := true, supplyMv := mv, address := straps.toNat, staged := s.store.setup, storeWrite := none
          resetCause := if s.stopCause = .resetPin then .resetPin else .supplyWarm
          offers := [], sessions := [], bus := t.bus
          roster := (List.range' 1 15).map fun a => ⟨a, .unheard, none, none⟩
          domain :=
            { s.domain with
              restartCount := (s.domain.restartCount + 1) % 256
              tracker := ⟨phase, doors⟩
              custody := (s.domain.custody.filter fun h =>
                  match h.state with
                  | .arriving _ _ => false
                  | _ => true).map fun h =>
                ⟨{ h.record with
                    gap := min (h.record.gap + (s.domain.clock - h.accountedTo)) 4294967295 },
                  s.domain.clock, .held⟩ } }
        t ∧
      doors = s.domain.tracker.doors.map (fun e =>
        if ∃ k, e.known = some k ∧ k.source = straps.toNat then { e with known := none } else e) ∧
      (∀ w, s.domain.tracker.phase = .grace w →
        (s.domain.clock < w + s.committed.grace → phase = .grace w) ∧
        (w + s.committed.grace ≤ s.domain.clock →
          phase = if s.domain.tracker.doors.any DoorEntry.knownOpen then .overdue else .closed)) ∧
      ((∀ w, s.domain.tracker.phase ≠ .grace w) → phase = s.domain.tracker.phase)

/-- R21, R137, R150, R171, R172: a start that finds the domain lost or bad, or holding another trip's state, clears it
with a restart count of 1; with a running trip it enters REJOINING with the clock counting from 0 and asks the buddy, or
listens where none is configured; with none it enters IDLE. That the mark of a fallen cell is cleared with the domain, so that
the next stop keeps it, is the model's choice (log entry 50). -/
def Clause.ColdStartClearsAndRejoins : Prop :=
  ∀ (s : State) (straps : BitVec 4) (good : Bool) (mv : Nat), s.running = false → straps ≠ 0 →
    s.store.checkGood = true →
    (let cold := s.cellFell = true ∨ good = false
     let other := ¬ cold ∧ s.store.tripState = .running ∧ s.domain.tripId ≠ s.store.tripId
     cold ∨ other →
     ∃ t, exec (.start straps good true mv) s = .next t ∧ volatileFresh t ∧ t.address = straps.toNat ∧
       t.supplyMv = mv ∧ t.staged = s.store.setup ∧ t.store = s.store ∧ t.cellFell = false ∧
       t.roster = (List.range' 1 15).map (fun a => ⟨a, .unheard, none, none⟩) ∧
       t.channels = Four.all Channel.stopped ∧
       (s.cellFell = true → t.resetCause = .supplyCold) ∧
       (s.cellFell = false → t.resetCause = .retentionFault) ∧
       t.domain =
         { Domain.cleared s.store.setup.doorMap with
           restartCount := 1, counting := decide (s.store.tripState = .running) } ∧
       (s.store.tripState ≠ .running → t.mode = .idle ∧ t.bus.queue = []) ∧
       (s.store.tripState = .running → t.mode = .rejoining ∧
         (s.committed.buddy = none → t.rejoin = .listening ∧ t.bus.queue = []) ∧
         (∀ b, s.committed.buddy = some b → t.rejoin = .asking ∧
           t.bus.queue = [⟨⟨b, .restoreAsk, beBytes 4 s.tripNumber⟩, .restoreAsk, false, false⟩])))

/-- R164, R165, R171, R172: straps of 0 give UNSTRAPPED with the backup domain neither tested nor changed (and, the
model's choice, log entry 43, the last reset cause kept); a store that fails its check gives IDLE with the domain cleared,
the defaults staged and a restart count of 1; an intact domain with no trip running gives IDLE with the domain as found. -/
def Clause.OtherStartsWait : Prop :=
  ∀ (s : State) (straps : BitVec 4) (domainGood storeGood : Bool) (mv : Nat), s.running = false →
    (straps = 0 → ∃ t, exec (.start straps domainGood storeGood mv) s = .next t ∧ t.mode = .unstrapped ∧
      volatileFresh t ∧ t.bus.queue = [] ∧ t.domain = s.domain ∧ t.store = s.store ∧
      t.resetCause = s.resetCause ∧ t.cellFell = s.cellFell) ∧
    (straps ≠ 0 → storeGood = false ∨ s.store.checkGood = false →
      ∃ t, exec (.start straps domainGood storeGood mv) s = .next t ∧ t.mode = .idle ∧ volatileFresh t ∧
        t.bus.queue = [] ∧ t.staged = Setup.default ∧ t.cellFell = false ∧
        ∃ doors, t.domain = { Domain.cleared doors with restartCount := 1 }) ∧
    (straps ≠ 0 → storeGood = true → s.store.checkGood = true → s.cellFell = false → domainGood = true →
      s.store.tripState ≠ .running →
      ∃ t, exec (.start straps domainGood storeGood mv) s = .next t ∧ t.mode = .idle ∧ volatileFresh t ∧
        t.bus.queue = [] ∧ t.staged = s.store.setup ∧ t.store = s.store ∧
        t.domain =
          { s.domain with restartCount := (s.domain.restartCount + 1) % 256, counting := false })

/-- R21, R164, R171, R172: every start but a warm one in the running trip. -/
def Obligations.ColdAndIdleStarts : Prop :=
  Clause.ColdStartClearsAndRejoins ∧ Clause.OtherStartsWait

/-- R169, R172: a recorder that becomes ACTIVE while its supply stands below the warning level is in HOLD_PENDING at
once: after a completed TRIP-START, the end of REJOINING by a restore, its deadline or a BEACON, a TRIP-END whose write
fails, or a warm start. Whatever the reading before the stop, a warm start that finds the supply below the level ends as one
that finds it at the level and then falls below. -/
def Clause.SaggedSupplyHoldsAtOnce : Prop :=
  (∀ s : State, s.supplyMv < 8000 →
    (∀ w requester disabled, s.running = true → s.mode = .starting → s.storeWrite = some w →
      w.job = .tripStart requester disabled →
      ∃ t, exec (.tripStartWriteEnd true) s = .next t ∧ t.mode = .holdPending) ∧
    (∀ m rest d n, s.front .restoreEnd m rest → m.payload.length = 1 → s.mode = .rejoining →
      s.rejoin = .receiving d n → ∃ t, exec .restoreEnd s = .next t ∧ t.mode = .holdPending) ∧
    (∀ m rest b, s.front .beacon m rest → beaconOf m.payload = some b → m.sender ≠ s.address →
      s.store.tripId = some b.tripId → s.mode = .rejoining → s.rejoin = .listening →
      ∃ t, exec .beacon s = .next t ∧ t.mode = .holdPending) ∧
    (∀ w requester, s.running = true → s.mode = .ending → s.storeWrite = some w → w.job = .tripEnd requester →
      ∃ t, exec (.tripEndWriteEnd false) s = .next t ∧ t.mode = .holdPending) ∧
    (∀ d n, s.running = true → s.mode = .rejoining → s.rejoin = .receiving d n → d ≤ s.domain.clock →
      ∃ t, exec .restoreDeadline s = .next t ∧ t.mode = .holdPending)) ∧
  ∀ (s : State) (straps : BitVec 4) (mv : Nat), s.running = false → straps ≠ 0 → s.cellFell = false →
    s.store.checkGood = true → s.store.tripState = .running → s.domain.tripId = s.store.tripId → mv < 8000 →
    ∃ u t, exec (.start straps true true mv) s = .next t ∧ t.mode = .holdPending ∧ t.supplyMv = mv ∧
      exec (.start straps true true 8000) s = .next u ∧ u.mode = .active ∧ exec (.supplyBelowWarning mv) u = .next t

/-- R169, R170, R172: the warning level, the release level, and a supply that has sagged when ACTIVE begins. That each of the
two supply commands acts on its own level only, whatever reading it carries, is the model's choice (log entry 11). -/
def Obligations.SupplyLevelsMoveTheMode : Prop :=
  Clause.SupplyWarningEntersHoldPending ∧ Clause.SupplyReleaseLeavesHold ∧ Clause.SaggedSupplyHoldsAtOnce

/-! ### The ALERT output -/

/-- R162, R163: the four alert reasons, each as its bit: a HELD record BREACHED or UNPROVEN, an enabled counted probe not
used at the last expiry, a SILENT buddy, custody lost. The ALERT line is driven exactly while a reason stands on a running
core in another mode than IDLE, STARTING and UNSTRAPPED. -/
def Obligations.AlertFollowsItsReasons : Prop :=
  ∀ s : State,
    (s.alertReasons < 16) ∧
    (s.alertReasons.testBit 0 = true ↔ ∃ h ∈ s.domain.custody, h.state = .held ∧
      (h.record.verdict = .unproven ∨ ∃ c x, h.record.verdict = .breached c x)) ∧
    (s.alertReasons.testBit 1 = true ↔ ∃ m, s.lastSummary = some m ∧ ∃ i,
      (s.committed.probes.get i).enabled = true ∧ (s.committed.probes.get i).counted = true ∧
        m.used.get i = false) ∧
    (s.alertReasons.testBit 2 = true ↔ ∃ b, s.committed.buddy = some b ∧
      ∃ e ∈ s.roster, e.address = b ∧ e.state = .silent) ∧
    (s.alertReasons.testBit 3 = true ↔ s.domain.custodyLost = true) ∧
    (s.alertDriven = true ↔ s.running = true ∧ s.alertReasons ≠ 0 ∧ s.mode ≠ .idle ∧ s.mode ≠ .starting ∧
      s.mode ≠ .unstrapped)
end

