-- ==== Sys2Proof/Laws/State.lean ====
section
/-!
SUPPORT. What each named update of the state leaves in each field: one lemma per field per update, all true by
`rfl`, so that no later proof unfolds a record update.
-/
namespace Sys2Proof.Machine

variable (s : State)

/-! ### `withCustody` -/

@[simp] theorem State.withCustody_pending (x : List Holding) : (s.withCustody x).pending = s.pending := rfl
@[simp] theorem State.withCustody_running (x : List Holding) : (s.withCustody x).running = s.running := rfl
@[simp] theorem State.withCustody_stopCause (x : List Holding) : (s.withCustody x).stopCause = s.stopCause := rfl
@[simp] theorem State.withCustody_cellFell (x : List Holding) : (s.withCustody x).cellFell = s.cellFell := rfl
@[simp] theorem State.withCustody_supplyMv (x : List Holding) : (s.withCustody x).supplyMv = s.supplyMv := rfl
@[simp] theorem State.withCustody_address (x : List Holding) : (s.withCustody x).address = s.address := rfl
@[simp] theorem State.withCustody_mode (x : List Holding) : (s.withCustody x).mode = s.mode := rfl
@[simp] theorem State.withCustody_rejoin (x : List Holding) : (s.withCustody x).rejoin = s.rejoin := rfl
@[simp] theorem State.withCustody_resetCause (x : List Holding) : (s.withCustody x).resetCause = s.resetCause := rfl
@[simp] theorem State.withCustody_staged (x : List Holding) : (s.withCustody x).staged = s.staged := rfl
@[simp] theorem State.withCustody_store (x : List Holding) : (s.withCustody x).store = s.store := rfl
@[simp] theorem State.withCustody_storeWrite (x : List Holding) : (s.withCustody x).storeWrite = s.storeWrite := rfl
@[simp] theorem State.withCustody_channels (x : List Holding) : (s.withCustody x).channels = s.channels := rfl
@[simp] theorem State.withCustody_nextExpiry (x : List Holding) : (s.withCustody x).nextExpiry = s.nextExpiry := rfl
@[simp] theorem State.withCustody_lastSummary (x : List Holding) : (s.withCustody x).lastSummary = s.lastSummary := rfl
@[simp] theorem State.withCustody_inputs (x : List Holding) : (s.withCustody x).inputs = s.inputs := rfl
@[simp] theorem State.withCustody_offers (x : List Holding) : (s.withCustody x).offers = s.offers := rfl
@[simp] theorem State.withCustody_roster (x : List Holding) : (s.withCustody x).roster = s.roster := rfl
@[simp] theorem State.withCustody_sessions (x : List Holding) : (s.withCustody x).sessions = s.sessions := rfl
@[simp] theorem State.withCustody_bus (x : List Holding) : (s.withCustody x).bus = s.bus := rfl
@[simp] theorem State.withCustody_freeCount (x : List Holding) : (s.withCustody x).freeCount = s.freeCount := rfl
@[simp] theorem State.withCustody_domain_clock (x : List Holding) : (s.withCustody x).domain.clock = s.domain.clock := rfl
@[simp] theorem State.withCustody_domain_counting (x : List Holding) : (s.withCustody x).domain.counting = s.domain.counting := rfl
@[simp] theorem State.withCustody_domain_custody (x : List Holding) : (s.withCustody x).domain.custody = x := rfl
@[simp] theorem State.withCustody_domain_mirror (x : List Holding) : (s.withCustody x).domain.mirror = s.domain.mirror := rfl
@[simp] theorem State.withCustody_domain_drops (x : List Holding) : (s.withCustody x).domain.drops = s.domain.drops := rfl
@[simp] theorem State.withCustody_domain_discardedDrops (x : List Holding) : (s.withCustody x).domain.discardedDrops = s.domain.discardedDrops := rfl
@[simp] theorem State.withCustody_domain_filters (x : List Holding) : (s.withCustody x).domain.filters = s.domain.filters := rfl
@[simp] theorem State.withCustody_domain_tracker (x : List Holding) : (s.withCustody x).domain.tracker = s.domain.tracker := rfl
@[simp] theorem State.withCustody_domain_restartCount (x : List Holding) : (s.withCustody x).domain.restartCount = s.domain.restartCount := rfl
@[simp] theorem State.withCustody_domain_tripId (x : List Holding) : (s.withCustody x).domain.tripId = s.domain.tripId := rfl
@[simp] theorem State.withCustody_domain_custodyLost (x : List Holding) : (s.withCustody x).domain.custodyLost = s.domain.custodyLost := rfl
@[simp] theorem State.withCustody_domain_restoreIncomplete (x : List Holding) : (s.withCustody x).domain.restoreIncomplete = s.domain.restoreIncomplete := rfl

/-! ### `withMirror` -/

@[simp] theorem State.withMirror_pending (x : List MirrorRecord) : (s.withMirror x).pending = s.pending := rfl
@[simp] theorem State.withMirror_running (x : List MirrorRecord) : (s.withMirror x).running = s.running := rfl
@[simp] theorem State.withMirror_stopCause (x : List MirrorRecord) : (s.withMirror x).stopCause = s.stopCause := rfl
@[simp] theorem State.withMirror_cellFell (x : List MirrorRecord) : (s.withMirror x).cellFell = s.cellFell := rfl
@[simp] theorem State.withMirror_supplyMv (x : List MirrorRecord) : (s.withMirror x).supplyMv = s.supplyMv := rfl
@[simp] theorem State.withMirror_address (x : List MirrorRecord) : (s.withMirror x).address = s.address := rfl
@[simp] theorem State.withMirror_mode (x : List MirrorRecord) : (s.withMirror x).mode = s.mode := rfl
@[simp] theorem State.withMirror_rejoin (x : List MirrorRecord) : (s.withMirror x).rejoin = s.rejoin := rfl
@[simp] theorem State.withMirror_resetCause (x : List MirrorRecord) : (s.withMirror x).resetCause = s.resetCause := rfl
@[simp] theorem State.withMirror_staged (x : List MirrorRecord) : (s.withMirror x).staged = s.staged := rfl
@[simp] theorem State.withMirror_store (x : List MirrorRecord) : (s.withMirror x).store = s.store := rfl
@[simp] theorem State.withMirror_storeWrite (x : List MirrorRecord) : (s.withMirror x).storeWrite = s.storeWrite := rfl
@[simp] theorem State.withMirror_channels (x : List MirrorRecord) : (s.withMirror x).channels = s.channels := rfl
@[simp] theorem State.withMirror_nextExpiry (x : List MirrorRecord) : (s.withMirror x).nextExpiry = s.nextExpiry := rfl
@[simp] theorem State.withMirror_lastSummary (x : List MirrorRecord) : (s.withMirror x).lastSummary = s.lastSummary := rfl
@[simp] theorem State.withMirror_inputs (x : List MirrorRecord) : (s.withMirror x).inputs = s.inputs := rfl
@[simp] theorem State.withMirror_offers (x : List MirrorRecord) : (s.withMirror x).offers = s.offers := rfl
@[simp] theorem State.withMirror_roster (x : List MirrorRecord) : (s.withMirror x).roster = s.roster := rfl
@[simp] theorem State.withMirror_sessions (x : List MirrorRecord) : (s.withMirror x).sessions = s.sessions := rfl
@[simp] theorem State.withMirror_bus (x : List MirrorRecord) : (s.withMirror x).bus = s.bus := rfl
@[simp] theorem State.withMirror_freeCount (x : List MirrorRecord) : (s.withMirror x).freeCount = s.freeCount := rfl
@[simp] theorem State.withMirror_domain_clock (x : List MirrorRecord) : (s.withMirror x).domain.clock = s.domain.clock := rfl
@[simp] theorem State.withMirror_domain_counting (x : List MirrorRecord) : (s.withMirror x).domain.counting = s.domain.counting := rfl
@[simp] theorem State.withMirror_domain_custody (x : List MirrorRecord) : (s.withMirror x).domain.custody = s.domain.custody := rfl
@[simp] theorem State.withMirror_domain_mirror (x : List MirrorRecord) : (s.withMirror x).domain.mirror = x := rfl
@[simp] theorem State.withMirror_domain_drops (x : List MirrorRecord) : (s.withMirror x).domain.drops = s.domain.drops := rfl
@[simp] theorem State.withMirror_domain_discardedDrops (x : List MirrorRecord) : (s.withMirror x).domain.discardedDrops = s.domain.discardedDrops := rfl
@[simp] theorem State.withMirror_domain_filters (x : List MirrorRecord) : (s.withMirror x).domain.filters = s.domain.filters := rfl
@[simp] theorem State.withMirror_domain_tracker (x : List MirrorRecord) : (s.withMirror x).domain.tracker = s.domain.tracker := rfl
@[simp] theorem State.withMirror_domain_restartCount (x : List MirrorRecord) : (s.withMirror x).domain.restartCount = s.domain.restartCount := rfl
@[simp] theorem State.withMirror_domain_tripId (x : List MirrorRecord) : (s.withMirror x).domain.tripId = s.domain.tripId := rfl
@[simp] theorem State.withMirror_domain_custodyLost (x : List MirrorRecord) : (s.withMirror x).domain.custodyLost = s.domain.custodyLost := rfl
@[simp] theorem State.withMirror_domain_restoreIncomplete (x : List MirrorRecord) : (s.withMirror x).domain.restoreIncomplete = s.domain.restoreIncomplete := rfl

/-! ### `withDrops` -/

@[simp] theorem State.withDrops_pending (x : List Nat) : (s.withDrops x).pending = s.pending := rfl
@[simp] theorem State.withDrops_running (x : List Nat) : (s.withDrops x).running = s.running := rfl
@[simp] theorem State.withDrops_stopCause (x : List Nat) : (s.withDrops x).stopCause = s.stopCause := rfl
@[simp] theorem State.withDrops_cellFell (x : List Nat) : (s.withDrops x).cellFell = s.cellFell := rfl
@[simp] theorem State.withDrops_supplyMv (x : List Nat) : (s.withDrops x).supplyMv = s.supplyMv := rfl
@[simp] theorem State.withDrops_address (x : List Nat) : (s.withDrops x).address = s.address := rfl
@[simp] theorem State.withDrops_mode (x : List Nat) : (s.withDrops x).mode = s.mode := rfl
@[simp] theorem State.withDrops_rejoin (x : List Nat) : (s.withDrops x).rejoin = s.rejoin := rfl
@[simp] theorem State.withDrops_resetCause (x : List Nat) : (s.withDrops x).resetCause = s.resetCause := rfl
@[simp] theorem State.withDrops_staged (x : List Nat) : (s.withDrops x).staged = s.staged := rfl
@[simp] theorem State.withDrops_store (x : List Nat) : (s.withDrops x).store = s.store := rfl
@[simp] theorem State.withDrops_storeWrite (x : List Nat) : (s.withDrops x).storeWrite = s.storeWrite := rfl
@[simp] theorem State.withDrops_channels (x : List Nat) : (s.withDrops x).channels = s.channels := rfl
@[simp] theorem State.withDrops_nextExpiry (x : List Nat) : (s.withDrops x).nextExpiry = s.nextExpiry := rfl
@[simp] theorem State.withDrops_lastSummary (x : List Nat) : (s.withDrops x).lastSummary = s.lastSummary := rfl
@[simp] theorem State.withDrops_inputs (x : List Nat) : (s.withDrops x).inputs = s.inputs := rfl
@[simp] theorem State.withDrops_offers (x : List Nat) : (s.withDrops x).offers = s.offers := rfl
@[simp] theorem State.withDrops_roster (x : List Nat) : (s.withDrops x).roster = s.roster := rfl
@[simp] theorem State.withDrops_sessions (x : List Nat) : (s.withDrops x).sessions = s.sessions := rfl
@[simp] theorem State.withDrops_bus (x : List Nat) : (s.withDrops x).bus = s.bus := rfl
@[simp] theorem State.withDrops_freeCount (x : List Nat) : (s.withDrops x).freeCount = s.freeCount := rfl
@[simp] theorem State.withDrops_domain_clock (x : List Nat) : (s.withDrops x).domain.clock = s.domain.clock := rfl
@[simp] theorem State.withDrops_domain_counting (x : List Nat) : (s.withDrops x).domain.counting = s.domain.counting := rfl
@[simp] theorem State.withDrops_domain_custody (x : List Nat) : (s.withDrops x).domain.custody = s.domain.custody := rfl
@[simp] theorem State.withDrops_domain_mirror (x : List Nat) : (s.withDrops x).domain.mirror = s.domain.mirror := rfl
@[simp] theorem State.withDrops_domain_drops (x : List Nat) : (s.withDrops x).domain.drops = x := rfl
@[simp] theorem State.withDrops_domain_discardedDrops (x : List Nat) : (s.withDrops x).domain.discardedDrops = s.domain.discardedDrops := rfl
@[simp] theorem State.withDrops_domain_filters (x : List Nat) : (s.withDrops x).domain.filters = s.domain.filters := rfl
@[simp] theorem State.withDrops_domain_tracker (x : List Nat) : (s.withDrops x).domain.tracker = s.domain.tracker := rfl
@[simp] theorem State.withDrops_domain_restartCount (x : List Nat) : (s.withDrops x).domain.restartCount = s.domain.restartCount := rfl
@[simp] theorem State.withDrops_domain_tripId (x : List Nat) : (s.withDrops x).domain.tripId = s.domain.tripId := rfl
@[simp] theorem State.withDrops_domain_custodyLost (x : List Nat) : (s.withDrops x).domain.custodyLost = s.domain.custodyLost := rfl
@[simp] theorem State.withDrops_domain_restoreIncomplete (x : List Nat) : (s.withDrops x).domain.restoreIncomplete = s.domain.restoreIncomplete := rfl

/-! ### `withTracker` -/

@[simp] theorem State.withTracker_pending (x : Tracker) : (s.withTracker x).pending = s.pending := rfl
@[simp] theorem State.withTracker_running (x : Tracker) : (s.withTracker x).running = s.running := rfl
@[simp] theorem State.withTracker_stopCause (x : Tracker) : (s.withTracker x).stopCause = s.stopCause := rfl
@[simp] theorem State.withTracker_cellFell (x : Tracker) : (s.withTracker x).cellFell = s.cellFell := rfl
@[simp] theorem State.withTracker_supplyMv (x : Tracker) : (s.withTracker x).supplyMv = s.supplyMv := rfl
@[simp] theorem State.withTracker_address (x : Tracker) : (s.withTracker x).address = s.address := rfl
@[simp] theorem State.withTracker_mode (x : Tracker) : (s.withTracker x).mode = s.mode := rfl
@[simp] theorem State.withTracker_rejoin (x : Tracker) : (s.withTracker x).rejoin = s.rejoin := rfl
@[simp] theorem State.withTracker_resetCause (x : Tracker) : (s.withTracker x).resetCause = s.resetCause := rfl
@[simp] theorem State.withTracker_staged (x : Tracker) : (s.withTracker x).staged = s.staged := rfl
@[simp] theorem State.withTracker_store (x : Tracker) : (s.withTracker x).store = s.store := rfl
@[simp] theorem State.withTracker_storeWrite (x : Tracker) : (s.withTracker x).storeWrite = s.storeWrite := rfl
@[simp] theorem State.withTracker_channels (x : Tracker) : (s.withTracker x).channels = s.channels := rfl
@[simp] theorem State.withTracker_nextExpiry (x : Tracker) : (s.withTracker x).nextExpiry = s.nextExpiry := rfl
@[simp] theorem State.withTracker_lastSummary (x : Tracker) : (s.withTracker x).lastSummary = s.lastSummary := rfl
@[simp] theorem State.withTracker_inputs (x : Tracker) : (s.withTracker x).inputs = s.inputs := rfl
@[simp] theorem State.withTracker_offers (x : Tracker) : (s.withTracker x).offers = s.offers := rfl
@[simp] theorem State.withTracker_roster (x : Tracker) : (s.withTracker x).roster = s.roster := rfl
@[simp] theorem State.withTracker_sessions (x : Tracker) : (s.withTracker x).sessions = s.sessions := rfl
@[simp] theorem State.withTracker_bus (x : Tracker) : (s.withTracker x).bus = s.bus := rfl
@[simp] theorem State.withTracker_freeCount (x : Tracker) : (s.withTracker x).freeCount = s.freeCount := rfl
@[simp] theorem State.withTracker_domain_clock (x : Tracker) : (s.withTracker x).domain.clock = s.domain.clock := rfl
@[simp] theorem State.withTracker_domain_counting (x : Tracker) : (s.withTracker x).domain.counting = s.domain.counting := rfl
@[simp] theorem State.withTracker_domain_custody (x : Tracker) : (s.withTracker x).domain.custody = s.domain.custody := rfl
@[simp] theorem State.withTracker_domain_mirror (x : Tracker) : (s.withTracker x).domain.mirror = s.domain.mirror := rfl
@[simp] theorem State.withTracker_domain_drops (x : Tracker) : (s.withTracker x).domain.drops = s.domain.drops := rfl
@[simp] theorem State.withTracker_domain_discardedDrops (x : Tracker) : (s.withTracker x).domain.discardedDrops = s.domain.discardedDrops := rfl
@[simp] theorem State.withTracker_domain_filters (x : Tracker) : (s.withTracker x).domain.filters = s.domain.filters := rfl
@[simp] theorem State.withTracker_domain_tracker (x : Tracker) : (s.withTracker x).domain.tracker = x := rfl
@[simp] theorem State.withTracker_domain_restartCount (x : Tracker) : (s.withTracker x).domain.restartCount = s.domain.restartCount := rfl
@[simp] theorem State.withTracker_domain_tripId (x : Tracker) : (s.withTracker x).domain.tripId = s.domain.tripId := rfl
@[simp] theorem State.withTracker_domain_custodyLost (x : Tracker) : (s.withTracker x).domain.custodyLost = s.domain.custodyLost := rfl
@[simp] theorem State.withTracker_domain_restoreIncomplete (x : Tracker) : (s.withTracker x).domain.restoreIncomplete = s.domain.restoreIncomplete := rfl

/-! ### `withQueue` -/

@[simp] theorem State.withQueue_pending (x : List TxEntry) : (s.withQueue x).pending = s.pending := rfl
@[simp] theorem State.withQueue_running (x : List TxEntry) : (s.withQueue x).running = s.running := rfl
@[simp] theorem State.withQueue_stopCause (x : List TxEntry) : (s.withQueue x).stopCause = s.stopCause := rfl
@[simp] theorem State.withQueue_cellFell (x : List TxEntry) : (s.withQueue x).cellFell = s.cellFell := rfl
@[simp] theorem State.withQueue_supplyMv (x : List TxEntry) : (s.withQueue x).supplyMv = s.supplyMv := rfl
@[simp] theorem State.withQueue_address (x : List TxEntry) : (s.withQueue x).address = s.address := rfl
@[simp] theorem State.withQueue_mode (x : List TxEntry) : (s.withQueue x).mode = s.mode := rfl
@[simp] theorem State.withQueue_rejoin (x : List TxEntry) : (s.withQueue x).rejoin = s.rejoin := rfl
@[simp] theorem State.withQueue_resetCause (x : List TxEntry) : (s.withQueue x).resetCause = s.resetCause := rfl
@[simp] theorem State.withQueue_staged (x : List TxEntry) : (s.withQueue x).staged = s.staged := rfl
@[simp] theorem State.withQueue_store (x : List TxEntry) : (s.withQueue x).store = s.store := rfl
@[simp] theorem State.withQueue_storeWrite (x : List TxEntry) : (s.withQueue x).storeWrite = s.storeWrite := rfl
@[simp] theorem State.withQueue_domain (x : List TxEntry) : (s.withQueue x).domain = s.domain := rfl
@[simp] theorem State.withQueue_channels (x : List TxEntry) : (s.withQueue x).channels = s.channels := rfl
@[simp] theorem State.withQueue_nextExpiry (x : List TxEntry) : (s.withQueue x).nextExpiry = s.nextExpiry := rfl
@[simp] theorem State.withQueue_lastSummary (x : List TxEntry) : (s.withQueue x).lastSummary = s.lastSummary := rfl
@[simp] theorem State.withQueue_inputs (x : List TxEntry) : (s.withQueue x).inputs = s.inputs := rfl
@[simp] theorem State.withQueue_offers (x : List TxEntry) : (s.withQueue x).offers = s.offers := rfl
@[simp] theorem State.withQueue_roster (x : List TxEntry) : (s.withQueue x).roster = s.roster := rfl
@[simp] theorem State.withQueue_sessions (x : List TxEntry) : (s.withQueue x).sessions = s.sessions := rfl
@[simp] theorem State.withQueue_freeCount (x : List TxEntry) : (s.withQueue x).freeCount = s.freeCount := rfl
@[simp] theorem State.withQueue_bus_line (x : List TxEntry) : (s.withQueue x).bus.line = s.bus.line := rfl
@[simp] theorem State.withQueue_bus_queue (x : List TxEntry) : (s.withQueue x).bus.queue = x := rfl
@[simp] theorem State.withQueue_bus_beaconHold (x : List TxEntry) : (s.withQueue x).bus.beaconHold = s.bus.beaconHold := rfl
@[simp] theorem State.withQueue_bus_rx (x : List TxEntry) : (s.withQueue x).bus.rx = s.bus.rx := rfl
@[simp] theorem State.withQueue_bus_counters (x : List TxEntry) : (s.withQueue x).bus.counters = s.bus.counters := rfl

/-! ### `withRx` -/

@[simp] theorem State.withRx_pending (x : List RxTelegram) : (s.withRx x).pending = s.pending := rfl
@[simp] theorem State.withRx_running (x : List RxTelegram) : (s.withRx x).running = s.running := rfl
@[simp] theorem State.withRx_stopCause (x : List RxTelegram) : (s.withRx x).stopCause = s.stopCause := rfl
@[simp] theorem State.withRx_cellFell (x : List RxTelegram) : (s.withRx x).cellFell = s.cellFell := rfl
@[simp] theorem State.withRx_supplyMv (x : List RxTelegram) : (s.withRx x).supplyMv = s.supplyMv := rfl
@[simp] theorem State.withRx_address (x : List RxTelegram) : (s.withRx x).address = s.address := rfl
@[simp] theorem State.withRx_mode (x : List RxTelegram) : (s.withRx x).mode = s.mode := rfl
@[simp] theorem State.withRx_rejoin (x : List RxTelegram) : (s.withRx x).rejoin = s.rejoin := rfl
@[simp] theorem State.withRx_resetCause (x : List RxTelegram) : (s.withRx x).resetCause = s.resetCause := rfl
@[simp] theorem State.withRx_staged (x : List RxTelegram) : (s.withRx x).staged = s.staged := rfl
@[simp] theorem State.withRx_store (x : List RxTelegram) : (s.withRx x).store = s.store := rfl
@[simp] theorem State.withRx_storeWrite (x : List RxTelegram) : (s.withRx x).storeWrite = s.storeWrite := rfl
@[simp] theorem State.withRx_domain (x : List RxTelegram) : (s.withRx x).domain = s.domain := rfl
@[simp] theorem State.withRx_channels (x : List RxTelegram) : (s.withRx x).channels = s.channels := rfl
@[simp] theorem State.withRx_nextExpiry (x : List RxTelegram) : (s.withRx x).nextExpiry = s.nextExpiry := rfl
@[simp] theorem State.withRx_lastSummary (x : List RxTelegram) : (s.withRx x).lastSummary = s.lastSummary := rfl
@[simp] theorem State.withRx_inputs (x : List RxTelegram) : (s.withRx x).inputs = s.inputs := rfl
@[simp] theorem State.withRx_offers (x : List RxTelegram) : (s.withRx x).offers = s.offers := rfl
@[simp] theorem State.withRx_roster (x : List RxTelegram) : (s.withRx x).roster = s.roster := rfl
@[simp] theorem State.withRx_sessions (x : List RxTelegram) : (s.withRx x).sessions = s.sessions := rfl
@[simp] theorem State.withRx_freeCount (x : List RxTelegram) : (s.withRx x).freeCount = s.freeCount := rfl
@[simp] theorem State.withRx_bus_line (x : List RxTelegram) : (s.withRx x).bus.line = s.bus.line := rfl
@[simp] theorem State.withRx_bus_queue (x : List RxTelegram) : (s.withRx x).bus.queue = s.bus.queue := rfl
@[simp] theorem State.withRx_bus_beaconHold (x : List RxTelegram) : (s.withRx x).bus.beaconHold = s.bus.beaconHold := rfl
@[simp] theorem State.withRx_bus_rx (x : List RxTelegram) : (s.withRx x).bus.rx = x := rfl
@[simp] theorem State.withRx_bus_counters (x : List RxTelegram) : (s.withRx x).bus.counters = s.bus.counters := rfl

/-! ### `withCounters` -/

@[simp] theorem State.withCounters_pending (x : Counters) : (s.withCounters x).pending = s.pending := rfl
@[simp] theorem State.withCounters_running (x : Counters) : (s.withCounters x).running = s.running := rfl
@[simp] theorem State.withCounters_stopCause (x : Counters) : (s.withCounters x).stopCause = s.stopCause := rfl
@[simp] theorem State.withCounters_cellFell (x : Counters) : (s.withCounters x).cellFell = s.cellFell := rfl
@[simp] theorem State.withCounters_supplyMv (x : Counters) : (s.withCounters x).supplyMv = s.supplyMv := rfl
@[simp] theorem State.withCounters_address (x : Counters) : (s.withCounters x).address = s.address := rfl
@[simp] theorem State.withCounters_mode (x : Counters) : (s.withCounters x).mode = s.mode := rfl
@[simp] theorem State.withCounters_rejoin (x : Counters) : (s.withCounters x).rejoin = s.rejoin := rfl
@[simp] theorem State.withCounters_resetCause (x : Counters) : (s.withCounters x).resetCause = s.resetCause := rfl
@[simp] theorem State.withCounters_staged (x : Counters) : (s.withCounters x).staged = s.staged := rfl
@[simp] theorem State.withCounters_store (x : Counters) : (s.withCounters x).store = s.store := rfl
@[simp] theorem State.withCounters_storeWrite (x : Counters) : (s.withCounters x).storeWrite = s.storeWrite := rfl
@[simp] theorem State.withCounters_domain (x : Counters) : (s.withCounters x).domain = s.domain := rfl
@[simp] theorem State.withCounters_channels (x : Counters) : (s.withCounters x).channels = s.channels := rfl
@[simp] theorem State.withCounters_nextExpiry (x : Counters) : (s.withCounters x).nextExpiry = s.nextExpiry := rfl
@[simp] theorem State.withCounters_lastSummary (x : Counters) : (s.withCounters x).lastSummary = s.lastSummary := rfl
@[simp] theorem State.withCounters_inputs (x : Counters) : (s.withCounters x).inputs = s.inputs := rfl
@[simp] theorem State.withCounters_offers (x : Counters) : (s.withCounters x).offers = s.offers := rfl
@[simp] theorem State.withCounters_roster (x : Counters) : (s.withCounters x).roster = s.roster := rfl
@[simp] theorem State.withCounters_sessions (x : Counters) : (s.withCounters x).sessions = s.sessions := rfl
@[simp] theorem State.withCounters_freeCount (x : Counters) : (s.withCounters x).freeCount = s.freeCount := rfl
@[simp] theorem State.withCounters_bus_line (x : Counters) : (s.withCounters x).bus.line = s.bus.line := rfl
@[simp] theorem State.withCounters_bus_queue (x : Counters) : (s.withCounters x).bus.queue = s.bus.queue := rfl
@[simp] theorem State.withCounters_bus_beaconHold (x : Counters) : (s.withCounters x).bus.beaconHold = s.bus.beaconHold := rfl
@[simp] theorem State.withCounters_bus_rx (x : Counters) : (s.withCounters x).bus.rx = s.bus.rx := rfl
@[simp] theorem State.withCounters_bus_counters (x : Counters) : (s.withCounters x).bus.counters = x := rfl

/-! ### `withLine` -/

@[simp] theorem State.withLine_pending (x : Line) : (s.withLine x).pending = s.pending := rfl
@[simp] theorem State.withLine_running (x : Line) : (s.withLine x).running = s.running := rfl
@[simp] theorem State.withLine_stopCause (x : Line) : (s.withLine x).stopCause = s.stopCause := rfl
@[simp] theorem State.withLine_cellFell (x : Line) : (s.withLine x).cellFell = s.cellFell := rfl
@[simp] theorem State.withLine_supplyMv (x : Line) : (s.withLine x).supplyMv = s.supplyMv := rfl
@[simp] theorem State.withLine_address (x : Line) : (s.withLine x).address = s.address := rfl
@[simp] theorem State.withLine_mode (x : Line) : (s.withLine x).mode = s.mode := rfl
@[simp] theorem State.withLine_rejoin (x : Line) : (s.withLine x).rejoin = s.rejoin := rfl
@[simp] theorem State.withLine_resetCause (x : Line) : (s.withLine x).resetCause = s.resetCause := rfl
@[simp] theorem State.withLine_staged (x : Line) : (s.withLine x).staged = s.staged := rfl
@[simp] theorem State.withLine_store (x : Line) : (s.withLine x).store = s.store := rfl
@[simp] theorem State.withLine_storeWrite (x : Line) : (s.withLine x).storeWrite = s.storeWrite := rfl
@[simp] theorem State.withLine_domain (x : Line) : (s.withLine x).domain = s.domain := rfl
@[simp] theorem State.withLine_channels (x : Line) : (s.withLine x).channels = s.channels := rfl
@[simp] theorem State.withLine_nextExpiry (x : Line) : (s.withLine x).nextExpiry = s.nextExpiry := rfl
@[simp] theorem State.withLine_lastSummary (x : Line) : (s.withLine x).lastSummary = s.lastSummary := rfl
@[simp] theorem State.withLine_inputs (x : Line) : (s.withLine x).inputs = s.inputs := rfl
@[simp] theorem State.withLine_offers (x : Line) : (s.withLine x).offers = s.offers := rfl
@[simp] theorem State.withLine_roster (x : Line) : (s.withLine x).roster = s.roster := rfl
@[simp] theorem State.withLine_sessions (x : Line) : (s.withLine x).sessions = s.sessions := rfl
@[simp] theorem State.withLine_freeCount (x : Line) : (s.withLine x).freeCount = s.freeCount := rfl
@[simp] theorem State.withLine_bus_line (x : Line) : (s.withLine x).bus.line = x := rfl
@[simp] theorem State.withLine_bus_queue (x : Line) : (s.withLine x).bus.queue = s.bus.queue := rfl
@[simp] theorem State.withLine_bus_beaconHold (x : Line) : (s.withLine x).bus.beaconHold = s.bus.beaconHold := rfl
@[simp] theorem State.withLine_bus_rx (x : Line) : (s.withLine x).bus.rx = s.bus.rx := rfl
@[simp] theorem State.withLine_bus_counters (x : Line) : (s.withLine x).bus.counters = s.bus.counters := rfl

/-! ### `withBeaconHold` -/

@[simp] theorem State.withBeaconHold_pending (x : Option TxTelegram) : (s.withBeaconHold x).pending = s.pending := rfl
@[simp] theorem State.withBeaconHold_running (x : Option TxTelegram) : (s.withBeaconHold x).running = s.running := rfl
@[simp] theorem State.withBeaconHold_stopCause (x : Option TxTelegram) : (s.withBeaconHold x).stopCause = s.stopCause := rfl
@[simp] theorem State.withBeaconHold_cellFell (x : Option TxTelegram) : (s.withBeaconHold x).cellFell = s.cellFell := rfl
@[simp] theorem State.withBeaconHold_supplyMv (x : Option TxTelegram) : (s.withBeaconHold x).supplyMv = s.supplyMv := rfl
@[simp] theorem State.withBeaconHold_address (x : Option TxTelegram) : (s.withBeaconHold x).address = s.address := rfl
@[simp] theorem State.withBeaconHold_mode (x : Option TxTelegram) : (s.withBeaconHold x).mode = s.mode := rfl
@[simp] theorem State.withBeaconHold_rejoin (x : Option TxTelegram) : (s.withBeaconHold x).rejoin = s.rejoin := rfl
@[simp] theorem State.withBeaconHold_resetCause (x : Option TxTelegram) : (s.withBeaconHold x).resetCause = s.resetCause := rfl
@[simp] theorem State.withBeaconHold_staged (x : Option TxTelegram) : (s.withBeaconHold x).staged = s.staged := rfl
@[simp] theorem State.withBeaconHold_store (x : Option TxTelegram) : (s.withBeaconHold x).store = s.store := rfl
@[simp] theorem State.withBeaconHold_storeWrite (x : Option TxTelegram) : (s.withBeaconHold x).storeWrite = s.storeWrite := rfl
@[simp] theorem State.withBeaconHold_domain (x : Option TxTelegram) : (s.withBeaconHold x).domain = s.domain := rfl
@[simp] theorem State.withBeaconHold_channels (x : Option TxTelegram) : (s.withBeaconHold x).channels = s.channels := rfl
@[simp] theorem State.withBeaconHold_nextExpiry (x : Option TxTelegram) : (s.withBeaconHold x).nextExpiry = s.nextExpiry := rfl
@[simp] theorem State.withBeaconHold_lastSummary (x : Option TxTelegram) : (s.withBeaconHold x).lastSummary = s.lastSummary := rfl
@[simp] theorem State.withBeaconHold_inputs (x : Option TxTelegram) : (s.withBeaconHold x).inputs = s.inputs := rfl
@[simp] theorem State.withBeaconHold_offers (x : Option TxTelegram) : (s.withBeaconHold x).offers = s.offers := rfl
@[simp] theorem State.withBeaconHold_roster (x : Option TxTelegram) : (s.withBeaconHold x).roster = s.roster := rfl
@[simp] theorem State.withBeaconHold_sessions (x : Option TxTelegram) : (s.withBeaconHold x).sessions = s.sessions := rfl
@[simp] theorem State.withBeaconHold_freeCount (x : Option TxTelegram) : (s.withBeaconHold x).freeCount = s.freeCount := rfl
@[simp] theorem State.withBeaconHold_bus_line (x : Option TxTelegram) : (s.withBeaconHold x).bus.line = s.bus.line := rfl
@[simp] theorem State.withBeaconHold_bus_queue (x : Option TxTelegram) : (s.withBeaconHold x).bus.queue = s.bus.queue := rfl
@[simp] theorem State.withBeaconHold_bus_beaconHold (x : Option TxTelegram) : (s.withBeaconHold x).bus.beaconHold = x := rfl
@[simp] theorem State.withBeaconHold_bus_rx (x : Option TxTelegram) : (s.withBeaconHold x).bus.rx = s.bus.rx := rfl
@[simp] theorem State.withBeaconHold_bus_counters (x : Option TxTelegram) : (s.withBeaconHold x).bus.counters = s.bus.counters := rfl

/-! ### `withOffers` -/

@[simp] theorem State.withOffers_pending (x : List Offer) : (s.withOffers x).pending = s.pending := rfl
@[simp] theorem State.withOffers_running (x : List Offer) : (s.withOffers x).running = s.running := rfl
@[simp] theorem State.withOffers_stopCause (x : List Offer) : (s.withOffers x).stopCause = s.stopCause := rfl
@[simp] theorem State.withOffers_cellFell (x : List Offer) : (s.withOffers x).cellFell = s.cellFell := rfl
@[simp] theorem State.withOffers_supplyMv (x : List Offer) : (s.withOffers x).supplyMv = s.supplyMv := rfl
@[simp] theorem State.withOffers_address (x : List Offer) : (s.withOffers x).address = s.address := rfl
@[simp] theorem State.withOffers_mode (x : List Offer) : (s.withOffers x).mode = s.mode := rfl
@[simp] theorem State.withOffers_rejoin (x : List Offer) : (s.withOffers x).rejoin = s.rejoin := rfl
@[simp] theorem State.withOffers_resetCause (x : List Offer) : (s.withOffers x).resetCause = s.resetCause := rfl
@[simp] theorem State.withOffers_staged (x : List Offer) : (s.withOffers x).staged = s.staged := rfl
@[simp] theorem State.withOffers_store (x : List Offer) : (s.withOffers x).store = s.store := rfl
@[simp] theorem State.withOffers_storeWrite (x : List Offer) : (s.withOffers x).storeWrite = s.storeWrite := rfl
@[simp] theorem State.withOffers_domain (x : List Offer) : (s.withOffers x).domain = s.domain := rfl
@[simp] theorem State.withOffers_channels (x : List Offer) : (s.withOffers x).channels = s.channels := rfl
@[simp] theorem State.withOffers_nextExpiry (x : List Offer) : (s.withOffers x).nextExpiry = s.nextExpiry := rfl
@[simp] theorem State.withOffers_lastSummary (x : List Offer) : (s.withOffers x).lastSummary = s.lastSummary := rfl
@[simp] theorem State.withOffers_inputs (x : List Offer) : (s.withOffers x).inputs = s.inputs := rfl
@[simp] theorem State.withOffers_offers (x : List Offer) : (s.withOffers x).offers = x := rfl
@[simp] theorem State.withOffers_roster (x : List Offer) : (s.withOffers x).roster = s.roster := rfl
@[simp] theorem State.withOffers_sessions (x : List Offer) : (s.withOffers x).sessions = s.sessions := rfl
@[simp] theorem State.withOffers_bus (x : List Offer) : (s.withOffers x).bus = s.bus := rfl
@[simp] theorem State.withOffers_freeCount (x : List Offer) : (s.withOffers x).freeCount = s.freeCount := rfl

/-! ### `withRoster` -/

@[simp] theorem State.withRoster_pending (x : List RosterEntry) : (s.withRoster x).pending = s.pending := rfl
@[simp] theorem State.withRoster_running (x : List RosterEntry) : (s.withRoster x).running = s.running := rfl
@[simp] theorem State.withRoster_stopCause (x : List RosterEntry) : (s.withRoster x).stopCause = s.stopCause := rfl
@[simp] theorem State.withRoster_cellFell (x : List RosterEntry) : (s.withRoster x).cellFell = s.cellFell := rfl
@[simp] theorem State.withRoster_supplyMv (x : List RosterEntry) : (s.withRoster x).supplyMv = s.supplyMv := rfl
@[simp] theorem State.withRoster_address (x : List RosterEntry) : (s.withRoster x).address = s.address := rfl
@[simp] theorem State.withRoster_mode (x : List RosterEntry) : (s.withRoster x).mode = s.mode := rfl
@[simp] theorem State.withRoster_rejoin (x : List RosterEntry) : (s.withRoster x).rejoin = s.rejoin := rfl
@[simp] theorem State.withRoster_resetCause (x : List RosterEntry) : (s.withRoster x).resetCause = s.resetCause := rfl
@[simp] theorem State.withRoster_staged (x : List RosterEntry) : (s.withRoster x).staged = s.staged := rfl
@[simp] theorem State.withRoster_store (x : List RosterEntry) : (s.withRoster x).store = s.store := rfl
@[simp] theorem State.withRoster_storeWrite (x : List RosterEntry) : (s.withRoster x).storeWrite = s.storeWrite := rfl
@[simp] theorem State.withRoster_domain (x : List RosterEntry) : (s.withRoster x).domain = s.domain := rfl
@[simp] theorem State.withRoster_channels (x : List RosterEntry) : (s.withRoster x).channels = s.channels := rfl
@[simp] theorem State.withRoster_nextExpiry (x : List RosterEntry) : (s.withRoster x).nextExpiry = s.nextExpiry := rfl
@[simp] theorem State.withRoster_lastSummary (x : List RosterEntry) : (s.withRoster x).lastSummary = s.lastSummary := rfl
@[simp] theorem State.withRoster_inputs (x : List RosterEntry) : (s.withRoster x).inputs = s.inputs := rfl
@[simp] theorem State.withRoster_offers (x : List RosterEntry) : (s.withRoster x).offers = s.offers := rfl
@[simp] theorem State.withRoster_roster (x : List RosterEntry) : (s.withRoster x).roster = x := rfl
@[simp] theorem State.withRoster_sessions (x : List RosterEntry) : (s.withRoster x).sessions = s.sessions := rfl
@[simp] theorem State.withRoster_bus (x : List RosterEntry) : (s.withRoster x).bus = s.bus := rfl
@[simp] theorem State.withRoster_freeCount (x : List RosterEntry) : (s.withRoster x).freeCount = s.freeCount := rfl

/-! ### `withSessions` -/

@[simp] theorem State.withSessions_pending (x : List Session) : (s.withSessions x).pending = s.pending := rfl
@[simp] theorem State.withSessions_running (x : List Session) : (s.withSessions x).running = s.running := rfl
@[simp] theorem State.withSessions_stopCause (x : List Session) : (s.withSessions x).stopCause = s.stopCause := rfl
@[simp] theorem State.withSessions_cellFell (x : List Session) : (s.withSessions x).cellFell = s.cellFell := rfl
@[simp] theorem State.withSessions_supplyMv (x : List Session) : (s.withSessions x).supplyMv = s.supplyMv := rfl
@[simp] theorem State.withSessions_address (x : List Session) : (s.withSessions x).address = s.address := rfl
@[simp] theorem State.withSessions_mode (x : List Session) : (s.withSessions x).mode = s.mode := rfl
@[simp] theorem State.withSessions_rejoin (x : List Session) : (s.withSessions x).rejoin = s.rejoin := rfl
@[simp] theorem State.withSessions_resetCause (x : List Session) : (s.withSessions x).resetCause = s.resetCause := rfl
@[simp] theorem State.withSessions_staged (x : List Session) : (s.withSessions x).staged = s.staged := rfl
@[simp] theorem State.withSessions_store (x : List Session) : (s.withSessions x).store = s.store := rfl
@[simp] theorem State.withSessions_storeWrite (x : List Session) : (s.withSessions x).storeWrite = s.storeWrite := rfl
@[simp] theorem State.withSessions_domain (x : List Session) : (s.withSessions x).domain = s.domain := rfl
@[simp] theorem State.withSessions_channels (x : List Session) : (s.withSessions x).channels = s.channels := rfl
@[simp] theorem State.withSessions_nextExpiry (x : List Session) : (s.withSessions x).nextExpiry = s.nextExpiry := rfl
@[simp] theorem State.withSessions_lastSummary (x : List Session) : (s.withSessions x).lastSummary = s.lastSummary := rfl
@[simp] theorem State.withSessions_inputs (x : List Session) : (s.withSessions x).inputs = s.inputs := rfl
@[simp] theorem State.withSessions_offers (x : List Session) : (s.withSessions x).offers = s.offers := rfl
@[simp] theorem State.withSessions_roster (x : List Session) : (s.withSessions x).roster = s.roster := rfl
@[simp] theorem State.withSessions_sessions (x : List Session) : (s.withSessions x).sessions = x := rfl
@[simp] theorem State.withSessions_bus (x : List Session) : (s.withSessions x).bus = s.bus := rfl
@[simp] theorem State.withSessions_freeCount (x : List Session) : (s.withSessions x).freeCount = s.freeCount := rfl

/-! ### `withMode` -/

@[simp] theorem State.withMode_pending (x : Mode) : (s.withMode x).pending = s.pending := rfl
@[simp] theorem State.withMode_running (x : Mode) : (s.withMode x).running = s.running := rfl
@[simp] theorem State.withMode_stopCause (x : Mode) : (s.withMode x).stopCause = s.stopCause := rfl
@[simp] theorem State.withMode_cellFell (x : Mode) : (s.withMode x).cellFell = s.cellFell := rfl
@[simp] theorem State.withMode_supplyMv (x : Mode) : (s.withMode x).supplyMv = s.supplyMv := rfl
@[simp] theorem State.withMode_address (x : Mode) : (s.withMode x).address = s.address := rfl
@[simp] theorem State.withMode_mode (x : Mode) : (s.withMode x).mode = x := rfl
@[simp] theorem State.withMode_rejoin (x : Mode) : (s.withMode x).rejoin = s.rejoin := rfl
@[simp] theorem State.withMode_resetCause (x : Mode) : (s.withMode x).resetCause = s.resetCause := rfl
@[simp] theorem State.withMode_staged (x : Mode) : (s.withMode x).staged = s.staged := rfl
@[simp] theorem State.withMode_store (x : Mode) : (s.withMode x).store = s.store := rfl
@[simp] theorem State.withMode_storeWrite (x : Mode) : (s.withMode x).storeWrite = s.storeWrite := rfl
@[simp] theorem State.withMode_domain (x : Mode) : (s.withMode x).domain = s.domain := rfl
@[simp] theorem State.withMode_channels (x : Mode) : (s.withMode x).channels = s.channels := rfl
@[simp] theorem State.withMode_nextExpiry (x : Mode) : (s.withMode x).nextExpiry = s.nextExpiry := rfl
@[simp] theorem State.withMode_lastSummary (x : Mode) : (s.withMode x).lastSummary = s.lastSummary := rfl
@[simp] theorem State.withMode_inputs (x : Mode) : (s.withMode x).inputs = s.inputs := rfl
@[simp] theorem State.withMode_offers (x : Mode) : (s.withMode x).offers = s.offers := rfl
@[simp] theorem State.withMode_roster (x : Mode) : (s.withMode x).roster = s.roster := rfl
@[simp] theorem State.withMode_sessions (x : Mode) : (s.withMode x).sessions = s.sessions := rfl
@[simp] theorem State.withMode_bus (x : Mode) : (s.withMode x).bus = s.bus := rfl
@[simp] theorem State.withMode_freeCount (x : Mode) : (s.withMode x).freeCount = s.freeCount := rfl

/-! ### `withRejoin` -/

@[simp] theorem State.withRejoin_pending (x : RejoinPhase) : (s.withRejoin x).pending = s.pending := rfl
@[simp] theorem State.withRejoin_running (x : RejoinPhase) : (s.withRejoin x).running = s.running := rfl
@[simp] theorem State.withRejoin_stopCause (x : RejoinPhase) : (s.withRejoin x).stopCause = s.stopCause := rfl
@[simp] theorem State.withRejoin_cellFell (x : RejoinPhase) : (s.withRejoin x).cellFell = s.cellFell := rfl
@[simp] theorem State.withRejoin_supplyMv (x : RejoinPhase) : (s.withRejoin x).supplyMv = s.supplyMv := rfl
@[simp] theorem State.withRejoin_address (x : RejoinPhase) : (s.withRejoin x).address = s.address := rfl
@[simp] theorem State.withRejoin_mode (x : RejoinPhase) : (s.withRejoin x).mode = s.mode := rfl
@[simp] theorem State.withRejoin_rejoin (x : RejoinPhase) : (s.withRejoin x).rejoin = x := rfl
@[simp] theorem State.withRejoin_resetCause (x : RejoinPhase) : (s.withRejoin x).resetCause = s.resetCause := rfl
@[simp] theorem State.withRejoin_staged (x : RejoinPhase) : (s.withRejoin x).staged = s.staged := rfl
@[simp] theorem State.withRejoin_store (x : RejoinPhase) : (s.withRejoin x).store = s.store := rfl
@[simp] theorem State.withRejoin_storeWrite (x : RejoinPhase) : (s.withRejoin x).storeWrite = s.storeWrite := rfl
@[simp] theorem State.withRejoin_domain (x : RejoinPhase) : (s.withRejoin x).domain = s.domain := rfl
@[simp] theorem State.withRejoin_channels (x : RejoinPhase) : (s.withRejoin x).channels = s.channels := rfl
@[simp] theorem State.withRejoin_nextExpiry (x : RejoinPhase) : (s.withRejoin x).nextExpiry = s.nextExpiry := rfl
@[simp] theorem State.withRejoin_lastSummary (x : RejoinPhase) : (s.withRejoin x).lastSummary = s.lastSummary := rfl
@[simp] theorem State.withRejoin_inputs (x : RejoinPhase) : (s.withRejoin x).inputs = s.inputs := rfl
@[simp] theorem State.withRejoin_offers (x : RejoinPhase) : (s.withRejoin x).offers = s.offers := rfl
@[simp] theorem State.withRejoin_roster (x : RejoinPhase) : (s.withRejoin x).roster = s.roster := rfl
@[simp] theorem State.withRejoin_sessions (x : RejoinPhase) : (s.withRejoin x).sessions = s.sessions := rfl
@[simp] theorem State.withRejoin_bus (x : RejoinPhase) : (s.withRejoin x).bus = s.bus := rfl
@[simp] theorem State.withRejoin_freeCount (x : RejoinPhase) : (s.withRejoin x).freeCount = s.freeCount := rfl

/-! ### `withFreeCount` -/

@[simp] theorem State.withFreeCount_pending (x : Nat) : (s.withFreeCount x).pending = s.pending := rfl
@[simp] theorem State.withFreeCount_running (x : Nat) : (s.withFreeCount x).running = s.running := rfl
@[simp] theorem State.withFreeCount_stopCause (x : Nat) : (s.withFreeCount x).stopCause = s.stopCause := rfl
@[simp] theorem State.withFreeCount_cellFell (x : Nat) : (s.withFreeCount x).cellFell = s.cellFell := rfl
@[simp] theorem State.withFreeCount_supplyMv (x : Nat) : (s.withFreeCount x).supplyMv = s.supplyMv := rfl
@[simp] theorem State.withFreeCount_address (x : Nat) : (s.withFreeCount x).address = s.address := rfl
@[simp] theorem State.withFreeCount_mode (x : Nat) : (s.withFreeCount x).mode = s.mode := rfl
@[simp] theorem State.withFreeCount_rejoin (x : Nat) : (s.withFreeCount x).rejoin = s.rejoin := rfl
@[simp] theorem State.withFreeCount_resetCause (x : Nat) : (s.withFreeCount x).resetCause = s.resetCause := rfl
@[simp] theorem State.withFreeCount_staged (x : Nat) : (s.withFreeCount x).staged = s.staged := rfl
@[simp] theorem State.withFreeCount_store (x : Nat) : (s.withFreeCount x).store = s.store := rfl
@[simp] theorem State.withFreeCount_storeWrite (x : Nat) : (s.withFreeCount x).storeWrite = s.storeWrite := rfl
@[simp] theorem State.withFreeCount_domain (x : Nat) : (s.withFreeCount x).domain = s.domain := rfl
@[simp] theorem State.withFreeCount_channels (x : Nat) : (s.withFreeCount x).channels = s.channels := rfl
@[simp] theorem State.withFreeCount_nextExpiry (x : Nat) : (s.withFreeCount x).nextExpiry = s.nextExpiry := rfl
@[simp] theorem State.withFreeCount_lastSummary (x : Nat) : (s.withFreeCount x).lastSummary = s.lastSummary := rfl
@[simp] theorem State.withFreeCount_inputs (x : Nat) : (s.withFreeCount x).inputs = s.inputs := rfl
@[simp] theorem State.withFreeCount_offers (x : Nat) : (s.withFreeCount x).offers = s.offers := rfl
@[simp] theorem State.withFreeCount_roster (x : Nat) : (s.withFreeCount x).roster = s.roster := rfl
@[simp] theorem State.withFreeCount_sessions (x : Nat) : (s.withFreeCount x).sessions = s.sessions := rfl
@[simp] theorem State.withFreeCount_bus (x : Nat) : (s.withFreeCount x).bus = s.bus := rfl
@[simp] theorem State.withFreeCount_freeCount (x : Nat) : (s.withFreeCount x).freeCount = x := rfl

end Sys2Proof.Machine
end

