-- ==== Sys2Proof/Laws/Ops.lean ====
section
/-!
SUPPORT. What each shared operation can do, said once: the four-things, saturating sums, offering telegrams to the
transmit queue, the end of a send, the Custody Table, offers, sightings, charges and filters.
-/
namespace Sys2Proof

/-! ### Four like things -/

@[simp] theorem Four.get_set {α : Type} (v : Four α) (i j : Fin 4) (x : α) :
    (v.set i x).get j = if j = i then x else v.get j := by
  fin_cases i <;> fin_cases j <;> rfl

@[simp] theorem Four.get_build {α : Type} (f : Fin 4 → α) (i : Fin 4) : (Four.build f).get i = f i := by
  fin_cases i <;> rfl

@[simp] theorem Four.get_all {α : Type} (x : α) (i : Fin 4) : (Four.all x).get i = x := by
  fin_cases i <;> rfl

/-- Two fours are equal when they are so at every number. -/
theorem Four.ext_get {α : Type} {v w : Four α} (h : ∀ i, v.get i = w.get i) : v = w := by
  cases v; cases w
  have h0 := h 0; have h1 := h 1; have h2 := h 2; have h3 := h 3
  simp_all [Four.get]

/-! ### Saturating sums -/

theorem satAdd_le (cap a b : Nat) : satAdd cap a b ≤ cap := Nat.min_le_right _ _

theorem le_satAdd {cap a : Nat} (b : Nat) (h : a ≤ cap) : a ≤ satAdd cap a b := by
  unfold satAdd; omega

namespace Machine

/-! ### Lists -/

theorem updateWhere_length {α : Type} (p : α → Bool) (f : α → α) (l : List α) :
    (updateWhere p f l).length = l.length := List.length_map ..

theorem updateWhere_map {α β : Type} (p : α → Bool) (f : α → α) (g : α → β) (l : List α) (h : ∀ x, g (f x) = g x) :
    (updateWhere p f l).map g = l.map g := by
  simp only [updateWhere, List.map_map]
  apply List.map_congr_left
  intro x _
  simp only [Function.comp]
  split <;> simp [h]

/-! ### Offering a telegram -/

theorem markFirst_letters (c : Nat) (q : List TxEntry) : (markFirst c q).map TxEntry.letter = q.map TxEntry.letter := by
  induction q with
  | nil => rfl
  | cons e es ih =>
    simp only [markFirst]
    split
    · simp [TxEntry.letter]
    · simp [ih]

theorem markFirst_length (c : Nat) (q : List TxEntry) : (markFirst c q).length = q.length := by
  have := congrArg List.length (markFirst_letters c q)
  simpa using this

/-- Beginning a telegram changes the transmit queue's marks and the line, and no telegram. -/
theorem beginNext_sends (s : State) : Sends s (beginNext s) [] := by
  constructor
  · rfl
  · simp [State.boxAfter, State.outbox, beginNext, markNext, markFirst_letters]

/-- What `beginAtOnce` does: nothing but the queue's marks, the line and the counter of free values changes. -/
theorem beginAtOnce_sends (s : State) : Sends s (beginAtOnce s) [] := by
  unfold beginAtOnce
  split
  · dsimp only
    split
    · exact ⟨rfl, by simp [State.boxAfter, State.outbox]⟩
    · exact ⟨rfl, by simp [State.boxAfter, State.outbox, beginNext, markNext, markFirst_letters]⟩
  · exact ⟨rfl, by simp [State.boxAfter]⟩

theorem beginAtOnce_length (s : State) : (beginAtOnce s).bus.queue.length = s.bus.queue.length := by
  have h := (beginAtOnce_sends s).2
  have := congrArg List.length h
  simpa [State.outbox, State.boxAfter] using this

theorem transmitOf_trans (s t u : State) : (s.transmitOf t).transmitOf u = s.transmitOf u := rfl

/-- Telegrams offered one after another: the second sender starts from what the first left. -/
theorem Sends.trans {s t u : State} {xs ys : List Letter} (h : Sends s t xs) (k : Sends t u ys) :
    Sends s u (xs ++ ys) := by
  obtain ⟨h1, h2⟩ := h
  obtain ⟨k1, k2⟩ := k
  have hm : t.mode = s.mode := by rw [h1]; rfl
  constructor
  · rw [h1, transmitOf_trans] at k1; exact k1
  · rw [k2]
    unfold State.boxAfter at *
    rw [hm, h2]
    split <;> simp [*]

theorem Sends.refl (s : State) : Sends s s [] := ⟨rfl, by simp [State.boxAfter]⟩

/-- What offering a telegram does: nothing but the queue, the line and the counter of free values changes; the queue
takes the telegram at its end unless it is full or the mode is HOLD or UNSTRAPPED (R118). -/
theorem send_sends (s : State) (t : TxTelegram) (o : Origin) : Sends s (send s t o).1 [(t, o)] := by
  unfold send
  split
  · rename_i h
    simp only [Bool.and_eq_true, decide_eq_true_eq] at h
    obtain ⟨h1, h2⟩ := beginAtOnce_sends (s.withQueue (s.bus.queue ++ [⟨t, o, false, false⟩]))
    constructor
    · rw [h1]; rfl
    · rw [h2]
      simp [State.boxAfter, post, State.outbox, TxEntry.letter, h.1, h.2]
  · rename_i h
    simp only [Bool.and_eq_true, decide_eq_true_eq, not_and] at h
    refine ⟨rfl, ?_⟩
    unfold State.boxAfter
    split
    · have := h ‹_›
      simp [post, State.outbox, this]
    · rfl

/-- Whether the queue took it. -/
theorem send_taken (s : State) (t : TxTelegram) (o : Origin) :
    (send s t o).2 = (s.mode.queues && decide (s.bus.queue.length < Config.queueSlots)) := by
  unfold send
  split <;> simp_all

/-- A refused telegram leaves everything as it was. -/
theorem send_refused (s : State) (t : TxTelegram) (o : Origin) (h : (send s t o).2 = false) : (send s t o).1 = s := by
  unfold send at *
  split <;> simp_all

theorem sendPlain_sends (s : State) (t : TxTelegram) : Sends s (sendPlain s t) [(t, .plain)] := send_sends s t .plain

theorem answer_sends (s : State) (t : RxTelegram) (r : Result) (body : List Byte) :
    Sends s (answer s t r body) [replyLetter t.sender t.kind r body] := send_sends ..

theorem answerMoveFailed_sends (s : State) (o : Offer) (sub decline : Nat) :
    Sends s (answerMoveFailed s o sub decline) [failLetter o.requester sub decline o.id] := send_sends ..

/-- A put to the buddy is one telegram, or none without a buddy (R137, R139). -/
theorem putToBuddy_sends (s : State) (r : Record) : Sends s (putToBuddy s r) (s.putLetters r) := by
  unfold putToBuddy State.putLetters
  cases h : s.committed.buddy with
  | none => simpa using Sends.refl s
  | some b => simpa using send_sends ..

theorem queueDrop_sends (s : State) (b id : Nat) :
    Sends s (queueDrop s b id) [(⟨b, .mirrorDrop, beBytes 6 id⟩, .mirrorDrop id)] := send_sends ..

/-- Everything that a `Sends` leaves alone. -/
theorem Sends.fields {s t : State} {xs : List Letter} (h : Sends s t xs) :
    t.pending = s.pending ∧ t.running = s.running ∧ t.mode = s.mode ∧ t.domain = s.domain ∧ t.store = s.store ∧
    t.storeWrite = s.storeWrite ∧ t.offers = s.offers ∧ t.roster = s.roster ∧ t.sessions = s.sessions ∧
    t.bus.rx = s.bus.rx ∧ t.bus.counters = s.bus.counters ∧ t.bus.beaconHold = s.bus.beaconHold ∧
    t.rejoin = s.rejoin ∧ t.staged = s.staged ∧ t.channels = s.channels ∧ t.inputs = s.inputs ∧
    t.nextExpiry = s.nextExpiry ∧ t.lastSummary = s.lastSummary ∧ t.address = s.address ∧
    t.supplyMv = s.supplyMv ∧ t.cellFell = s.cellFell ∧ t.resetCause = s.resetCause ∧ t.stopCause = s.stopCause := by
  rw [h.1]
  exact ⟨rfl, rfl, rfl, rfl, rfl, rfl, rfl, rfl, rfl, rfl, rfl, rfl, rfl, rfl, rfl, rfl, rfl, rfl, rfl, rfl, rfl, rfl,
    rfl⟩

/-- What a refused or taken telegram leaves of the queue's length. -/
theorem send_length (s : State) (t : TxTelegram) (o : Origin) :
    (send s t o).1.bus.queue.length = s.bus.queue.length + if (send s t o).2 then 1 else 0 := by
  unfold send
  split
  · simp [beginAtOnce_length]
  · simp

/-! ### The end of a send -/

theorem dropSending_sends (held : Option TxTelegram) (before after : List TxEntry) (e : TxEntry)
    (hb : ∀ x ∈ before, x.sending = false) (he : e.sending = true) :
    dropSending held (before ++ e :: after) =
      before ++ (if e.telegram.kind = .beacon then
        (held.map fun t => (⟨t, .plain, false, false⟩ : TxEntry)).toList ++ after else after) := by
  induction before with
  | nil =>
    simp only [List.nil_append, dropSending, he, if_true]
    by_cases hk : e.telegram.kind = .beacon
    · cases held <;> simp [hk]
    · simp [hk]
  | cons x xs ih =>
    have hx : x.sending = false := hb x (by simp)
    simp only [List.cons_append, dropSending, hx]
    simp only [Bool.false_eq_true, if_false, List.cons.injEq, true_and]
    exact ih fun y hy => hb y (by simp [hy])

theorem sending?_sends (s : State) (before after : List TxEntry) (e : TxEntry) (h : s.sends before e after) :
    s.sending? = some e := by
  obtain ⟨_, hq, hb, he⟩ := h
  simp only [State.sending?, hq, List.find?_append]
  have : before.find? (·.sending) = none := by simpa [List.find?_eq_none] using hb
  simp [this, he]

/-- The end of a send whose telegram is no BEACON (R121, R124). -/
theorem endSending_sends (s : State) (before after : List TxEntry) (e : TxEntry) (oc : SendOutcome)
    (h : s.sends before e after) (hk : e.telegram.kind ≠ .beacon) :
    endSending s e oc = s.sent (before ++ after) (s.bus.counters.count oc) := by
  obtain ⟨_, hq, hb, he⟩ := h
  unfold endSending State.sent
  rw [hq, dropSending_sends _ _ _ _ hb he]
  simp [hk]

/-- The end of the send of a BEACON: a held one takes its place (R120). -/
theorem endSending_beacon (s : State) (before after : List TxEntry) (e : TxEntry) (oc : SendOutcome)
    (h : s.sends before e after) (hk : e.telegram.kind = .beacon) :
    endSending s e oc =
      { s with
        bus :=
          { s.bus with
            line := .busy
            queue := before ++ (s.bus.beaconHold.map fun t => (⟨t, .plain, false, false⟩ : TxEntry)).toList ++ after
            beaconHold := none
            counters := s.bus.counters.count oc } } := by
  obtain ⟨_, hq, hb, he⟩ := h
  unfold endSending
  rw [hq, dropSending_sends _ _ _ _ hb he]
  simp [hk]

/-- An outcome command whose telegram is in transmission ends it and hands its outcome on. -/
theorem outcomeFor_sends (s : State) (before after : List TxEntry) (e : TxEntry) (mine : Origin → Bool) (acked : Bool)
    (handle : State → Origin → SendOutcome → State) (h : s.sends before e after) (hm : mine e.origin = true)
    (hk : e.telegram.kind ≠ .beacon) :
    outcomeFor s mine acked handle =
      handle (s.sent (before ++ after) (s.bus.counters.count (slotOutcome e acked))) e.origin (slotOutcome e acked) := by
  unfold outcomeFor
  rw [sending?_sends s before after e h]
  simp [h.1, hm, endSending_sends s before after e _ h hk]

/-! ### Taking a telegram -/

/-- A telegram at the front of the buffer is dealt with, its slot freed. -/
theorem taking_front (s : State) (k : Kind) (m : RxTelegram) (rest : List RxTelegram)
    (deal : RxTelegram → State → State) (h : s.front k m rest) : taking k s deal = deal m (s.withRx rest) := by
  obtain ⟨hr, hx, hk⟩ := h
  simp [taking, hx, hr, hk]

/-- A command that takes a telegram deals with the front one, or does nothing. -/
theorem taking_cases (s : State) (k : Kind) (deal : RxTelegram → State → State) :
    taking k s deal = s ∨ ∃ m rest, s.front k m rest ∧ taking k s deal = deal m (s.withRx rest) := by
  unfold taking
  cases hx : s.bus.rx with
  | nil => exact .inl rfl
  | cons m rest =>
    dsimp only
    split
    · rename_i h
      simp only [Bool.and_eq_true, beq_iff_eq] at h
      exact .inr ⟨m, rest, ⟨h.1, hx, h.2⟩, rfl⟩
    · exact .inl rfl

/-! ### The Custody Table -/

/-- With no two ids alike, looking an id up finds its record. -/
theorem find_of_mem (s : State) (h : Holding) (hl : s.custodyLaw) (hm : h ∈ s.domain.custody) :
    s.find h.record.id = some h := by
  have hn := hl.2
  unfold State.find
  generalize s.domain.custody = l at hm hn
  induction l with
  | nil => cases hm
  | cons x xs ih =>
    simp only [List.map_cons, List.nodup_cons, List.mem_map, not_exists, not_and] at hn
    rw [List.find?_cons]
    rcases List.mem_cons.1 hm with rfl | hx
    · simp
    · have : x.record.id ≠ h.record.id := fun he => hn.1 h hx he.symm
      rw [show (x.record.id == h.record.id) = false from by simpa using this]
      exact ih hx hn.2

theorem removeWhere_eq (s : State) (p : Holding → Bool) :
    s.removeWhere p =
      { s with
        domain := { s.domain with custody := s.domain.custody.filter fun h => !p h }
        bus :=
          { s.bus with
            queue := s.bus.queue.map (markLeft ((s.domain.custody.filter p).map (·.record.id))) } } := rfl

/-- Marking puts of an ended stay changes no telegram of the queue. -/
theorem markLeft_telegram (ids : List Nat) (e : TxEntry) :
    (markLeft ids e).telegram = e.telegram ∧ (markLeft ids e).sending = e.sending ∧
      (markLeft ids e).spoiled = e.spoiled := by
  unfold markLeft
  split
  · split <;> exact ⟨rfl, rfl, rfl⟩
  · exact ⟨rfl, rfl, rfl⟩

/-- Marking the puts of one id that leaves the table ends the stay of exactly those (R139). -/
theorem markLeft_endStay (ids : List Nat) (id : Nat) (h : ids.contains id = true) (h2 : ∀ x ∈ ids, x = id) :
    markLeft ids = endStay id := by
  funext e
  unfold markLeft endStay
  cases ho : e.origin with
  | mirrorPut i b =>
    have : ids.contains i = true ↔ i = id := ⟨fun h3 => h2 _ (by simpa using h3), by rintro rfl; exact h⟩
    simp only [this]
    by_cases h3 : i = id
    · subst h3
      cases b <;> simp
      rw [← ho]
    · simp [h3]
  | _ => simp

/-- Removing a record of the table: the record goes, and its queued puts are of a stay that has ended (R14, R139). -/
theorem remove_eq (s : State) (id : Nat) (h : ∃ x ∈ s.domain.custody, x.record.id = id) :
    s.remove id =
      { s.stayEnded id with
        domain := { s.domain with custody := s.domain.custody.filter (·.record.id ≠ id) } } := by
  rw [State.remove, removeWhere_eq, markLeft_endStay _ id]
  · simp [State.stayEnded]; rfl
  · obtain ⟨x, h1, h2⟩ := h
    simp; exact ⟨x, h1, h2⟩
  · intro x hx
    simp at hx
    obtain ⟨a, ⟨_, b⟩, c⟩ := hx
    omega

theorem markEnded_telegram (p : Nat → Bool) (e : TxEntry) :
    (markEnded p e).telegram = e.telegram ∧ (markEnded p e).sending = e.sending ∧
      (markEnded p e).spoiled = e.spoiled := by
  unfold markEnded
  split
  · split <;> exact ⟨rfl, rfl, rfl⟩
  · exact ⟨rfl, rfl, rfl⟩

theorem updateHolding_eq (s : State) (id : Nat) (f : Holding → Holding) :
    s.updateHolding id f =
      { s with
        domain := { s.domain with custody := s.domain.custody.map fun h => if h.record.id = id then f h else h } } := by
  simp [State.updateHolding, State.withCustody, updateWhere]

theorem admitHeld_eq (s : State) (h : Holding) :
    s.admitHeld h =
      { s with
        domain :=
          { s.domain with
            custody := s.domain.custody ++ [h], drops := s.domain.drops.filter (· ≠ h.record.id) } } := rfl

theorem unmirrorAll_eq (s : State) :
    s.unmirrorAll =
      { s with
        domain :=
          { s.domain with
            custody := s.domain.custody.map fun h => { h with record := { h.record with unmirrored := true } } } } := rfl

/-- Closing an offer empties its slot and returns its record to HELD (R94). -/
theorem closeOffer_eq (s : State) (id : Nat) :
    closeOffer s id =
      { s with
        offers := s.offers.filter (·.id ≠ id)
        domain :=
          { s.domain with
            custody := s.domain.custody.map fun h =>
              if h.record.id = id ∧ h.state = .offered then { h with state := .held } else h } } := by
  simp [closeOffer, State.withOffers, State.withCustody, updateWhere, Holding.setState]

theorem closeAllOffers_eq (s : State) :
    closeAllOffers s =
      { s with
        offers := []
        domain :=
          { s.domain with
            custody := s.domain.custody.map fun h => if h.state = .offered then { h with state := .held } else h } } := by
  simp [closeAllOffers, State.withOffers, State.withCustody, updateWhere, Holding.setState]

/-! ### The Drop List -/

/-- Placing an id in the Drop List (R144). -/
theorem placeDrop_eq (s : State) (id : Nat) :
    placeDrop s id =
      { s with
        domain :=
          { s.domain with
            drops := dropListWith s.domain.drops id
            discardedDrops :=
              if id ∈ s.domain.drops ∨ s.domain.drops.length < 8 then s.domain.discardedDrops
              else min (s.domain.discardedDrops + 1) 65535 } } := by
  unfold placeDrop dropListWith
  by_cases h : id ∈ s.domain.drops
  · simp [h]
  · by_cases h2 : s.domain.drops.length < 8
    · have : ¬ (8 ≤ s.domain.drops.length) := by omega
      simp [h, h2, Config.dropSlots, this, State.withDrops]
    · have : 8 ≤ s.domain.drops.length := by omega
      simp [h, h2, Config.dropSlots, this, satAdd, Config.max16]

/-- Custody has ended: the drop is listed and offered to the queue, when a buddy is configured. -/
theorem dropAtBuddy_sends (s : State) (id : Nat) :
    Sends (if s.committed.buddy = none then s else placeDrop s id) (dropAtBuddy s id) (s.dropLetters id) := by
  unfold dropAtBuddy State.dropLetters
  cases h : s.committed.buddy with
  | none => simpa using Sends.refl s
  | some b => simpa using queueDrop_sends (placeDrop s id) b id

/-! ### Outcomes -/

/-- What no originator's handling of an outcome touches. -/
def untouched (s t : State) : Prop :=
  t.pending = s.pending ∧ t.running = s.running ∧ t.mode = s.mode ∧ t.address = s.address ∧ t.supplyMv = s.supplyMv ∧
  t.cellFell = s.cellFell ∧ t.staged = s.staged ∧ t.store = s.store ∧ t.storeWrite = s.storeWrite ∧
  t.channels = s.channels ∧ t.inputs = s.inputs ∧ t.nextExpiry = s.nextExpiry ∧ t.lastSummary = s.lastSummary ∧
  t.roster = s.roster ∧ t.bus.rx = s.bus.rx ∧ t.bus.counters = s.bus.counters ∧
  t.bus.beaconHold = s.bus.beaconHold ∧ t.domain.clock = s.domain.clock ∧ t.domain.counting = s.domain.counting ∧
  t.domain.mirror = s.domain.mirror ∧ t.domain.filters = s.domain.filters ∧ t.domain.tracker = s.domain.tracker ∧
  t.domain.restartCount = s.domain.restartCount ∧ t.domain.tripId = s.domain.tripId ∧
  t.domain.custodyLost = s.domain.custodyLost ∧ t.domain.restoreIncomplete = s.domain.restoreIncomplete ∧
  t.resetCause = s.resetCause ∧ t.stopCause = s.stopCause

theorem untouched.refl (s : State) : untouched s s := by simp [untouched]

theorem untouched.trans {s t u : State} (h : untouched s t) (k : untouched t u) : untouched s u := by
  unfold untouched at *
  simp_all

theorem Sends.untouched {s t : State} {xs : List Letter} (h : Sends s t xs) : untouched s t := by
  rw [h.1]
  exact ⟨rfl, rfl, rfl, rfl, rfl, rfl, rfl, rfl, rfl, rfl, rfl, rfl, rfl, rfl, rfl, rfl, rfl, rfl, rfl, rfl, rfl, rfl,
    rfl, rfl, rfl, rfl, rfl, rfl⟩

theorem placeDrop_untouched (s : State) (id : Nat) : Machine.untouched s (placeDrop s id) := by
  rw [placeDrop_eq]; simp [Machine.untouched]

theorem dropAtBuddy_untouched (s : State) (id : Nat) : Machine.untouched s (dropAtBuddy s id) := by
  have h := (dropAtBuddy_sends s id).untouched
  split at h
  · exact h
  · exact (placeDrop_untouched s id).trans h

theorem sessionNext_untouched (s : State) (x : Session) : Machine.untouched s (sessionNext s x) := by
  have key : ∀ (t : TxTelegram) (o : Origin) (f : List Session → List Session), Machine.untouched s
      (if (send s t o).2 = true then (send s t o).1.withSessions (f (send s t o).1.sessions)
       else endSession ((send s t o).1.withSessions (f (send s t o).1.sessions)) x.asker) := by
    intro t o f
    have h := (send_sends s t o).untouched
    split
    · exact h.trans (by simp [Machine.untouched])
    · exact h.trans (by simp [Machine.untouched, endSession])
  unfold sessionNext
  split
  · exact key _ _ _
  · split
    · exact .refl s
    · exact key _ _ _

/-- An outcome reaches its originator: what it can change is the Custody Table, the Drop List, the open offers, the
restore sessions, the phase of REJOINING and the transmit queue, and nothing else (TABLE 7-4). -/
theorem resolve_untouched (s : State) (o : Origin) (oc : SendOutcome) : Machine.untouched s (resolve s o oc) := by
  cases o with
  | plain => exact .refl s
  | hold => exact .refl s
  | offer id =>
    simp only [resolve, offerResolved]
    split
    · exact .refl s
    · split
      · simp [Machine.untouched]
      · refine untouched.trans ?_ (answerMoveFailed_sends _ _ _ _).untouched
        rw [closeOffer_eq]; simp [Machine.untouched]
  | accept id =>
    simp only [resolve, acceptResolved]
    split
    · exact .refl s
    · split
      · split
        · refine untouched.trans ?_ (putToBuddy_sends _ _).untouched
          simp [Machine.untouched, State.updateHolding]
        · simp [Machine.untouched, State.remove, State.removeWhere]
      · exact .refl s
  | certificate id =>
    simp only [resolve, certificateResolved]
    split
    · exact .refl s
    · split
      · split
        · refine untouched.trans ?_ (dropAtBuddy_untouched _ _)
          simp [Machine.untouched, State.remove, State.removeWhere, State.updateHolding]
        · simp [Machine.untouched, State.updateHolding]
      · exact .refl s
  | mirrorPut id staying =>
    simp only [resolve, putResolved]
    split
    · simp [Machine.untouched, State.updateHolding]
    · exact .refl s
  | mirrorDrop id =>
    simp only [resolve, dropResolved]
    split
    · simp [Machine.untouched, State.updateHolding]
    · exact .refl s
  | restoreAsk =>
    simp only [resolve, askResolved]
    split
    · simp [Machine.untouched]
    · exact .refl s
  | session a last current =>
    simp only [resolve, sessionResolved]
    split
    · split
      · exact .refl s
      · split
        · simp [Machine.untouched, endSession]
        · exact sessionNext_untouched s _
    · exact .refl s

theorem flushAll_untouched (s : State) (l : List TxEntry) : Machine.untouched s (flushAll s l) := by
  induction l generalizing s with
  | nil => exact .refl s
  | cons e es ih => exact (resolve_untouched s e.origin .flushed).trans (ih _)

/-! ### Flushes -/

/-- The state a record is in after the telegrams of these originators were flushed. -/
def flushedState (offers : List Offer) (os : List Origin) (h : Holding) : RecordState :=
  if (h.state = .releasing ∧ Origin.certificate h.record.id ∈ os) ∨
     (h.state = .offered ∧ Origin.offer h.record.id ∈ os ∧
       ∃ o ∈ offers, o.id = h.record.id ∧ o.phase = .sending) then .held
  else h.state

/-- The record goes with the flush of its ACCEPT. -/
def flushedAway (os : List Origin) (h : Holding) : Bool :=
  h.state.isArriving && decide (Origin.accept h.record.id ∈ os)

/-- The Custody Table after the telegrams of these originators were flushed. -/
def flushedCustody (offers : List Offer) (os : List Origin) (l : List Holding) : List Holding :=
  (l.filter fun h => !flushedAway os h).map fun h => { h with state := flushedState offers os h }

/-- The offer closes with the flush of its OFFER. -/
def offerFlushed (offers : List Offer) (os : List Origin) (o : Offer) : Bool :=
  decide (Origin.offer o.id ∈ os) && offers.any fun x => x.id == o.id && x.phase == .sending

/-- Open offers after the telegrams of these originators were flushed. -/
def flushedOffers (offers : List Offer) (os : List Origin) : List Offer := offers.filter fun o => !offerFlushed offers os o

theorem flushedCustody_ids (offers : List Offer) (os : List Origin) (l : List Holding) :
    ((flushedCustody offers os l).map (·.record.id)).Sublist (l.map (·.record.id)) := by
  unfold flushedCustody
  rw [List.map_map]
  exact List.filter_sublist.map _

theorem flushedCustody_eq_self (offers : List Offer) (os : List Origin) (l : List Holding)
    (h : ∀ x ∈ l, flushedAway os x = false ∧ flushedState offers os x = x.state) : flushedCustody offers os l = l := by
  unfold flushedCustody
  rw [List.filter_eq_self.2 (by intro a ha; simp [(h a ha).1])]
  conv_rhs => rw [← List.map_id l]
  apply List.map_congr_left
  intro a ha
  rw [(h a ha).2]; rfl

/-- One flushed telegram: its originator changes the custody and the offers, and no send comes of it. -/
theorem resolve_flushed (s : State) (o : Origin) (hc : s.custodyLaw) (hq : s.mode = .hold ∨ s.offers = []) :
    (resolve s o .flushed).domain.custody = flushedCustody s.offers [o] s.domain.custody ∧
    (resolve s o .flushed).offers = flushedOffers s.offers [o] ∧
    (resolve s o .flushed).mode = s.mode ∧
    (s.bus.queue = [] → (resolve s o .flushed).bus.queue = []) := by
  have hoff : ∀ o' : Origin, (∀ id, o' ≠ .offer id) → flushedOffers s.offers [o'] = s.offers := by
    intro o' h
    unfold flushedOffers offerFlushed
    rw [List.filter_eq_self]
    intro a _
    simp [fun id => (h id).symm]
  have hself : ∀ o' : Origin, (∀ id, o' ≠ .offer id) → (∀ id, o' ≠ .certificate id) → (∀ id, o' ≠ .accept id) →
      flushedCustody s.offers [o'] s.domain.custody = s.domain.custody := by
    intro o' h1 h2 h3
    apply flushedCustody_eq_self
    intro x _
    simp [flushedAway, flushedState, fun id => (h1 id).symm, fun id => (h2 id).symm, fun id => (h3 id).symm]
  have hinj : ∀ x ∈ s.domain.custody, ∀ y ∈ s.domain.custody, x.record.id = y.record.id → x = y :=
    fun x hx y hy e => List.inj_on_of_nodup_map hc.2 hx hy e
  cases o with
  | plain => exact ⟨(hself _ (by simp) (by simp) (by simp)).symm, (hoff _ (by simp)).symm, rfl, id⟩
  | hold => exact ⟨(hself _ (by simp) (by simp) (by simp)).symm, (hoff _ (by simp)).symm, rfl, id⟩
  | mirrorPut =>
    rw [hself _ (by simp) (by simp) (by simp), hoff _ (by simp)]
    simp [resolve, putResolved]
  | mirrorDrop =>
    rw [hself _ (by simp) (by simp) (by simp), hoff _ (by simp)]
    simp [resolve, dropResolved]
  | restoreAsk =>
    rw [hself _ (by simp) (by simp) (by simp), hoff _ (by simp)]
    simp only [resolve, askResolved]; split <;> simp
  | session a l c =>
    rw [hself _ (by simp) (by simp) (by simp), hoff _ (by simp)]
    simp only [resolve, sessionResolved]; split
    · split
      · simp
      · simp [endSession]
    · simp
  | accept id =>
    rw [hoff _ (by simp)]
    cases hf : s.find id with
    | none =>
      have : ∀ x ∈ s.domain.custody, x.record.id ≠ id := by simpa [State.find] using hf
      rw [flushedCustody_eq_self _ _ _ (by
        intro x hx; have := this x hx; simp [flushedAway, flushedState]; intro _ h; exact absurd h this)]
      simp [resolve, acceptResolved, hf]
    | some h =>
      have hm : h ∈ s.domain.custody := List.mem_of_find?_eq_some hf
      have hid : h.record.id = id := by simpa using List.find?_some hf
      cases hs : h.state with
      | arriving r x =>
        simp [resolve, acceptResolved, hf, hs, State.remove, removeWhere_eq, flushedCustody]
        have e1 : s.domain.custody.filter (fun h => !flushedAway [.accept id] h) =
            s.domain.custody.filter (fun h => !decide (h.record.id = id)) := by
          apply List.filter_congr
          intro y hy
          by_cases e : y.record.id = id
          · have := hinj y hy h hm (by rw [e, hid]); subst this; simp [flushedAway, hs, hid, RecordState.isArriving]
          · simp [flushedAway, e]
        rw [e1]
        conv_lhs => rw [← List.map_id (List.filter _ _)]
        apply List.map_congr_left
        intro y _
        simp [flushedState]
      | _ =>
        rw [flushedCustody_eq_self _ _ _ (by
          intro x hx; simp [flushedAway, flushedState]; intro h1 h2
          have := hinj x hx h hm (by rw [h2, hid]); subst this; rw [hs] at h1; simp [RecordState.isArriving] at h1)]
        simp [resolve, acceptResolved, hf, hs]
  | certificate id =>
    rw [hoff _ (by simp)]
    cases hf : s.find id with
    | none =>
      have : ∀ x ∈ s.domain.custody, x.record.id ≠ id := by simpa [State.find] using hf
      rw [flushedCustody_eq_self _ _ _ (by
        intro x hx; have := this x hx; simp [flushedAway, flushedState]; intro _ h; exact absurd h this)]
      simp [resolve, certificateResolved, hf]
    | some h =>
      have hm : h ∈ s.domain.custody := List.mem_of_find?_eq_some hf
      have hid : h.record.id = id := by simpa using List.find?_some hf
      by_cases hs : h.state = .releasing
      · simp [resolve, certificateResolved, hf, hs, updateHolding_eq, flushedCustody]
        rw [List.filter_eq_self.2 (by intro a _; simp [flushedAway])]
        apply List.map_congr_left
        intro y hy
        by_cases e : y.record.id = id
        · have := hinj y hy h hm (by rw [e, hid]); subst this; simp [flushedState, hs, hid, Holding.setState]
        · simp [flushedState, e]
      · rw [flushedCustody_eq_self _ _ _ (by
          intro x hx; simp [flushedAway, flushedState]; intro h1 h2
          have := hinj x hx h hm (by rw [h2, hid]); subst this; exact absurd h1 hs)]
        simp [resolve, certificateResolved, hf, hs]
  | offer id =>
    cases hf : s.offers.find? (fun o => o.id == id && o.phase == .sending) with
    | none =>
      have hn : ∀ x ∈ s.offers, x.id = id → x.phase ≠ .sending := by simpa using hf
      rw [flushedCustody_eq_self _ _ _ (by
        intro x hx; simp [flushedAway, flushedState]
        intro _ h o ho h2 h3; exact absurd h3 (hn o ho (by rw [h2, h])))]
      refine ⟨by simp [resolve, offerResolved, hf], ?_, by simp [resolve, offerResolved, hf],
        by simp [resolve, offerResolved, hf]⟩
      simp only [resolve, offerResolved, hf]
      unfold flushedOffers offerFlushed
      rw [eq_comm, List.filter_eq_self]
      intro a ha
      by_cases e : a.id = id
      · have : (s.offers.any fun x => x.id == a.id && x.phase == .sending) = false := by
          simp; intro x hx h; exact hn x hx (by rw [h, e])
        simp [this]
      · simp [e]
    | some o =>
      have hm := List.mem_of_find?_eq_some hf
      have hp : o.id = id ∧ o.phase = .sending := by simpa using List.find?_some hf
      have hh : s.mode = .hold := by
        rcases hq with h | h
        · exact h
        · rw [h] at hm; simp at hm
      have hr : resolve s (.offer id) .flushed = closeOffer s id := by
        simp only [resolve, offerResolved, hf]
        rw [if_neg (by simp)]
        unfold answerMoveFailed sendPlain
        apply send_refused
        rw [send_taken]; simp [closeOffer_eq, hh, Mode.queues]
      rw [hr, closeOffer_eq]
      refine ⟨?_, ?_, rfl, by simp⟩
      · simp [flushedCustody]
        rw [List.filter_eq_self.2 (by intro a _; simp [flushedAway])]
        apply List.map_congr_left
        intro y hy
        by_cases e : y.record.id = id
        · by_cases e2 : y.state = .offered
          · have : ∃ o ∈ s.offers, o.id = id ∧ o.phase = .sending := ⟨o, hm, hp⟩
            simp [flushedState, e, e2, this]
          · simp [flushedState, e2]
        · simp [flushedState, e]
      · simp [flushedOffers, offerFlushed]
        apply List.filter_congr
        intro a ha
        by_cases e : a.id = id
        · have : (s.offers.any fun x => x.id == id && x.phase == .sending) = true := by
            simp; exact ⟨o, hm, hp⟩
          simp [e, this]
        · simp [e]

theorem flushedOffers_any (offers : List Offer) (o : Origin) (id : Nat) (h : o ≠ .offer id) (p : Offer → Bool) :
    ((flushedOffers offers [o]).any fun x => x.id == id && p x) = offers.any fun x => x.id == id && p x := by
  rw [Bool.eq_iff_iff]
  simp only [flushedOffers, offerFlushed, List.any_eq_true, List.mem_filter]
  constructor
  · rintro ⟨x, ⟨hx, -⟩, h2⟩; exact ⟨x, hx, h2⟩
  · rintro ⟨x, hx, h2⟩
    have : x.id = id := by simp at h2; exact h2.1
    refine ⟨x, ⟨hx, ?_⟩, h2⟩
    subst this
    simp [Ne.symm h]

theorem flushedOffers_cons (offers : List Offer) (o : Origin) (os : List Origin) :
    flushedOffers (flushedOffers offers [o]) os = flushedOffers offers (o :: os) := by
  show (offers.filter fun a => !offerFlushed offers [o] a).filter
    (fun a => !offerFlushed (flushedOffers offers [o]) os a) = offers.filter fun a => !offerFlushed offers (o :: os) a
  rw [List.filter_filter]
  apply List.filter_congr
  intro a _
  unfold offerFlushed
  by_cases e : o = .offer a.id
  · subst e
    cases h : (offers.any fun x => x.id == a.id && x.phase == .sending) with
    | true => simp
    | false =>
      have : ((flushedOffers offers [.offer a.id]).any fun x => x.id == a.id && x.phase == .sending) = false := by
        simp only [List.any_eq_false] at h ⊢
        exact fun x hx => h x (List.mem_filter.1 hx).1
      simp [this]
  · rw [flushedOffers_any _ _ _ e]
    simp [Ne.symm e]

theorem flushedState_cons (offers : List Offer) (o : Origin) (os : List Origin) (h : Holding) :
    flushedState (flushedOffers offers [o]) os { h with state := flushedState offers [o] h } =
      flushedState offers (o :: os) h := by
  have key : o ≠ .offer h.record.id →
      ((∃ x ∈ flushedOffers offers [o], x.id = h.record.id ∧ x.phase = .sending) ↔
        ∃ x ∈ offers, x.id = h.record.id ∧ x.phase = .sending) := by
    intro e
    have := flushedOffers_any offers o h.record.id e (·.phase == .sending)
    rw [Bool.eq_iff_iff] at this
    simpa using this
  cases hs : h.state with
  | arriving => simp [flushedState, hs]
  | held => simp [flushedState, hs]
  | releasing =>
    by_cases e : o = .certificate h.record.id
    · subst e; simp [flushedState, hs]
    · simp [flushedState, hs, Ne.symm e]
  | offered =>
    by_cases e : o = .offer h.record.id
    · subst e
      by_cases hx : ∃ x ∈ offers, x.id = h.record.id ∧ x.phase = .sending
      · simp [flushedState, hs, hx]
      · have : ¬ ∃ x ∈ flushedOffers offers [.offer h.record.id], x.id = h.record.id ∧ x.phase = .sending := by
          rintro ⟨x, h1, h2⟩; exact hx ⟨x, (List.mem_filter.1 h1).1, h2⟩
        simp [flushedState, hs, hx, this]
    · simp only [flushedState, hs, List.mem_cons, List.not_mem_nil, or_false, Ne.symm e, false_and, and_false, false_or, key e]
      simp

theorem flushedCustody_cons (offers : List Offer) (o : Origin) (os : List Origin) (l : List Holding) :
    flushedCustody (flushedOffers offers [o]) os (flushedCustody offers [o] l) = flushedCustody offers (o :: os) l := by
  unfold flushedCustody
  rw [List.filter_map, List.map_map, List.filter_filter]
  have : ∀ h : Holding, (flushedState offers [o] h).isArriving = h.state.isArriving := by
    intro h; unfold flushedState; split
    · rename_i h1; rcases h1 with ⟨h1, _⟩ | ⟨h1, _⟩ <;> simp [h1, RecordState.isArriving]
    · rfl
  have e1 : (l.filter fun a =>
        ((fun h => !flushedAway os h) ∘ fun h => ({ h with state := flushedState offers [o] h } : Holding)) a &&
          !flushedAway [o] a)
      = l.filter fun h => !flushedAway (o :: os) h := by
    apply List.filter_congr
    intro a _
    simp only [Function.comp, flushedAway, this, List.mem_cons, List.not_mem_nil, or_false]
    by_cases h1 : Origin.accept a.record.id = o <;> by_cases h2 : Origin.accept a.record.id ∈ os <;>
      cases a.state.isArriving <;> simp [h1, h2]
  rw [e1]
  apply List.map_congr_left
  intro a _
  simp only [Function.comp]
  rw [flushedState_cons]

/-- What flushing a list of telegrams does (R121, R122): custody, offers, mode, and an empty queue stays empty. -/
theorem flushAll_flushed (l : List TxEntry) (s : State) (hc : s.custodyLaw) (hq : s.mode = .hold ∨ s.offers = []) :
    (flushAll s l).domain.custody = flushedCustody s.offers (l.map (·.origin)) s.domain.custody ∧
    (flushAll s l).offers = flushedOffers s.offers (l.map (·.origin)) ∧
    (flushAll s l).mode = s.mode ∧ (s.bus.queue = [] → (flushAll s l).bus.queue = []) := by
  induction l generalizing s with
  | nil =>
    refine ⟨(flushedCustody_eq_self _ _ _ ?_).symm, ?_, rfl, id⟩
    · intro x _; simp [flushedAway, flushedState]
    · simp [flushedOffers, offerFlushed, flushAll]
  | cons e es ih =>
    obtain ⟨h1, h2, h3, h4⟩ := resolve_flushed s e.origin hc hq
    have hc' : (resolve s e.origin .flushed).custodyLaw := by
      unfold State.custodyLaw; rw [h1]
      have := flushedCustody_ids s.offers [e.origin] s.domain.custody
      refine ⟨le_trans (by simpa using this.length_le) hc.1, this.nodup hc.2⟩
    have hq' : (resolve s e.origin .flushed).mode = .hold ∨ (resolve s e.origin .flushed).offers = [] := by
      rw [h3, h2]; rcases hq with h | h
      · exact .inl h
      · exact .inr (by simp [h, flushedOffers])
    obtain ⟨k1, k2, k3, k4⟩ := ih _ hc' hq'
    refine ⟨?_, ?_, k3.trans h3, fun h => k4 (h4 h)⟩
    · show (flushAll (resolve s e.origin .flushed) es).domain.custody = _
      rw [k1, h1, h2, flushedCustody_cons]; rfl
    · show (flushAll (resolve s e.origin .flushed) es).offers = _
      rw [k2, h2, flushedOffers_cons]; rfl

/-- A flush changes no Drop List (R121). -/
theorem resolve_flushed_drops (s : State) (o : Origin) : (resolve s o .flushed).domain.drops = s.domain.drops := by
  have hm : ∀ (id : Nat) (x : Offer) (n m : Nat),
      (answerMoveFailed (closeOffer s id) x n m).domain.drops = s.domain.drops := by
    intro id x n m
    rw [(answerMoveFailed_sends _ _ _ _).fields.2.2.2.1, closeOffer_eq]
  cases o <;>
    simp only [resolve, offerResolved, acceptResolved, certificateResolved, putResolved, dropResolved, askResolved,
      sessionResolved, endSession, updateHolding_eq, State.remove, removeWhere_eq] <;>
    repeat' split
  all_goals first
    | rfl
    | exact hm ..
    | simp_all

theorem flushAll_drops (l : List TxEntry) (s : State) : (flushAll s l).domain.drops = s.domain.drops := by
  induction l generalizing s with
  | nil => rfl
  | cons e es ih => exact (ih _).trans (resolve_flushed_drops s e.origin)

/-! ### The mode becomes ACTIVE -/

/-- The UNHEARD buddy gets its deadline, no other entry changes (R130). -/
theorem buddyDeadline_eq (s : State) :
    buddyDeadline s = s.withRoster (s.roster.map fun e =>
      if s.committed.buddy = some e.address ∧ e.state = .unheard then
        { e with deadline := some (s.domain.clock + 3 * s.committed.epoch) }
      else e) := by
  unfold buddyDeadline
  split
  · rename_i h
    simp [h, State.withRoster]
  · rename_i b h
    simp only [State.updatePeer, State.withRoster, updateWhere, h]
    congr 1
    apply List.map_congr_left
    intro e _
    by_cases h1 : e.address = b
    · simp [h1]
    · simp [h1, Ne.symm h1]

/-- With the supply at or above the warning level nothing else happens (R169). -/
theorem becomeActive_supplied (s : State) (h : Config.warningMv ≤ s.supplyMv) :
    becomeActive s = (s.withMode .active).withRoster (s.roster.map fun e =>
      if s.committed.buddy = some e.address ∧ e.state = .unheard then
        { e with deadline := some (s.domain.clock + 3 * s.committed.epoch) }
      else e) := by
  have : ¬ s.supplyMv < Config.warningMv := by omega
  simp [becomeActive, buddyDeadline_eq, this]
  rfl

/-- The mode becomes ACTIVE with its blocks started (R24, R43, R50, R56). -/
theorem becomeActive_startBlocks (s : State) (h : Config.warningMv ≤ s.supplyMv) (he : 0 < s.committed.epoch) :
    Activates s (becomeActive (startBlocks s)) := by
  rw [becomeActive_supplied (startBlocks s) h]
  refine ⟨rfl, ?_, ?_, ?_, ?_, ?_, rfl⟩
  · exact Dvd.intro_left _ rfl
  · show s.domain.clock < (s.domain.clock / s.committed.epoch + 1) * s.committed.epoch
    have := Nat.lt_div_mul_add (a := s.domain.clock) he
    rw [Nat.add_mul]; omega
  · show (s.domain.clock / s.committed.epoch + 1) * s.committed.epoch ≤ _
    have := Nat.div_mul_le_self s.domain.clock s.committed.epoch
    rw [Nat.add_mul]; omega
  · intro i; exact Four.get_build _ i
  · intro i
    show (Four.build _).get i = _
    rw [Four.get_build]
    show (if (s.committed.doorOf i).isSome = true then _ else _) = _
    split <;> rename_i h2
    · simp [DoorInput.start, h2]; rfl
    · simp [DoorInput.stop, h2]; rfl

/-- Entry to HOLD_PENDING leaves everything but custody states, offers, sessions and the bus (R169). -/
theorem enterHoldPending_mode (s : State) : (enterHoldPending s).mode = .holdPending := by
  unfold enterHoldPending
  rw [(send_sends _ _ _).untouched.2.2.1]
  rfl

/-! ### Sightings -/

/-- A sighting of a door outside the map changes nothing; another changes the tracker and the openings of records, and
nothing else (R64). -/
theorem sight_cases (s : State) (door : Nat) (state : DoorState) (count source : Nat) :
    sight s door state count source = s ∨
    ∃ tracker d, sight s door state count source =
      { s with
        domain := { s.domain with tracker := tracker, custody := s.domain.custody.map (addOpenings d) } } := by
  unfold sight
  split
  · exact .inl rfl
  · exact .inr ⟨_, _, rfl⟩

/-- What a sighting does, whole (R63, R64, R65): tracker and openings, and nothing else. -/
theorem sight_sighting (s : State) (d : DoorReport) (source : Nat) :
    ∃ tracker custody,
      sight s d.door d.state d.count source =
        { s with domain := { s.domain with tracker := tracker, custody := custody } } ∧
      Sighting s.committed.grace s.domain.clock source d (s.domain.tracker, s.domain.custody) (tracker, custody) := by
  cases hf : s.domain.tracker.doors.find? (·.door == d.door) with
  | none =>
    exact ⟨_, _, by simp only [sight, hf], fun _ => rfl, fun e he => by rw [hf] at he; cases he⟩
  | some e =>
    refine ⟨_, _, by simp only [sight, hf]; rfl, fun h => ?_, fun e' he' => ?_⟩
    · have hm := List.mem_of_find?_eq_some hf
      have := List.find?_some hf
      exact absurd (by simpa using this) (h e hm)
    · rw [hf] at he'; cases he'
      refine ⟨(advance e.known d.count source).isNone, (advance e.known d.count source).getD 0,
        phaseAfter s.domain.tracker.phase
          (updateWhere (·.door == d.door) (fun x => { x with known := some ⟨d.state, d.count, source⟩ })
            s.domain.tracker.doors)
          d.state (advance e.known d.count source).isNone s.committed.grace s.domain.clock, ?_, ?_, ?_, ?_, ?_, ?_⟩
      · rintro (h | ⟨k, h, h2⟩) <;> simp [advance, h]; simp [h2]
      · intro k h1 h2
        simp only [advance, h1, h2]
        constructor
        · intro h; simp [h]
        · intro h; simp [show ¬ 32768 ≤ (d.count + 65536 - k.count) % 65536 by omega]
      · intro h; rw [h]
        refine ⟨fun h1 => by simp [phaseAfter, h1], fun h1 h2 => ?_, fun h1 h2 h3 => by
          simp [phaseAfter, h1, h2, h3]⟩
        rcases h2 with h2 | h2
        · simp [phaseAfter, h1, h2]
        · simp [phaseAfter, h1, h2]
      · intro w h; rw [h]; rfl
      · intro h; rw [h]
        have ho : ∀ l : List DoorEntry,
            (l.any DoorEntry.knownOpen = true) ↔ ∃ x ∈ l, ∃ k, x.known = some k ∧ k.state = .opened := by
          intro l; simp [DoorEntry.knownOpen, Option.any_eq_true]
        have hu : (updateWhere (·.door == d.door)
              (fun x => ({ x with known := some ⟨d.state, d.count, source⟩ } : DoorEntry)) s.domain.tracker.doors) =
            s.domain.tracker.doors.map fun x =>
              if x.door = d.door then { x with known := some ⟨d.state, d.count, source⟩ } else x := by
          simp [updateWhere]
        simp only [phaseAfter]
        rw [hu]
        exact ⟨fun h1 => by rw [if_pos ((ho _).2 h1)], fun h1 => by rw [if_neg (mt (ho _).1 h1)]⟩
      · have hc : addOpenings ((advance e.known d.count source).getD 0) = fun h =>
            if h.state = .held then
              { h with
                record :=
                  { h.record with
                    openings := min (h.record.openings + (advance e.known d.count source).getD 0) 65535 } }
            else h := by
          funext h; unfold addOpenings; cases h.state <;> simp [satAdd, Config.max16]
        rw [hc]; simp [updateWhere]

/-- The door entries of one telegram are sightings one after another (R63). -/
theorem sightAll_sightings (s : State) (source : Nat) (ds : List DoorReport) :
    ∃ tracker custody,
      sightAll s source ds = { s with domain := { s.domain with tracker := tracker, custody := custody } } ∧
      Sightings s.committed.grace s.domain.clock source ds (s.domain.tracker, s.domain.custody) (tracker, custody) := by
  induction ds generalizing s with
  | nil => exact ⟨_, _, rfl, rfl⟩
  | cons d ds ih =>
    obtain ⟨t, c, h1, h2⟩ := sight_sighting s d source
    obtain ⟨t', c', k1, k2⟩ := ih (sight s d.door d.state d.count source)
    refine ⟨t', c', ?_, (t, c), h2, ?_⟩
    · show sightAll (sight s d.door d.state d.count source) source ds = _
      rw [k1, h1]
    · rw [h1] at k2; exact k2

/-! ### Records -/

/-- The fields of a record that a charge can change (R74 to R84). -/
theorem charge_fields (r : Record) (temps : Option Temps) (grace : Bool) (secs time : Nat) :
    ∃ warm cold door gap peaks verdict, charge r temps grace secs time =
      { r with warm := warm, cold := cold, door := door, gap := gap, peaks := peaks, verdict := verdict } := by
  cases temps <;> exact ⟨_, _, _, _, _, _, rfl⟩

/-- A verdict is never moved lower (R5). -/
theorem Verdict.le_raise (old new : Verdict) : old.rank ≤ (old.raise new).rank := by
  unfold Verdict.raise; split <;> omega

theorem Verdict.rank_le (v : Verdict) : v.rank ≤ 3 := by cases v <;> simp [Verdict.rank]

/-- A breach stays as first written (R6). -/
theorem Verdict.raise_breached (old new : Verdict) (h : old.rank = 3) : old.raise new = old := by
  unfold Verdict.raise
  have := new.rank_le
  rw [if_neg (by omega)]

theorem closeLast_length (l : List Leg) (t : Nat) : (closeLast l t).length = l.length := by
  induction l with
  | nil => rfl
  | cons x xs ih => cases xs <;> simp_all [closeLast]

/-- A leg added to a record (R9). -/
theorem addLeg_eq (r : Record) (t : Nat) (leg : Leg) :
    addLeg r t leg =
      if 6 ≤ r.legs.length then
        { r with legs := dropSecond (closeLast r.legs t) ++ [leg], elided := min (r.elided + 1) 255 }
      else { r with legs := closeLast r.legs t ++ [leg] } := by
  simp [addLeg, closeLast_length, Config.maxLegs, satAdd, Config.max8]

/-- Stepping a mirror record changes its sequence and its record's accounts, and never its key (R142). -/
theorem stepMirror_key (b : Beacon) (m : MirrorRecord) : (stepMirror b m).key = m.key := by
  have key : ∀ n : Nat, (if b.sequence < n then m
      else
        { m with
          seq := some b.sequence
          record :=
            charge { m.record with gap := satAdd Config.max32 m.record.gap ((b.sequence - n) * b.epoch) } b.temps
              b.grace b.epoch (epochEnd b.sequence b.epoch) }).key = m.key := by
    intro n
    split
    · rfl
    · simp only [MirrorRecord.key]
      obtain ⟨_, _, _, _, _, _, h⟩ := charge_fields
        { m.record with gap := satAdd Config.max32 m.record.gap ((b.sequence - n) * b.epoch) } b.temps b.grace b.epoch
        (epochEnd b.sequence b.epoch)
      rw [h]
  exact key _

/-! ### Layouts (R125) -/

@[simp] theorem beBytes_length (n v : Nat) : (beBytes n v).length = n := by
  induction n with
  | zero => rfl
  | succ n ih => simp [beBytes, ih]

theorem beNat_foldl (bs : List Byte) (a : Nat) :
    bs.foldl (fun a b => a * 256 + b.toNat) a = a * 256 ^ bs.length + beNat bs := by
  unfold beNat
  induction bs generalizing a with
  | nil => simp
  | cons b bs ih =>
    simp only [List.foldl_cons, List.length_cons]
    rw [ih, ih (0 * 256 + b.toNat), Nat.pow_succ]
    ring

/-- A number written in `n` bytes is read back, less what does not fit. -/
theorem beNat_beBytes (n v : Nat) : beNat (beBytes n v) = v % 256 ^ n := by
  induction n with
  | zero => simp [beBytes, beNat, Nat.mod_one]
  | succ n ih =>
    have : beNat (beBytes (n + 1) v) = (v / 256 ^ n % 256) * 256 ^ n + v % 256 ^ n := by
      rw [beNat, beBytes, List.foldl_cons, beNat_foldl, ih]; simp
    rw [this, Nat.pow_succ, Nat.mod_mul]
    ring

/-- The bytes of a field, read where they stand. -/
theorem field_here (n v : Nat) (rest : List Byte) : field (beBytes n v ++ rest) 0 n = v % 256 ^ n := by
  simp [field, beNat_beBytes]

theorem field_only (n v : Nat) : field (beBytes n v) 0 n = v % 256 ^ n := by
  simpa using field_here n v []

/-- A field beyond the first `n` bytes. -/
theorem field_skip (n v : Nat) (rest : List Byte) (off len : Nat) (h : n ≤ off) :
    field (beBytes n v ++ rest) off len = field rest (off - n) len := by
  simp [field, List.drop_append, List.drop_eq_nil_of_le, h]

/-- A field beyond the first part of a payload. -/
theorem field_append (a b : List Byte) (off len : Nat) (h : a.length ≤ off) :
    field (a ++ b) off len = field b (off - a.length) len := by
  simp [field, List.drop_append, List.drop_eq_nil_of_le, h]

/-- A field within the first part of a payload. -/
theorem field_append_left (a b : List Byte) (off len : Nat) (h : off + len ≤ a.length) :
    field (a ++ b) off len = field a off len := by
  unfold field
  rw [List.drop_append_of_le_length (by omega), List.take_append_of_le_length (by simp; omega)]

/-- A temperature in two bytes is read back. -/
theorem tempOf_bytes (t : Int) (h : -32768 ≤ t) (k : t ≤ 32767) : tempOf ((t % 65536).toNat % 65536) = t := by
  have h0 : 0 ≤ t % 65536 := Int.emod_nonneg _ (by decide)
  have h1 : t % 65536 < 65536 := Int.emod_lt_of_pos _ (by decide)
  have h2 : (t % 65536).toNat % 65536 = (t % 65536).toNat := by omega
  have h3 : (((t % 65536).toNat : Nat) : Int) = t % 65536 := Int.toNat_of_nonneg h0
  unfold tempOf
  rw [h2]
  by_cases hc : (t % 65536).toNat < 32768
  · rw [if_pos hc]; exact h3.trans (by omega)
  · rw [if_neg hc]
    have : (((t % 65536).toNat : Nat) : Int) - 65536 = t := by rw [h3]; omega
    exact this

/-! ### Due events -/

/-- Every order of a list holds what the list holds. -/
theorem mem_arrange (k : Nat) (l : List Instr) (c : Instr) : c ∈ arrange k l ↔ c ∈ l := by
  induction l generalizing k with
  | nil => simp [arrange]
  | cons x xs ih =>
    have hlen : ∀ (k : Nat) (l : List Instr), (arrange k l).length = l.length := by
      intro k l
      induction l generalizing k with
      | nil => rfl
      | cons y ys ihy =>
        have : k % (ys.length + 1) ≤ (arrange (k / (ys.length + 1)) ys).length := by
          rw [ihy]; exact Nat.lt_succ_iff.1 (Nat.mod_lt _ (Nat.succ_pos _))
        simp [arrange, List.length_insertIdx_of_le_length this, ihy]
    have : k % (xs.length + 1) ≤ (arrange (k / (xs.length + 1)) xs).length := by
      rw [hlen]; exact Nat.lt_succ_iff.1 (Nat.mod_lt _ (Nat.succ_pos _))
    rw [arrange, List.mem_insertIdx this, ih]
    simp

end Machine
end Sys2Proof
end

