-- ==== Sys2Proof/WellFormed.lean ====
section
/-!
DEFINITION. Which commands can come from outside at all: the ranges the manual gives the operands. The meanings are
total and do not rest on this check.
-/
namespace Sys2Proof

/-- A frame on the line: a sender from 1 to 31 and at most 160 payload bytes (TABLE 7-2, R110). -/
def Frame.wf (f : Frame) : Bool :=
  decide (f.sender ≠ 0) && decide (f.payload.length ≤ Config.maxPayload)

/-- A counter value at whose sample an edge can be seen: after the sample that set the counter to 0, and up to that of
the run-out (R22, R25, R27). -/
def edgeCountWf (count : Nat) : Bool :=
  decide (1 ≤ count) && decide (count ≤ Config.runOutCounts)

/-- The operands of a command lie in the ranges the manual gives them. -/
def Instr.wf : Instr → Bool
  | .configSet => true
  | .tripStart => true
  | .tripEnd => true
  | .load => true
  | .move => true
  | .release => true
  | .queryStation => true
  | .queryRecord => true
  | .list => true
  | .discardMirror => true
  | .beacon => true
  | .door => true
  | .hold => true
  | .offer => true
  | .accept => true
  | .decline => true
  | .mirrorPut => true
  | .mirrorDrop => true
  | .restoreAsk => true
  | .restoreBegin => true
  | .restoreRecord => true
  | .restoreEnd => true
  | .acknowledgeSlot f => f.wf
  | .busIdle => true
  | .arbitrationLoss => true
  | .lineError => true
  | .telegramAbandoned => true
  | .telegramOutcome _ => true
  | .offerOutcome _ => true
  | .acceptOutcome _ => true
  | .certificateReplyOutcome _ => true
  | .mirrorPutOutcome _ => true
  | .mirrorDropOutcome _ => true
  | .holdOutcome _ => true
  | .restoreAskOutcome _ => true
  | .restoreSessionOutcome _ => true
  | .epochExpiry => true
  | .windowExpiry => true
  | .answerTimeout id => decide (1 ≤ id) && decide (id < 2 ^ 48)
  | .silenceDeadline a => decide (1 ≤ a) && decide (a ≤ 15)
  | .askingTimeout => true
  | .restoreDeadline => true
  | .listeningTimeout => true
  | .holdPendingTimeout => true
  | .risingEdge _ n => edgeCountWf n
  | .fallingEdge _ n => edgeCountWf n
  | .runOutInArming _ _ => true
  | .runOutInMeasuring _ => true
  | .doorLineLevelChange _ _ => true
  | .initialAcceptance _ => true
  | .acceptedChange _ => true
  | .tripStartWriteEnd _ => true
  | .tripEndWriteEnd _ => true
  | .rejoinEndWriteEnd _ => true
  | .supplyBelowWarning _ => true
  | .supplyAboveRelease _ => true
  | .coreStop _ _ => true
  | .start _ _ _ _ => true
  | .sampledLengthAbove160 n => decide (Config.maxPayload < n) && decide (n ≤ Config.max8)
  | .backupCellBelowRetention => true

end Sys2Proof
end

