-- ==== Sys2Proof/Tests/Slice0.lean ====
section
/-!
SUPPORT. Small tests, each of one command on a small state or of one operation, with expected values from the tables
of the manual; and one witness theorem for each statement that has hypotheses.
-/
namespace Sys2Proof.Tests
open Sys2Proof Sys2Proof.Machine

/-! ### Small states -/

/-- A test of the next state an outcome answers. -/
def after (o : Host.Outcome State Fault Refusal) (p : State → Bool) : Bool :=
  match o with
  | .next t => p t
  | _ => false

/-- The "dairy" class of TABLE 1-7. -/
def dairy : Limits := ⟨50, 18000, some 80, some ⟨-10, 6000⟩, none, 600⟩

/-- The "produce" class of 5.12.2. -/
def produce : Limits := ⟨120, 50000, none, some ⟨35, 400⟩, some 25, 300⟩

/-- Compartment 3, doors 4 and 9, door 4 wired to input 1, G = 120, class 0 enabled, no buddy. -/
def setupA : Setup :=
  { Setup.default with
    compartment := some 3, doorMap := [4, 9], localDoors := ⟨some 4, none, none, none⟩, grace := 120
    classes := ⟨true, dairy⟩ :: List.replicate 7 ClassSetup.unset }

/-- The same with buddy 6. -/
def setupB : Setup := { setupA with buddy := some 6 }

/-- Address 5 ACTIVE in trip 77 with a given setup and clock, the line busy with another station. -/
def activeWith (u : Setup) (clock : Nat) : State :=
  { State.reset with
    running := true, cellFell := false, supplyMv := 12000, address := 5, mode := .active, staged := u
    store := ⟨u, some 77, .running, true⟩
    domain := { Domain.cleared [4, 9] with clock := clock, counting := true, tripId := some 77 }
    nextExpiry := (clock / 60 + 1) * 60
    bus := { Bus.restarted with line := .busy } }

def active (clock : Nat) : State := activeWith setupA clock
def backed (clock : Nat) : State := activeWith setupB clock

/-- Address 5 in IDLE with the staged setup of `setupA`. -/
def idle : State :=
  { State.reset with
    running := true, cellFell := false, supplyMv := 12000, address := 5, mode := .idle, staged := setupA
    bus := { Bus.restarted with line := .busy } }

/-- REJOINING in a given phase at clock 7. -/
def rejoining (p : RejoinPhase) : State := { backed 7 with mode := .rejoining, rejoin := p }

/-- A dairy record as loaded at 130. -/
def record (id : Nat) : Record :=
  ⟨id, 0, 130, dairy, 0, 0, 0, 0, none, .intact, 0, [⟨3, 5, 130, none, false⟩], 0, false, false, true⟩

/-- A place of the table, accounted to 130. -/
def place (id : Nat) (st : RecordState) : Holding := ⟨record id, 130, st⟩

/-- A telegram to address 5. -/
def rx (k : Kind) (sender : Nat) (p : List Byte) : RxTelegram := ⟨2, sender, 5, k, p⟩

/-- A state with one telegram in the receive buffer. -/
def got (s : State) (m : RxTelegram) : State := s.withRx [m]

/-- The payload of the newest queued telegram. -/
def newest (t : State) : List Byte := (t.bus.queue.getLast?.map (·.telegram.payload)).getD []

/-- A queued telegram in transmission. -/
def sendingEntry (k : Kind) (o : Origin) : TxEntry := ⟨⟨9, k, []⟩, o, true, false⟩

/-- A state whose one queued telegram is in transmission. -/
def sendingIn (s : State) (k : Kind) (o : Origin) : State := s.withQueue [sendingEntry k o]

/-- Fill the transmit queue with waiting REPLYs. -/
def full (s : State) : State := s.withQueue (List.replicate 8 ⟨⟨18, .reply, []⟩, .plain, false, false⟩)

/-- An open offer of record 7 to address 9 in compartment 6, for console 18. -/
def offer7 (p : OfferPhase) : Offer := ⟨7, 9, 18, 6, p⟩

/-- A state that offers record 7. -/
def offering (s : State) (p : OfferPhase) : State := (s.withCustody [place 7 .offered]).withOffers [offer7 p]

/-! ### WellFormed: each check refuses an ill-formed term -/

theorem test_wf_frame_sender_zero : Instr.wf (.acknowledgeSlot ⟨0, 0, 5, 4, [], 0⟩) = false := by decide

theorem test_wf_frame_too_long :
    Instr.wf (.acknowledgeSlot ⟨0, 9, 5, 4, List.replicate 161 0, 0⟩) = false := by decide +kernel

theorem test_wf_frame_at_bounds :
    Instr.wf (.acknowledgeSlot ⟨0, 1, 5, 4, List.replicate 160 0, 0⟩) = true := by decide +kernel

theorem test_wf_answer_timeout :
    (Instr.answerTimeout 0).wf = false ∧ (Instr.answerTimeout 281474976710656).wf = false ∧
      (Instr.answerTimeout 281474976710655).wf = true := by decide

theorem test_wf_silence_deadline :
    (Instr.silenceDeadline 0).wf = false ∧ (Instr.silenceDeadline 16).wf = false ∧
      (Instr.silenceDeadline 15).wf = true := by decide

theorem test_wf_edges :
    (Instr.risingEdge 0 0).wf = false ∧ (Instr.risingEdge 0 65537).wf = false ∧ (Instr.fallingEdge 3 0).wf = false ∧
      (Instr.fallingEdge 3 65537).wf = false ∧ (Instr.fallingEdge 3 65536).wf = true := by decide

theorem test_wf_sampled_length :
    (Instr.sampledLengthAbove160 160).wf = false ∧ (Instr.sampledLengthAbove160 256).wf = false ∧
      (Instr.sampledLengthAbove160 161).wf = true := by decide

/-- No row of the table has bits. -/
theorem test_no_word_spells_a_command : decodeTableWord 8 1 = none ∧ State.reset.withFetchWord 8 1 = State.reset := by
  decide

/-! ### Readings and filters -/

/-- TABLE 2-6, cases a to k. -/
theorem test_worked_readings :
    [classify 40000 18934, classify 26214 11900, classify 950 400, classify 30000 1200, classify 30000 28800,
      classify 30000 2400, classify 30000 27600, classify 30000 3000, classify 30000 27000, classify 3000 1001,
      classify 30000 1500] =
    [.valid 60, .valid 31, .faultPeriod, .faultLowDuty, .faultHighDuty, .clampedLow, .clampedHigh, .valid (-500),
      .valid 700, .valid (-149), .clampedLow] := by decide

/-- TABLE 3-3. -/
theorem test_filter_steps :
    [filterStep 4 52 60, filterStep 4 54 60, filterStep 4 55 58, filterStep 4 56 56, filterStep 4 56 50,
      filterStep 1 40 39, filterStep 8 (-33) 0, filterStep 1 (-500) 700, filterStep 16 12 31] =
    [54, 55, 56, 56, 55, 39, -17, -425, 31] := by decide

/-- The check of the nine characters "123456789" under this polynomial and seed, as the catalogues of check codes give
it (taken from outside the manual). -/
theorem test_check_code :
    crc16 ((beBytes 9 0x313233343536373839).flatMap fun b => bitsOf 8 b.toNat) = 0x29B1#16 := by decide +kernel

/-! ### Accounts -/

/-- Record A of 5.12.1 before the step at 7,260. -/
def recordA : Record :=
  { record 1 with warm := 17800, door := 1200, gap := 120, peaks := some ⟨53, 29⟩, verdict := .excursion }

/-- TABLE 5-5, flag clear and flag set. -/
theorem test_one_step :
    charge recordA (some ⟨54, 31⟩) false 60 7260 =
      { recordA with warm := 18040, peaks := some ⟨54, 29⟩, verdict := .breached .warmBudget 7260 } ∧
    charge recordA (some ⟨54, 31⟩) true 60 7260 = { recordA with door := 1440, peaks := some ⟨54, 29⟩ } := by decide

/-- The steps of TABLE 5-6 applied to a record, sixty seconds each. -/
def sixEpochs (r : Record) (first : Nat) : Record :=
  let r1 := charge r (some ⟨54, 31⟩) false first 7260
  let r2 := charge r1 (some ⟨55, 32⟩) false 60 7320
  let r3 := charge r2 (some ⟨33, 33⟩) true 60 7380
  let r4 := charge r3 (some ⟨56, 33⟩) true 60 7440
  let r5 := charge r4 (some ⟨56, 34⟩) false 60 7500
  charge r5 none false 60 7560

/-- TABLE 5-7, the last row. -/
theorem test_record_a_after_six_epochs :
    sixEpochs recordA 60 =
      { recordA with
        warm := 18700, door := 1560, gap := 180, peaks := some ⟨56, 29⟩, verdict := .breached .warmBudget 7260 } := by
  decide

/-- TABLE 5-8, the last row. -/
theorem test_record_b_after_six_epochs :
    sixEpochs { record 2 with limits := produce, gap := 250 } 30 =
      { record 2 with
        limits := produce, cold := 600, gap := 310, peaks := some ⟨56, 31⟩, verdict := .breached .coldBudget 7380 } := by
  decide

/-- R75's example: of 1,500 seconds 290 go to the gap; TABLE 5-10: an account saturates. -/
theorem test_long_and_saturating_steps :
    (charge (record 3) (some ⟨51, 40⟩) false 1500 9000).gap = 290 ∧
    (charge { record 4 with warm := 4294967000 } (some ⟨650, 40⟩) false 1200 5400).warm = 4294967295 := by decide

/-- TABLE 1-9: a seventh leg. -/
theorem test_seventh_leg :
    (addLeg
      { record 5 with
        legs :=
          [⟨3, 5, 130, some 900, false⟩, ⟨5, 7, 902, some 1840, false⟩, ⟨7, 11, 1841, some 2700, false⟩,
           ⟨5, 7, 2705, some 3610, false⟩, ⟨2, 4, 3611, some 4480, false⟩, ⟨4, 6, 4483, none, false⟩] }
      5400 ⟨6, 9, 5400, none, false⟩) =
      { record 5 with
        elided := 1
        legs :=
          [⟨3, 5, 130, some 900, false⟩, ⟨7, 11, 1841, some 2700, false⟩, ⟨5, 7, 2705, some 3610, false⟩,
           ⟨2, 4, 3611, some 4480, false⟩, ⟨4, 6, 4483, some 5400, false⟩, ⟨6, 9, 5400, none, false⟩] } := by decide

/-- TABLE 9-3: a mirror record after two BEACONs missed, and a second copy passed over. -/
theorem test_mirror_record_stepped :
    let n : MirrorRecord := ⟨4, some 118, { record 6 with warm := 300, gap := 100, verdict := .excursion }⟩
    let b : Beacon :=
      ⟨77, 7320, 2, 60, 121, some ⟨53, 30⟩, false, Four.all true, 3, 0, 1, 1, 0, []⟩
    let n1 := stepMirror b n
    (n1.seq, n1.record.warm, n1.record.gap, n1.record.verdict) = (some 121, 480, 220, .excursion) ∧
      stepMirror b n1 = n1 ∧
      (stepMirror { b with sequence := 122, temps := some ⟨49, 31⟩ } n1).record.gap = 220 := by decide

/-! ### Requests of consoles -/

def loadPayload (id cls : Nat) : List Byte := beBytes 6 id ++ beBytes 1 cls

/-- TABLE 1-7, first row. -/
theorem test_load_appends :
    after (exec .load (got (active 130) (rx .load 18 (loadPayload 0x4A100001 0))))
      (fun t => t.domain.custody == [⟨record 0x4A100001, 130, .held⟩]) = true := by decide

/-- TABLE 1-7: above budget at 410, UNPROVEN at 415. -/
theorem test_load_carried_in :
    after (exec .load (got (active 410) (rx .load 18
      (loadPayload 0x4A100002 0 ++ beBytes 4 18600 ++ beBytes 4 0 ++ beBytes 4 300 ++ beBytes 4 240))))
      (fun t => t.domain.custody.map (·.record.verdict) == [.breached .warmBudget 410]) = true ∧
    after (exec .load (got (active 415) (rx .load 18
      (loadPayload 0x4A100003 0 ++ beBytes 4 2500 ++ beBytes 4 0 ++ beBytes 4 0 ++ beBytes 4 700))))
      (fun t => t.domain.custody.map (·.record.verdict) == [.unproven]) = true := by decide

/-- TABLE 1-7: DUPLICATE (6) and UNKNOWN_CLASS (8). -/
theorem test_load_refused :
    after (exec .load (got ((active 470).withCustody [place 1 .held]) (rx .load 18 (loadPayload 1 0))))
      (fun t => newest t == [4, 6, 0, 0, 0, 0, 0, 0, 0, 1]) = true ∧
    after (exec .load (got (active 480) (rx .load 18 (loadPayload 4 5))))
      (fun t => newest t == [4, 8, 0, 0, 0, 0, 0, 0, 0, 4]) = true := by decide

/-- A CONFIG-SET of an epoch of 601 is stored as 600. -/
theorem test_config_set_clamps :
    after (exec .configSet (got idle (rx .configSet 18 [2, 2, 89])))
      (fun t => t.staged.epoch == 600 && newest t == [1, 0, 0, 0, 2, 2, 88]) = true := by decide

/-- A door map with a repeat keeps the first of each. -/
theorem test_config_set_door_map :
    after (exec .configSet (got idle (rx .configSet 18 [6, 3, 9, 4, 9])))
      (fun t => t.staged.doorMap == [9, 4]) = true := by decide

/-- A class item of −600 is staged as −500, its absent fields as 0 (R165). -/
theorem test_config_set_class :
    after (exec .configSet (got idle (rx .configSet 18
        ([9, 2, 0xF1] ++ tempBytes (-600) ++ beBytes 4 7 ++ beBytes 2 9 ++ beBytes 2 9 ++ beBytes 4 9 ++ beBytes 2 9 ++
          beBytes 4 8))))
      (fun t => t.staged.classes[2]? == some ⟨true, ⟨-500, 7, none, none, none, 8⟩⟩ &&
        newest t == [1, 0, 0, 0, 9, 2, 1] ++ tempBytes (-500) ++ beBytes 4 7 ++ beBytes 10 0 ++ beBytes 4 8) = true := by
  decide +kernel

theorem test_trip_start_begins_write :
    after (exec .tripStart (got idle (rx .tripStart 18 [0, 0, 0, 77])))
      (fun t => t.mode == .starting && t.storeWrite.any fun w => w.tripId == some 77) = true := by decide

theorem test_trip_start_without_compartment :
    after (exec .tripStart (got { idle with staged := Setup.default } (rx .tripStart 18 [0, 0, 0, 77])))
      (fun t => newest t == [2, 13, 0, 0, 0, 0, 0, 77, 1]) = true := by decide

theorem test_trip_end :
    after (exec .tripEnd (got (active 500) (rx .tripEnd 18 []))) (fun t => t.mode == .ending) = true ∧
    after (exec .tripEnd (got ((active 500).withCustody [place 7 .held]) (rx .tripEnd 18 [])))
      (fun t => newest t == [3, 15, 0, 0]) = true := by decide

/-- The roster with address 9 LIVE in compartment 6. -/
def rosterWith9 : List RosterEntry :=
  clearedRoster.map fun e =>
    if e.address = 9 then ⟨9, .live, some ⟨6, 60, 1, 1, 100⟩, some 280⟩ else e

/-- 5.12.3: a MOVE at 7,275 of a record accounted to 7,260 carries u = 15. -/
theorem test_move_opens_offer :
    after (exec .move (got (((active 7275).withCustody [⟨record 7, 7260, .held⟩]).withRoster rosterWith9)
      (rx .move 18 [0, 0, 0, 0, 0, 7, 6])))
      (fun t => t.offers == [offer7 .sending] && (newest t).take 5 == [6, 0, 0, 0, 15] &&
        t.domain.custody.map (·.state) == [.offered]) = true := by decide

theorem test_move_target_absent :
    after (exec .move (got ((active 7275).withCustody [place 7 .held]) (rx .move 18 [0, 0, 0, 0, 0, 7, 6])))
      (fun t => newest t == [5, 9, 0, 0, 0, 0, 0, 0, 0, 7]) = true := by decide

theorem test_release :
    after (exec .release (got ((active 4790).withCustody [place 7 .held]) (rx .release 18 [0, 0, 0, 0, 0, 7])))
      (fun t => t.domain.custody.map (·.state) == [.releasing] && (newest t).length == 143) = true := by decide +kernel

theorem test_query_station :
    after (exec .queryStation (got (active 7275) (rx .queryStation 18 [])))
      (fun t => t.bus.queue.map (·.telegram.payload.length) == [112, 159]) = true := by decide +kernel

theorem test_query_record_of_offered :
    after (exec .queryRecord (got (offering (active 7275) .sending) (rx .queryRecord 18 [0, 0, 0, 0, 0, 7])))
      (fun t => (newest t).getLast? == some 3) = true := by decide

/-- A LIST from position 1 of two records. -/
theorem test_list :
    after (exec .list (got ((active 500).withCustody [place 7 .held, place 8 .releasing]) (rx .list 18 [1])))
      (fun t => newest t == [9, 0, 0, 0, 1, 2, 1, 0, 0, 0, 0, 0, 8, 4, 0]) = true := by decide

def mirror46 : List MirrorRecord := [⟨4, some 1, record 6⟩, ⟨6, none, record 6⟩, ⟨4, some 1, record 8⟩]

theorem test_discard_mirror_of_owner :
    after (exec .discardMirror (got ((active 500).withMirror mirror46) (rx .discardMirror 18 [4, 0, 0, 0, 0, 0, 0])))
      (fun t => t.domain.mirror == [⟨6, none, record 6⟩] && newest t == [10, 0, 0, 0, 4, 0, 0, 0, 0, 0, 0, 2]) = true := by
  decide

/-! ### Telegrams of peers -/

def beacon4 (doors : List DoorReport) : Beacon :=
  ⟨77, 500, 2, 60, 7, some ⟨53, 30⟩, false, Four.all true, 3, 1, 3, 1, 0, doors⟩

theorem test_beacon_makes_live :
    after (exec .beacon (got (active 500) (rx .beacon 4 (beaconBytes (beacon4 [])))))
      (fun t => (t.peer? 4).any fun e => e.state == .live && e.deadline == some 680) = true := by decide

/-- R133: the first BEACON of a cold-started buddy makes every record due for a put. -/
theorem test_beacon_of_cold_buddy :
    after (exec .beacon (got ((backed 500).withCustody [⟨{ record 7 with unmirrored := false }, 130, .held⟩])
      (rx .beacon 6 (beaconBytes (beacon4 [])))))
      (fun t => t.domain.custody.map (·.record.unmirrored) == [true]) = true := by decide

/-- Both doors known closed as before TABLE 4-4, record 7 with 5 openings. -/
def doorsClosed (clock : Nat) : State :=
  ((active clock).withTracker ⟨.closed, [⟨4, some ⟨.closed, 12, 5⟩⟩, ⟨9, some ⟨.closed, 3, 11⟩⟩]⟩).withCustody
    [⟨{ record 7 with openings := 5 }, 130, .held⟩]

/-- TABLE 4-4 at 7,345: DOOR (9, OPEN, 4) from 11 starts a window and adds an opening. -/
theorem test_door_starts_window :
    after (exec .door (got (doorsClosed 7345) (rx .door 11 [9, 1, 0, 4])))
      (fun t => t.domain.tracker.phase == .grace 7345 && t.domain.custody.map (·.record.openings) == [6]) = true := by
  decide

/-- 4.7: after the source's restart DOOR (9, CLOSED, 0) is a first sighting. -/
theorem test_door_count_gone_back :
    after (exec .door (got ((doorsClosed 7900).withTracker
        ⟨.closed, [⟨4, some ⟨.closed, 12, 5⟩⟩, ⟨9, some ⟨.closed, 6, 11⟩⟩]⟩) (rx .door 11 [9, 0, 0, 0])))
      (fun t => t.domain.tracker.phase == .closed && t.domain.custody.map (·.record.openings) == [5]) = true := by
  decide

theorem test_hold :
    after (exec .hold (got (active 500) (rx .hold 9 [0, 0, 0, 77])))
      (fun t => (t.peer? 9).any fun e => e.state == .holding) = true := by decide

/-- An OFFER for compartment `k`, with u = 15. -/
def offerPayload (k : Nat) (r : Record) : List Byte := beBytes 1 k ++ beBytes 4 15 ++ recordBytes r

/-- 5.12.3: taken at 7,273 with u = 15, accounted-to becomes 7,258. -/
theorem test_offer_admitted :
    after (exec .offer (got (active 7273) (rx .offer 4 (offerPayload 3 (record 7)))))
      (fun t => t.domain.custody == [⟨record 7, 7258, .arriving 7273 4⟩] && newest t == [0, 0, 0, 0, 0, 7]) = true := by
  decide +kernel

theorem test_offer_declined :
    after (exec .offer (got (active 7273) (rx .offer 4 (offerPayload 6 (record 7)))))
      (fun t => t.domain.custody.isEmpty && newest t == [0, 0, 0, 0, 0, 7, 2]) = true := by decide +kernel

theorem test_accept_completes :
    after (exec .accept (got (offering (backed 7275) .answered) (rx .accept 9 [0, 0, 0, 0, 0, 7])))
      (fun t => t.domain.custody.isEmpty && t.offers.isEmpty && t.domain.drops == [7] &&
        newest t == [5, 1, 0, 0, 0, 0, 0, 0, 0, 7, 9, 6]) = true := by decide

theorem test_decline_returns :
    after (exec .decline (got (offering (active 7275) .answered) (rx .decline 9 [0, 0, 0, 0, 0, 7, 4])))
      (fun t => t.domain.custody.map (·.state) == [.held] && newest t == [5, 12, 3, 4, 0, 0, 0, 0, 0, 7]) = true := by
  decide

theorem test_mirror_put_replaces_in_place :
    after (exec .mirrorPut (got ((active 500).withMirror mirror46)
      (rx .mirrorPut 4 (beBytes 4 9 ++ recordBytes { record 6 with warm := 9 }))))
      (fun t => t.domain.mirror.map (fun m => (m.owner, m.seq, m.record.warm)) ==
        [(4, some 9, 9), (6, none, 0), (4, some 1, 0)]) = true := by decide +kernel

theorem test_mirror_drop :
    after (exec .mirrorDrop (got ((active 500).withMirror mirror46) (rx .mirrorDrop 4 [0, 0, 0, 0, 0, 6])))
      (fun t => t.domain.mirror.map MirrorRecord.key == [(6, 6), (4, 8)]) = true := by decide

theorem test_restore_ask :
    after (exec .restoreAsk (got ((active 500).withMirror mirror46) (rx .restoreAsk 4 [0, 0, 0, 77])))
      (fun t => t.sessions == [⟨4, [6, 8], 0, 0⟩] && newest t == [0, 0, 0, 77, 0, 0, 1, 244, 2]) = true := by decide

theorem test_restore_begin :
    after (exec .restoreBegin (got (rejoining .asking) (rx .restoreBegin 6 [0, 0, 0, 77, 0, 0, 28, 108, 2])))
      (fun t => t.domain.clock == 7276 && t.rejoin == .receiving 7306 2) = true := by decide

/-- R152 with q = 119, E = 60 at 7,276: the gap grows by 7,276 − 7,200. -/
theorem test_restore_record :
    after (exec .restoreRecord (got { backed 7276 with mode := .rejoining, rejoin := .receiving 7306 2 }
      (rx .restoreRecord 6 (beBytes 4 119 ++ recordBytes (record 7)))))
      (fun t => t.domain.custody.map (fun h => (h.accountedTo, h.record.gap, h.record.legs)) ==
        [(7276, 76, [⟨3, 5, 130, some 7200, false⟩, ⟨3, 5, 7276, none, true⟩])]) = true := by decide +kernel

/-- R152 beyond 32 bits: an epoch end later than the clock adds nothing to the gap. -/
theorem test_restore_record_of_late_epoch :
    after (exec .restoreRecord (got { backed 7276 with mode := .rejoining, rejoin := .receiving 7306 2 }
      (rx .restoreRecord 6 (beBytes 4 4294967294 ++ recordBytes { record 7 with gap := 5 }))))
      (fun t => t.domain.custody.map (fun h => (h.accountedTo, h.record.gap)) == [(7276, 5)]) = true := by decide +kernel

theorem test_restore_end :
    after (exec .restoreEnd (got (rejoining (.receiving 37 2)) (rx .restoreEnd 6 [1])))
      (fun t => t.mode == .active && t.domain.restoreIncomplete && t.nextExpiry == 60) = true := by decide

/-! ### The bus -/

/-- A LOAD from console 18 to address 5. -/
def loadFrame : Frame := ⟨2, 18, 5, 4, loadPayload 7 0, crc16 (fieldBits 2 18 5 4 (loadPayload 7 0))⟩

theorem test_acknowledge_slot_takes :
    after (exec (.acknowledgeSlot loadFrame) (active 500))
      (fun t => t.bus.rx == [rx .load 18 (loadPayload 7 0)]) = true ∧ (active 500).acknowledges loadFrame = true := by
  decide +kernel

/-- One bit of the check wrong: the telegram is not taken. -/
theorem test_acknowledge_slot_wrong_check :
    after (exec (.acknowledgeSlot { loadFrame with check := loadFrame.check ^^^ 1 }) (active 500))
      (fun t => t.bus.rx.isEmpty) = true := by decide +kernel

/-- TABLE 7-12, address 4: of a BEACON and a REPLY the REPLY goes first. -/
theorem test_bus_idle_begins_most_urgent :
    after (exec .busIdle ((active 500).withQueue
        [⟨⟨0, .beacon, []⟩, .plain, false, false⟩, ⟨⟨18, .reply, []⟩, .plain, false, false⟩]))
      (fun t => t.bus.queue.map (·.sending) == [false, true]) = true := by decide

theorem test_arbitration_loss_counted :
    after (exec .arbitrationLoss (sendingIn (active 500) .reply .plain))
      (fun t => t.bus.counters.arbitrationLosses == 1 && t.bus.queue.map (·.sending) == [false]) = true := by decide

theorem test_line_error_ends_telegram :
    after (exec .lineError (sendingIn (active 500) .reply .plain))
      (fun t => t.bus.counters.lineErrors == 1 && t.bus.queue.isEmpty) = true := by decide

theorem test_telegram_abandoned_is_an_idle_bus :
    after (exec .telegramAbandoned (active 500)) (fun t => t.bus.line == .idle) = true := by decide

theorem test_long_telegram_ignored :
    after (exec (.sampledLengthAbove160 161) (active 500)) (fun t => t.bus.line == .ignoring) = true := by decide

theorem test_telegram_outcome :
    after (exec (.telegramOutcome false) (sendingIn (active 500) .door .plain))
      (fun t => t.bus.counters == ⟨1, 1, 0, 0, 0, 0⟩ && t.bus.queue.isEmpty) = true := by decide

/-- 5.12.3: the OFFER acknowledged at 7,314 runs its timer to 7,324. -/
theorem test_offer_outcome :
    after (exec (.offerOutcome true) (sendingIn (offering (active 7314) .sending) .offer (.offer 7)))
      (fun t => t.offers.map (·.phase) == [.awaiting 7324]) = true := by decide

theorem test_accept_outcome_acked :
    after (exec (.acceptOutcome true)
      (sendingIn ((active 7274).withCustody [⟨record 7, 7258, .arriving 7273 4⟩]) .accept (.accept 7)))
      (fun t => t.domain.custody.map (fun h => (h.state, h.accountedTo, h.record.legs)) ==
        [(.held, 7258, [⟨3, 5, 130, some 7273, false⟩, ⟨3, 5, 7274, none, false⟩])]) = true := by decide

/-- TABLE 7-13, idle bus 2: not acknowledged, the ARRIVING copy goes. -/
theorem test_accept_outcome_not_acked :
    after (exec (.acceptOutcome false)
      (sendingIn ((active 7274).withCustody [⟨record 7, 7258, .arriving 7273 4⟩]) .accept (.accept 7)))
      (fun t => t.domain.custody.isEmpty) = true := by decide

/-- TABLE 5-10 at 4,812: not acknowledged, the record is HELD again. -/
theorem test_certificate_outcome :
    after (exec (.certificateReplyOutcome false)
      (sendingIn ((active 4812).withCustody [place 7 .releasing]) .reply (.certificate 7)))
      (fun t => t.domain.custody == [place 7 .held]) = true ∧
    after (exec (.certificateReplyOutcome true)
      (sendingIn ((active 4812).withCustody [place 7 .releasing]) .reply (.certificate 7)))
      (fun t => t.domain.custody.isEmpty) = true := by decide

theorem test_mirror_put_outcome :
    after (exec (.mirrorPutOutcome true)
      (sendingIn ((backed 500).withCustody [place 7 .held]) .mirrorPut (.mirrorPut 7 true)))
      (fun t => t.domain.custody.map (·.record.unmirrored) == [false]) = true := by decide

theorem test_mirror_drop_outcome :
    after (exec (.mirrorDropOutcome true)
      (sendingIn ((backed 500).withDrops [6, 7]) .mirrorDrop (.mirrorDrop 7)))
      (fun t => t.domain.drops == [6]) = true := by decide

theorem test_hold_outcome :
    after (exec (.holdOutcome false) { sendingIn (active 500) .hold .hold with mode := .holdPending, supplyMv := 7900 })
      (fun t => t.mode == .hold) = true := by decide

theorem test_restore_ask_outcome :
    after (exec (.restoreAskOutcome false) (sendingIn (rejoining .asking) .restoreAsk .restoreAsk))
      (fun t => t.rejoin == .listening) = true := by decide

/-- RESTORE-END after the last record carries the count sent. -/
theorem test_restore_session_outcome :
    after (exec (.restoreSessionOutcome true)
      (sendingIn ((active 500).withSessions [⟨4, [6], 1, 1⟩]) .restoreRecord (.session 4 false true)))
      (fun t => t.bus.queue.map (·.telegram) == [⟨4, .restoreEnd, [1]⟩]) = true := by decide

/-! ### Timed events -/

/-- An expiry at 7,260 steps a record accounted to 7,200 by a summary without temperatures. -/
theorem test_epoch_expiry :
    after (exec .epochExpiry { (active 7260).withCustody [⟨record 7, 7200, .held⟩] with nextExpiry := 7260 })
      (fun t => t.domain.custody.map (fun h => (h.accountedTo, h.record.gap)) == [(7260, 60)] &&
        t.lastSummary.any (fun m => m.sequence == 120) && t.nextExpiry == 7320) = true := by decide

/-- TABLE 4-4 at 7,465: the window ends with door 9 known open. -/
theorem test_window_expiry :
    after (exec .windowExpiry ((active 7465).withTracker
        ⟨.grace 7345, [⟨4, some ⟨.closed, 13, 5⟩⟩, ⟨9, some ⟨.opened, 4, 11⟩⟩]⟩))
      (fun t => t.domain.tracker.phase == .overdue) = true := by decide

/-- TABLE 5-9 at 7,324. -/
theorem test_answer_timeout :
    after (exec (.answerTimeout 7) (offering (active 7324) (.awaiting 7324)))
      (fun t => t.domain.custody.map (·.state) == [.held] && newest t == [5, 12, 2, 0, 0, 0, 0, 0, 0, 7]) = true ∧
    after (exec (.answerTimeout 7) (offering (active 7323) (.awaiting 7324)))
      (fun t => t.domain.custody.map (·.state) == [.offered]) = true := by decide

theorem test_silence_deadline :
    after (exec (.silenceDeadline 9) ((active 280).withRoster rosterWith9))
      (fun t => (t.peer? 9).any fun e => e.state == .silent && e.deadline.isNone) = true := by decide

theorem test_rejoining_deadlines :
    after (exec .askingTimeout { rejoining .asking with domain := { (backed 10).domain with counting := true } })
      (fun t => t.rejoin == .listening) = true ∧
    after (exec .restoreDeadline (rejoining (.receiving 7 2)))
      (fun t => t.mode == .active && t.domain.restoreIncomplete) = true ∧
    after (exec .listeningTimeout { rejoining .listening with domain := (backed 130).domain })
      (fun t => t.rejoin == .ending && t.storeWrite.any fun w => w.tripState == .ended) = true := by decide

theorem test_hold_pending_timeout :
    after (exec .holdPendingTimeout { active 500 with mode := .holdPending, supplyMv := 8601 })
      (fun t => t.mode == .active) = true := by decide

/-- With no command waiting a second passes, and the expiry at 7,260 waits. -/
theorem test_idle_step :
    after (step { active 7259 with nextExpiry := 7260 })
      (fun t => t.domain.clock == 7260 && t.pending == [.epochExpiry]) = true := by decide

/-! ### Probes and doors -/

/-- TABLE 2-6, case a: a channel in MEASURING with its falling-edge mark at 18,934. -/
theorem test_rising_edge_completes :
    after (exec (.risingEdge 0 40000)
      { active 500 with channels := (active 500).channels.set 0 ⟨.measuring, 18934, some 18934, some .low, none, none⟩ })
      (fun t => (t.channels.get 0).reading == some ⟨.valid 60, 500, true⟩ &&
        (t.channels.get 0).last == some ⟨40000, 18934⟩) = true := by decide

theorem test_falling_edge_marks :
    after (exec (.fallingEdge 1 900)
      { active 500 with channels := (active 500).channels.set 1 ⟨.measuring, 0, none, some .high, none, none⟩ })
      (fun t => (t.channels.get 1).high == some 900) = true := by decide

theorem test_run_outs :
    after (exec (.runOutInArming 2 .low) { active 500 with channels := Four.all Channel.started })
      (fun t => (t.channels.get 2).reading == some ⟨.faultStuck .low, 500, true⟩) = true ∧
    after (exec (.runOutInMeasuring 2)
      { active 500 with channels := Four.all ⟨.measuring, 900, some 900, some .low, none, none⟩ })
      (fun t => (t.channels.get 2).state == .arming && (t.channels.get 2).high == none) = true := by decide

/-- A line that falls at the sample of count 65,536 in MEASURING runs out LOW (R27), and its next rising edge arms. -/
theorem test_edge_at_run_out :
    after (exec (.fallingEdge 2 65536)
      { active 500 with channels := Four.all ⟨.measuring, 0, none, some .high, none, none⟩ })
      (fun t => after (exec (.runOutInMeasuring 2) t)
        (fun u => (u.channels.get 2).reading == some ⟨.faultPeriod, 500, true⟩ && after (exec (.risingEdge 2 1) u)
          (fun v => (v.channels.get 2).state == .measuring))) = true := by decide

/-- Own input 1 accepted CLOSED with a count of 12, its line just HIGH. -/
def inputOpening : State :=
  { doorsClosed 7402 with inputs := (active 500).inputs.set 0 ⟨.high, true, some .closed, 12, true⟩ }

/-- TABLE 4-4 at 7,402: accepted OPEN, count 13, an opening for the records, and a DOOR notice. -/
theorem test_accepted_change :
    after (exec (.acceptedChange 0) inputOpening)
      (fun t => (t.inputs.get 0).count == 13 && t.domain.custody.map (·.record.openings) == [6] &&
        newest t == [4, 1, 0, 13]) = true := by decide

theorem test_initial_acceptance :
    after (exec (.initialAcceptance 0)
      { doorsClosed 500 with inputs := (active 500).inputs.set 0 ⟨.high, true, none, 0, true⟩ })
      (fun t => (t.inputs.get 0).accepted == some .opened && (t.inputs.get 0).count == 0) = true := by decide

theorem test_door_line_returns :
    after (exec (.doorLineLevelChange 0 .low) inputOpening)
      (fun t => (t.inputs.get 0).settling == false && (t.inputs.get 0).line == .low) = true := by decide

/-! ### Writes, supply and starts -/

/-- STARTING, with the write of trip 78 under way. -/
def startingTrip : State :=
  { active 500 with
    mode := .starting, storeWrite := some ⟨setupB, some 78, .running, .tripStart 18 0⟩ }

theorem test_trip_start_write_end :
    after (exec (.tripStartWriteEnd true) startingTrip)
      (fun t => t.mode == .active && t.domain.clock == 0 && t.nextExpiry == 60 && t.store.tripId == some 78) = true ∧
    after (exec (.tripStartWriteEnd false) startingTrip)
      (fun t => t.mode == .idle && t.store.tripId == some 77 && newest t == [2, 14, 0, 0, 0, 0, 0, 78]) = true := by
  decide

theorem test_trip_end_write_end :
    after (exec (.tripEndWriteEnd true)
      { active 500 with mode := .ending, storeWrite := some ⟨setupA, some 77, .ended, .tripEnd 18⟩ })
      (fun t => t.mode == .idle && t.domain.counting == false && t.store.tripState == .ended) = true := by decide

theorem test_rejoin_end_write_end :
    after (exec (.rejoinEndWriteEnd false)
      { rejoining .ending with storeWrite := some ⟨setupB, some 77, .ended, .rejoinEnd⟩ })
      (fun t => t.mode == .idle && t.store.tripState == .running) = true := by decide

theorem test_supply_warning :
    after (exec (.supplyBelowWarning 7999) (offering (active 500) .sending))
      (fun t => t.mode == .holdPending && t.offers.isEmpty && t.domain.custody == [place 7 .held] &&
        newest t == [0, 0, 0, 77]) = true ∧
    after (exec (.supplyBelowWarning 8000) (active 500)) (fun t => t.mode == .active) = true := by decide

theorem test_supply_release :
    after (exec (.supplyAboveRelease 8601) { active 500 with mode := .hold }) (fun t => t.mode == .active) = true ∧
    after (exec (.supplyAboveRelease 8600) { active 500 with mode := .hold }) (fun t => t.mode == .hold) = true := by
  decide

/-- The table of TABLE 1-10, at the clock of the start. -/
def stoppedAt1000 : State :=
  { (active 1000).withCustody
      [⟨record 1, 840, .held⟩, ⟨{ record 2 with gap := 240 }, 780, .offered⟩,
       ⟨{ record 3 with gap := 700 }, 840, .releasing⟩, ⟨record 5, 835, .arriving 844 9⟩] with
    running := false, stopCause := .supply }

/-- TABLE 1-11. -/
theorem test_warm_start :
    after (exec (.start 5 true true 12000) stoppedAt1000)
      (fun t => t.domain.custody.map (fun h => (h.record.id, h.state, h.accountedTo, h.record.gap)) ==
        [(1, .held, 1000, 160), (2, .held, 1000, 460), (3, .held, 1000, 860)] && t.nextExpiry == 1020) = true := by
  decide

theorem test_cold_start :
    after (exec (.start 5 true true 12000) { stoppedAt1000 with cellFell := true })
      (fun t => t.mode == .rejoining && t.domain.custody.isEmpty && t.domain.clock == 0 &&
        t.resetCause == .supplyCold) = true := by decide

theorem test_core_stop :
    after (exec (.coreStop .supply false) (active 845))
      (fun t => t.running == false && t.domain == (active 845).domain) = true := by decide

theorem test_backup_cell :
    after (exec .backupCellBelowRetention stoppedAt1000) (fun t => t.domain == Domain.cleared [4, 9]) = true := by decide

/-! ### Witnesses: a state and operands that meet a statement's hypotheses, clause by clause -/

theorem witness_StepTakesFrontCommand :
    ∃ (c : Instr) (rest : List Instr) (s : State), s.pending = c :: rest :=
  ⟨.busIdle, [.epochExpiry], { active 500 with pending := [.busIdle, .epochExpiry] }, by decide⟩

/-- The clock's last second but one, its last, and a clock that does not count. -/
theorem witness_IdleStepIsOneSecond :
    ((active 4294967294).pending = [] ∧ (active 4294967294).domain.counting = true ∧
      (active 4294967294).running = true ∧ (active 4294967294).domain.clock < 4294967295) ∧
    ((active 4294967295).pending = [] ∧ ¬ (active 4294967295).domain.clock < 4294967295) ∧
    (idle.pending = [] ∧ idle.domain.counting = false) := by decide

/-- A state in the midst of a trip: records in every state, an open offer, mirror records, a drop, a queue, a window. -/
def midTrip : State :=
  { (((((backed 500).withCustody
      [⟨recordA, 480, .held⟩, place 7 .offered, place 8 .releasing, ⟨record 9, 470, .arriving 490 4⟩]).withOffers
      [offer7 (.awaiting 505)]).withMirror mirror46).withDrops [3]).withTracker
      ⟨.grace 500, [⟨4, none⟩, ⟨9, some ⟨.opened, 4, 11⟩⟩]⟩ with
    pending := [.busIdle]
    sessions := [⟨4, [6, 8], 0, 0⟩, ⟨6, [6], 1, 1⟩]
    channels := Four.all ⟨.measuring, 900, some 900, some .low, some ⟨40000, 18934⟩, some ⟨.valid 60, 400, true⟩⟩
    bus := { (sendingIn (backed 500) .accept (.accept 9)).bus with rx := [rx .list 18 [0]] } }

theorem witness_midTrip_steps : ∃ t, step midTrip = .next t := ⟨_, rfl⟩

theorem witness_StepKeepsCustodyLaw : midTrip.custodyLaw ∧ ∃ t, step midTrip = .next t := ⟨by decide, _, rfl⟩

theorem witness_StepKeepsMirrorAndDropLaws :
    midTrip.mirrorLaw ∧ midTrip.dropLaw ∧ ∃ t, step midTrip = .next t :=
  ⟨by unfold State.mirrorLaw; decide, by unfold State.dropLaw; decide, _, rfl⟩

theorem witness_StepKeepsBusLaws :
    midTrip.busLaw ∧ midTrip.silentLaw ∧ (∃ t, step midTrip = .next t) ∧
      { active 500 with mode := .hold }.silentLaw ∧ (∃ t, step { active 500 with mode := .hold } = .next t) ∧
      midTrip.sessionLaw ∧ midTrip.rosterLaw ∧ midTrip.counterLaw :=
  ⟨by unfold State.busLaw; decide, by unfold State.silentLaw; decide, ⟨_, rfl⟩, by unfold State.silentLaw; decide,
    ⟨_, rfl⟩, by unfold State.sessionLaw; decide, by unfold State.rosterLaw; decide,
    by unfold State.counterLaw Counters.inRange; decide⟩

theorem witness_StepKeepsRecordLaw : midTrip.recordLaw ∧ ∃ t, step midTrip = .next t :=
  ⟨by unfold State.recordLaw legsLaw accountsLaw; decide, _, rfl⟩

theorem midTrip_setupLaw : midTrip.setupLaw := by unfold State.setupLaw Setup.inRange; decide

theorem witness_StepKeepsSetupAndTemperatures :
    midTrip.setupLaw ∧ midTrip.tempLaw ∧ ∃ t, step midTrip = .next t :=
  ⟨midTrip_setupLaw, ⟨midTrip_setupLaw, by unfold readingInRange; decide⟩, _, rfl⟩

theorem witness_StepKeepsCaptureLaw : midTrip.captureLaw ∧ ∃ t, step midTrip = .next t :=
  ⟨by unfold State.captureLaw channelLaw measurementLaw; decide, _, rfl⟩

theorem witness_StepKeepsWindowLaw : midTrip.windowLaw ∧ ∃ t, step midTrip = .next t :=
  ⟨⟨by unfold Tracker.closedLaw; decide, fun w h => by cases h; decide, by decide⟩, _, rfl⟩

theorem witness_StepKeepsTimerLaw :
    midTrip.timerLaw ∧ (∃ t, step midTrip = .next t) ∧
      { active 540 with nextExpiry := 540, pending := [.epochExpiry] }.timerLaw ∧
      ∃ t, step { active 540 with nextExpiry := 540, pending := [.epochExpiry] } = .next t :=
  ⟨⟨midTrip_setupLaw, by decide⟩, ⟨_, rfl⟩, ⟨by unfold State.setupLaw Setup.inRange; decide, by decide⟩, _, rfl⟩

theorem witness_StepKeepsOperationLaw : midTrip.operationLaw ∧ ∃ t, step midTrip = .next t :=
  ⟨⟨by decide, by unfold State.offerLaw; decide, by unfold State.clockLaw; decide,
    fun _ => ⟨by decide, fun _ => .inl (by decide)⟩, by decide, fun w h => by cases h⟩, _, rfl⟩

/-- A record that stays in the table through a step. -/
theorem witness_StepKeepsRecordHistory :
    midTrip.custodyLaw ∧ midTrip.recordLaw ∧
      ∃ t, step midTrip = .next t ∧ ∃ a ∈ midTrip.domain.custody, ∃ b ∈ t.domain.custody, a.record.id = b.record.id :=
  ⟨by decide, by unfold State.recordLaw legsLaw accountsLaw; decide, _, rfl, ⟨recordA, 480, .held⟩, by decide,
    ⟨recordA, 480, .held⟩, by decide, rfl⟩

/-- Each way the clock runs back: a completed TRIP-START, an adopted clock, a lost domain. -/
theorem witness_ClockRunsBackOnlyWhereWritten :
    (∃ t, exec (.tripStartWriteEnd true) startingTrip = .next t ∧ t.domain.clock < startingTrip.domain.clock) ∧
    (let s := got (rejoining .asking) (rx .restoreBegin 6 [0, 0, 0, 77, 0, 0, 0, 6, 2])
     ∃ t, exec .restoreBegin s = .next t ∧ t.domain.clock < s.domain.clock) ∧
    (∃ t, exec .backupCellBelowRetention stoppedAt1000 = .next t ∧ t.domain.clock < stoppedAt1000.domain.clock) :=
  ⟨⟨_, rfl, by decide⟩, ⟨_, rfl, by decide⟩, ⟨_, rfl, by decide⟩⟩

/-- Every field of the layout at its largest value. -/
theorem witness_RecordSurvivesItsLayout :
    recordFits
      ⟨281474976710655, 7, 4294967295,
        ⟨32767, 4294967295, some (-32768), some ⟨-32768, 4294967295⟩, some 32767, 4294967295⟩, 4294967295, 4294967295,
        4294967295, 4294967295, some ⟨32767, -32768⟩, .breached .coldBudget 4294967295, 65535,
        List.replicate 6 ⟨255, 255, 4294967295, some 4294967295, true⟩, 255, true, true, true⟩ :=
  ⟨by decide, by decide, by decide, by decide, by decide, by decide, by decide, by decide, by decide, by decide,
    by decide, by decide, by decide, by decide, fun c x h => by cases h; decide, by decide, by decide, by decide,
    by decide⟩

/-- The four doors, the bounds of temperatures and of the epoch. -/
theorem witness_BeaconSurvivesItsLayout :
    let b : Beacon :=
      ⟨4294967295, 4294967295, 15, 600, 4294967295, some ⟨700, -500⟩, true, Four.all true, 255, 255, 255, 255, 255,
        List.replicate 4 ⟨255, .opened, 65535⟩⟩
    b.tripId ≤ 4294967295 ∧ b.clock ≤ 4294967295 ∧ 1 ≤ b.compartment ∧ b.compartment ≤ 15 ∧ 10 ≤ b.epoch ∧
    b.epoch ≤ 600 ∧ b.sequence ≤ 4294967295 ∧
    (∀ t ∈ b.temps, -500 ≤ t.cold ∧ t.cold ≤ t.warm ∧ t.warm ≤ 700) ∧ b.mode ≤ 255 ∧ b.restartCount ≤ 255 ∧
    b.resetCause ≤ 255 ∧ b.custodyCount ≤ 255 ∧ b.alerts ≤ 255 ∧ b.doors.length ≤ 4 ∧
    (∀ d ∈ b.doors, d.door ≤ 255 ∧ d.count ≤ 65535) := by decide

/-- Each test of TABLE 2-5 at its edge: low and high duty faults, the exact duties, the clamps, the exact tenths. -/
theorem witness_MeasurementsClassified :
    (1000 ≤ 1000 ∧ 1 ≤ 49 ∧ 49 < 1000 ∧ 20 * 49 < 1000) ∧ (951 < 1000 ∧ 19 * 1000 < 20 * 951) ∧
    (20 * 50 = 1000) ∧ (20 * 950 = 19 * 1000) ∧ 999 < 1000 ∧ (1000 ≤ 20 * 50 ∧ 10 * 50 < 1000) ∧
    (20 * 950 ≤ 19 * 1000 ∧ 9 * 1000 < 10 * 950) ∧ (1000 ≤ 10 * 100 ∧ 10 * 100 ≤ 9 * 1000 ∧ 10 * 100 = 1000) ∧
    (1000 ≤ 10 * 900 ∧ 10 * 900 ≤ 9 * 1000 ∧ 10 * 900 = 9 * 1000) := by decide

/-- k at 1 and 16, deltas of 0, 1 and −1, and products at 15, 16, −15 and −16 sixteenths. -/
theorem witness_FilterStepNeverPassesReading :
    (1 ≤ 1 ∧ 1 ≤ 16 ∧ 16 ≤ 16) ∧ ((52 : Int) = 52) ∧ ((1 : Int) - 0 = 1 ∧ (0 : Int) - 1 = -1) ∧
    ((16 : Int) ≤ (16 - 0) * 1) ∧ (((0 : Int) - 16) * 1 ≤ -16) ∧ (0 < ((15 : Int) - 0) * 1 ∧ ((15 : Int) - 0) * 1 < 16) ∧
    (-16 < ((0 : Int) - 15) * 1 ∧ ((0 : Int) - 15) * 1 < 0) ∧ (-500 ≤ (-500 : Int) ∧ (700 : Int) ≤ 700) := by decide

/-- An expiry at the first multiple of E: one probe with a fresh reading, one with a stale one, one without, one
disabled. -/
def atExpiry : State :=
  { (active 60).withCustody [⟨record 7, 30, .held⟩, ⟨record 8, 60, .held⟩, place 9 .offered] with
    nextExpiry := 60
    store := ⟨{ setupA with probes := ⟨⟨true, true, 16⟩, ⟨true, true, 4⟩, ⟨true, true, 4⟩, ⟨false, true, 16⟩⟩ }, some 77,
      .running, true⟩
    channels :=
      ⟨{ Channel.started with reading := some ⟨.valid 60, 50, true⟩ },
       { Channel.started with reading := some ⟨.valid 60, 50, false⟩ }, Channel.started, Channel.stopped⟩ }

theorem witness_ExpiryFormsSummary :
    atExpiry.running = true ∧ atExpiry.mode.runsEpochs = true ∧ atExpiry.domain.clock = atExpiry.nextExpiry ∧
    0 < atExpiry.domain.clock ∧ (atExpiry.committed.probes.get 3).enabled = false ∧
    ((atExpiry.committed.probes.get 0).enabled = true ∧
      (atExpiry.channels.get 0).reading = some ⟨.valid 60, 50, true⟩ ∧
      (Status.valid 60).value? = some 60) ∧
    ((atExpiry.committed.probes.get 1).enabled = true ∧
      ∀ r ∈ (atExpiry.channels.get 1).reading, r.fresh = false ∨ r.status.value? = none) := by decide

theorem witness_ExpiryStepsHeldRecords :
    (atExpiry.running = true ∧ atExpiry.mode.runsEpochs = true ∧ atExpiry.domain.clock = atExpiry.nextExpiry ∧
      0 < atExpiry.domain.clock) ∧
    ({ atExpiry with mode := .hold }.mode.runsEpochs = true ∧ { atExpiry with mode := .hold }.mode ≠ .active) := by
  decide

/-- Charges that meet each condition in turn: without and with temperatures, with and without a cold limit and peaks, a
BREACHED verdict, each cause alone first, UNPROVEN, and neither. -/
theorem witness_ChargeFollowsTheStages :
    1 ≤ 1 ∧ recordA.peaks = some ⟨53, 29⟩ ∧ (record 1).peaks = none ∧ dairy.cold = some ⟨-10, 6000⟩ ∧
    { dairy with cold := none }.cold = none ∧ (Verdict.breached .warmBudget 7260).rank = 3 ∧ recordA.verdict.rank < 3 ∧
    (dairy.ceiling = some 80 ∧ (80 : Int) < 81) ∧ (produce.floor = some 25 ∧ (24 : Int) < 25 ∧ produce.ceiling = none) ∧
    dairy.warmBudget < (charge recordA (some ⟨54, 31⟩) false 60 7260).warm ∧
    (let c := charge { record 2 with limits := produce } (some ⟨35, 28⟩) false 60 7260
     produce.cold = some ⟨35, 400⟩ ∧ 400 < c.cold ∧ ¬ produce.warmBudget < c.warm) ∧
    dairy.gapAllowance < (charge { record 1 with gap := 600 } none false 1 7260).gap ∧
    ¬ dairy.gapAllowance < (charge { record 1 with gap := 599 } none false 1 7260).gap := by decide

theorem witness_ExpiryOffersTelegramsInOrder :
    atExpiry.running = true ∧ atExpiry.mode = .active ∧ atExpiry.domain.clock = atExpiry.nextExpiry ∧
    0 < atExpiry.domain.clock ∧ atExpiry.custodyLaw ∧ (∀ e ∈ atExpiry.bus.queue, e.telegram.kind ≠ .beacon) ∧
    (∀ sending : Bool, ∀ held ∈ [none, some (⟨0, .beacon, [2]⟩ : TxTelegram)],
      let e : TxEntry := ⟨⟨0, .beacon, [1]⟩, .plain, sending, false⟩
      let s := (atExpiry.withQueue [e]).withBeaconHold held
      s.running = true ∧ s.mode = .active ∧ s.domain.clock = s.nextExpiry ∧ s.custodyLaw ∧
        s.bus.queue = [] ++ e :: [] ∧ e.telegram.kind = .beacon ∧ e.sending = sending ∧ s.bus.beaconHold = held) := by
  decide

/-- R52, R120: an expiry puts its BEACON in the place of a waiting one and counts that one as replaced. -/
theorem test_expiry_replaces_waiting_beacon :
    after (exec .epochExpiry (atExpiry.withQueue [⟨⟨0, .beacon, [1]⟩, .plain, false, false⟩]))
      (fun t => t.bus.queue.map (·.telegram.payload.length) == [26] && t.bus.counters.replacedBeacons == 1) = true := by
  decide +kernel

/-- A CONFIG-SET waits in IDLE, or in another mode. -/
def configured (s : State) (p : List Byte) : State := got s (rx .configSet 18 p)

/-- Every item at an end of its range; then a code that is no item, a wrong length, another mode, and each selector out
of its range. -/
theorem witness_SetupItemStagedOrRefused :
    (∀ p ∈ ([[1, 0], [2, 0, 9], [3, 8], [4, 1, 3, 0], [4, BitVec.ofNat 8 ((3 : Fin 4).val + 1), 3, 17], [5, 1, 255],
        [6, 0], [6, 8, 0, 1, 2, 3, 4, 5, 6, 16], [7, 7, 9], [8, 0], 9 :: classBytes 7 ⟨true, dairy⟩,
        9 :: classBytes 0 ⟨true, { dairy with tmax := -600 }⟩, [10], [1], [4, 0, 3, 1], [5, 5, 0],
        [6, 9, 0, 0, 0, 0, 0, 0, 0, 0, 0], 9 :: classBytes 8 ⟨true, dairy⟩] : List (List Byte)),
      (configured idle p).front .configSet (rx .configSet 18 p) [] ∧ (configured idle p).mode = .idle) ∧
    limitsInRange dairy = true ∧ ([0, 1, 2, 3, 4, 5, 6, 16] : List Byte).length ≤ 8 ∧
    ((configured (active 500) [1, 3]).front .configSet (rx .configSet 18 [1, 3]) [] ∧ (configured (active 500) [1, 3]).mode ≠ .idle) ∧
    field [4, 0, 3, 1] 1 1 < 1 ∧ 4 < field [5, 5, 0] 1 1 ∧ 8 < field [6, 9, 0, 0, 0, 0, 0, 0, 0, 0, 0] 1 1 ∧
    (let p : List Byte := 9 :: classBytes 0 ⟨true, { dairy with tmax := -600 }⟩
     field p 0 1 = 9 ∧ p.length = 23 ∧ field p 1 1 ≤ 7 ∧ tempField p 3 = -600) ∧
    7 < field (9 :: classBytes 8 ⟨true, dairy⟩) 1 1 ∧ (9 :: classBytes 8 ⟨true, dairy⟩).length = 23 := by
  decide +kernel

/-- A TRIP-START for a trip id waits in a state. -/
def tripStarting (s : State) (p : List Byte) : State := got s (rx .tripStart 18 p)

theorem witness_TripStartTestedAndTaken :
    (let s := tripStarting idle [0, 0, 0, 78]
     s.front .tripStart (rx .tripStart 18 [0, 0, 0, 78]) [] ∧ s.mode = .idle ∧ field [0, 0, 0, 78] 0 4 ≠ 0 ∧
      s.staged.compartment ≠ none ∧
      (∃ i, (s.staged.probes.get i).enabled = true ∧ (s.staged.probes.get i).counted = true) ∧
      s.staged.buddy ≠ some s.address) ∧
    (tripStarting idle [0, 0, 78]).front .tripStart (rx .tripStart 18 [0, 0, 78]) [] ∧
    (field [0, 0, 0, 0] 0 4 = 0 ∧ (tripStarting idle [0, 0, 0, 0]).front .tripStart (rx .tripStart 18 [0, 0, 0, 0]) []) ∧
    (tripStarting startingTrip [0, 0, 0, 78]).mode = .starting ∧
    ((tripStarting (active 500) [0, 0, 0, 77]).mode = .active ∧
      (tripStarting (active 500) [0, 0, 0, 77]).store.tripId = some (field [0, 0, 0, 77] 0 4)) ∧
    (tripStarting (active 500) [0, 0, 0, 78]).store.tripId ≠ some (field [0, 0, 0, 78] 0 4) ∧
    (tripStarting { idle with staged := Setup.default } [0, 0, 0, 78]).staged.compartment = none ∧
    (∀ i, ¬ (({ setupA with probes := Four.all ⟨true, false, 16⟩ }.probes.get i).enabled = true ∧
      ({ setupA with probes := Four.all ⟨true, false, 16⟩ }.probes.get i).counted = true)) ∧
    { setupA with buddy := some 5 }.buddy = some idle.address := by decide

theorem witness_TripEndBeginsWriteOrRefused :
    (let s := got (active 500) (rx .tripEnd 18 [])
     s.front .tripEnd (rx .tripEnd 18 []) [] ∧ s.mode = .active ∧ s.domain.custody = [] ∧ s.domain.mirror = []) ∧
    (got (active 500) (rx .tripEnd 18 [0])).front .tripEnd (rx .tripEnd 18 [0]) [] ∧
    (got startingTrip (rx .tripEnd 18 [])).mode = .starting ∧ (got idle (rx .tripEnd 18 [])).mode = .idle ∧
    (got ((active 500).withMirror mirror46) (rx .tripEnd 18 [])).domain.mirror ≠ [] := by decide

/-- A table of 47 records, the fullest that a LOAD or an OFFER finds room in. -/
def nearlyFull : List Holding := (List.range 47).map fun i => place (i + 100) .held

theorem witness_LoadAdmitsRecord :
    (let p := loadPayload 7 0
     let s := got ((active 500).withCustody nearlyFull) (rx .load 18 p)
     s.front .load (rx .load 18 p) [] ∧ s.mode = .active ∧ p.length = 7 ∧ field p 0 6 ≠ 0 ∧
      s.committed.classes[field p 6 1]? = some ⟨true, dairy⟩ ∧
      (∀ h ∈ s.domain.custody, h.record.id ≠ field p 0 6) ∧ s.domain.custody.length < 48) ∧
    (loadPayload 7 0 ++ beBytes 16 0).length = 23 := by decide +kernel

/-- A MOVE of record 7 to compartment 6 waits at address 5, with address 9 LIVE there. -/
def moving (s : State) : State := got (s.withRoster rosterWith9) (rx .move 18 [0, 0, 0, 0, 0, 7, 6])

theorem witness_MoveOpensOffer :
    (let s := moving ((active 500).withCustody [place 7 .held])
     let h := place 7 .held
     s.front .move (rx .move 18 [0, 0, 0, 0, 0, 7, 6]) [] ∧ s.mode = .active ∧ s.custodyLaw ∧ h ∈ s.domain.custody ∧
      h.record.id = field [0, 0, 0, 0, 0, 7, 6] 0 6 ∧ h.state = .held ∧ h.record.id ≠ 0 ∧
      1 ≤ field [0, 0, 0, 0, 0, 7, 6] 6 1 ∧ field [0, 0, 0, 0, 0, 7, 6] 6 1 ≤ 15 ∧
      s.committed.compartment ≠ some (field [0, 0, 0, 0, 0, 7, 6] 6 1) ∧ s.offers.length < 2 ∧
      (∀ o ∈ s.offers, o.id ≠ h.record.id) ∧
      s.roster.filter (fun e => e.state == .live && e.report.any (·.compartment == 6)) =
        [⟨9, .live, some ⟨6, 60, 1, 1, 100⟩, some 280⟩] ∧ s.bus.queue.length < 8) ∧
    8 ≤ (moving (full ((active 500).withCustody [place 7 .held]))).bus.queue.length := by decide +kernel

/-- The tests of TABLE 1-6, TABLE 6-2 and TABLE 10-2 as the statements list them. -/
def loadTests (s : State) (p : List Byte) : List (Bool × Result) :=
  [(p.length != 7 && p.length != 23, .badRequest), (s.mode == .starting, .busy), (s.mode != .active, .notActive),
   (field p 0 6 == 0, .badRequest), (!(s.committed.classes[field p 6 1]?.any (·.enabled)), .unknownClass),
   (s.domain.custody.any (·.record.id == field p 0 6), .duplicate),
   (decide (48 ≤ s.domain.custody.length), .tableFull)]

def moveTests (s : State) (p : List Byte) : List (Bool × Result) :=
  let k := field p 6 1
  let live := s.roster.filter fun e => e.state == .live && e.report.any (·.compartment == k)
  [(p.length != 7, .badRequest), (s.mode == .starting, .busy), (s.mode != .active, .notActive),
   (field p 0 6 == 0 || k == 0 || decide (15 < k), .badRequest), ((s.find (field p 0 6)).isNone, .unknownId),
   ((s.find (field p 0 6)).any (·.state != .held), .busy), (s.committed.compartment == some k, .sameCompartment),
   (decide (2 ≤ s.offers.length), .busy), (decide (live.length = 0), .targetAbsent),
   (decide (2 ≤ live.length), .targetAmbiguous)]

def releaseTests (s : State) (p : List Byte) : List (Bool × Result) :=
  [(p.length != 6, .badRequest), (s.mode == .starting, .busy), (s.mode != .active, .notActive),
   (field p 0 6 == 0, .badRequest), ((s.find (field p 0 6)).isNone, .unknownId),
   ((s.find (field p 0 6)).any (·.state != .held), .busy)]

def holding7 : State := (active 500).withCustody [place 7 .held]

/-- Every test of the three tables fails first in some state with the request at the front of the buffer. -/
theorem witness_RequestsRefusedInTableOrder :
    (∀ x ∈ [(active 500, [0], Result.badRequest), (startingTrip, loadPayload 7 0, .busy), (idle, loadPayload 7 0, .notActive),
        (active 500, loadPayload 0 0, .badRequest), (active 500, loadPayload 7 1, .unknownClass),
        (active 500, loadPayload 7 8, .unknownClass),
        (holding7, loadPayload 7 0, .duplicate),
        ((active 500).withCustody (place 1 .held :: nearlyFull), loadPayload 7 0, .tableFull)],
      (got x.1 (rx .load 18 x.2.1)).front .load (rx .load 18 x.2.1) [] ∧ firstTrue (loadTests x.1 x.2.1) = some x.2.2) ∧
    (∀ x ∈ [(active 500, [0], Result.badRequest), (startingTrip, [0, 0, 0, 0, 0, 7, 6], .busy),
        (idle, [0, 0, 0, 0, 0, 7, 6], .notActive), (active 500, [0, 0, 0, 0, 0, 0, 6], .badRequest),
        (active 500, [0, 0, 0, 0, 0, 7, 0], .badRequest), (active 500, [0, 0, 0, 0, 0, 7, 16], .badRequest),
        (active 500, [0, 0, 0, 0, 0, 7, 6], .unknownId), (offering (active 500) .sending, [0, 0, 0, 0, 0, 7, 6], .busy),
        (holding7, [0, 0, 0, 0, 0, 7, 3], .sameCompartment),
        (holding7.withOffers [⟨8, 9, 18, 6, .sending⟩, ⟨9, 9, 18, 6, .sending⟩], [0, 0, 0, 0, 0, 7, 6], .busy),
        (holding7, [0, 0, 0, 0, 0, 7, 15], .targetAbsent),
        (holding7.withRoster (⟨8, .live, some ⟨6, 60, 1, 1, 100⟩, none⟩ :: rosterWith9), [0, 0, 0, 0, 0, 7, 6],
          .targetAmbiguous)],
      (got x.1 (rx .move 18 x.2.1)).front .move (rx .move 18 x.2.1) [] ∧ firstTrue (moveTests x.1 x.2.1) = some x.2.2) ∧
    (∀ x ∈ [(active 500, [0], Result.badRequest), (startingTrip, [0, 0, 0, 0, 0, 7], .busy),
        (idle, [0, 0, 0, 0, 0, 7], .notActive), (active 500, [0, 0, 0, 0, 0, 0], .badRequest),
        (active 500, [0, 0, 0, 0, 0, 7], .unknownId), (offering (active 500) .sending, [0, 0, 0, 0, 0, 7], .busy)],
      (got x.1 (rx .release 18 x.2.1)).front .release (rx .release 18 x.2.1) [] ∧
        firstTrue (releaseTests x.1 x.2.1) = some x.2.2) := by decide +kernel

theorem witness_ReleaseIssuesCertificate :
    (let s := got holding7 (rx .release 18 [0, 0, 0, 0, 0, 7])
     let h := place 7 .held
     s.front .release (rx .release 18 [0, 0, 0, 0, 0, 7]) [] ∧ s.mode = .active ∧ s.custodyLaw ∧
      h ∈ s.domain.custody ∧ h.record.id = field [0, 0, 0, 0, 0, 7] 0 6 ∧ h.state = .held ∧ h.record.id ≠ 0 ∧
      s.bus.queue.length < 8) ∧
    8 ≤ (full holding7).bus.queue.length := by decide

theorem witness_QueriesAnswerAndChangeNothing :
    (got holding7 (rx .queryRecord 18 [7])).front .queryRecord (rx .queryRecord 18 [7]) [] ∧
    field [0, 0, 0, 0, 0, 0] 0 6 = 0 ∧
    (let s := got holding7 (rx .queryRecord 18 [0, 0, 0, 0, 0, 8])
     s.front .queryRecord (rx .queryRecord 18 [0, 0, 0, 0, 0, 8]) [] ∧
      ∀ h ∈ s.domain.custody, h.record.id ≠ field [0, 0, 0, 0, 0, 8] 0 6) ∧
    (let s := got holding7 (rx .queryRecord 18 [0, 0, 0, 0, 0, 7])
     s.front .queryRecord (rx .queryRecord 18 [0, 0, 0, 0, 0, 7]) [] ∧
      s.find (field [0, 0, 0, 0, 0, 7] 0 6) = some (place 7 .held)) ∧
    (got holding7 (rx .list 18 [])).front .list (rx .list 18 []) [] ∧
    (got holding7 (rx .list 18 [255])).front .list (rx .list 18 [255]) [] ∧
    (got holding7 (rx .queryStation 18 [0])).front .queryStation (rx .queryStation 18 [0]) [] ∧
    (got holding7 (rx .queryStation 18 [])).front .queryStation (rx .queryStation 18 []) [] ∧
    holding7.domain.clock ≤ 4294967295 ∧
    (∀ e ∈ [(3, (⟨4, .unheard, none, none⟩ : RosterEntry)), (7, ⟨9, .live, some ⟨6, 60, 1, 1, 100⟩, some 280⟩)],
      (((holding7.withRoster rosterWith9).roster.filter (·.address ≠ (5 : Nat)))[e.1]?) = some e.2) ∧
    (Channel.started.reading = none ∧ Channel.started.last = none) ∧
    (∀ st ∈ [Status.valid (-500), .valid 700, .clampedLow, .clampedHigh, .faultPeriod, .faultStuck .low,
        .faultStuck .high, .faultLowDuty, .faultHighDuty],
      ({ Channel.started with reading := some ⟨st, 400, true⟩ }.reading = some ⟨st, 400, true⟩)) ∧
    (active 500).domain.tracker.phase = .closed ∧
    ((active 500).withTracker ⟨.grace 480, []⟩).domain.tracker.phase = .grace 480 ∧
    ((active 500).withTracker ⟨.overdue, []⟩).domain.tracker.phase = .overdue := by decide

/-- The station part and the roster part of address 5 with a reading of 6.0 degrees on probe 1 and address 9 LIVE. -/
theorem test_station_and_roster_parts :
    (let s := { (holding7.withRoster rosterWith9) with
                channels := (active 500).channels.set 0
                  ⟨.measuring, 900, some 900, some .low, some ⟨40000, 18934⟩, some ⟨.valid 60, 400, true⟩⟩ }
     ((stationPart s).take 16 == [1, 3, 0, 0, 0, 77, 0, 0, 1, 244, 0, 0, 0, 8, 1, 0] &&
       ((stationPart s).drop 40).take 13 == [2, 1, 0, 60, 0, 0, 1, 144, 5, 156, 64, 73, 246] &&
       ((rosterPart s).drop 78).take 11 == [9, 1, 6, 0, 60, 0, 0, 0, 100, 1, 1]) = true) := by decide +kernel

/-- A BEACON of the running trip from the buddy, cold-started and not, with and without doors. -/
theorem witness_BeaconRecorded :
    (∀ b ∈ [beacon4 [], { beacon4 [] with resetCause := 1 }, beacon4 [⟨9, .opened, 4⟩]],
      let m := rx .beacon 6 (beaconBytes b)
      let s := got (backed 500) m
      s.front .beacon m [] ∧ beaconOf m.payload = some b ∧ m.sender ≠ s.address ∧ s.store.tripId = some b.tripId ∧
        s.mode = .active ∧ s.committed.buddy = some m.sender ∧
        s.peer? m.sender = some ⟨6, .unheard, none, none⟩) ∧
    (beacon4 []).resetCause = 3 ∧ (beacon4 []).doors = [] ∧
    ((beacon4 []).sequence + 1) * (beacon4 []).epoch ≤ 4294967295 ∧
    (∃ e ∈ (backed 500).domain.tracker.doors, e.door = 9) ∧ (∀ e ∈ (backed 500).domain.tracker.doors, e.door ≠ 5) := by
  decide +kernel

/-- An OFFER of record 7 waits in a state. -/
def offered (s : State) (p : List Byte) : State := got s (rx .offer 4 p)

/-- A wrong length, a record that fails its check, each decline in turn, and an admission at 47 records. -/
theorem witness_OfferAdmittedOrDeclined :
    ((offered (active 500) [0]).front .offer (rx .offer 4 [0]) [] ∧ ([0] : List Byte).length ≠ 131) ∧
    recordCheck (recordAt (offerPayload 3 { record 7 with legs := [] }) 5) = false ∧
    (let p := offerPayload 3 (record 7)
     p.length = 131 ∧ recordCheck (recordAt p 5) = true ∧ field p 0 1 = 3 ∧ (recordAt p 5).id = 7 ∧
     (offered idle p).front .offer (rx .offer 4 p) [] ∧ (offered idle p).mode ≠ .active ∧
     (offered (active 500) p).mode = .active ∧ (offered (active 500) p).committed.compartment = some 3 ∧
     (∃ h ∈ (offered holding7 p).domain.custody, h.record.id = 7) ∧
     (48 ≤ ((active 500).withCustody (place 1 .held :: nearlyFull)).domain.custody.length ∧
       ∀ h ∈ ((active 500).withCustody (place 1 .held :: nearlyFull)).domain.custody, h.record.id ≠ 7) ∧
     (((active 500).withCustody nearlyFull).domain.custody.length < 48 ∧
       ∀ h ∈ ((active 500).withCustody nearlyFull).domain.custody, h.record.id ≠ 7) ∧
     (offered (active 500) p).bus.queue.length < 8 ∧ 8 ≤ (offered (full (active 500)) p).bus.queue.length) ∧
    field (offerPayload 6 (record 7)) 0 1 ≠ 3 := by decide +kernel

theorem witness_AnswersCompleteOrCloseOffers :
    (let o := offer7 .answered
     let s := offering (backed 500) .answered
     o ∈ s.offers ∧ (s.offers.map (·.id)).Nodup ∧ o.id = field [0, 0, 0, 0, 0, 7] 0 6 ∧ o.target = 9 ∧
      o.phase = .answered ∧ (∃ h ∈ s.domain.custody, h.record.id = o.id) ∧
      (got s (rx .accept 9 [0, 0, 0, 0, 0, 7])).front .accept (rx .accept 9 [0, 0, 0, 0, 0, 7]) []) ∧
    (let s := offering (backed 500) .answered
     offer7 .answered ∈ s.offers ∧ (offer7 .answered).id = field [0, 0, 0, 0, 0, 7, 1] 0 6 ∧
      (got s (rx .decline 9 [0, 0, 0, 0, 0, 7, 1])).front .decline (rx .decline 9 [0, 0, 0, 0, 0, 7, 1]) []) := by decide

/-- A put of record 7 waits in the queue when the record leaves: its outcome is of a stay that has ended (R139). -/
theorem test_accept_ends_the_stay :
    after (exec .accept (got ((offering (backed 7275) .answered).withQueue
        [⟨⟨6, .mirrorPut, []⟩, .mirrorPut 7 true, true, false⟩]) (rx .accept 9 [0, 0, 0, 0, 0, 7])))
      (fun t => t.bus.queue.map (·.origin) == [.mirrorPut 7 false, .mirrorDrop 7, .plain]) = true := by decide

/-- A DISCARD-MIRROR waits in a state with mirror records. -/
def discarding (p : List Byte) : State := got ((active 500).withMirror mirror46) (rx .discardMirror 18 p)

theorem witness_MirrorTableEdits :
    (∀ p ∈ ([[0], [0, 0, 0, 0, 0, 0, 6], [16, 0, 0, 0, 0, 0, 6], [15, 0, 0, 0, 0, 0, 6], [4, 0, 0, 0, 0, 0, 6],
        [1, 0, 0, 0, 0, 0, 0]] : List (List Byte)),
      (discarding p).front .discardMirror (rx .discardMirror 18 p) []) ∧
    (mirror46.any fun x => x.owner == 15 && (6 == 0 || x.record.id == 6)) = false ∧
    (mirror46.any fun x => x.owner == 4 && (6 == 0 || x.record.id == 6)) = true ∧
    (let p := beBytes 4 4294967295 ++ recordBytes (record 6)
     let s := got ((active 500).withMirror mirror46) (rx .mirrorPut 4 p)
     s.front .mirrorPut (rx .mirrorPut 4 p) [] ∧ p.length = 130 ∧ recordCheck (recordAt p 4) = true ∧ s.mode = .active ∧
      (recordAt p 4).id = 6 ∧ (∃ y ∈ s.domain.mirror, y.key = (4, 6)) ∧ (∀ y ∈ s.domain.mirror, y.key ≠ (5, 6)) ∧
      s.domain.mirror.length < 48 ∧ field p 0 4 = 4294967295) ∧
    recordCheck (recordAt (beBytes 4 0 ++ recordBytes (record 0)) 4) = false ∧
    (∀ mode ∈ [Mode.ending, .idle, .starting, .rejoining],
      let m := rx .mirrorPut 4 (beBytes 4 9 ++ recordBytes (record 6))
      (got { active 500 with mode := mode } m).front .mirrorPut m []) ∧
    (got (active 500) (rx .mirrorDrop 4 [0, 0, 0, 0, 0, 6])).front .mirrorDrop (rx .mirrorDrop 4 [0, 0, 0, 0, 0, 6]) [] ∧
    (got (active 500) (rx .mirrorDrop 4 [0])).front .mirrorDrop (rx .mirrorDrop 4 [0]) [] := by decide +kernel

/-- Room and none, for a record with one leg and with six; sequences of 0, of the largest close in range, and "none". -/
theorem witness_RestoreAnswersTaken :
    (let s := got (rejoining .asking) (rx .restoreBegin 6 [0, 0, 0, 77, 0, 0, 28, 108, 2])
     s.mode = .rejoining ∧ s.front .restoreBegin (rx .restoreBegin 6 [0, 0, 0, 77, 0, 0, 28, 108, 2]) [] ∧
      s.rejoin = .asking ∧ s.store.tripId = some (field [0, 0, 0, 77, 0, 0, 28, 108, 2] 0 4)) ∧
    (let six := { record 7 with legs := List.replicate 5 ⟨3, 5, 1, some 2, false⟩ ++ [⟨3, 5, 3, none, false⟩] }
     ∀ r ∈ [record 7, six],
      let p := beBytes 4 119 ++ recordBytes r
      let s := got (rejoining (.receiving 37 2)) (rx .restoreRecord 6 p)
      s.mode = .rejoining ∧ s.front .restoreRecord (rx .restoreRecord 6 p) [] ∧ p.length = 130 ∧
        recordCheck (recordAt p 4) = true ∧ field p 0 4 < 4294967295 ∧
        (field p 0 4 + 1) * s.committed.epoch ≤ 4294967295 ∧ (∀ h ∈ s.domain.custody, h.record.id ≠ 7) ∧
        s.domain.custody.length < 48) ∧
    field (beBytes 4 4294967295 ++ recordBytes (record 7)) 0 4 = 4294967295 ∧
    (let p := beBytes 4 4294967294 ++ recordBytes (record 7)
     let s := got (rejoining (.receiving 37 2)) (rx .restoreRecord 6 p)
     s.front .restoreRecord (rx .restoreRecord 6 p) [] ∧ field p 0 4 < 4294967295 ∧
      4294967295 < (field p 0 4 + 1) * s.committed.epoch) ∧
    (∃ h ∈ [place 7 .held], h.record.id = (recordAt (beBytes 4 0 ++ recordBytes (record 7)) 4).id) ∧
    (let s := got (rejoining (.receiving 37 2)) (rx .restoreEnd 6 [2])
     s.front .restoreEnd (rx .restoreEnd 6 [2]) [] ∧ s.rejoin = .receiving 37 2 ∧ 8000 ≤ s.supplyMv ∧
      0 < s.committed.epoch) := by decide +kernel

/-- One BEACON, ACCEPT, DECLINE and restore answer for each ground to discard it. -/
theorem witness_UselessTelegramsDiscarded :
    (∀ p ∈ [[], beaconBytes { beacon4 [] with compartment := 0 }, beaconBytes { beacon4 [] with compartment := 16 },
        beaconBytes { beacon4 [] with epoch := 9 }, beaconBytes { beacon4 [] with epoch := 601 },
        beaconBytes { beacon4 [] with temps := some ⟨701, 0⟩ }, beaconBytes { beacon4 [] with temps := some ⟨0, 1⟩ },
        beaconBytes { beacon4 [] with tripId := 78 }],
      (got (active 500) (rx .beacon 4 p)).front .beacon (rx .beacon 4 p) []) ∧
    field (beaconBytes { beacon4 [] with compartment := 16 }) 8 1 = 16 ∧
    field (beaconBytes { beacon4 [] with epoch := 9 }) 9 2 = 9 ∧
    1 < field (beaconBytes (beacon4 [⟨9, .opened, 4⟩]) |>.set 27 2) 27 1 ∧
    (rejoining .asking).rejoin ≠ .listening ∧ (rx .beacon 5 []).sender = (active 500).address ∧
    (got (offering (active 500) (.awaiting 505)) (rx .accept 9 [0, 0, 0, 0, 0, 7])).front .accept
      (rx .accept 9 [0, 0, 0, 0, 0, 7]) [] ∧
    (∀ o ∈ (offering (active 500) (.awaiting 505)).offers,
      ¬ (o.id = field [0, 0, 0, 0, 0, 7] 0 6 ∧ o.target = 9 ∧ o.phase = .answered)) ∧
    (got (active 500) (rx .decline 9 [])).front .decline (rx .decline 9 []) [] ∧
    (got (rejoining .listening) (rx .restoreBegin 6 [])).front .restoreBegin (rx .restoreBegin 6 []) [] ∧
    (got (rejoining .listening) (rx .restoreRecord 6 [])).front .restoreRecord (rx .restoreRecord 6 []) [] ∧
    (got (rejoining .listening) (rx .restoreEnd 6 [])).front .restoreEnd (rx .restoreEnd 6 []) [] := by decide +kernel

/-- A frame of a listed and of an unlisted kind; a buffer of three and of four telegrams; an idle, a stopped and a
holding recorder. -/
theorem witness_AcknowledgeSlotsDecided :
    ((active 500).busOn = true ∧ (active 500).sending? = none ∧ (active 500).bus.line ≠ .ignoring ∧
      loadFrame.payload.length ≤ 160) ∧
    Kind.load.code = loadFrame.kind.toNat ∧ (∀ k ∈ allKinds, k.code ≠ 63) ∧
    (loadFrame.receiver.toNat = (active 500).address ∧ frameCheck loadFrame = loadFrame.check ∧
      (active 500).accepts .load 18 5 loadFrame.payload = true) ∧
    frameCheck { loadFrame with receiver := 6 } ≠ loadFrame.check ∧
    ((active 500).withRx (List.replicate 3 (rx .list 18 [0]))).bus.rx.length < 4 ∧
    4 ≤ ((active 500).withRx (List.replicate 4 (rx .list 18 [0]))).bus.rx.length ∧
    State.reset.running = false ∧ { active 500 with mode := .hold }.mode = .hold := by decide +kernel

theorem witness_FilterFollowsItsTable :
    (active 500).address = 5 ∧ (active 500).address ≠ 0 ∧ (active 500).mode ≠ .hold ∧ (active 500).mode ≠ .unstrapped ∧
    Kind.load.isConsole = true ∧ Kind.load ≠ .tripStart := by decide

theorem witness_IdleBusBeginsMostUrgent :
    ((active 500).busOn = true ∧ (active 500).sending? = none ∧ (active 500).bus.queue = []) ∧
    ((full (active 500)).busOn = true ∧ (full (active 500)).sending? = none ∧ (full (active 500)).bus.queue ≠ []) := by
  decide

/-- A BEACON waiting, in transmission, and one held behind it. -/
theorem witness_BeaconReplacementAndArbitration :
    (let e : TxEntry := ⟨⟨0, .beacon, [1]⟩, .plain, false, false⟩
     let s := (active 500).withQueue [⟨⟨18, .reply, []⟩, .plain, false, false⟩, e]
     s.bus.queue = [⟨⟨18, .reply, []⟩, .plain, false, false⟩] ++ e :: [] ∧ e.telegram.kind = .beacon ∧
      (∀ x ∈ [⟨⟨18, .reply, []⟩, .plain, false, false⟩] ++ ([] : List TxEntry), x.telegram.kind ≠ .beacon) ∧
      e.sending = false) ∧
    (let s := sendingIn (active 500) .beacon .plain
     s.sends [] (sendingEntry .beacon .plain) [] ∧ (sendingEntry .beacon .plain).telegram.kind = .beacon ∧
      s.bus.beaconHold = none) ∧
    ((sendingIn (active 500) .reply .plain).sends [] (sendingEntry .reply .plain) [] ∧
      (sendingEntry .reply .plain).telegram.kind ≠ .beacon) ∧
    ((sendingIn (active 500) .beacon .plain).withBeaconHold (some ⟨0, .beacon, [2]⟩)).bus.beaconHold =
      some ⟨0, .beacon, [2]⟩ ∧
    ((active 500).busOn = true ∧ 160 < 161 ∧ (active 500).sending? = none) := by decide

/-- Each originator's telegram in transmission in a state in which it has a use for the outcome; a BEACON with and
without a held one. -/
theorem witness_SendEndsInItsOutcome :
    (∀ x ∈ [(offering (active 500) .sending, Kind.offer, Origin.offer 7),
        ((active 500).withCustody [⟨record 7, 7258, .arriving 7273 4⟩], .accept, .accept 7),
        ((active 500).withCustody [place 7 .releasing], .reply, .certificate 7), (backed 500, .mirrorPut, .mirrorPut 7 true),
        (backed 500, .mirrorDrop, .mirrorDrop 7), (rejoining .asking, .restoreAsk, .restoreAsk),
        ((active 500).withSessions [⟨4, [6], 1, 1⟩], .restoreRecord, .session 4 false true),
        (active 500, .restoreEnd, .session 4 true false), (active 500, .door, .plain)],
      (sendingIn x.1 x.2.1 x.2.2).sends [] (sendingEntry x.2.1 x.2.2) [] ∧ x.2.1 ≠ .beacon ∧ x.1.custodyLaw) ∧
    (offer7 .sending ∈ (offering (active 500) .sending).offers ∧ ((offering (active 500) .sending).offers.map (·.id)).Nodup) ∧
    (rejoining .asking).rejoin = .asking ∧
    (∀ held ∈ [none, some (⟨0, .beacon, [2]⟩ : TxTelegram)],
      ((sendingIn (active 500) .beacon .plain).withBeaconHold held).sends [] (sendingEntry .beacon .plain) [] ∧
        ((sendingIn (active 500) .beacon .plain).withBeaconHold held).bus.beaconHold = held) ∧
    (let s := { sendingIn (active 500) .hold .hold with mode := .holdPending }
     s.sends [] (sendingEntry .hold .hold) [] ∧ s.mode = .holdPending) ∧
    ((sendingIn (active 500) .beacon .plain).sends [] (sendingEntry .beacon .plain) [] ∧
      (sendingEntry .beacon .plain).spoiled = false) := by decide

/-- The offer in SENDING, in AWAITING at its deadline and a second before it. -/
theorem witness_OfferAwaitsOrCloses :
    (let s := sendingIn (offering (active 500) .sending) .offer (.offer 7)
     offer7 .sending ∈ s.offers ∧ (s.offers.map (·.id)).Nodup ∧ s.sends [] (sendingEntry .offer (.offer 7)) [] ∧
      (sendingEntry .offer (.offer 7)).origin = .offer (offer7 .sending).id) ∧
    (let s := offering (active 505) (.awaiting 505)
     offer7 (.awaiting 505) ∈ s.offers ∧ s.running = true ∧ 505 ≤ s.domain.clock) ∧
    (offering (active 504) (.awaiting 505)).domain.clock < 505 := by decide

/-- An ARRIVING record with one leg and with six, its ACCEPT in transmission, whole and spoiled. -/
theorem witness_AcceptOutcomeSettlesArrival :
    (let six := { record 7 with legs := List.replicate 5 ⟨3, 5, 1, some 2, false⟩ ++ [⟨3, 5, 3, none, false⟩] }
     ∀ r ∈ [record 7, six],
      let h : Holding := ⟨r, 7258, .arriving 7273 4⟩
      let s := sendingIn ((active 7274).withCustody [h]) .accept (.accept 7)
      s.sends [] (sendingEntry .accept (.accept 7)) [] ∧
        (sendingEntry .accept (.accept 7)).origin = .accept h.record.id ∧ s.custodyLaw ∧ h ∈ s.domain.custody ∧
        1 ≤ h.record.legs.length ∧ h.record.legs.length ≤ 6) ∧
    { sendingEntry .accept (.accept 7) with spoiled := true }.spoiled = true := by decide

theorem witness_CertificateOutcomeSettlesRelease :
    let s := sendingIn ((backed 500).withCustody [place 7 .releasing]) .reply (.certificate 7)
    s.sends [] (sendingEntry .reply (.certificate 7)) [] ∧ s.custodyLaw ∧ place 7 .releasing ∈ s.domain.custody := by
  decide

theorem witness_MirrorOutcomesKeepFlagsAndDrops :
    (sendingIn holding7 .mirrorPut (.mirrorPut 7 true)).sends [] (sendingEntry .mirrorPut (.mirrorPut 7 true)) [] ∧
    (sendingIn holding7 .mirrorPut (.mirrorPut 7 false)).sends [] (sendingEntry .mirrorPut (.mirrorPut 7 false)) [] ∧
    (sendingIn (holding7.withDrops [7]) .mirrorDrop (.mirrorDrop 7)).sends []
      (sendingEntry .mirrorDrop (.mirrorDrop 7)) [] := by decide

theorem witness_HoldPendingEndsInHold :
    (let s := { sendingIn (active 500) .hold .hold with mode := .holdPending, supplyMv := 8600 }
     s.running = true ∧ s.mode = .holdPending ∧ s.supplyMv ≤ 8600 ∧ s.custodyLaw ∧
      s.sends [] (sendingEntry .hold .hold) []) ∧
    { midTrip with mode := .holdPending }.custodyLaw ∧
    ({ midTrip with mode := .holdPending }.bus.queue.any (·.origin == Origin.accept 9)) = true ∧
    8600 < { active 500 with mode := .holdPending, supplyMv := 8601 }.supplyMv := by decide

theorem witness_RejoiningEndsByPhase :
    (let m := rx .beacon 4 (beaconBytes (beacon4 []))
     let s := got (rejoining .listening) m
     s.front .beacon m [] ∧ beaconOf m.payload = some (beacon4 []) ∧ m.sender ≠ s.address ∧
      s.store.tripId = some (beacon4 []).tripId ∧ s.mode = .rejoining ∧ s.rejoin = .listening ∧ 8000 ≤ s.supplyMv ∧
      0 < s.committed.epoch) ∧
    (let s := sendingIn (rejoining .asking) .restoreAsk .restoreAsk
     s.running = true ∧ s.sends [] (sendingEntry .restoreAsk .restoreAsk) [] ∧ s.rejoin = .asking) ∧
    ((rejoining (.receiving 7 2)).rejoin = .receiving 7 2 ∧ 7 ≤ (rejoining (.receiving 7 2)).domain.clock ∧
      (rejoining (.receiving 7 2)).domain.clock < 8) := by decide +kernel

/-- A first and a second asker, a third without a slot; a session at its BEGIN, at its last record, at its END. -/
theorem witness_RestoreSessionsServed :
    (let m := rx .restoreAsk 4 [0, 0, 0, 77]
     let s := got ((active 500).withSessions [⟨6, [], 0, 0⟩]) m
     s.front .restoreAsk m [] ∧ s.mode = .active ∧ s.store.tripId = some (field m.payload 0 4) ∧
      s.sessions.length < 2 ∧ s.bus.queue.length < 8) ∧
    (let m := rx .restoreAsk 4 [0, 0, 0, 77]
     let s := got (sendingIn ((active 500).withSessions [⟨4, [6], 1, 1⟩]) .restoreRecord (.session 4 false true)) m
     s.front .restoreAsk m [] ∧ s.mode = .active ∧ (∃ x ∈ s.sessions, x.asker = m.sender) ∧
      s.bus.queue = [sendingEntry .restoreRecord (.session 4 false true)]) ∧
    ¬ ((∃ x ∈ ([⟨6, [], 0, 0⟩, ⟨7, [], 0, 0⟩] : List Session), x.asker = 4) ∨
      ([⟨6, [], 0, 0⟩, ⟨7, [], 0, 0⟩] : List Session).length < 2) ∧
    (∀ x ∈ [(Session.mk 4 [6, 8] 0 0, false), (⟨4, [6, 8], 2, 2⟩, false), (⟨4, [6, 8], 2, 2⟩, true)],
      let s := sendingIn (((active 500).withMirror mirror46).withSessions [x.1]) .restoreRecord (.session 4 x.2 true)
      s.sends [] (sendingEntry .restoreRecord (.session 4 x.2 true)) [] ∧ x.1 ∈ s.sessions ∧
        (s.sessions.map (·.asker)).Nodup ∧ s.mode ≠ .hold ∧ s.mode ≠ .unstrapped ∧ s.bus.queue.length ≤ 8) ∧
    (mirror46.find? fun y => y.owner == 4 && y.record.id == 6) = some ⟨4, some 1, record 6⟩ := by decide

/-- Advances of 1, of 32,767 and of 32,768, another source, an unknown door, a door outside the map; a window at its end
and a second before it. -/
theorem witness_SightingsAndWindowExpiry :
    (∀ m ∈ [rx .door 11 [9, 1, 0, 4], rx .door 11 [9, 1, 128, 2], rx .door 11 [9, 1, 128, 3], rx .door 4 [9, 1, 0, 4],
        rx .door 11 [5, 0, 0, 0]],
      (got (doorsClosed 7345) m).front .door m [] ∧ (got (doorsClosed 7345) m).mode = .active) ∧
    ([9, 1, 0, 4] : List Byte) = beBytes 1 9 ++ beBytes 1 DoorState.opened.code ++ beBytes 2 4 ∧
    ((doorsClosed 7345).domain.tracker.doors.find? (·.door == 9) = some ⟨9, some ⟨.closed, 3, 11⟩⟩) ∧
    (∀ e ∈ (doorsClosed 7345).domain.tracker.doors, e.door ≠ 5) ∧
    (32770 + 65536 - 3) % 65536 < 32768 ∧ 32768 ≤ (32771 + 65536 - 3) % 65536 ∧
    (∀ m ∈ [rx .door 11 [9, 1, 0], rx .door 11 [9, 2, 0, 4], rx .door 11 [9, 255, 0, 4]],
      (got (active 500) m).front .door m [] ∧ (m.payload.length ≠ 4 ∨ 1 < field m.payload 1 1)) ∧
    (∀ mode ∈ [Mode.idle, .starting, .hold, .rejoining],
      (got { active 500 with mode := mode } (rx .door 11 [9, 1, 0, 4])).front .door (rx .door 11 [9, 1, 0, 4]) []) ∧
    (let s := (active 7465).withTracker ⟨.grace 7345, [⟨9, some ⟨.opened, 4, 11⟩⟩]⟩
     s.running = true ∧ s.mode.runsEpochs = true ∧ s.domain.tracker.phase = .grace 7345 ∧
      7345 + s.committed.grace ≤ s.domain.clock ∧ (active 7464).domain.clock < 7345 + s.committed.grace) := by decide

theorem witness_RosterMarksHoldingAndSilent :
    (let m := rx .hold 9 [0, 0, 0, 77]
     let s := got (active 500) m
     s.front .hold m [] ∧ s.mode = .active ∧ s.store.tripId = some (field m.payload 0 4) ∧ m.sender ≠ s.address) ∧
    (got (active 500) (rx .hold 9 [])).front .hold (rx .hold 9 []) [] ∧
    ((active 280).running = true ∧ (active 280).mode.runsEpochs = true) := by decide

/-- A record RELEASING in HOLD_PENDING, its certificate broken off, is HELD in HOLD (R19, R122). -/
theorem test_hold_returns_broken_certificate :
    after (exec .holdPendingTimeout
      { sendingIn ((active 500).withCustody [place 7 .releasing]) .reply (.certificate 7) with
        mode := .holdPending, supplyMv := 7900 })
      (fun t => t.mode == .hold && t.domain.custody == [place 7 .held] && t.bus.queue.isEmpty) = true := by decide

/-- A channel in each state, edges at the first count and at the last. -/
theorem witness_ProbeEventsCaptured :
    (active 500).running = true ∧ 65536 ≤ 65536 ∧ 65535 < 65536 ∧
    (Channel.started.state = .arming ∧ Channel.started.counter < 1 ∧ Channel.started.sample ≠ some .high ∧
      Channel.started.sample ≠ some .low ∧ Channel.started.sample = none) ∧
    (let c : Channel := ⟨.measuring, 900, some 900, some .low, none, none⟩
     c.state = .measuring ∧ c.high = some 900 ∧ c.counter < 65535 ∧ c.sample ≠ some .high) ∧
    (Channel.started.sample ≠ some .low ∧
      { Channel.started with counter := 900, sample := some .low }.sample = some .low ∧
      { Channel.started with counter := 900, sample := some .high }.counter < 65536) ∧
    (let c : Channel := ⟨.measuring, 0, none, some .high, none, none⟩
     c.counter < 1 ∧ c.sample ≠ some .low) ∧
    Channel.stopped.state = .off := by decide

theorem witness_DoorInputsDebounced :
    ((inputOpening.inputs.get 0).line ≠ .low ∧ (inputOpening.inputs.get 0).running = true ∧
      (inputOpening.inputs.get 0).accepted = some (doorStateOf .low)) ∧
    ((active 500).inputs.get 0).running = false ∧
    (let s := { active 500 with inputs := (active 500).inputs.set 0 ⟨.low, true, some .closed, 12, false⟩ }
     (s.inputs.get 0).line ≠ .high ∧ (s.inputs.get 0).accepted ≠ some (doorStateOf .high)) ∧
    (let s := inputOpening
     s.running = true ∧ (s.inputs.get 0).running = true ∧ (s.inputs.get 0).settling = true ∧
      s.committed.doorOf 0 = some 4 ∧
      (∃ a ∈ (s.inputs.get 0).accepted, a ≠ doorStateOf (s.inputs.get 0).line)) ∧
    (let s := { active 500 with inputs := (active 500).inputs.set 0 ⟨.high, true, none, 0, true⟩ }
     (s.inputs.get 0).settling = true ∧ (s.inputs.get 0).accepted = none) ∧
    inputOpening.mode.runsEpochs = true ∧ (∃ e ∈ inputOpening.domain.tracker.doors, e.door = 4) ∧
    { inputOpening with mode := .idle }.mode.runsEpochs = false := by decide

theorem witness_TripStartWriteEnds :
    let w : StoreWrite := ⟨setupB, some 78, .running, .tripStart 18 0⟩
    startingTrip.running = true ∧ startingTrip.mode = .starting ∧ startingTrip.storeWrite = some w ∧
    w.job = .tripStart 18 0 ∧ 8000 ≤ startingTrip.supplyMv ∧ 0 < w.setup.epoch := by decide

theorem witness_TripEndAndRejoinWritesEnd :
    (let w : StoreWrite := ⟨setupA, some 77, .ended, .tripEnd 18⟩
     let s := { active 500 with mode := .ending, storeWrite := some w, supplyMv := 8000 }
     s.running = true ∧ s.storeWrite = some w ∧ s.mode = .ending ∧ w.job = .tripEnd 18 ∧ 8000 ≤ s.supplyMv) ∧
    (let w : StoreWrite := ⟨setupB, some 77, .ended, .rejoinEnd⟩
     let s := { rejoining .ending with storeWrite := some w }
     s.running = true ∧ s.storeWrite = some w ∧ s.mode = .rejoining ∧ s.rejoin = .ending) := by decide

/-- A core that stops with the cell good and fallen, during a write, and a cell that falls with the core stopped. -/
theorem witness_StopKeepsDomainWhileCellHolds :
    ((active 500).running = true ∧ (active 500).storeWrite = none ∧ (active 500).cellFell = false) ∧
    { active 500 with cellFell := true }.cellFell = true ∧
    (startingTrip.running = true ∧ startingTrip.cellFell = false ∧
      startingTrip.storeWrite = some ⟨setupB, some 78, .running, .tripStart 18 0⟩) ∧
    stoppedAt1000.running = false := by decide

/-- A warm start in CLOSED, a second before the end of a window and at its end. -/
theorem witness_WarmStartSettlesAndResumes :
    (let s := stoppedAt1000
     s.running = false ∧ (5 : BitVec 4) ≠ 0 ∧ s.cellFell = false ∧ s.store.checkGood = true ∧
      s.store.tripState = .running ∧ s.domain.tripId = s.store.tripId ∧ 8000 ≤ 8000 ∧ 0 < s.committed.epoch) ∧
    stoppedAt1000.domain.tracker.phase = .closed ∧
    stoppedAt1000.domain.clock < 881 + stoppedAt1000.committed.grace ∧
    880 + stoppedAt1000.committed.grace ≤ stoppedAt1000.domain.clock := by decide

theorem witness_ColdAndIdleStarts :
    (let s := stoppedAt1000
     s.running = false ∧ s.store.checkGood = true ∧ s.store.tripState = .running ∧ s.committed.buddy = none) ∧
    { stoppedAt1000 with cellFell := true }.cellFell = true ∧
    { stoppedAt1000 with domain := { stoppedAt1000.domain with tripId := some 76 } }.domain.tripId ≠
      stoppedAt1000.store.tripId ∧
    { rejoining .asking with running := false }.committed.buddy = some 6 ∧
    (State.reset.running = false ∧ State.reset.store.checkGood = true ∧ State.reset.cellFell = true ∧
      State.reset.store.tripState ≠ .running) ∧
    { State.reset with cellFell := false }.cellFell = false ∧
    { State.reset with store := { State.reset.store with checkGood := false } }.store.checkGood = false ∧
    (15 : BitVec 4) ≠ 0 := by decide

/-- Readings on either side of the two levels, with nothing, and with an ACCEPT, in transmission; and a sagged supply at
each way to ACTIVE. -/
theorem witness_SupplyLevelsMoveTheMode :
    (midTrip.running = true ∧ midTrip.custodyLaw ∧ midTrip.mode = .active ∧ 7999 < 8000 ∧
      midTrip.bus.queue.filter (·.sending) = [sendingEntry .accept (.accept 9)]) ∧
    ((active 500).bus.queue.filter (·.sending) = [] ∧ idle.mode ≠ .active ∧ 8000 ≤ 8000) ∧
    ({ active 500 with mode := .hold }.mode = .hold ∧ 8600 < 8601 ∧ (active 500).mode ≠ .hold) ∧
    (let s := { startingTrip with supplyMv := 7999 }
     s.supplyMv < 8000 ∧ s.running = true ∧ s.mode = .starting) ∧
    (let s := { got (rejoining (.receiving 7 2)) (rx .restoreEnd 6 [2]) with supplyMv := 7999 }
     s.supplyMv < 8000 ∧ s.front .restoreEnd (rx .restoreEnd 6 [2]) [] ∧ s.rejoin = .receiving 7 2 ∧
      7 ≤ s.domain.clock) ∧
    (let s := { got (rejoining .listening) (rx .beacon 4 (beaconBytes (beacon4 []))) with supplyMv := 7999 }
     s.supplyMv < 8000 ∧ s.front .beacon (rx .beacon 4 (beaconBytes (beacon4 []))) [] ∧
      beaconOf (beaconBytes (beacon4 [])) = some (beacon4 []) ∧ s.store.tripId = some (beacon4 []).tripId ∧
      s.mode = .rejoining ∧ s.rejoin = .listening) ∧
    (let w : StoreWrite := ⟨setupA, some 77, .ended, .tripEnd 18⟩
     let s := { active 500 with mode := .ending, storeWrite := some w, supplyMv := 7999 }
     s.supplyMv < 8000 ∧ s.running = true ∧ s.mode = .ending ∧ s.storeWrite = some w ∧ w.job = .tripEnd 18) ∧
    (let s := { stoppedAt1000 with supplyMv := 12000 }
     s.running = false ∧ s.cellFell = false ∧ s.store.checkGood = true ∧ s.store.tripState = .running ∧
      s.domain.tripId = s.store.tripId) := by decide +kernel

/-- The entry to HOLD_PENDING with an ACCEPT in transmission and a certificate waiting: the ARRIVING record goes, the
others are HELD (R169). -/
theorem test_supply_warning_mid_trip :
    after (exec (.supplyBelowWarning 7999) (midTrip.withQueue
        [sendingEntry .accept (.accept 9), ⟨⟨18, .reply, []⟩, .certificate 8, false, false⟩]))
      (fun t => t.domain.custody == [⟨recordA, 480, .held⟩, place 7 .held, place 8 .held] && t.sessions.isEmpty &&
        t.bus.queue.map (·.telegram.kind) == [.accept, .hold]) = true := by decide
end Sys2Proof.Tests
end

