-- ==== Sys2Proof/Proofs/Measurements.lean ====
section
/-!
PROOFS. What `classify` answers in each row of TABLE 2-5, what the conversion of R32 is as a rounding, and every
measurement classified and converted (R29 to R32).
-/
namespace Sys2Proof.Machine

/-! ### The rows of TABLE 2-5 -/

section Rows
variable {P H : Nat}

theorem classify_of_short_period (hP : P < 1000) : classify P H = .faultPeriod :=
  if_pos hP

/-- From a period of 1,000 on, the period test is passed over. -/
theorem classify_of_period (hP : 1000 ≤ P) :
    classify P H =
      if 20 * H < P then .faultLowDuty
      else if 19 * P < 20 * H then .faultHighDuty
      else if 10 * H < P then .clampedLow
      else if 9 * P < 10 * H then .clampedHigh
      else .valid (conversion P H) :=
  if_neg (Nat.not_lt.mpr hP)

theorem classify_of_low_duty (hP : 1000 ≤ P) (hlow : 20 * H < P) : classify P H = .faultLowDuty := by
  rw [classify_of_period hP, if_pos hlow]

theorem classify_of_high_duty (hP : 1000 ≤ P) (hhigh : 19 * P < 20 * H) : classify P H = .faultHighDuty := by
  have hnotLow : ¬ 20 * H < P := by omega
  rw [classify_of_period hP, if_neg hnotLow, if_pos hhigh]

/-- With neither duty fault, the clamps decide. -/
theorem classify_of_duty_in_bounds (hP : 1000 ≤ P) (hlow : P ≤ 20 * H) (hhigh : 20 * H ≤ 19 * P) :
    classify P H =
      if 10 * H < P then .clampedLow
      else if 9 * P < 10 * H then .clampedHigh
      else .valid (conversion P H) := by
  rw [classify_of_period hP, if_neg (Nat.not_lt.mpr hlow), if_neg (Nat.not_lt.mpr hhigh)]

theorem classify_of_clamped_low (hP : 1000 ≤ P) (hlow : P ≤ 20 * H) (hclamp : 10 * H < P) :
    classify P H = .clampedLow := by
  have hhigh : 20 * H ≤ 19 * P := by omega
  rw [classify_of_duty_in_bounds hP hlow hhigh, if_pos hclamp]

theorem classify_of_clamped_high (hP : 1000 ≤ P) (hhigh : 20 * H ≤ 19 * P) (hclamp : 9 * P < 10 * H) :
    classify P H = .clampedHigh := by
  have hlow : P ≤ 20 * H := by omega
  have hnotLow : ¬ 10 * H < P := by omega
  rw [classify_of_duty_in_bounds hP hlow hhigh, if_neg hnotLow, if_pos hclamp]

theorem classify_of_valid (hP : 1000 ≤ P) (hlow : P ≤ 10 * H) (hhigh : 10 * H ≤ 9 * P) :
    classify P H = .valid (conversion P H) := by
  have hlow20 : P ≤ 20 * H := by omega
  have hhigh19 : 20 * H ≤ 19 * P := by omega
  rw [classify_of_duty_in_bounds hP hlow20 hhigh19, if_neg (Nat.not_lt.mpr hlow), if_neg (Nat.not_lt.mpr hhigh)]

end Rows

/-! ### The conversion as a rounding (R32) -/

/-- The conversion is the largest tenth not above 1,500 times the duty, plus a half, less 650: all bounds on it follow
from this without its division. -/
theorem le_conversion_iff {P : Nat} (hP : 0 < P) (H : Nat) (t : Temperature) :
    t ≤ conversion P H ↔ 2 * (P : Int) * (t + 650) ≤ 3000 * H + P := by
  have hpos : (0 : Int) < 2 * P := by omega
  calc t ≤ conversion P H
      ↔ t + 650 ≤ (3000 * H + P : Int) / (2 * P) := by
        simp only [conversion, Int.natCast_ediv, Nat.cast_add, Nat.cast_mul, Nat.cast_ofNat, le_sub_iff_add_le]
    _ ↔ 2 * (P : Int) * (t + 650) ≤ 3000 * H + P := by
        rw [Int.le_ediv_iff_mul_le hpos, mul_comm]

theorem conversion_lt_iff {P : Nat} (hP : 0 < P) (H : Nat) (t : Temperature) :
    conversion P H < t ↔ 3000 * (H : Int) + P < 2 * (P : Int) * (t + 650) := by
  rw [← not_le, le_conversion_iff hP, not_le]

/-- The conversion lies within half a tenth of 1,500 times the duty less 650, a half taken upward. -/
theorem conversion_nearest_tenth {P : Nat} (hP : 0 < P) (H : Nat) :
    2 * (P : Int) * (conversion P H + 650) ≤ 3000 * H + P ∧
      3000 * (H : Int) + P < 2 * (P : Int) * (conversion P H + 651) := by
  have hbelow := (le_conversion_iff hP H (conversion P H)).mp le_rfl
  have habove := (conversion_lt_iff hP H (conversion P H + 1)).mp (Int.lt_succ _)
  rw [add_assoc] at habove
  exact ⟨hbelow, habove⟩

section Range
variable {P H : Nat} (hP : 0 < P)
include hP

theorem tempMin_le_conversion (hlow : P ≤ 10 * H) : -500 ≤ conversion P H := by
  rw [le_conversion_iff hP]; omega

theorem conversion_le_tempMax (hhigh : 10 * H ≤ 9 * P) : conversion P H ≤ 700 := by
  rw [← Int.lt_add_one_iff, conversion_lt_iff hP]; omega

theorem conversion_of_tenth (hduty : 10 * H = P) : conversion P H = -500 := by
  have hupper : conversion P H ≤ -500 := by rw [← Int.lt_add_one_iff, conversion_lt_iff hP]; omega
  exact le_antisymm hupper (tempMin_le_conversion hP hduty.ge)

theorem conversion_of_nine_tenths (hduty : 10 * H = 9 * P) : conversion P H = 700 := by
  have hlower : 700 ≤ conversion P H := by rw [le_conversion_iff hP]; omega
  exact le_antisymm (conversion_le_tempMax hP hduty.le) hlower

end Range

/-! ### Every measurement -/

/-- R30: the duty faults, with the exact duties passing to the clamps. -/
theorem dutyFaultsClassified : Clause.DutyFaultsClassified := by
  intro P H hP _ _
  refine ⟨fun hlow => ?_, fun hhigh => ?_, fun hboth => ?_, fun hexact => ?_, fun hexact => ?_⟩
  · have hfault := classify_of_low_duty hP hlow
    exact ⟨hfault, hfault ▸ rfl⟩
  · have hfault := classify_of_high_duty hP hhigh
    exact ⟨hfault, hfault ▸ rfl⟩
  · obtain ⟨hlow, hhigh⟩ := hboth
    omega
  · exact classify_of_clamped_low hP hexact.ge (by omega)
  · exact classify_of_clamped_high hP hexact.le (by omega)

/-- R29, R31, R32: the period fault, the clamps and the VALID measurements with their values. -/
theorem measurementConverted : Clause.MeasurementConverted := by
  intro P H
  refine ⟨classify_of_short_period, fun hP hlow hclamp => ?_, fun hP hhigh hclamp => ?_, fun hP hlow hhigh => ?_⟩
  · have hclamped := classify_of_clamped_low hP hlow hclamp
    exact ⟨hclamped, hclamped ▸ rfl⟩
  · have hclamped := classify_of_clamped_high hP hhigh hclamp
    exact ⟨hclamped, hclamped ▸ rfl⟩
  · have hpos : 0 < P := by omega
    obtain ⟨hbelow, habove⟩ := conversion_nearest_tenth hpos H
    exact ⟨conversion P H, classify_of_valid hP hlow hhigh, tempMin_le_conversion hpos hlow,
      conversion_le_tempMax hpos hhigh, hbelow, habove, conversion_of_tenth hpos, conversion_of_nine_tenths hpos⟩

/-- Settles O18: the duty faults of R30 and the other rows of TABLE 2-5, each by its own clause. -/
theorem measurementsClassified : Obligations.MeasurementsClassified :=
  ⟨dutyFaultsClassified, measurementConverted⟩

end Sys2Proof.Machine
end

