-- ==== Sys2Proof/Proofs/FilterSteps.lean ====
section
/-!
PROOFS. The step of a seeded filter (R46). Warming has one closed form, S + max (delta·k / 16) 1; cooling is its mirror
image, because truncation toward zero treats both alike.
-/
namespace Sys2Proof.Machine

/-! ### The step itself -/

@[simp] theorem filterStep_self (k : Nat) (S : Int) : filterStep k S S = S := by
  simp [filterStep]

/-- A filter cools as its mirror image warms. -/
theorem filterStep_neg (k : Nat) (S T : Int) : filterStep k (-S) (-T) = -filterStep k S T := by
  have hdelta : -T - -S = -(T - S) := by ring
  simp only [filterStep, hdelta, Int.neg_mul, Int.neg_tdiv, Int.sign_neg, neg_eq_zero]
  split <;> ring

/-- A warming filter rises by the truncated step, and by no less than one tenth. -/
theorem filterStep_of_lt (k : Nat) {S T : Int} (hwarm : S < T) :
    filterStep k S T = S + max ((T - S) * k / 16) 1 := by
  have hproduct : 0 ≤ (T - S) * k := mul_nonneg (by omega) (Nat.cast_nonneg k)
  have htruncated : ((T - S) * k).tdiv 16 = (T - S) * k / 16 := Int.tdiv_eq_ediv_of_nonneg hproduct
  have hsign : (T - S).sign = 1 := Int.sign_eq_one_of_pos (by omega)
  simp only [filterStep, htruncated, hsign]
  split
  next hzero => rw [hzero, max_eq_right zero_le_one]
  next hstep => rw [max_eq_left (by omega)]

/-! ### Warming -/

section Warming
variable {k : Nat} {S T : Int}

theorem lt_of_product_pos (hproduct : 0 < (T - S) * k) : S < T :=
  sub_pos.mp (pos_of_mul_pos_left hproduct (Nat.cast_nonneg k))

theorem filterStep_of_sixteen_le (hproduct : 16 ≤ (T - S) * k) :
    filterStep k S T = S + (T - S) * k / 16 := by
  have hwarm : S < T := lt_of_product_pos (k := k) (by omega)
  rw [filterStep_of_lt k hwarm, max_eq_left (by omega)]

theorem filterStep_of_lt_sixteen (hpos : 0 < (T - S) * k) (hproduct : (T - S) * k < 16) :
    filterStep k S T = S + 1 := by
  rw [filterStep_of_lt k (lt_of_product_pos hpos), max_eq_right (by omega)]

/-- The step is at least 0 and, because k is at most 16, at most delta. -/
theorem filterStep_bounds_of_le (hk : k ≤ 16) (hwarm : S ≤ T) :
    S ≤ filterStep k S T ∧ filterStep k S T ≤ T := by
  obtain hlt | rfl := hwarm.lt_or_eq
  · have hproduct : (T - S) * k ≤ (T - S) * 16 := mul_le_mul_of_nonneg_left (by omega) (by omega)
    have hatLeast : 1 ≤ max ((T - S) * k / 16) 1 := le_max_right _ _
    have hatMost : max ((T - S) * k / 16) 1 ≤ T - S := max_le (by omega) (by omega)
    rw [filterStep_of_lt k hlt]
    exact ⟨by linarith, by linarith⟩
  · simp

theorem filterStep_sixteen_of_le (hwarm : S ≤ T) : filterStep 16 S T = T := by
  obtain hlt | rfl := hwarm.lt_or_eq
  · rw [filterStep_of_lt 16 hlt, Nat.cast_ofNat, Int.mul_ediv_cancel _ (by decide), max_eq_left (by omega),
      add_sub_cancel]
  · simp

theorem filterStep_of_delta_one (hk : k ≤ 16) (hdelta : T - S = 1) : filterStep k S T = T := by
  rw [filterStep_of_lt k (by omega), hdelta, max_eq_right (by omega), ← hdelta, add_sub_cancel]

end Warming

/-! ### Both directions -/

section BothDirections
variable {k : Nat} {S T : Int}

theorem filterStep_between (hk : k ≤ 16) : min S T ≤ filterStep k S T ∧ filterStep k S T ≤ max S T := by
  obtain hwarm | hcool := le_total S T
  · rw [min_eq_left hwarm, max_eq_right hwarm]
    exact filterStep_bounds_of_le hk hwarm
  · have hmirror := filterStep_bounds_of_le hk (neg_le_neg hcool)
    rw [filterStep_neg, neg_le_neg_iff, neg_le_neg_iff] at hmirror
    rw [min_eq_right hcool, max_eq_left hcool]
    exact hmirror.symm

theorem filterStep_sixteen (S T : Int) : filterStep 16 S T = T := by
  obtain hwarm | hcool := le_total S T
  · exact filterStep_sixteen_of_le hwarm
  · exact neg_injective (filterStep_neg 16 S T ▸ filterStep_sixteen_of_le (neg_le_neg hcool))

theorem filterStep_of_delta_neg_one (hk : k ≤ 16) (hdelta : T - S = -1) : filterStep k S T = T :=
  neg_injective (filterStep_neg k S T ▸ filterStep_of_delta_one hk (by omega))

theorem filterStep_of_le_neg_sixteen (hproduct : (T - S) * k ≤ -16) :
    filterStep k S T = S - (S - T) * k / 16 := by
  have hdelta : -T - -S = S - T := by ring
  have hneg : (S - T) * k = -((T - S) * k) := by ring
  have hmirror : filterStep k (-S) (-T) = -S + (-T - -S) * k / 16 :=
    filterStep_of_sixteen_le (by rw [hdelta]; omega)
  rw [filterStep_neg, hdelta] at hmirror
  linarith

theorem filterStep_of_neg_sixteen_lt (hproduct : -16 < (T - S) * k) (hneg : (T - S) * k < 0) :
    filterStep k S T = S - 1 := by
  have hmirrored : (-T - -S) * k = -((T - S) * k) := by ring
  have hmirror : filterStep k (-S) (-T) = -S + 1 := filterStep_of_lt_sixteen (by omega) (by omega)
  rw [filterStep_neg] at hmirror
  linarith

end BothDirections

/-- Settles O19: the closed form of the step gives each clause, the range from the filter's lying between its old value
and the reading. -/
theorem filterStepNeverPassesReading : Obligations.FilterStepNeverPassesReading := by
  intro k S T _ hk
  obtain ⟨hlower, hupper⟩ := filterStep_between (S := S) (T := T) hk
  refine ⟨⟨hlower, hupper⟩, ?still, ?reached, filterStep_of_sixteen_le, filterStep_of_le_neg_sixteen, ?rises, ?falls,
    ?range⟩
  case still =>
    rintro rfl
    exact filterStep_self k S
  case reached =>
    rintro (rfl | hone | hnegOne)
    · exact filterStep_sixteen S T
    · exact filterStep_of_delta_one hk hone
    · exact filterStep_of_delta_neg_one hk hnegOne
  case rises => exact fun ⟨hpos, hlt⟩ => filterStep_of_lt_sixteen hpos hlt
  case falls => exact fun ⟨hlt, hneg⟩ => filterStep_of_neg_sixteen_lt hlt hneg
  case range =>
    rintro ⟨hSlow, hShigh, hTlow, hThigh⟩
    exact ⟨(le_min hSlow hTlow).trans hlower, hupper.trans (max_le hShigh hThigh)⟩

end Sys2Proof.Machine
end

