-- ==== Sys2Proof/Proofs/Charging.lean ====
section
/-!
PROOFS. One charge of a record (R74 to R84): the sums and peaks it leaves, the candidate for each cause of TABLE 5-4,
and the running maximum with the verdict it had.
-/
namespace Sys2Proof.Machine

/-! ### The sums and the peaks (R75 to R82) -/

section Sums
variable (r : Record) (grace : Bool) (secs time : Nat)

/-- The warm excess goes to one of two accounts, by the grace flag. -/
theorem charge_warm_some (x : Temps) :
    (charge r (some x) grace secs time).warm =
      if grace then r.warm else min (r.warm + (x.warm - r.limits.tmax).toNat * min secs 1210) 4294967295 :=
  rfl

theorem charge_door_some (x : Temps) :
    (charge r (some x) grace secs time).door =
      if grace then min (r.door + (x.warm - r.limits.tmax).toNat * min secs 1210) 4294967295 else r.door :=
  rfl

theorem charge_peaks_some (x : Temps) :
    (charge r (some x) grace secs time).peaks = some (peaksWith r.peaks x) :=
  rfl

variable {r}

theorem charge_cold_of_no_limit (hlimit : r.limits.cold = none) (x : Temps) :
    (charge r (some x) grace secs time).cold = min r.cold 4294967295 := by
  simp only [charge, hlimit, satAdd, Config.max32, Nat.add_zero]

theorem charge_cold_of_limit {l : ColdLimit} (hlimit : r.limits.cold = some l) (x : Temps) :
    (charge r (some x) grace secs time).cold =
      min (r.cold + (l.tmin - x.cold).toNat * min secs 1210) 4294967295 := by
  simp only [charge, hlimit, satAdd, Config.max32, excess, Config.appliedLimit]

end Sums

/-! ### The verdict of a charge (R83, R84) -/

/-- A summary's temperatures above the ceiling of the limits. -/
def Limits.ceilingCrossed (l : Limits) (temps : Option Temps) : Bool :=
  temps.any fun x => l.ceiling.any fun c => decide (c < x.warm)

/-- A summary's temperatures below the floor of the limits. -/
def Limits.floorCrossed (l : Limits) (temps : Option Temps) : Bool :=
  temps.any fun x => l.floor.any fun f => decide (x.cold < f)

theorem Limits.ceilingCrossed_iff (l : Limits) (temps : Option Temps) :
    l.ceilingCrossed temps = true ↔ ∃ x c, temps = some x ∧ l.ceiling = some c ∧ c < x.warm := by
  simp [ceilingCrossed, Option.any_eq_true]

theorem Limits.floorCrossed_iff (l : Limits) (temps : Option Temps) :
    l.floorCrossed temps = true ↔ ∃ x f, temps = some x ∧ l.floor = some f ∧ x.cold < f := by
  simp [floorCrossed, Option.any_eq_true]

@[simp] theorem charge_limits (r : Record) (temps : Option Temps) (grace : Bool) (secs time : Nat) :
    (charge r temps grace secs time).limits = r.limits := by
  cases temps <;> rfl

/-- The verdict is raised to the candidate of the accounts as the charge leaves them. -/
theorem charge_verdict (r : Record) (temps : Option Temps) (grace : Bool) (secs time : Nat) :
    (charge r temps grace secs time).verdict =
      r.verdict.raise
        (candidate (charge r temps grace secs time) (r.limits.ceilingCrossed temps) (r.limits.floorCrossed temps)
          time) := by
  cases temps <;> rfl

/-! ### The running maximum (R84) -/

theorem Verdict.raise_to_breached {old : Verdict} (hold : old.rank < 3) (cause : BreachCause) (time : Nat) :
    old.raise (.breached cause time) = .breached cause time :=
  if_pos hold

theorem Verdict.raise_to_unproven {old : Verdict} (hold : old.rank < 3) : old.raise .unproven = .unproven := by
  cases old with
  | intact | excursion | unproven => rfl
  | breached => exact absurd hold (lt_irrefl 3)

/-- A candidate below UNPROVEN moves an INTACT verdict only. -/
theorem Verdict.raise_to_unbreached (old : Verdict) (p : Prop) [Decidable p] :
    old.raise (if p then .excursion else .intact) = if old.rank = 0 ∧ p then .excursion else old := by
  by_cases hp : p
  · cases old <;> simp [raise, rank, hp]
  · simp [raise, rank, hp]

/-! ### The candidate, cause by cause (R83, TABLE 5-3, TABLE 5-4) -/

theorem warmOver_iff (r : Record) : warmOver r = true ↔ r.limits.warmBudget < r.warm :=
  decide_eq_true_iff

theorem coldOver_iff (r : Record) : coldOver r = true ↔ ∃ l, r.limits.cold = some l ∧ l.budget < r.cold := by
  simp [coldOver, Option.any_eq_true]

section Candidate
variable {r : Record} {ceiling floor : Bool}

theorem candidate_of_ceiling (hceiling : ceiling = true) (time : Nat) :
    candidate r ceiling floor time = .breached .warmCeiling time :=
  if_pos hceiling

variable (hceiling : ¬ ceiling = true)
include hceiling

theorem candidate_of_floor (hfloor : floor = true) (time : Nat) :
    candidate r ceiling floor time = .breached .coldFloor time := by
  rw [candidate, if_neg hceiling, if_pos hfloor]

variable (hfloor : ¬ floor = true)
include hfloor

theorem candidate_of_warmOver (hwarm : warmOver r = true) (time : Nat) :
    candidate r ceiling floor time = .breached .warmBudget time := by
  rw [candidate, if_neg hceiling, if_neg hfloor, if_pos hwarm]

variable (hwarm : ¬ warmOver r = true)
include hwarm

theorem candidate_of_coldOver (hcold : coldOver r = true) (time : Nat) :
    candidate r ceiling floor time = .breached .coldBudget time := by
  rw [candidate, if_neg hceiling, if_neg hfloor, if_neg hwarm, if_pos hcold]

variable (hcold : ¬ coldOver r = true)
include hcold

theorem candidate_of_gapOver (hgap : r.limits.gapAllowance < r.gap) (time : Nat) :
    candidate r ceiling floor time = .unproven := by
  rw [candidate, if_neg hceiling, if_neg hfloor, if_neg hwarm, if_neg hcold, if_pos hgap]

theorem candidate_of_no_cause (hgap : ¬ r.limits.gapAllowance < r.gap) (time : Nat) :
    candidate r ceiling floor time = if 0 < r.warm ∨ 0 < r.cold then .excursion else .intact := by
  rw [candidate, if_neg hceiling, if_neg hfloor, if_neg hwarm, if_neg hcold, if_neg hgap]

end Candidate

/-- Settles O22: each account has its equation, and the verdict is raised to the candidate of the first cause that
applies. -/
theorem chargeFollowsTheStages : Obligations.ChargeFollowsTheStages := by
  intro r temps grace secs time _ c cap applied
  refine ⟨?frame, ?noTemps, ?withTemps, ?verdict⟩
  case frame => cases temps <;> rfl
  case noTemps =>
    rintro rfl
    exact ⟨rfl, rfl, rfl, rfl, rfl⟩
  case withTemps =>
    rintro x rfl
    have hpeaks : c.peaks = some (peaksWith r.peaks x) := charge_peaks_some r grace secs time x
    exact ⟨charge_warm_some r grace secs time x, charge_door_some r grace secs time x,
      fun hlimit => charge_cold_of_no_limit grace secs time hlimit x,
      fun l hlimit => charge_cold_of_limit grace secs time hlimit x, rfl,
      fun hnone => by rw [hpeaks, hnone]; rfl, fun p hsome => by rw [hpeaks, hsome]; rfl⟩
  case verdict =>
    have hlimits : c.limits = r.limits := charge_limits r temps grace secs time
    have hverdict : c.verdict = _ := charge_verdict r temps grace secs time
    have hwarm := warmOver_iff c
    have hcold := coldOver_iff c
    rw [hlimits] at hwarm hcold
    rw [← Limits.ceilingCrossed_iff, ← Limits.floorCrossed_iff, ← hwarm, ← hcold, hverdict, ← hlimits]
    refine ⟨Verdict.raise_breached _ _, fun hold => ⟨?ceiling, ?floor, ?warm, ?cold, ?gap, ?noCause⟩⟩
    case ceiling =>
      intro hc
      rw [candidate_of_ceiling hc, Verdict.raise_to_breached hold]
    case floor =>
      intro hc hf
      rw [candidate_of_floor hc hf, Verdict.raise_to_breached hold]
    case warm =>
      intro hc hf hw
      rw [candidate_of_warmOver hc hf hw, Verdict.raise_to_breached hold]
    case cold =>
      intro hc hf hw hk
      rw [candidate_of_coldOver hc hf hw hk, Verdict.raise_to_breached hold]
    case gap =>
      intro hc hf hw hk hg
      rw [candidate_of_gapOver hc hf hw hk hg, Verdict.raise_to_unproven hold]
    case noCause =>
      intro hc hf hw hk hg
      rw [candidate_of_no_cause hc hf hw hk hg, Verdict.raise_to_unbreached]

end Sys2Proof.Machine
end

