-- ==== Sys2Proof/Proofs/HandoverRules.lean ====
section
/-!
PROOFS. Rules the handover statements share: when the transmit queue takes a telegram, how an id is looked up, what a
closed offer and a settled ACCEPT leave, and the legs of a record that has moved on.
-/
namespace Sys2Proof.Machine

/-! ### Room in the transmit queue (R118) -/

theorem send_taken_of_room {s : State} (hmode : s.mode.queues = true) (hroom : s.bus.queue.length < 8)
    (t : TxTelegram) (o : Origin) : (send s t o).2 = true := by
  simp [send_taken, hmode, hroom, Config.queueSlots]

theorem send_of_full {s : State} (hfull : 8 ≤ s.bus.queue.length) (t : TxTelegram) (o : Origin) :
    send s t o = (s, false) := by
  have hnoRoom : ¬ s.bus.queue.length < Config.queueSlots := Nat.not_lt.mpr hfull
  simp [send, hnoRoom]

/-! ### Looking an id up -/

theorem find_isSome_iff (s : State) (id : Nat) :
    (s.find id).isSome = true ↔ ∃ h ∈ s.domain.custody, h.record.id = id := by
  simp [State.find]

theorem eq_of_custody_id {s : State} (hlaw : s.custodyLaw) {x y : Holding} (hx : x ∈ s.domain.custody)
    (hy : y ∈ s.domain.custody) (hid : x.record.id = y.record.id) : x = y :=
  List.inj_on_of_nodup_map hlaw.2 hx hy hid

/-- Removing an id that only the last place of the table bears leaves the places before it. -/
theorem filter_append_last {l : List Holding} {h : Holding} (hnew : ∀ x ∈ l, x.record.id ≠ h.record.id) :
    (l ++ [h]).filter (·.record.id ≠ h.record.id) = l := by
  simpa [List.filter_append] using hnew

/-- An id new to the table is looked up to the place appended for it. -/
theorem find_append_last {s : State} {h : Holding} (hnew : ∀ x ∈ s.domain.custody, x.record.id ≠ h.record.id) :
    (s.withCustody (s.domain.custody ++ [h])).find h.record.id = some h := by
  have hmissing : s.domain.custody.find? (·.record.id == h.record.id) = none := by
    simpa [List.find?_eq_none] using hnew
  simp [State.find, List.find?_append, hmissing]

/-! ### What outcomes do to offers and arrivals (R95, R99, R100) -/

/-- An OFFER not acknowledged closes its offer; the full queue refuses the REPLY. -/
theorem offerResolved_of_full {s : State} {id : Nat} {o : Offer} {oc : SendOutcome}
    (hfind : s.offers.find? (fun x => x.id == id && x.phase == .sending) = some o) (hoc : oc ≠ .acked)
    (hfull : 8 ≤ s.bus.queue.length) : offerResolved s id oc = closeOffer s id := by
  have hrefused : 8 ≤ (closeOffer s id).bus.queue.length := by rwa [closeOffer_eq]
  simp only [offerResolved, hfind, if_neg hoc, answerMoveFailed, sendPlain, send_of_full hrefused]

section Arrival
variable {s : State} {h : Holding} {receipt sender id : Nat}

/-- An acknowledged ACCEPT: the record is HELD with its new leg, its drop is withdrawn, and it is put to the buddy. -/
theorem acceptResolved_of_acked (hfind : s.find id = some h) (hstate : h.state = .arriving receipt sender) :
    Sends
      { s with
        domain :=
          { s.domain with
            drops := s.domain.drops.filter (· ≠ id)
            custody := s.domain.custody.map fun x =>
              if x.record.id = id then { x with record := acceptedRecord s h.record receipt, state := .held } else x } }
      (acceptResolved s id .acked) (s.putLetters (acceptedRecord s h.record receipt)) := by
  simp only [acceptResolved, hfind, hstate, if_true, updateHolding_eq]
  exact putToBuddy_sends _ _

theorem acceptResolved_of_not_acked {oc : SendOutcome} (hfind : s.find id = some h)
    (hstate : h.state = .arriving receipt sender) (hoc : oc ≠ .acked) : acceptResolved s id oc = s.remove id := by
  simp only [acceptResolved, hfind, hstate, if_neg hoc]

end Arrival

/-! ### Legs (R9) -/

theorem dropSecond_eq_eraseIdx (ls : List Leg) : dropSecond ls = ls.eraseIdx 1 := by
  match ls with
  | [] => rfl
  | [_] => rfl
  | _ :: _ :: _ => rfl

section Legs
variable (r : Record) (exitTime : Nat) (leg : Leg)

/-- An added leg changes the legs and the elided count, and no other field. -/
theorem addLeg_frame :
    addLeg r exitTime leg =
      { r with legs := (addLeg r exitTime leg).legs, elided := (addLeg r exitTime leg).elided } := by
  rw [addLeg_eq]
  split <;> rfl

theorem addLeg_getLast? : (addLeg r exitTime leg).legs.getLast? = some leg := by
  rw [addLeg_eq]
  split <;> exact List.getLast?_concat

variable {r}

theorem addLeg_of_room (hroom : r.legs.length < 6) :
    addLeg r exitTime leg = { r with legs := closeLast r.legs exitTime ++ [leg] } := by
  rw [addLeg_eq, if_neg (Nat.not_le.mpr hroom)]

theorem addLeg_of_six (hsix : r.legs.length = 6) :
    addLeg r exitTime leg =
      { r with legs := (closeLast r.legs exitTime).eraseIdx 1 ++ [leg], elided := min (r.elided + 1) 255 } := by
  rw [addLeg_eq, if_pos hsix.ge, dropSecond_eq_eraseIdx]

theorem eraseIdx_closeLast_length_of_six (hsix : r.legs.length = 6) :
    ((closeLast r.legs exitTime).eraseIdx 1).length = 5 := by
  simp [List.length_eraseIdx, closeLast_length, hsix]

end Legs

end Sys2Proof.Machine
end

