-- ==== Sys2Proof/Proofs/MoveOffer.lean ====
section
/-!
PROOFS. A MOVE that passes its tests (R92, R93, R95): the offer it opens, the OFFER the queue takes, and why a full
queue leaves everything as it was.
-/
namespace Sys2Proof.Machine

/-- The state once the offer has opened and before its OFFER is offered to the queue (R93). -/
def State.offerOpened (s : State) (id k target requester : Nat) : State :=
  (s.updateHolding id (Holding.setState .offered)).withOffers (s.offers ++ [⟨id, target, requester, k, .sending⟩])

section Opening
variable {s : State} {h : Holding} {k target requester : Nat}

theorem offerOpened_eq (s : State) (id k target requester : Nat) :
    s.offerOpened id k target requester =
      { s with
        offers := s.offers ++ [⟨id, target, requester, k, .sending⟩]
        domain :=
          { s.domain with
            custody := s.domain.custody.map fun x =>
              if x.record.id = id then { x with state := .offered } else x } } := by
  rw [State.offerOpened, updateHolding_eq]
  rfl

/-- The OFFER is offered to the queue; refused, its outcome is at once QUEUE_FULL (R95). -/
theorem openOffer_eq (s : State) (h : Holding) (k target requester : Nat) :
    openOffer s h k target requester =
      let opened := s.offerOpened h.record.id k target requester
      let offered := send opened (offerTelegram s h k target) (.offer h.record.id)
      if offered.2 then offered.1 else offerResolved offered.1 h.record.id .queueFull :=
  rfl

theorem openOffer_of_room (hmode : s.mode.queues = true) (hroom : s.bus.queue.length < 8) :
    openOffer s h k target requester =
      (send (s.offerOpened h.record.id k target requester) (offerTelegram s h k target) (.offer h.record.id)).1 := by
  have htaken := send_taken_of_room (s := s.offerOpened h.record.id k target requester) hmode hroom
  simp only [openOffer_eq, htaken, if_true]

/-- Closing the offer just opened for a HELD record gives back the table and the offers. -/
theorem closeOffer_offerOpened (hlaw : s.custodyLaw) (hmem : h ∈ s.domain.custody) (hheld : h.state = .held)
    (hnew : ∀ o ∈ s.offers, o.id ≠ h.record.id) :
    closeOffer (s.offerOpened h.record.id k target requester) h.record.id = s := by
  have hoffers : (s.offers ++ [(⟨h.record.id, target, requester, k, .sending⟩ : Offer)]).filter
      (·.id ≠ h.record.id) = s.offers := by
    simpa [List.filter_append] using hnew
  have hcustody : ((s.domain.custody.map fun x =>
        if x.record.id = h.record.id then { x with state := .offered } else x).map fun x =>
      if x.record.id = h.record.id ∧ x.state = .offered then { x with state := .held } else x) =
      s.domain.custody := by
    rw [List.map_map]
    refine (List.map_congr_left fun x hx => ?_).trans (List.map_id _)
    by_cases hid : x.record.id = h.record.id
    · obtain rfl := eq_of_custody_id hlaw hx hmem hid
      simp [← hheld]
    · simp [hid]
  rw [closeOffer_eq, offerOpened_eq]
  dsimp only
  rw [hoffers, hcustody]

/-- R95: with the queue full the offer has opened and closed at once. -/
theorem openOffer_of_full (hfull : 8 ≤ s.bus.queue.length) (hlaw : s.custodyLaw) (hmem : h ∈ s.domain.custody)
    (hheld : h.state = .held) (hnew : ∀ o ∈ s.offers, o.id ≠ h.record.id) :
    openOffer s h k target requester = s := by
  have hrefused := send_of_full (s := s.offerOpened h.record.id k target requester) hfull
  have hfind : (s.offers ++ [(⟨h.record.id, target, requester, k, .sending⟩ : Offer)]).find?
      (fun x => x.id == h.record.id && x.phase == .sending) = some ⟨h.record.id, target, requester, k, .sending⟩ := by
    have hold : s.offers.find? (fun x => x.id == h.record.id && x.phase == .sending) = none := by
      rw [List.find?_eq_none]
      intro o ho
      simp [hnew o ho]
    simp [List.find?_append, hold]
  calc openOffer s h k target requester
      = offerResolved (s.offerOpened h.record.id k target requester) h.record.id .queueFull := by
        simp only [openOffer_eq, hrefused, Bool.false_eq_true, if_false]
    _ = closeOffer (s.offerOpened h.record.id k target requester) h.record.id :=
        offerResolved_of_full hfind (by decide) hfull
    _ = s := closeOffer_offerOpened hlaw hmem hheld hnew

end Opening

/-- R92: a MOVE that passes every test opens an offer to the one LIVE recorder of its compartment. -/
theorem takeMove_of_tests {s : State} {m : RxTelegram} {h : Holding} {e : RosterEntry} (hmode : s.mode = .active)
    (hlength : m.payload.length = 7) (hfind : s.find (field m.payload 0 6) = some h) (hheld : h.state = .held)
    (hid : field m.payload 0 6 ≠ 0) (hlow : 1 ≤ field m.payload 6 1) (hhigh : field m.payload 6 1 ≤ 15)
    (hother : s.committed.compartment ≠ some (field m.payload 6 1)) (hslot : s.offers.length < 2)
    (hlive : liveAt s (field m.payload 6 1) = [e]) :
    takeMove m s = openOffer s h (field m.payload 6 1) e.address m.sender := by
  have hrange : ¬ (field m.payload 6 1 = 0 ∨ 15 < field m.payload 6 1) := by omega
  have hfree : ¬ Config.offerSlots ≤ s.offers.length := Nat.not_le.mpr hslot
  simp [takeMove, hlength, hmode, Mode.refusal, hid, hrange, hfind, hheld, hother, hfree, hlive]

theorem exec_move_front {s : State} {m : RxTelegram} {rest : List RxTelegram} (hfront : s.front .move m rest) :
    exec .move s = .next (takeMove m (s.withRx rest)) :=
  congrArg Host.Outcome.next (taking_front s .move m rest takeMove hfront)

/-- Settles O28: the tests lead to `openOffer`, whose OFFER the queue takes, or refuses when it is full. -/
theorem moveOpensOffer : Obligations.MoveOpensOffer := by
  intro s m rest h e hfront hmode hlength hlaw hmem hid hheld hnonzero hlow hhigh hother hslot hnew hlive
  have hfind : s.find (field m.payload 0 6) = some h := hid ▸ find_of_mem s h hlaw hmem
  have hopens := takeMove_of_tests (s := s.withRx rest) hmode hlength hfind hheld (hid ▸ hnonzero) hlow hhigh hother
    hslot hlive
  refine ⟨_, (exec_move_front hfront).trans (congrArg _ hopens), fun hroom => ?_, fun hfull => ?_⟩
  · have hqueues : (s.withRx rest).mode.queues = true := by simp [hmode, Mode.queues]
    rw [openOffer_of_room hqueues hroom, offerOpened_eq]
    exact send_sends _ _ _
  · exact openOffer_of_full hfull hlaw hmem hheld hnew

end Sys2Proof.Machine
end

