-- ==== Sys2Proof/Proofs/OfferTaken.lean ====
section
/-!
PROOFS. An OFFER taken from the receive buffer (R97, R98, R100, R116): each decline of TABLE 6-4 in its order, the
admission as ARRIVING, and the admission undone where the queue refuses the ACCEPT.
-/
namespace Sys2Proof.Machine

/-! ### The four tests (R97) -/

section Tests
variable {s : State} {k id : Nat}

theorem declineReason_of_not_active (hmode : s.mode ≠ .active) : declineReason s k id = some 1 :=
  if_pos hmode

variable (hmode : s.mode = .active)
include hmode

theorem declineReason_of_mismatch (hmine : s.committed.compartment ≠ some k) : declineReason s k id = some 2 := by
  rw [declineReason, if_neg (not_not.mpr hmode), if_pos hmine]
  rfl

variable (hmine : s.committed.compartment = some k)
include hmine

theorem declineReason_of_known (hknown : ∃ h ∈ s.domain.custody, h.record.id = id) :
    declineReason s k id = some 3 := by
  rw [declineReason, if_neg (not_not.mpr hmode), if_neg (not_not.mpr hmine), if_pos ((find_isSome_iff s id).mpr hknown)]
  rfl

variable (hnew : ¬ ∃ h ∈ s.domain.custody, h.record.id = id)
include hnew

theorem declineReason_of_unknown :
    declineReason s k id = if 48 ≤ s.domain.custody.length then some 4 else none := by
  rw [declineReason, if_neg (not_not.mpr hmode), if_neg (not_not.mpr hmine), if_neg (mt (find_isSome_iff s id).mp hnew)]
  rfl

end Tests

/-! ### The admission (R98, R100) -/

section Admission
variable {s : State} {sender u : Nat} {r : Record}

/-- The place of an offered record in the Custody Table of its target (R98). -/
def arrival (s : State) (sender u : Nat) (r : Record) : Holding :=
  ⟨r, s.domain.clock - u, .arriving s.domain.clock sender⟩

/-- The state with the offered record admitted and its ACCEPT not yet offered to the queue. -/
def State.arrived (s : State) (sender u : Nat) (r : Record) : State :=
  s.withCustody (s.domain.custody ++ [arrival s sender u r])

/-- The ACCEPT is offered to the queue; refused, its outcome is at once QUEUE_FULL (R98, R100). -/
theorem admitOffer_eq (s : State) (sender u : Nat) (r : Record) :
    admitOffer s sender u r =
      let offered := send (s.arrived sender u r) ⟨sender, .accept, beBytes 6 r.id⟩ (.accept r.id)
      if offered.2 then offered.1 else acceptResolved offered.1 r.id .queueFull :=
  rfl

theorem admitOffer_of_room (hmode : s.mode.queues = true) (hroom : s.bus.queue.length < 8) :
    Sends (s.arrived sender u r) (admitOffer s sender u r) [(⟨sender, .accept, beBytes 6 r.id⟩, .accept r.id)] := by
  have htaken := send_taken_of_room (s := s.arrived sender u r) hmode hroom
  simp only [admitOffer_eq, htaken, if_true]
  exact send_sends _ _ _

/-- R100: the record whose ACCEPT the full queue refuses is removed again. -/
theorem admitOffer_of_full (hfull : 8 ≤ s.bus.queue.length) (hnew : ¬ ∃ h ∈ s.domain.custody, h.record.id = r.id) :
    (admitOffer s sender u r).domain = s.domain ∧ (admitOffer s sender u r).offers = s.offers ∧
      (admitOffer s sender u r).mode = s.mode := by
  have hothers : ∀ x ∈ s.domain.custody, x.record.id ≠ r.id := fun x hx hid => hnew ⟨x, hx, hid⟩
  have hrefused := send_of_full (s := s.arrived sender u r) hfull
  have hfind : (s.arrived sender u r).find r.id = some (arrival s sender u r) :=
    find_append_last (h := arrival s sender u r) hothers
  have hremoved : admitOffer s sender u r = (s.arrived sender u r).remove r.id :=
    calc admitOffer s sender u r
        = acceptResolved (s.arrived sender u r) r.id .queueFull := by
          simp only [admitOffer_eq, hrefused, Bool.false_eq_true, if_false]
      _ = (s.arrived sender u r).remove r.id := acceptResolved_of_not_acked hfind rfl (by decide)
  have hcustody : (s.arrived sender u r).domain.custody.filter (·.record.id ≠ r.id) = s.domain.custody :=
    filter_append_last (h := arrival s sender u r) hothers
  rw [hremoved, remove_eq _ r.id ⟨arrival s sender u r, by simp [State.arrived], rfl⟩, hcustody]
  exact ⟨rfl, rfl, rfl⟩

end Admission

/-! ### Taking an OFFER -/

section Taking
variable {s : State} {m : RxTelegram}

/-- R116: an OFFER of another length, or whose record fails its check, is passed over. -/
theorem takeOffer_of_useless (huseless : m.payload.length ≠ 131 ∨ recordCheck (recordAt m.payload 5) = false) :
    takeOffer m s = s := by
  obtain hlength | hcheck := huseless
  · exact if_pos hlength
  · simp [takeOffer, hcheck]

variable (hlength : m.payload.length = 131) (hcheck : recordCheck (recordAt m.payload 5) = true)
include hlength hcheck

theorem takeOffer_of_declined {why : Nat}
    (hwhy : declineReason s (field m.payload 0 1) (recordAt m.payload 5).id = some why) :
    takeOffer m s = sendPlain s ⟨m.sender, .decline, beBytes 6 (recordAt m.payload 5).id ++ beBytes 1 why⟩ := by
  simp [takeOffer, hlength, hcheck, hwhy]

theorem takeOffer_of_admitted
    (hnone : declineReason s (field m.payload 0 1) (recordAt m.payload 5).id = none) :
    takeOffer m s = admitOffer s m.sender (field m.payload 1 4) (recordAt m.payload 5) := by
  simp [takeOffer, hlength, hcheck, hnone]

end Taking

theorem exec_offer_front {s : State} {m : RxTelegram} {rest : List RxTelegram} (hfront : s.front .offer m rest) :
    exec .offer s = .next (takeOffer m (s.withRx rest)) :=
  congrArg Host.Outcome.next (taking_front s .offer m rest takeOffer hfront)

/-- Settles O33: the reason of the first failing test is declined with, and an OFFER without one is admitted. -/
theorem offerAdmittedOrDeclined : Obligations.OfferAdmittedOrDeclined := by
  intro s m rest hfront
  refine ⟨fun huseless => ?_, fun hlength hcheck => ?_⟩
  · rw [exec_offer_front hfront, takeOffer_of_useless huseless]
  intro r declined known mine
  have hdeclined : ∀ why, declineReason (s.withRx rest) (field m.payload 0 1) r.id = some why → declined why := by
    intro why hwhy
    refine ⟨_, exec_offer_front hfront, ?_⟩
    rw [takeOffer_of_declined hlength hcheck hwhy]
    exact sendPlain_sends _ _
  refine ⟨fun hmode => ?_, fun hmode hmine => ?_, fun hmode hmine hknown => ?_, fun hmode hmine hnew hslots => ?_,
    fun hmode hmine hnew hslots => ?_⟩
  · exact hdeclined 1 (declineReason_of_not_active hmode)
  · exact hdeclined 2 (declineReason_of_mismatch hmode hmine)
  · exact hdeclined 3 (declineReason_of_known hmode hmine hknown)
  · exact hdeclined 4 ((declineReason_of_unknown hmode hmine hnew).trans (if_pos hslots))
  · have hnone : declineReason (s.withRx rest) (field m.payload 0 1) r.id = none :=
      (declineReason_of_unknown hmode hmine hnew).trans (if_neg (Nat.not_le.mpr hslots))
    have hqueues : (s.withRx rest).mode.queues = true := by simp [hmode, Mode.queues]
    exact ⟨_, (exec_offer_front hfront).trans (congrArg _ (takeOffer_of_admitted hlength hcheck hnone)),
      fun hroom => admitOffer_of_room hqueues hroom, fun hfull => admitOffer_of_full hfull hnew⟩

end Sys2Proof.Machine
end

