-- ==== Sys2Proof/Proofs/AcceptOutcome.lean ====
section
/-!
PROOFS. The outcome of an ACCEPT (R99, R100, R122): acknowledged, the ARRIVING record is HELD with a leg of its own;
otherwise it leaves the table.
-/
namespace Sys2Proof.Machine

/-! ### The slot's outcome and its counters (R113, R121, R124) -/

theorem slotOutcome_of_acked {e : TxEntry} (hwhole : e.spoiled = false) : slotOutcome e true = .acked := by
  simp [slotOutcome, hwhole]

theorem slotOutcome_ne_acked {e : TxEntry} {acked : Bool} (hlost : acked = false ∨ e.spoiled = true) :
    slotOutcome e acked ≠ .acked := by
  obtain rfl | hspoiled := hlost
  · cases hs : e.spoiled <;> simp [slotOutcome, hs]
  · simp [slotOutcome, hspoiled]

/-- A spoiled telegram's slot counts nothing; another, not acknowledged, counts as sent and not acknowledged. -/
theorem count_slotOutcome_of_lost (c : Counters) {e : TxEntry} {acked : Bool}
    (hlost : acked = false ∨ e.spoiled = true) :
    c.count (slotOutcome e acked) = if e.spoiled then c else c.slot false := by
  cases hspoiled : e.spoiled with
  | true => simp [slotOutcome, hspoiled, Counters.count]
  | false =>
    obtain rfl : acked = false := by simpa [hspoiled] using hlost
    simp [slotOutcome, hspoiled, Counters.count, Counters.slot]

/-! ### The record HELD by an acknowledged ACCEPT (R9, R99) -/

section Accepted
variable (s : State) (r : Record) (receipt : Nat)

theorem acceptedRecord_frame :
    acceptedRecord s r receipt =
      { r with
        legs := (acceptedRecord s r receipt).legs
        elided := (acceptedRecord s r receipt).elided
        unmirrored := true } := by
  rw [acceptedRecord, addLeg_frame]

theorem acceptedRecord_getLast? :
    (acceptedRecord s r receipt).legs.getLast? = some ⟨s.compartment, s.address, s.domain.clock, none, false⟩ :=
  addLeg_getLast? _ _ _

variable {r}

theorem acceptedRecord_of_room (hroom : r.legs.length < 6) :
    (acceptedRecord s r receipt).elided = r.elided ∧
      (acceptedRecord s r receipt).legs.take r.legs.length = closeLast r.legs receipt ∧
      (acceptedRecord s r receipt).legs.length = r.legs.length + 1 := by
  have hclosed : (closeLast r.legs receipt).length = r.legs.length := closeLast_length _ _
  rw [acceptedRecord, addLeg_of_room _ _ hroom]
  exact ⟨rfl, List.take_left' hclosed, by simp [hclosed]⟩

theorem acceptedRecord_of_six (hsix : r.legs.length = 6) :
    (acceptedRecord s r receipt).elided = min (r.elided + 1) 255 ∧
      (acceptedRecord s r receipt).legs.take 5 = (closeLast r.legs receipt).eraseIdx 1 ∧
      (acceptedRecord s r receipt).legs.length = 6 := by
  have hkept := eraseIdx_closeLast_length_of_six receipt hsix
  rw [acceptedRecord, addLeg_of_six _ _ hsix]
  exact ⟨rfl, List.take_left' hkept, by rw [List.length_append, hkept]; rfl⟩

end Accepted

/-! ### The outcome command -/

/-- Ending the stay of an id changes no telegram of the queue. -/
theorem map_endStay_telegram (id : Nat) (q : List TxEntry) :
    (q.map (endStay id)).map (·.telegram) = q.map (·.telegram) := by
  rw [List.map_map]
  refine List.map_congr_left fun e _ => ?_
  simp only [Function.comp, endStay]
  split <;> rfl

theorem outbox_telegrams (s : State) : s.outbox.map (·.1) = s.bus.queue.map (·.telegram) :=
  List.map_map ..

/-- An ACCEPT in transmission leaves the queue, and its outcome reaches the record it accepts. -/
theorem exec_acceptOutcome_sends {s : State} {before after : List TxEntry} {e : TxEntry} {id : Nat} (acked : Bool)
    (hsends : s.sends before e after) (horigin : e.origin = .accept id) (hkind : e.telegram.kind = .accept) :
    exec (.acceptOutcome acked) s =
      .next (acceptResolved (s.sent (before ++ after) (s.bus.counters.count (slotOutcome e acked))) id
        (slotOutcome e acked)) := by
  have houtcome := outcomeFor_sends s before after e Origin.isAccept acked resolve hsends
    (by rw [horigin]; rfl) (by rw [hkind]; decide)
  rw [horigin] at houtcome
  exact congrArg Host.Outcome.next houtcome

/-- Settles O44: the outcome is handed to the ARRIVING record, which it makes HELD or removes. -/
theorem acceptOutcomeSettlesArrival : Obligations.AcceptOutcomeSettlesArrival := by
  intro s before e after h receipt sender acked hsends horigin hkind hlaw hmem hstate _ _
  have hexec := exec_acceptOutcome_sends acked hsends horigin hkind
  have hfind : s.find h.record.id = some h := find_of_mem s h hlaw hmem
  refine ⟨fun hacked hwhole => ?held, fun hlost => ?removed⟩
  case held =>
    subst hacked
    rw [slotOutcome_of_acked hwhole] at hexec
    exact ⟨_, acceptedRecord s h.record receipt, hexec, acceptedRecord_frame s h.record receipt,
      acceptedRecord_getLast? s h.record receipt, acceptedRecord_of_room s receipt, acceptedRecord_of_six s receipt,
      acceptResolved_of_acked (s := s.sent (before ++ after) (s.bus.counters.slot true)) hfind hstate⟩
  case removed =>
    have hremoves := acceptResolved_of_not_acked
      (s := s.sent (before ++ after) (s.bus.counters.count (slotOutcome e acked))) hfind hstate
      (slotOutcome_ne_acked hlost)
    have hpresent : ∃ x ∈ (s.sent (before ++ after) (s.bus.counters.count (slotOutcome e acked))).domain.custody,
        x.record.id = h.record.id := ⟨h, hmem, rfl⟩
    rw [hremoves, remove_eq _ h.record.id hpresent, count_slotOutcome_of_lost _ hlost] at hexec
    exact ⟨_, hexec, rfl, rfl, rfl, (outbox_telegrams _).trans (map_endStay_telegram _ _), rfl⟩

end Sys2Proof.Machine
end

