-- ==== Sys2Proof/Proofs/RosterStates.lean ====
section
/-!
PROOFS. The roster states HOLDING and SILENT (8.2): a HOLD of the running trip marks its sender's entry (R131), and a
silence deadline that has come the entry it names (R130).
-/
namespace Sys2Proof.Machine

/-- The entries of one address change, and no other entry does. -/
theorem updatePeer_eq (s : State) (address : Nat) (f : RosterEntry → RosterEntry) :
    s.updatePeer address f = { s with roster := s.roster.map fun e => if e.address = address then f e else e } := by
  simp [State.updatePeer, State.withRoster, updateWhere]

/-- R63, R131: the modes in which DOOR and HOLD have their use. -/
theorem takesPeers_iff (mode : Mode) :
    mode.takesPeers = true ↔ mode = .active ∨ mode = .holdPending ∨ mode = .ending := by
  cases mode <;> simp [Mode.takesPeers]

/-! ### HOLD (R131) -/

section Hold
variable {s : State} {m : RxTelegram}

theorem takeHold_of_tests (hlength : m.payload.length = 4)
    (hmode : s.mode = .active ∨ s.mode = .holdPending ∨ s.mode = .ending)
    (htrip : s.store.tripId = some (field m.payload 0 4)) (hother : m.sender ≠ s.address) :
    takeHold m s = s.updatePeer m.sender fun e => { e with state := .holding, deadline := none } :=
  if_pos ⟨hlength, (takesPeers_iff s.mode).mpr hmode, htrip, hother⟩

/-- A HOLD that fails one of its four tests is passed over. -/
theorem takeHold_of_useless
    (huseless : m.payload.length ≠ 4 ∨ ¬ (s.mode = .active ∨ s.mode = .holdPending ∨ s.mode = .ending) ∨
      s.store.tripId ≠ some (field m.payload 0 4) ∨ m.sender = s.address) :
    takeHold m s = s := by
  refine if_neg fun ⟨hlength, htakes, htrip, hother⟩ => ?_
  obtain hlength' | hmode' | htrip' | hown := huseless
  · exact hlength' hlength
  · exact hmode' ((takesPeers_iff s.mode).mp htakes)
  · exact htrip' htrip
  · exact hother hown

end Hold

theorem exec_hold_front {s : State} {m : RxTelegram} {rest : List RxTelegram} (hfront : s.front .hold m rest) :
    exec .hold s = .next (takeHold m (s.withRx rest)) :=
  congrArg Host.Outcome.next (taking_front s .hold m rest takeHold hfront)

theorem holdMarksPeerHolding : Clause.HoldMarksPeerHolding := by
  intro s m rest hfront
  refine ⟨fun hlength hmode htrip hother => ?_, fun huseless => ?_⟩
  · rw [exec_hold_front hfront, takeHold_of_tests (s := s.withRx rest) hlength hmode htrip hother, updatePeer_eq]
    rfl
  · rw [exec_hold_front hfront, takeHold_of_useless (s := s.withRx rest) huseless]

/-! ### The silence deadline (R130) -/

/-- R130: a deadline runs for a LIVE entry, and for the UNHEARD one that has it. -/
theorem overdue_iff (clock : Nat) (e : RosterEntry) :
    e.overdue clock = true ↔
      (e.state = .live ∨ e.state = .unheard) ∧ e.deadline.any (fun d => decide (d ≤ clock)) = true := by
  simp only [RosterEntry.overdue, Bool.and_eq_true, Bool.or_eq_true, beq_iff_eq]

theorem exec_silenceDeadline_running {s : State} (address : Nat) (hrunning : s.running = true)
    (hmode : s.mode.runsEpochs = true) :
    exec (.silenceDeadline address) s = .next (s.updatePeer address fun e =>
      if e.overdue s.domain.clock then { e with state := .silent, deadline := none } else e) :=
  congrArg Host.Outcome.next (if_pos (by rw [hrunning, hmode]; rfl))

/-- The two tests of an entry, its address and its deadline, are those of R130 together. -/
theorem silenceAfterDeadline : Clause.SilenceAfterDeadline := by
  intro s address hrunning hmode
  rw [exec_silenceDeadline_running address hrunning hmode, updatePeer_eq]
  simp only [overdue_iff, ← ite_and]

/-- Settles O51: what a HOLD, and what a silence deadline, makes of the roster. -/
theorem rosterMarksHoldingAndSilent : Obligations.RosterMarksHoldingAndSilent :=
  ⟨holdMarksPeerHolding, silenceAfterDeadline⟩

end Sys2Proof.Machine
end

