-- ==== Sys2Proof/Proofs/RecordHistory.lean ====
section
/-!
PROOFS. What the recorder's operations make of a record that stays in a table, as one relation: flags, openings, gap,
charges and legs. Every such change keeps the record's history (R1 to R6, R12), its laws (R3, R9) and, with temperatures
in range, its range (R32).
-/
namespace Sys2Proof.Machine

/-! ### The changes a record can undergo -/

/-- `b` comes from `a` by the operations on records: the UNMIRRORED flag, openings (R8), seconds of gap, charges with
temperatures that are `ok` (R74 to R84), and legs (R9). -/
inductive Reworked (ok : Temps → Prop) (a : Record) : Record → Prop
  | refl : Reworked ok a a
  | unmirrored {b : Record} (flag : Bool) : Reworked ok a b → Reworked ok a { b with unmirrored := flag }
  | openings {b : Record} (d : Nat) :
      Reworked ok a b → Reworked ok a { b with openings := satAdd Config.max16 b.openings d }
  | gap {b : Record} (secs : Nat) : Reworked ok a b → Reworked ok a { b with gap := satAdd Config.max32 b.gap secs }
  | charged {b : Record} {temps : Option Temps} (hok : ∀ x ∈ temps, ok x) (grace : Bool) (secs time : Nat) :
      Reworked ok a b → Reworked ok a (charge b temps grace secs time)
  | leg {b : Record} (exitTime : Nat) {leg : Leg} (hopen : leg.exit = none) :
      Reworked ok a b → Reworked ok a (addLeg b exitTime leg)

theorem Reworked.trans {ok : Temps → Prop} {a b c : Record} (hab : Reworked ok a b) (hbc : Reworked ok b c) :
    Reworked ok a c := by
  induction hbc with
  | refl => exact hab
  | unmirrored flag _ ih => exact ih.unmirrored flag
  | openings d _ ih => exact ih.openings d
  | gap secs _ ih => exact ih.gap secs
  | charged hok grace secs time _ ih => exact ih.charged hok grace secs time
  | leg exitTime hopen _ ih => exact ih.leg exitTime hopen

theorem Reworked.mono {ok ok' : Temps → Prop} (himp : ∀ x, ok x → ok' x) {a b : Record} (h : Reworked ok a b) :
    Reworked ok' a b := by
  induction h with
  | refl => exact .refl
  | unmirrored flag _ ih => exact ih.unmirrored flag
  | openings d _ ih => exact ih.openings d
  | gap secs _ ih => exact ih.gap secs
  | charged hok grace secs time _ ih => exact ih.charged (fun x hx => himp x (hok x hx)) grace secs time
  | leg exitTime hopen _ ih => exact ih.leg exitTime hopen

/-! ### Legs (R9) -/

theorem closeLast_append (ls : List Leg) (l : Leg) (t : Nat) :
    closeLast (ls ++ [l]) t = ls ++ [{ l with exit := some t }] := by
  induction ls with
  | nil => rfl
  | cons x xs ih => cases xs with
    | nil => rfl
    | cons y ys => exact congrArg (x :: ·) ih

/-- A closed leg list has no open leg: every leg before the last one was closed before. -/
theorem closeLast_closed {ls : List Leg} (hlaw : ∀ l ∈ ls.dropLast, l.exit ≠ none) (t : Nat) :
    ∀ l ∈ closeLast ls t, l.exit ≠ none := by
  rcases List.eq_nil_or_concat' ls with rfl | ⟨init, last, rfl⟩
  · simp [closeLast]
  · rw [List.dropLast_concat] at hlaw
    rw [closeLast_append]
    simpa [or_imp, forall_and] using hlaw

theorem legsLaw_append {ls : List Leg} {leg : Leg} (hclosed : ∀ l ∈ ls, l.exit ≠ none) (hroom : ls.length < 6)
    (hopen : leg.exit = none) : legsLaw (ls ++ [leg]) := by
  refine ⟨by simp, ?_, ?_, ?_⟩
  · simpa [Config.maxLegs] using hroom
  · simpa using hclosed
  · simpa using hopen

theorem addLeg_legsLaw {r : Record} {leg : Leg} (hlaw : legsLaw r.legs) (exitTime : Nat) (hopen : leg.exit = none) :
    legsLaw (addLeg r exitTime leg).legs := by
  obtain ⟨_, hmax, hclosed, _⟩ := hlaw
  have hclosedAll := closeLast_closed hclosed exitTime
  obtain hroom | hsix := Nat.lt_or_eq_of_le hmax
  · rw [addLeg_of_room _ _ hroom]
    exact legsLaw_append hclosedAll (by rwa [closeLast_length]) hopen
  · rw [addLeg_of_six _ _ hsix]
    refine legsLaw_append (fun l hl => hclosedAll l (List.mem_of_mem_eraseIdx hl)) ?_ hopen
    rw [eraseIdx_closeLast_length_of_six exitTime hsix]
    omega

theorem addLeg_elided_le {r : Record} (helided : r.elided ≤ Config.max8) (exitTime : Nat) (leg : Leg) :
    (addLeg r exitTime leg).elided ≤ Config.max8 := by
  rw [addLeg_eq]
  split
  · exact Nat.min_le_right _ _
  · exact helided

/-! ### What every change keeps -/

/-- R3, R9: the legs and the accounts of one record lie within their laws. -/
def recordSound (r : Record) : Prop := legsLaw r.legs ∧ accountsLaw r

theorem keepsHistory_refl (r : Record) : keepsHistory r r := by simp [keepsHistory]

theorem keepsHistory_trans {a b c : Record} (hab : keepsHistory a b) (hbc : keepsHistory b c) : keepsHistory a c := by
  obtain ⟨i1, c1, t1, l1, w1, k1, d1, g1, o1, v1, b1, f1, r1⟩ := hab
  obtain ⟨i2, c2, t2, l2, w2, k2, d2, g2, o2, v2, b2, f2, r2⟩ := hbc
  refine ⟨i1.trans i2, c1.trans c2, t1.trans t2, l1.trans l2, w1.trans w2, k1.trans k2, d1.trans d2, g1.trans g2,
    o1.trans o2, v1.trans v2, fun h => ?_, f1.trans f2, r1.trans r2⟩
  have hb := b1 h
  rw [b2 (by rw [hb, h]), hb]

theorem charge_sound {r : Record} (hsound : recordSound r) (temps : Option Temps) (grace : Bool) (secs time : Nat) :
    recordSound (charge r temps grace secs time) := by
  obtain ⟨hlegs, hwarm, hcold, hdoor, hgap, hopenings, helided⟩ := hsound
  cases temps with
  | none => exact ⟨hlegs, hwarm, hcold, hdoor, satAdd_le .., hopenings, helided⟩
  | some x =>
    refine ⟨hlegs, ?_, satAdd_le .., ?_, satAdd_le .., hopenings, helided⟩
    · rw [charge_warm_some]
      split
      · exact hwarm
      · exact satAdd_le ..
    · rw [charge_door_some]
      split
      · exact satAdd_le ..
      · exact hdoor

/-- A charge adds to accounts within their range and moves no verdict lower. -/
theorem charge_keepsHistory {r : Record} (hsound : recordSound r) (temps : Option Temps) (grace : Bool)
    (secs time : Nat) : keepsHistory r (charge r temps grace secs time) := by
  obtain ⟨_, hwarm, hcold, hdoor, hgap, _, _⟩ := hsound
  have hverdict := charge_verdict r temps grace secs time
  have hraised : r.verdict.rank ≤ (charge r temps grace secs time).verdict.rank := by
    rw [hverdict]; exact Verdict.le_raise _ _
  have hbreach : r.verdict.rank = 3 → (charge r temps grace secs time).verdict = r.verdict := fun h => by
    rw [hverdict]; exact Verdict.raise_breached _ _ h
  cases temps with
  | none =>
    exact ⟨rfl, rfl, rfl, rfl, le_rfl, le_rfl, le_rfl, le_satAdd _ hgap, le_rfl, hraised, hbreach, rfl, rfl⟩
  | some x =>
    refine ⟨rfl, rfl, rfl, rfl, ?_, le_satAdd _ hcold, ?_, le_satAdd _ hgap, le_rfl, hraised, hbreach, rfl, rfl⟩
    · rw [charge_warm_some]
      split
      · exact le_rfl
      · exact le_satAdd _ hwarm
    · rw [charge_door_some]
      split
      · exact le_satAdd _ hdoor
      · exact le_rfl

/-- R1 to R6, R8, R12: a sound record stays sound, and its history is kept. -/
theorem Reworked.sound_history {ok : Temps → Prop} {a b : Record} (h : Reworked ok a b) (ha : recordSound a) :
    recordSound b ∧ keepsHistory a b := by
  induction h with
  | refl => exact ⟨ha, keepsHistory_refl a⟩
  | unmirrored flag _ ih => exact ih
  | openings d _ ih =>
    obtain ⟨⟨hlegs, hwarm, hcold, hdoor, hgap, hopenings, helided⟩, hkept⟩ := ih
    refine ⟨⟨hlegs, hwarm, hcold, hdoor, hgap, satAdd_le .., helided⟩, keepsHistory_trans hkept ?_⟩
    simpa [keepsHistory] using le_satAdd _ hopenings
  | gap secs _ ih =>
    obtain ⟨⟨hlegs, hwarm, hcold, hdoor, hgap, hopenings, helided⟩, hkept⟩ := ih
    refine ⟨⟨hlegs, hwarm, hcold, hdoor, satAdd_le .., hopenings, helided⟩, keepsHistory_trans hkept ?_⟩
    simpa [keepsHistory] using le_satAdd _ hgap
  | charged _ grace secs time _ ih =>
    exact ⟨charge_sound ih.1 .., keepsHistory_trans ih.2 (charge_keepsHistory ih.1 ..)⟩
  | @leg b exitTime leg hopen _ ih =>
    obtain ⟨⟨hlegs, haccounts⟩, hkept⟩ := ih
    have hnew := addLeg_legsLaw hlegs exitTime hopen
    obtain ⟨hwarm, hcold, hdoor, hgap, hopenings, helided⟩ := haccounts
    have helided' := addLeg_elided_le helided exitTime leg
    rw [addLeg_frame]
    exact ⟨⟨hnew, hwarm, hcold, hdoor, hgap, hopenings, helided'⟩, hkept⟩

theorem Reworked.sound {ok : Temps → Prop} {a b : Record} (h : Reworked ok a b) (ha : recordSound a) : recordSound b :=
  (h.sound_history ha).1

theorem Reworked.id_eq {ok : Temps → Prop} {a b : Record} (h : Reworked ok a b) : b.id = a.id := by
  induction h with
  | refl => rfl
  | unmirrored _ _ ih | openings _ _ ih | gap _ _ ih => exact ih
  | charged _ _ _ _ _ ih =>
    obtain ⟨_, _, _, _, _, _, h⟩ := charge_fields ..
    rw [h]; exact ih
  | leg _ _ _ ih => rw [addLeg_frame]; exact ih

/-! ### Temperatures (R32) -/

/-- Both temperatures of a summary or of peaks lie in the range. -/
def Temps.inRange (x : Temps) : Prop := tempInRange x.warm = true ∧ tempInRange x.cold = true

theorem tempInRange_iff (t : Int) : tempInRange t = true ↔ -500 ≤ t ∧ t ≤ 700 := by
  rw [tempInRange, Bool.and_eq_true, decide_eq_true_iff, decide_eq_true_iff]
  rfl

theorem tempInRange_max {a b : Int} (ha : tempInRange a = true) (hb : tempInRange b = true) :
    tempInRange (max a b) = true := by
  rw [tempInRange_iff] at *; omega

theorem tempInRange_min {a b : Int} (ha : tempInRange a = true) (hb : tempInRange b = true) :
    tempInRange (min a b) = true := by
  rw [tempInRange_iff] at *; omega

theorem recordTempsInRange_iff (r : Record) :
    recordTempsInRange r = true ↔ limitsInRange r.limits = true ∧ ∀ x ∈ r.peaks, x.inRange := by
  cases h : r.peaks <;> simp [recordTempsInRange, h, optTempInRange, Temps.inRange, and_assoc]

theorem peaksWith_inRange {p : Option Temps} {x : Temps} (hp : ∀ y ∈ p, y.inRange) (hx : x.inRange) :
    (peaksWith p x).inRange := by
  cases p with
  | none => exact hx
  | some q =>
    obtain ⟨hwarm, hcold⟩ := hp q rfl
    exact ⟨tempInRange_max hwarm hx.1, tempInRange_min hcold hx.2⟩

/-- R32: temperatures in range leave a record's in range. -/
theorem Reworked.tempsInRange {ok : Temps → Prop} (hrange : ∀ x, ok x → x.inRange) {a b : Record}
    (h : Reworked ok a b) (ha : recordTempsInRange a = true) : recordTempsInRange b = true := by
  induction h with
  | refl => exact ha
  | unmirrored _ _ ih | openings _ _ ih | gap _ _ ih => exact ih
  | @charged b temps hok _ _ _ _ ih =>
    rw [recordTempsInRange_iff] at ih ⊢
    obtain ⟨hlimits, hpeaks⟩ := ih
    refine ⟨by rwa [charge_limits], ?_⟩
    cases temps with
    | none => exact hpeaks
    | some x =>
      intro y hy
      obtain rfl : peaksWith b.peaks x = y := Option.some.inj hy
      exact peaksWith_inRange hpeaks (hrange x (hok x rfl))
  | leg _ _ _ ih => rw [addLeg_frame]; exact ih

/-! ### A table whose records all come from an earlier one -/

/-- Every record of `l'` is one of `l` reworked, in the order of `l`; records may be missing, none is new. -/
def Survives (ok : Temps → Prop) (l l' : List Holding) : Prop :=
  (l'.map (·.record.id)).Sublist (l.map (·.record.id)) ∧ ∀ b ∈ l', ∃ a ∈ l, Reworked ok a.record b.record

section Survives
variable {ok : Temps → Prop} {l l' l'' : List Holding}

theorem Survives.refl : Survives ok l l := ⟨.refl _, fun b hb => ⟨b, hb, .refl⟩⟩

theorem Survives.trans (h : Survives ok l l') (k : Survives ok l' l'') : Survives ok l l'' := by
  refine ⟨k.1.trans h.1, fun c hc => ?_⟩
  obtain ⟨b, hb, hbc⟩ := k.2 c hc
  obtain ⟨a, ha, hab⟩ := h.2 b hb
  exact ⟨a, ha, hab.trans hbc⟩

theorem Survives.mono {ok' : Temps → Prop} (himp : ∀ x, ok x → ok' x) (h : Survives ok l l') : Survives ok' l l' :=
  ⟨h.1, fun b hb => (h.2 b hb).imp fun _ ⟨ha, hab⟩ => ⟨ha, hab.mono himp⟩⟩

theorem Survives.nil : Survives ok l [] := ⟨List.nil_sublist _, fun _ h => nomatch h⟩

theorem Survives.filter (p : Holding → Bool) : Survives ok l (l.filter p) :=
  ⟨List.filter_sublist.map _, fun b hb => ⟨b, List.mem_of_mem_filter hb, .refl⟩⟩

/-- A change of some records that comes, for each, from a record of the table with its id. -/
theorem Survives.map_of {f : Holding → Holding}
    (h : ∀ x ∈ l, ∃ a ∈ l, a.record.id = x.record.id ∧ Reworked ok a.record (f x).record) : Survives ok l (l.map f) := by
  refine ⟨?_, fun b hb => ?_⟩
  · have hids : (l.map f).map (·.record.id) = l.map (·.record.id) := by
      rw [List.map_map]
      refine List.map_congr_left fun x hx => ?_
      obtain ⟨a, _, hid, hre⟩ := h x hx
      exact hre.id_eq.trans hid
    rw [hids]
  · obtain ⟨x, hx, rfl⟩ := List.mem_map.mp hb
    obtain ⟨a, ha, _, hre⟩ := h x hx
    exact ⟨a, ha, hre⟩

theorem Survives.map {f : Holding → Holding} (h : ∀ x, Reworked ok x.record (f x).record) : Survives ok l (l.map f) :=
  .map_of fun x hx => ⟨x, hx, rfl, h x⟩

theorem Survives.updateWhere (p : Holding → Bool) {f : Holding → Holding}
    (h : ∀ x, Reworked ok x.record (f x).record) : Survives ok l (updateWhere p f l) :=
  .map fun x => by
    split
    · exact h x
    · exact .refl

end Survives

end Sys2Proof.Machine
end

