-- ==== Sys2Proof/Proofs/KeptLaws.lean ====
section
/-!
PROOFS. The laws that hold of every state through every operation, as one relation between the state before and the
state after, and what each shared operation keeps: the bus, the tables, the sessions and the roster.
-/
namespace Sys2Proof.Machine

/-! ### The relation -/

/-- R32 without the setups: every temperature held outside them lies in the range. -/
def State.heldTempLaw (s : State) : Prop :=
  (∀ i, readingInRange (s.channels.get i)) ∧
  (∀ i, tempInRange (s.domain.filters.get i).value = true) ∧
  (∀ m ∈ s.lastSummary, ∀ t ∈ m.temps, tempInRange t.warm = true ∧ tempInRange t.cold = true) ∧
  (∀ h ∈ s.domain.custody, recordTempsInRange h.record = true) ∧
  (∀ m ∈ s.domain.mirror, recordTempsInRange m.record = true)

/-- From `s` to `t` no command came to wait or left, and every law of `s` is one of `t`. A component that an operation
does not touch keeps its law by itself: such fields need not be given. -/
structure KeepsLaws (s t : State) : Prop where
  pending : t.pending = s.pending
  bus : s.busLaw → t.busLaw
  silent : s.silentLaw → t.silentLaw
  counters : s.counterLaw → t.counterLaw
  sessions : s.sessionLaw → t.sessionLaw
  roster : s.rosterLaw → t.rosterLaw
  mirror : s.mirrorLaw → t.mirrorLaw
  drops : s.dropLaw → t.dropLaw
  setup : s.setupLaw → t.setupLaw
  capture : s.captureLaw → t.captureLaw
  custody : s.custodyLaw → t.custodyLaw
  records : s.recordLaw → t.recordLaw
  temps : s.setupLaw → s.heldTempLaw → t.heldTempLaw

/-- `KeepsLaws`, with no record in the Custody Table that was not there before. -/
structure Keeps (s t : State) : Prop extends KeepsLaws s t where
  history : Survives (fun _ => True) s.domain.custody t.domain.custody

theorem Keeps.refl (s : State) : Keeps s s :=
  ⟨⟨rfl, fun h => h, fun h => h, fun h => h, fun h => h, fun h => h, fun h => h, fun h => h, fun h => h, fun h => h,
    fun h => h, fun h => h, fun _ h => h⟩, .refl⟩

theorem KeepsLaws.trans {s t u : State} (h : KeepsLaws s t) (k : KeepsLaws t u) : KeepsLaws s u where
  pending := k.pending.trans h.pending
  bus := k.bus ∘ h.bus
  silent := k.silent ∘ h.silent
  counters := k.counters ∘ h.counters
  sessions := k.sessions ∘ h.sessions
  roster := k.roster ∘ h.roster
  mirror := k.mirror ∘ h.mirror
  drops := k.drops ∘ h.drops
  setup := k.setup ∘ h.setup
  capture := k.capture ∘ h.capture
  custody := k.custody ∘ h.custody
  records := k.records ∘ h.records
  temps := fun hs ht => k.temps (h.setup hs) (h.temps hs ht)

theorem Keeps.trans {s t u : State} (h : Keeps s t) (k : Keeps t u) : Keeps s u where
  toKeepsLaws := h.toKeepsLaws.trans k.toKeepsLaws
  history := h.history.trans k.history

/-! ### Named updates that no law speaks of -/

section Named
variable (s : State)

theorem withLine_keeps (l : Line) : Keeps s (s.withLine l) := { Keeps.refl s with }
theorem withOffers_keeps (o : List Offer) : Keeps s (s.withOffers o) := { Keeps.refl s with }
theorem withRejoin_keeps (p : RejoinPhase) : Keeps s (s.withRejoin p) := { Keeps.refl s with }
theorem withFreeCount_keeps (n : Nat) : Keeps s (s.withFreeCount n) := { Keeps.refl s with }
theorem withTracker_keeps (t : Tracker) : Keeps s (s.withTracker t) := { Keeps.refl s with }

theorem withMode_keeps {m : Mode} (hon : m ≠ .hold ∧ m ≠ .unstrapped) : Keeps s (s.withMode m) :=
  { Keeps.refl s with silent := fun _ _ hoff => absurd hoff (by simp [hon.1, hon.2]) }

end Named

/-! ### The transmit queue (R118) -/

theorem beaconCount_append (p q : List TxEntry) : beaconCount (p ++ q) = beaconCount p + beaconCount q := by
  simp [beaconCount]

theorem beaconCount_cons (e : TxEntry) (q : List TxEntry) :
    beaconCount (e :: q) = (if e.telegram.kind = .beacon then 1 else 0) + beaconCount q := by
  by_cases h : e.telegram.kind = .beacon
  · simp [beaconCount, h, Nat.add_comm]
  · simp [beaconCount, h]

theorem beaconCount_eq_zero {q : List TxEntry} : beaconCount q = 0 ↔ ∀ e ∈ q, e.telegram.kind ≠ .beacon := by
  simp [beaconCount, List.filter_eq_nil_iff]

/-- Entries in transmission. -/
def sendingCount (q : List TxEntry) : Nat := (q.filter (·.sending)).length

theorem sendingCount_append (p q : List TxEntry) : sendingCount (p ++ q) = sendingCount p + sendingCount q := by
  simp [sendingCount]

theorem sendingCount_cons (e : TxEntry) (q : List TxEntry) :
    sendingCount (e :: q) = (if e.sending then 1 else 0) + sendingCount q := by
  cases h : e.sending <;> simp [sendingCount, h, Nat.add_comm]

theorem sendingCount_eq_zero {q : List TxEntry} : sendingCount q = 0 ↔ ∀ e ∈ q, e.sending = false := by
  simp [sendingCount, List.filter_eq_nil_iff]

/-- A length of a filtered image is at most that of the filtered list, where the image passes only what the list does. -/
theorem length_filter_map_le {α : Type} (p : α → Bool) {f : α → α} (hf : ∀ x, p (f x) = true → p x = true)
    (l : List α) : ((l.map f).filter p).length ≤ (l.filter p).length := by
  rw [← List.countP_eq_length_filter, ← List.countP_eq_length_filter, List.countP_map]
  exact List.countP_mono_left fun x _ => hf x

/-- R118: the limits of the transmit queue alone. -/
def queueLaw (q : List TxEntry) : Prop :=
  q.length ≤ Config.queueSlots ∧ beaconCount q ≤ 1 ∧ (q.filter (·.sending)).length ≤ 1

theorem withQueue_keeps {s : State} {q : List TxEntry} (hlaw : queueLaw s.bus.queue → queueLaw q)
    (hempty : s.mode.queues = true ∨ (s.bus.queue = [] → q = [])) : Keeps s (s.withQueue q) where
  __ := Keeps.refl s
  bus := fun ⟨hlen, hbeacon, hsending, hrx⟩ =>
    have ⟨hlen', hbeacon', hsending'⟩ := hlaw ⟨hlen, hbeacon, hsending⟩
    ⟨hlen', hbeacon', hsending', hrx⟩
  silent := fun hsilent hrunning hoff => by
    obtain ⟨hq, hhold⟩ := hsilent hrunning hoff
    refine ⟨?_, hhold⟩
    obtain hqueues | hnil := hempty
    · obtain h | h := hoff <;> simp [Mode.queues, show s.mode = _ from h] at hqueues
    · exact hnil hq

/-- A change of entries that begins no telegram and makes no BEACON of another kind. -/
theorem map_queue_keeps (s : State) {f : TxEntry → TxEntry}
    (hf : ∀ e, ((f e).telegram.kind = .beacon → e.telegram.kind = .beacon) ∧
      ((f e).sending = true → e.sending = true)) : Keeps s (s.withQueue (s.bus.queue.map f)) := by
  refine withQueue_keeps (fun ⟨hlen, hbeacon, hsending⟩ => ⟨by simpa using hlen, ?_, ?_⟩) (.inr fun h => by simp [h])
  · exact (length_filter_map_le (fun x : TxEntry => x.telegram.kind == .beacon) (fun e => by simpa using (hf e).1)
      _).trans hbeacon
  · exact (length_filter_map_le (fun x : TxEntry => x.sending) (fun e => (hf e).2) _).trans hsending

theorem markLeft_keeps (s : State) (ids : List Nat) : Keeps s (s.withQueue (s.bus.queue.map (markLeft ids))) :=
  map_queue_keeps s fun e => by
    obtain ⟨ht, hs, _⟩ := markLeft_telegram ids e
    exact ⟨fun h => ht ▸ h, fun h => hs ▸ h⟩

theorem markEnded_keeps (s : State) (p : Nat → Bool) : Keeps s (s.withQueue (s.bus.queue.map (markEnded p))) :=
  map_queue_keeps s fun e => by
    obtain ⟨ht, hs, _⟩ := markEnded_telegram p e
    exact ⟨fun h => ht ▸ h, fun h => hs ▸ h⟩

theorem markFirst_beaconCount (c : Nat) (q : List TxEntry) : beaconCount (markFirst c q) = beaconCount q := by
  induction q with
  | nil => rfl
  | cons e es ih =>
    simp only [markFirst]
    split <;> simp [beaconCount_cons, ih]

theorem markFirst_sendingCount (c : Nat) (q : List TxEntry) : sendingCount (markFirst c q) ≤ sendingCount q + 1 := by
  induction q with
  | nil => simp [markFirst, sendingCount]
  | cons e es ih =>
    simp only [markFirst]
    split <;> simp only [sendingCount_cons]
    · simp; omega
    · omega

/-- Beginning a telegram while none is in transmission, or as the only one of the queue (R119). -/
theorem beginNext_keeps {s : State} (hfree : s.sending? = none ∨ s.bus.queue.length ≤ 1) : Keeps s (beginNext s) := by
  refine Keeps.trans
    (withQueue_keeps (fun ⟨hlen, hbeacon, _⟩ => ⟨?_, ?_, ?_⟩) (.inr fun h => by simp [h, markNext, markFirst]))
    (withLine_keeps _ _)
  · simpa [markNext, markFirst_length] using hlen
  · simpa [markNext, markFirst_beaconCount] using hbeacon
  · obtain hnone | hone := hfree
    · have hzero : sendingCount s.bus.queue = 0 := by
        rw [sendingCount_eq_zero]
        simpa [State.sending?, List.find?_eq_none] using hnone
      have := markFirst_sendingCount (lowestClass s.bus.queue) s.bus.queue
      rw [hzero] at this
      exact this
    · refine (List.length_filter_le _ _).trans ?_
      simpa [markNext, markFirst_length] using hone

theorem beginAtOnce_keeps (s : State) : Keeps s (beginAtOnce s) := by
  unfold beginAtOnce
  split
  next h =>
    dsimp only
    split
    · exact (withFreeCount_keeps s _).trans (withLine_keeps _ _)
    · exact (withFreeCount_keeps s _).trans (beginNext_keeps (.inr h.2.le))
  next => exact .refl s

/-- Offering a telegram: no BEACON is offered by `send` while one is queued (R118, R120). -/
theorem send_keeps {s : State} {t : TxTelegram} (o : Origin)
    (hbeacon : t.kind = .beacon → ∀ e ∈ s.bus.queue, e.telegram.kind ≠ .beacon) : Keeps s (send s t o).1 := by
  unfold send
  split
  next h =>
    rw [Bool.and_eq_true, decide_eq_true_iff] at h
    refine Keeps.trans (withQueue_keeps (fun ⟨hlen, hcount, hsending⟩ => ⟨?_, ?_, ?_⟩) (.inl h.1)) (beginAtOnce_keeps _)
    · simpa using h.2
    · rw [beaconCount_append, beaconCount_cons]
      by_cases hk : t.kind = .beacon
      · rw [beaconCount_eq_zero.mpr (hbeacon hk)]
        simp [hk, beaconCount]
      · simpa [hk, beaconCount] using hcount
    · simpa [List.filter_append] using hsending
  next => exact .refl s

/-- Every telegram but a BEACON can be offered at any time. -/
theorem send_keeps_of_ne {s : State} {t : TxTelegram} (o : Origin) (hkind : t.kind ≠ .beacon) :
    Keeps s (send s t o).1 :=
  send_keeps o fun h => absurd h hkind

theorem answer_keeps (s : State) (t : RxTelegram) (r : Result) (body : List Byte) : Keeps s (answer s t r body) :=
  send_keeps_of_ne .plain (by simp [replyTelegram])

theorem answerMoveFailed_keeps (s : State) (o : Offer) (sub decline : Nat) :
    Keeps s (answerMoveFailed s o sub decline) :=
  send_keeps_of_ne .plain (by simp [replyTelegram])

theorem putToBuddy_keeps (s : State) (r : Record) : Keeps s (putToBuddy s r) := by
  unfold putToBuddy
  split
  · exact .refl s
  · exact send_keeps_of_ne _ (by simp)

theorem queueDrop_keeps (s : State) (b id : Nat) : Keeps s (queueDrop s b id) := send_keeps_of_ne _ (by simp)

/-! ### Counters (R124) -/

theorem count_inRange {c : Counters} (h : c.inRange) (oc : SendOutcome) : (c.count oc).inRange := by
  obtain ⟨hs, hn, hl, ha, ho, hr⟩ := h
  cases oc with
  | acked => exact ⟨satAdd_le .., hn, hl, ha, ho, hr⟩
  | notAcked => exact ⟨satAdd_le .., satAdd_le .., hl, ha, ho, hr⟩
  | lineError => exact ⟨hs, hn, satAdd_le .., ha, ho, hr⟩
  | queueFull | flushed => exact ⟨hs, hn, hl, ha, ho, hr⟩

theorem addReplaced_inRange {c : Counters} (h : c.inRange) : c.addReplaced.inRange := by
  obtain ⟨hs, hn, hl, ha, ho, _⟩ := h
  exact ⟨hs, hn, hl, ha, ho, satAdd_le ..⟩

theorem addOverrun_inRange {c : Counters} (h : c.inRange) : c.addOverrun.inRange := by
  obtain ⟨hs, hn, hl, ha, _, hr⟩ := h
  exact ⟨hs, hn, hl, ha, satAdd_le .., hr⟩

theorem addArbitrationLoss_inRange {c : Counters} (h : c.inRange) : c.addArbitrationLoss.inRange := by
  obtain ⟨hs, hn, hl, _, ho, hr⟩ := h
  exact ⟨hs, hn, hl, satAdd_le .., ho, hr⟩

theorem withCounters_keeps {s : State} {c : Counters} (h : s.bus.counters.inRange → c.inRange) :
    Keeps s (s.withCounters c) :=
  { Keeps.refl s with counters := h }

/-! ### BEACONs (R120) -/

theorem withBeaconHold_none_keeps (s : State) : Keeps s (s.withBeaconHold none) :=
  { Keeps.refl s with silent := fun h hrunning hoff => ⟨(h hrunning hoff).1, rfl⟩ }

/-- A BEACON goes into the hold only while the queue is not empty, so never with the bus off. -/
theorem withBeaconHold_keeps {s : State} (t : TxTelegram) (hqueue : s.bus.queue ≠ []) :
    Keeps s (s.withBeaconHold (some t)) :=
  { Keeps.refl s with silent := fun h hrunning hoff => absurd (h hrunning hoff).1 hqueue }

theorem sendBeacon_keeps (s : State) (t : TxTelegram) : Keeps s (sendBeacon s t) := by
  unfold sendBeacon
  split
  next =>
    refine Keeps.trans (map_queue_keeps s fun e => ?_) (withCounters_keeps addReplaced_inRange)
    split
    next h =>
      simp only [Bool.and_eq_true, beq_iff_eq] at h
      exact ⟨fun _ => h.1, id⟩
    next => exact ⟨id, id⟩
  next =>
    split
    next h =>
      have hqueue : s.bus.queue ≠ [] := by rintro hnil; simp [hnil] at h
      refine (withBeaconHold_keeps t hqueue).trans (withCounters_keeps fun h => ?_)
      split
      · exact addReplaced_inRange h
      · exact h
    next h => exact send_keeps _ fun _ => by simpa using h

/-! ### The end of a send (R120, R121) -/

theorem sending?_eq_some {s : State} {e : TxEntry} (h : s.sending? = some e) :
    ∃ before after, s.bus.queue = before ++ e :: after ∧ (∀ x ∈ before, x.sending = false) ∧ e.sending = true := by
  obtain ⟨he, before, after, hqueue, hbefore⟩ := List.find?_eq_some_iff_append.mp h
  exact ⟨before, after, hqueue, by simpa using hbefore, he⟩

theorem endSending_keeps {s : State} {e : TxEntry} (h : s.sending? = some e) (oc : SendOutcome) :
    Keeps s (endSending s e oc) := by
  obtain ⟨before, after, hqueue, hbefore, he⟩ := sending?_eq_some h
  have hdrop := dropSending_sends s.bus.beaconHold before after e hbefore he
  rw [← hqueue] at hdrop
  have hlaw : queueLaw s.bus.queue → queueLaw (dropSending s.bus.beaconHold s.bus.queue) := by
    rintro ⟨hlen, hbeacon, hsending⟩
    have hsending' : sendingCount s.bus.queue ≤ 1 := hsending
    rw [hdrop]
    rw [hqueue] at hlen hbeacon hsending'
    simp only [List.length_append, List.length_cons, beaconCount_append, beaconCount_cons, sendingCount_append,
      sendingCount_cons, he, if_true] at hlen hbeacon hsending'
    refine ⟨?_, ?_, ?_⟩
    · by_cases hk : e.telegram.kind = .beacon
      · cases s.bus.beaconHold <;> simp [hk] <;> omega
      · simp [hk]; omega
    · by_cases hk : e.telegram.kind = .beacon
      · simp only [hk, if_true] at hbeacon
        cases s.bus.beaconHold with
        | none => simp [hk, beaconCount_append]; omega
        | some t =>
          simp only [hk, if_true, Option.map_some, Option.toList_some, List.singleton_append, beaconCount_append,
            beaconCount_cons]
          split <;> omega
      · simp only [hk, if_false] at hbeacon ⊢
        rw [beaconCount_append]; omega
    · show sendingCount _ ≤ 1
      by_cases hk : e.telegram.kind = .beacon
      · cases s.bus.beaconHold <;> simp [hk, sendingCount_append, sendingCount_cons] <;> omega
      · simp only [hk, if_false, sendingCount_append]; omega
  have hne : s.bus.queue ≠ [] := by rw [hqueue]; simp
  exact
    { Keeps.refl s with
      bus := fun ⟨hlen, hbeacon, hsending, hrx⟩ =>
        have ⟨hlen', hbeacon', hsending'⟩ := hlaw ⟨hlen, hbeacon, hsending⟩
        ⟨hlen', hbeacon', hsending', hrx⟩
      silent := fun hsilent hrunning hoff => absurd (hsilent hrunning hoff).1 hne
      counters := fun hc => count_inRange hc oc }

/-! ### The receive buffer (R117) -/

theorem withRx_keeps {s : State} {r : List RxTelegram} (hroom : s.bus.rx.length ≤ 4 → r.length ≤ 4) :
    Keeps s (s.withRx r) :=
  { Keeps.refl s with bus := fun ⟨hlen, hbeacon, hsending, hrx⟩ => ⟨hlen, hbeacon, hsending, hroom hrx⟩ }

/-- A command that takes a telegram keeps what its dealing with the telegram keeps. -/
theorem taking_keeps {s : State} {k : Kind} {deal : RxTelegram → State → State}
    (hdeal : ∀ m u, Keeps u (deal m u)) : Keeps s (taking k s deal) := by
  obtain h | ⟨m, rest, ⟨_, hrx, _⟩, h⟩ := taking_cases s k deal
  · rw [h]; exact .refl s
  · rw [h]
    refine (withRx_keeps fun hlen => ?_).trans (hdeal m _)
    rw [hrx] at hlen
    exact (Nat.le_succ _).trans hlen

/-! ### The Custody Table -/

/-- A table whose records all survive keeps its laws (R3, R9, R13, R32). -/
theorem withCustody_keeps {s : State} {l : List Holding} {ok : Temps → Prop} (h : Survives ok s.domain.custody l)
    (hok : s.heldTempLaw → ∀ x, ok x → x.inRange) : Keeps s (s.withCustody l) where
  __ := Keeps.refl s
  custody := fun ⟨hlen, hnodup⟩ =>
    ⟨by simpa using h.1.length_le.trans (by simpa using hlen), h.1.nodup hnodup⟩
  records := fun ⟨hcustody, hmirror⟩ => by
    refine ⟨fun b hb => ?_, hmirror⟩
    obtain ⟨a, ha, hab⟩ := h.2 b hb
    exact hab.sound (hcustody a ha)
  temps := fun _ hlaw => by
    obtain ⟨hchannels, hfilters, hsummary, hcustody, hmirror⟩ := hlaw
    refine ⟨hchannels, hfilters, hsummary, fun b hb => ?_, hmirror⟩
    obtain ⟨a, ha, hab⟩ := h.2 b hb
    exact hab.tempsInRange (hok ⟨hchannels, hfilters, hsummary, hcustody, hmirror⟩) (hcustody a ha)
  history := h.mono fun _ _ => trivial

/-- The same for a change that charges no temperatures. -/
theorem withCustody_keeps' {s : State} {l : List Holding} (h : Survives (fun _ => False) s.domain.custody l) :
    Keeps s (s.withCustody l) :=
  withCustody_keeps h fun _ _ => False.elim

theorem setState_reworked {ok : Temps → Prop} (st : RecordState) (h : Holding) :
    Reworked ok h.record (Holding.setState st h).record := .refl

theorem updateHolding_keeps (s : State) (id : Nat) {f : Holding → Holding}
    (hf : ∀ h, Reworked (fun _ => False) h.record (f h).record) : Keeps s (s.updateHolding id f) :=
  withCustody_keeps' (.updateWhere _ hf)

theorem unmirrorAll_keeps (s : State) : Keeps s s.unmirrorAll :=
  withCustody_keeps' (.map fun _ => .unmirrored true .refl)

theorem removeWhere_keeps (s : State) (p : Holding → Bool) : Keeps s (s.removeWhere p) :=
  (withCustody_keeps' (.filter _)).trans (markLeft_keeps _ _)

theorem remove_keeps (s : State) (id : Nat) : Keeps s (s.remove id) := removeWhere_keeps s _

theorem closeOffer_keeps (s : State) (id : Nat) : Keeps s (closeOffer s id) :=
  (withOffers_keeps s _).trans (withCustody_keeps' (.updateWhere _ (setState_reworked .held)))

theorem closeAllOffers_keeps (s : State) : Keeps s (closeAllOffers s) :=
  (withOffers_keeps s _).trans (withCustody_keeps' (.updateWhere _ (setState_reworked .held)))

/-- A record new to the table, with room for it, sound, and with its temperatures in range. -/
theorem append_keeps {s : State} {h : Holding} (hnew : (s.find h.record.id).isSome = false)
    (hroom : s.domain.custody.length < 48) (hsound : recordSound h.record)
    (htemps : s.setupLaw → recordTempsInRange h.record = true) :
    KeepsLaws s (s.withCustody (s.domain.custody ++ [h])) where
  __ := (Keeps.refl s).toKeepsLaws
  custody := fun ⟨_, hnodup⟩ => by
    refine ⟨by simpa [Config.custodySlots] using Nat.succ_le_of_lt hroom, ?_⟩
    have hmissing : ∀ x ∈ s.domain.custody, x.record.id ≠ h.record.id := by simpa [State.find] using hnew
    simpa [List.nodup_append] using ⟨hnodup, hmissing⟩
  records := fun ⟨hcustody, hmirror⟩ => by
    refine ⟨?_, hmirror⟩
    simp only [State.withCustody_domain_custody, List.forall_mem_append, List.forall_mem_singleton]
    exact ⟨hcustody, hsound⟩
  temps := fun hsetup ⟨hchannels, hfilters, hsummary, hcustody, hmirror⟩ => by
    refine ⟨hchannels, hfilters, hsummary, ?_, hmirror⟩
    simp only [State.withCustody_domain_custody, List.forall_mem_append, List.forall_mem_singleton]
    exact ⟨hcustody, htemps hsetup⟩

/-! ### The Drop List (R144) -/

theorem withDrops_filter_keeps (s : State) (p : Nat → Bool) : Keeps s (s.withDrops (s.domain.drops.filter p)) :=
  { Keeps.refl s with
    drops := fun ⟨hlen, hnodup, hcount⟩ => ⟨(List.length_filter_le _ _).trans hlen, hnodup.filter _, hcount⟩ }

theorem dropListWith_length {d : List Nat} (h : d.length ≤ 8) (id : Nat) : (dropListWith d id).length ≤ 8 := by
  unfold dropListWith
  split
  · exact h
  · split <;> simp <;> omega

theorem dropListWith_nodup {d : List Nat} (h : d.Nodup) (id : Nat) : (dropListWith d id).Nodup := by
  unfold dropListWith
  split
  · exact h
  next hnew =>
    have happend : ∀ l : List Nat, l.Sublist d → (l ++ [id]).Nodup := fun l hl => by
      have hmissing : id ∉ l := fun hmem => hnew (hl.subset hmem)
      simpa [List.nodup_append] using ⟨hl.nodup h, fun x hx hid => hmissing (hid ▸ hx)⟩
    split
    · exact happend d (.refl d)
    · exact happend _ (List.drop_sublist _ _)

theorem placeDrop_keeps (s : State) (id : Nat) : Keeps s (placeDrop s id) := by
  rw [placeDrop_eq]
  exact
    { Keeps.refl s with
      drops := fun ⟨hlen, hnodup, hcount⟩ => by
        refine ⟨dropListWith_length hlen id, dropListWith_nodup hnodup id, ?_⟩
        dsimp only
        split
        · exact hcount
        · exact Nat.min_le_right _ _ }

theorem dropAtBuddy_keeps (s : State) (id : Nat) : Keeps s (dropAtBuddy s id) := by
  unfold dropAtBuddy
  split
  · exact .refl s
  · exact (placeDrop_keeps s id).trans (queueDrop_keeps _ _ _)

/-! ### Restore sessions (R148, R149) -/

theorem withSessions_keeps {s : State} {x : List Session} (h : s.sessionLaw → (s.withSessions x).sessionLaw) :
    Keeps s (s.withSessions x) :=
  { Keeps.refl s with sessions := h }

theorem endSession_keeps (s : State) (asker : Nat) : Keeps s (endSession s asker) :=
  withSessions_keeps fun ⟨hlen, hnodup⟩ =>
    ⟨(List.length_filter_le _ _).trans hlen, (List.filter_sublist.map _).nodup hnodup⟩

theorem updateSessions_keeps (s : State) (p : Session → Bool) {f : Session → Session} (hf : ∀ x, (f x).asker = x.asker) :
    Keeps s (s.withSessions (updateWhere p f s.sessions)) :=
  withSessions_keeps fun ⟨hlen, hnodup⟩ => by
    refine ⟨by simpa [updateWhere_length] using hlen, ?_⟩
    simpa only [State.withSessions_sessions, updateWhere_map p f (·.asker) s.sessions hf] using hnodup

/-- A session's telegram is offered and the session goes on, or it ends where the queue refuses the telegram. -/
theorem sessionNext_keeps (s : State) (x : Session) : Keeps s (sessionNext s x) := by
  have hsent : ∀ (t : TxTelegram) (o : Origin) (f : Session → Session), t.kind ≠ .beacon →
      (∀ y, (f y).asker = y.asker) →
      Keeps s (if (send s t o).2 = true then
          (send s t o).1.withSessions (updateWhere (·.asker == x.asker) f (send s t o).1.sessions)
        else
          endSession ((send s t o).1.withSessions (updateWhere (·.asker == x.asker) f (send s t o).1.sessions))
            x.asker) := by
    intro t o f hkind hf
    have hnext := (send_keeps_of_ne (s := s) o hkind).trans (updateSessions_keeps _ (·.asker == x.asker) hf)
    split
    · exact hnext
    · exact hnext.trans (endSession_keeps _ _)
  unfold sessionNext
  split
  · exact hsent _ _ (fun y => { y with position := x.keys.length }) (by simp) fun _ => rfl
  next rest _ =>
    split
    · exact .refl s
    · exact hsent _ _ (fun y => { y with position := x.keys.length - rest.length, sent := x.sent + 1 }) (by simp)
        fun _ => rfl

theorem sessionResolved_keeps (s : State) (asker : Nat) (last current : Bool) (oc : SendOutcome) :
    Keeps s (sessionResolved s asker last current oc) := by
  unfold sessionResolved
  split
  · split
    · exact .refl s
    · split
      · exact endSession_keeps _ _
      · exact sessionNext_keeps _ _
  · exact .refl s

theorem endAllSessions_keeps (s : State) : Keeps s (endAllSessions s) := by
  refine Keeps.trans (withSessions_keeps fun _ => ?_) (markEnded_keeps _ _)
  exact ⟨Nat.zero_le _, .nil⟩

/-! ### Outcomes (TABLE 7-4) -/

theorem offerResolved_keeps (s : State) (id : Nat) (oc : SendOutcome) : Keeps s (offerResolved s id oc) := by
  unfold offerResolved
  split
  · exact .refl s
  · split
    · exact withOffers_keeps s _
    · exact (closeOffer_keeps s id).trans (answerMoveFailed_keeps _ _ _ _)

/-- The record HELD by an acknowledged ACCEPT is the ARRIVING one with a leg (R99). -/
theorem acceptedRecord_reworked {ok : Temps → Prop} (s : State) (r : Record) (receipt : Nat) :
    Reworked ok r (acceptedRecord s r receipt) :=
  .unmirrored true (.leg receipt rfl .refl)

theorem acceptResolved_keeps (s : State) (id : Nat) (oc : SendOutcome) : Keeps s (acceptResolved s id oc) := by
  unfold acceptResolved
  split
  · exact .refl s
  next h hfind =>
    have hid : h.record.id = id := by simpa using List.find?_some hfind
    split
    next receipt _ _ =>
      split
      · refine Keeps.trans (withCustody_keeps' (.map_of fun x hx => ?_))
          ((withDrops_filter_keeps _ _).trans (putToBuddy_keeps _ _))
        split
        next hx' =>
          exact ⟨h, List.mem_of_find?_eq_some hfind, by rw [hid]; exact (beq_iff_eq.mp hx').symm,
            acceptedRecord_reworked s h.record receipt⟩
        next => exact ⟨x, hx, rfl, .refl⟩
      · exact remove_keeps s id
    · exact .refl s

/-- A place of the table with the exit time of its open leg written. -/
def Holding.exited (time : Nat) (h : Holding) : Holding :=
  { h with record := { h.record with legs := closeLast h.record.legs time } }

/-- The exit time written at a release is on no record of the table after it: that record leaves (R158). -/
theorem released_keeps (s : State) (id : Nat) {f : Holding → Holding} (hf : ∀ h, (f h).record.id = h.record.id) :
    Keeps s ((s.updateHolding id f).remove id) := by
  have hcustody : (updateWhere (·.record.id == id) f s.domain.custody).filter (fun h => !(h.record.id == id)) =
      s.domain.custody.filter fun h => !(h.record.id == id) := by
    induction s.domain.custody with
    | nil => rfl
    | cons x xs ih =>
      rw [updateWhere, List.map_cons, ← updateWhere, List.filter_cons, List.filter_cons, ih]
      by_cases hx : x.record.id = id <;> simp [hf, hx]
  refine Keeps.trans ?_ (markLeft_keeps _ _)
  show Keeps s (s.withCustody ((updateWhere (·.record.id == id) f s.domain.custody).filter _))
  rw [hcustody]
  exact withCustody_keeps' (.filter _)

theorem certificateResolved_keeps (s : State) (id : Nat) (oc : SendOutcome) :
    Keeps s (certificateResolved s id oc) := by
  unfold certificateResolved
  split
  · exact .refl s
  · split
    · split
      · have hleft := released_keeps s id (f := Holding.exited s.domain.clock) fun _ => rfl
        exact hleft.trans (dropAtBuddy_keeps _ id)
      · exact updateHolding_keeps s id (setState_reworked .held)
    · exact .refl s

theorem putResolved_keeps (s : State) (id : Nat) (staying : Bool) (oc : SendOutcome) :
    Keeps s (putResolved s id staying oc) := by
  unfold putResolved
  split
  · exact updateHolding_keeps s id fun _ => .unmirrored false .refl
  · exact .refl s

theorem dropResolved_keeps (s : State) (id : Nat) (oc : SendOutcome) : Keeps s (dropResolved s id oc) := by
  unfold dropResolved
  split
  · exact (withDrops_filter_keeps s _).trans (updateHolding_keeps _ id fun _ => .unmirrored true .refl)
  · exact .refl s

theorem askResolved_keeps (s : State) (oc : SendOutcome) : Keeps s (askResolved s oc) := by
  unfold askResolved
  split
  · exact withRejoin_keeps s _
  · exact .refl s

theorem resolve_keeps (s : State) (o : Origin) (oc : SendOutcome) : Keeps s (resolve s o oc) :=
  match o with
  | .plain | .hold => .refl s
  | .offer id => offerResolved_keeps s id oc
  | .accept id => acceptResolved_keeps s id oc
  | .certificate id => certificateResolved_keeps s id oc
  | .mirrorPut id staying => putResolved_keeps s id staying oc
  | .mirrorDrop id => dropResolved_keeps s id oc
  | .restoreAsk => askResolved_keeps s oc
  | .session a last current => sessionResolved_keeps s a last current oc

theorem flushAll_keeps (s : State) (l : List TxEntry) : Keeps s (flushAll s l) := by
  induction l generalizing s with
  | nil => exact .refl s
  | cons e es ih => exact (resolve_keeps s e.origin .flushed).trans (ih _)

/-! ### The roster (R128) -/

theorem updatePeer_keeps (s : State) (address : Nat) {f : RosterEntry → RosterEntry}
    (hf : ∀ e, (f e).address = e.address) : Keeps s (s.updatePeer address f) :=
  { Keeps.refl s with roster := fun h => (updateWhere_map _ f (·.address) s.roster hf).trans h }

theorem buddyDeadline_keeps (s : State) : Keeps s (buddyDeadline s) := by
  unfold buddyDeadline
  split
  · exact .refl s
  · exact updatePeer_keeps s _ fun e => by split <;> rfl

/-! ### HOLD_PENDING, HOLD and ACTIVE (R122, R169, R170) -/

/-- The telegrams kept at the entry to HOLD_PENDING are those in transmission. -/
theorem keptSending_keeps (s : State) (b : Bool) :
    Keeps s (s.withQueue ((s.bus.queue.filter (·.sending)).map (spoilAccept b))) := by
  have hspoil : ∀ e, (spoilAccept b e).telegram = e.telegram ∧ (spoilAccept b e).sending = e.sending := fun e => by
    unfold spoilAccept
    split <;> exact ⟨rfl, rfl⟩
  refine Keeps.trans (t := s.withQueue (s.bus.queue.filter (·.sending)))
    (withQueue_keeps (fun ⟨hlen, hbeacon, hsending⟩ => ?_) (.inr fun h => by simp [h]))
    (map_queue_keeps (s.withQueue (s.bus.queue.filter (·.sending))) fun e => ?_)
  · refine ⟨(List.length_filter_le _ _).trans hlen, ?_, ?_⟩
    · exact ((List.filter_sublist.filter _).length_le).trans hbeacon
    · exact ((List.filter_sublist.filter _).length_le).trans hsending
  · exact ⟨fun h => (hspoil e).1 ▸ h, fun h => (hspoil e).2 ▸ h⟩

theorem flushWaiting_keeps (s : State) : Keeps s (flushWaiting s) :=
  (((keptSending_keeps s _).trans (withBeaconHold_none_keeps _)).trans (withFreeCount_keeps _ _)).trans
    (flushAll_keeps _ _)

theorem enterHoldPending_keeps (s : State) : Keeps s (enterHoldPending s) :=
  ((((closeAllOffers_keeps s).trans (removeWhere_keeps _ _)).trans (endAllSessions_keeps _)).trans
    (flushWaiting_keeps _)).trans
    ((withMode_keeps _ (by decide)).trans (send_keeps_of_ne _ (by simp)))

theorem leaveHold_keeps (s : State) : Keeps s (leaveHold s) :=
  (((withMode_keeps s (by decide)).trans (withLine_keeps _ _)).trans (unmirrorAll_keeps _)).trans (buddyDeadline_keeps _)

/-- The bus is switched off with nothing queued (R122). -/
theorem busOff_keeps (s : State) :
    Keeps s ((((s.withMode .hold).withQueue []).withBeaconHold none).withLine .ignoring) where
  __ := Keeps.refl s
  bus := fun ⟨_, _, _, hrx⟩ => ⟨Nat.zero_le _, Nat.zero_le _, Nat.zero_le _, hrx⟩
  silent := fun _ _ _ => ⟨rfl, rfl⟩

theorem enterHold_keeps (s : State) : Keeps s (enterHold s) := by
  have hflushed := (busOff_keeps s).trans (flushAll_keeps _ s.bus.queue)
  unfold enterHold
  dsimp only
  split
  · exact hflushed.trans (leaveHold_keeps _)
  · exact hflushed

theorem becomeActive_keeps (s : State) : Keeps s (becomeActive s) := by
  have hactive := (withMode_keeps s (m := .active) (by decide)).trans (buddyDeadline_keeps _)
  unfold becomeActive
  dsimp only
  split
  · exact hactive.trans (enterHoldPending_keeps _)
  · exact hactive

/-! ### Sightings (R64) -/

theorem sight_keeps (s : State) (door : Nat) (state : DoorState) (count source : Nat) :
    Keeps s (sight s door state count source) := by
  unfold sight
  split
  · exact .refl s
  · refine (withTracker_keeps s _).trans (withCustody_keeps' (.map fun h => ?_))
    unfold addOpenings
    split
    · exact .openings _ .refl
    · exact .refl

theorem sightAll_keeps (s : State) (source : Nat) (ds : List DoorReport) : Keeps s (sightAll s source ds) := by
  induction ds generalizing s with
  | nil => exact .refl s
  | cons d ds ih => exact (sight_keeps s _ _ _ _).trans (ih _)

/-! ### The Mirror Table (R138) -/

theorem withMirror_keeps {s : State} {l : List MirrorRecord} (hlaw : s.mirrorLaw → (s.withMirror l).mirrorLaw)
    (hsound : (∀ m ∈ s.domain.mirror, recordSound m.record) → ∀ m ∈ l, recordSound m.record)
    (htemps : (∀ m ∈ s.domain.mirror, recordTempsInRange m.record = true) →
      ∀ m ∈ l, recordTempsInRange m.record = true) : Keeps s (s.withMirror l) where
  __ := Keeps.refl s
  mirror := hlaw
  records := fun ⟨hcustody, hmirror⟩ => ⟨hcustody, hsound hmirror⟩
  temps := fun _ ⟨hchannels, hfilters, hsummary, hcustody, hmirror⟩ =>
    ⟨hchannels, hfilters, hsummary, hcustody, htemps hmirror⟩

theorem filterMirror_keeps (s : State) (p : MirrorRecord → Bool) : Keeps s (s.withMirror (s.domain.mirror.filter p)) :=
  withMirror_keeps
    (fun ⟨hlen, hnodup⟩ => ⟨(List.length_filter_le _ _).trans hlen, (List.filter_sublist.map _).nodup hnodup⟩)
    (fun h m hm => h m (List.mem_of_mem_filter hm)) fun h m hm => h m (List.mem_of_mem_filter hm)

end Sys2Proof.Machine
end

