-- ==== Sys2Proof/Proofs/SoundValues.lean ====
section
/-!
PROOFS. Values that come into the state are within their laws: staged setup items (R165), readings, filters and
summaries (R22 to R50), and the records of telegrams (R116, R125).
-/
namespace Sys2Proof.Machine

/-! ### Setup items (TABLE 11-2, R165) -/

theorem clampNat_bounds {lo hi : Nat} (h : lo ≤ hi) (n : Nat) : lo ≤ clampNat lo hi n ∧ clampNat lo hi n ≤ hi := by
  unfold clampNat; omega

theorem clampTemp_inRange (t : Int) : tempInRange (clampTemp t) = true := by
  rw [tempInRange_iff]
  show -500 ≤ max (-500) (min 700 t) ∧ max (-500) (min 700 t) ≤ 700
  omega

theorem keepFirst_subset (l : List Nat) : ∀ x ∈ keepFirst l, x ∈ l := by
  induction l with
  | nil => exact fun _ h => h
  | cons y ys ih =>
    intro x hx
    obtain rfl | hx := List.mem_cons.mp hx
    · exact List.mem_cons_self
    · exact List.mem_cons_of_mem _ (ih x (List.mem_of_mem_filter hx))

theorem keepFirst_nodup (l : List Nat) : (keepFirst l).Nodup := by
  induction l with
  | nil => exact .nil
  | cons y ys ih => exact List.nodup_cons.mpr ⟨by simp, ih.filter _⟩

theorem keepFirst_length (l : List Nat) : (keepFirst l).length ≤ l.length := by
  induction l with
  | nil => exact le_rfl
  | cons y ys ih => exact Nat.succ_le_succ ((List.length_filter_le _ _).trans ih)

theorem classOf_inRange (p : List Byte) : limitsInRange (classOf p).limits = true := by
  have hclamped : ∀ (mark : Bool) (t : Temperature), optTempInRange (present mark (clampTemp t)) = true := by
    intro mark t
    cases mark <;> simp [present, optTempInRange, clampTemp_inRange]
  have hcold : ∀ (mark : Bool) (t : Temperature) (n : Nat),
      optTempInRange ((present mark (⟨clampTemp t, n⟩ : ColdLimit)).map (·.tmin)) = true := by
    intro mark t n
    cases mark <;> simp [present, optTempInRange, clampTemp_inRange]
  simp only [limitsInRange, classOf, hclamped, hcold, clampTemp_inRange, Bool.and_self]

theorem default_inRange : Setup.default.inRange := by
  refine ⟨by simp [Setup.default], by decide, by decide, ?_, ?_, by decide, by decide, by decide, by decide,
    by simp [Setup.default], by decide, by decide⟩
  · intro i
    simp [Setup.default]
  · intro i
    simp [Setup.default]

/-- R165: what a well-sized CONFIG-SET stages is in range. -/
theorem stageItem_inRange {u u' : Setup} {p stored : List Byte} (hu : u.inRange) (hsize : configWellSized p = true)
    (h : stageItem u p = some (u', stored)) : u'.inRange := by
  obtain ⟨hcomp, hepoch, hpre, hk, hdoors, hlen, hnodup, hmap, hgrace, hbuddy, hclasses, hlimits⟩ := hu
  unfold stageItem at h
  split at h
  case h_1 =>
    obtain ⟨rfl, -⟩ := Prod.mk.inj (Option.some.inj h)
    have hrange := clampNat_bounds (lo := 1) (hi := 15) (by decide) (field p 1 1)
    exact ⟨by simpa using hrange, hepoch, hpre, hk, hdoors, hlen, hnodup, hmap, hgrace, hbuddy, hclasses, hlimits⟩
  case h_2 =>
    obtain ⟨rfl, -⟩ := Prod.mk.inj (Option.some.inj h)
    exact ⟨hcomp, clampNat_bounds (by decide) _, hpre, hk, hdoors, hlen, hnodup, hmap, hgrace, hbuddy, hclasses,
      hlimits⟩
  case h_3 =>
    obtain ⟨rfl, -⟩ := Prod.mk.inj (Option.some.inj h)
    exact ⟨hcomp, hepoch, (clampNat_bounds (by decide) _).2, hk, hdoors, hlen, hnodup, hmap, hgrace, hbuddy, hclasses,
      hlimits⟩
  case h_4 =>
    split at h
    · exact nomatch h
    next i _ =>
      obtain ⟨rfl, -⟩ := Prod.mk.inj (Option.some.inj h)
      refine ⟨hcomp, hepoch, hpre, fun j => ?_, hdoors, hlen, hnodup, hmap, hgrace, hbuddy, hclasses, hlimits⟩
      rw [Four.get_set]
      split
      · exact clampNat_bounds (by decide) _
      · exact hk j
  case h_5 =>
    split at h
    · exact nomatch h
    next i _ =>
      obtain ⟨rfl, -⟩ := Prod.mk.inj (Option.some.inj h)
      refine ⟨hcomp, hepoch, hpre, hk, fun j => ?_, hlen, hnodup, hmap, hgrace, hbuddy, hclasses, hlimits⟩
      rw [Four.get_set]
      split
      · split
        · simp
        · simpa using (clampNat_bounds (lo := 0) (hi := 15) (by decide) _).2
      · exact hdoors j
  case h_6 hitem =>
    split at h
    · exact nomatch h
    next hcount =>
      obtain ⟨rfl, -⟩ := Prod.mk.inj (Option.some.inj h)
      have hlength : p.length = 2 + field p 1 1 := by
        have := beq_iff_eq.mp hsize
        simp only [configLength, hitem, Option.some.injEq] at this
        exact this.symm
      refine ⟨hcomp, hepoch, hpre, hk, hdoors, (keepFirst_length _).trans ?_, keepFirst_nodup _, fun d hd => ?_, hgrace,
        hbuddy, hclasses, hlimits⟩
      · rw [List.length_map, List.length_drop]; omega
      · obtain ⟨b, _, rfl⟩ := List.mem_map.mp (keepFirst_subset _ d hd)
        exact (clampNat_bounds (by decide) _).2
  case h_7 =>
    obtain ⟨rfl, -⟩ := Prod.mk.inj (Option.some.inj h)
    exact ⟨hcomp, hepoch, hpre, hk, hdoors, hlen, hnodup, hmap, (clampNat_bounds (by decide) _).2, hbuddy, hclasses,
      hlimits⟩
  case h_8 =>
    obtain ⟨rfl, -⟩ := Prod.mk.inj (Option.some.inj h)
    refine ⟨hcomp, hepoch, hpre, hk, hdoors, hlen, hnodup, hmap, hgrace, fun b hb => ?_, hclasses, hlimits⟩
    have hrange := clampNat_bounds (lo := 0) (hi := 15) (by decide) (field p 1 1)
    split at hb
    · exact nomatch hb
    · obtain rfl := Option.some.inj hb
      omega
  case h_9 =>
    split at h
    · exact nomatch h
    · obtain ⟨rfl, -⟩ := Prod.mk.inj (Option.some.inj h)
      refine ⟨hcomp, hepoch, hpre, hk, hdoors, hlen, hnodup, hmap, hgrace, hbuddy, by simpa using hclasses,
        fun c hc => ?_⟩
      obtain hc | rfl := List.mem_or_eq_of_mem_set hc
      · exact hlimits c hc
      · exact classOf_inRange p
  case h_10 => exact nomatch h

/-- Disabling classes changes no limit (R166). -/
theorem checkedClasses_inRange {u : Setup} (hu : u.inRange) :
    ({ u with classes := checkedClasses u.classes } : Setup).inRange := by
  obtain ⟨hcomp, hepoch, hpre, hk, hdoors, hlen, hnodup, hmap, hgrace, hbuddy, hclasses, hlimits⟩ := hu
  refine ⟨hcomp, hepoch, hpre, hk, hdoors, hlen, hnodup, hmap, hgrace, hbuddy, by simpa [checkedClasses] using hclasses,
    fun c hc => ?_⟩
  obtain ⟨c', hc', rfl⟩ := List.mem_map.mp hc
  split
  · exact hlimits c' hc'
  · exact hlimits c' hc'

/-! ### Readings (R29 to R32) -/

/-- Every status with a value has one in range. -/
theorem classify_value_inRange (period high : Nat) : optTempInRange (classify period high).value? = true := by
  by_cases hP : period < 1000
  · simp [classify_of_short_period hP, Status.value?, optTempInRange]
  have hP : 1000 ≤ period := Nat.le_of_not_lt hP
  rw [classify_of_period hP]
  split
  · rfl
  · split
    · rfl
    · split
      · rfl
      next hlow =>
        split
        · rfl
        next hhigh =>
          have hpos : 0 < period := by omega
          have hmin := tempMin_le_conversion hpos (Nat.le_of_not_lt hlow)
          have hmax := conversion_le_tempMax hpos (Nat.le_of_not_lt hhigh)
          simpa [Status.value?, optTempInRange] using (tempInRange_iff _).mpr ⟨hmin, hmax⟩

theorem complete_readingInRange (c : Channel) {st : Status} (h : optTempInRange st.value? = true) (clock : Nat) :
    ∀ r ∈ (c.complete st clock).reading, optTempInRange r.status.value? = true := by
  simpa [Channel.complete] using h

theorem rise_readingInRange {c : Channel} (h : readingInRange c) (n clock : Nat) :
    readingInRange (c.rise n clock) := by
  unfold Channel.rise
  split
  · split
    · exact h
    · exact h
    · split
      · exact h
      · split
        · exact h
        · exact complete_readingInRange c (classify_value_inRange _ _) clock
  · exact h

theorem fall_readingInRange {c : Channel} (h : readingInRange c) (n : Nat) : readingInRange (c.fall n) := by
  unfold Channel.fall
  split
  · split <;> exact h
  · exact h

theorem runOutArming_readingInRange {c : Channel} (h : readingInRange c) (level : LineLevel) (clock : Nat) :
    readingInRange (c.runOutArming level clock) := by
  unfold Channel.runOutArming
  split
  · split
    · exact h
    · exact complete_readingInRange c rfl clock
  · exact h

theorem runOutMeasuring_readingInRange {c : Channel} (h : readingInRange c) (clock : Nat) :
    readingInRange (c.runOutMeasuring clock) := by
  unfold Channel.runOutMeasuring
  split
  · exact complete_readingInRange c rfl clock
  · exact h

/-! ### Capture channels (R22 to R27) -/

theorem stopped_channelLaw : channelLaw .stopped := by simp [channelLaw, Channel.stopped]

theorem started_channelLaw : channelLaw .started := by simp [channelLaw, Channel.started]

/-- An edge comes after the channel's last event and not after the run-out (R22). -/
theorem edgeAt_bounds {c : Channel} {n : Nat} {level : LineLevel} (h : c.edgeAt n level = true) :
    c.counter < n ∧ n ≤ Config.runOutCounts := by
  simp only [Channel.edgeAt, Bool.and_eq_true, decide_eq_true_eq] at h
  exact ⟨h.1.2, h.2⟩

theorem rise_channelLaw {c : Channel} (h : channelLaw c) (n clock : Nat) : channelLaw (c.rise n clock) := by
  obtain ⟨hcounter, hhigh, hnone, hlast⟩ := h
  unfold Channel.rise
  split
  next hedge =>
    obtain ⟨hafter, hbefore⟩ := edgeAt_bounds hedge
    split
    · exact ⟨hcounter, hhigh, hnone, hlast⟩
    · exact ⟨Nat.zero_le _, nofun, fun _ => rfl, hlast⟩
    next hstate =>
      split
      · exact ⟨hbefore, fun x hx => ⟨(hhigh x hx).1, (hhigh x hx).2.trans hafter.le⟩, hnone, hlast⟩
      next hcount =>
        split
        · exact ⟨hcounter, hhigh, hnone, hlast⟩
        next x hx =>
          obtain ⟨hx1, hx2⟩ := hhigh x hx
          refine ⟨Nat.zero_le _, nofun, fun _ => rfl, fun m hm => ?_⟩
          obtain rfl := Option.some.inj hm
          exact ⟨hx1, hx2.trans_lt hafter, lt_of_le_of_ne hbefore hcount⟩
  next => exact ⟨hcounter, hhigh, hnone, hlast⟩

theorem fall_channelLaw {c : Channel} (h : channelLaw c) (n : Nat) : channelLaw (c.fall n) := by
  obtain ⟨hcounter, hhigh, hnone, hlast⟩ := h
  unfold Channel.fall
  split
  next hedge =>
    obtain ⟨hafter, hbefore⟩ := edgeAt_bounds hedge
    split
    · exact ⟨hcounter, hhigh, hnone, hlast⟩
    next hstate =>
      have hcaptured : c.high = none := hnone (by simp [hstate])
      exact ⟨hbefore, by simp [hcaptured], fun _ => hcaptured, hlast⟩
    next hstate =>
      refine ⟨hbefore, fun x hx => ?_, fun hne => absurd hstate hne, hlast⟩
      obtain rfl := Option.some.inj hx
      exact ⟨Nat.one_le_of_lt hafter, le_rfl⟩
  next => exact ⟨hcounter, hhigh, hnone, hlast⟩

theorem runOutArming_channelLaw {c : Channel} (h : channelLaw c) (level : LineLevel) (clock : Nat) :
    channelLaw (c.runOutArming level clock) := by
  obtain ⟨hcounter, hhigh, hnone, hlast⟩ := h
  unfold Channel.runOutArming
  split
  next hstate =>
    have hcaptured : c.high = none := hnone (by simp [hstate])
    split
    · exact ⟨hcounter, hhigh, hnone, hlast⟩
    · exact ⟨Nat.zero_le _, by simp [Channel.complete, hcaptured], fun _ => hcaptured, hlast⟩
  next => exact ⟨hcounter, hhigh, hnone, hlast⟩

theorem runOutMeasuring_channelLaw {c : Channel} (h : channelLaw c) (clock : Nat) :
    channelLaw (c.runOutMeasuring clock) := by
  obtain ⟨hcounter, hhigh, hnone, hlast⟩ := h
  unfold Channel.runOutMeasuring
  split
  · exact ⟨Nat.zero_le _, nofun, fun _ => rfl, hlast⟩
  · exact ⟨hcounter, hhigh, hnone, hlast⟩

theorem taken_readingInRange {c : Channel} (h : readingInRange c) : readingInRange c.taken := by
  intro r hr
  obtain ⟨r', hr', rfl⟩ := Option.mem_map.mp hr
  exact h r' hr'

/-! ### Filters and summaries (R44 to R50) -/

theorem freshValue?_inRange {c : Channel} (h : readingInRange c) : ∀ v ∈ c.freshValue?, tempInRange v = true := by
  intro v hv
  unfold Channel.freshValue? at hv
  split at hv
  next r hr =>
    split at hv
    · have := h r hr
      rw [Option.mem_def.mp hv] at this
      exact this
    · exact nomatch hv
  · exact nomatch hv

/-- A filter stays in range: a step lies between its old value and the reading (R46). -/
theorem take_inRange {p : ProbeSetup} {c : Channel} {f : Filter} (hk : p.k ≤ 16) (hc : readingInRange c)
    (hf : tempInRange f.value = true) : tempInRange (Filter.take p c f).value = true := by
  unfold Filter.take
  split
  · split
    next t ht =>
      have hreading := freshValue?_inRange hc t ht
      dsimp only
      split
      · obtain ⟨hlower, hupper⟩ := filterStep_between (S := f.value) (T := t) hk
        have hmin := (tempInRange_iff _).mp (tempInRange_min hf hreading)
        have hmax := (tempInRange_iff _).mp (tempInRange_max hf hreading)
        exact (tempInRange_iff _).mpr ⟨hmin.1.trans hlower, hupper.trans hmax.2⟩
      · exact hreading
    · exact hf
  · exact hf

theorem foldl_inRange {op : Temperature → Temperature → Temperature}
    (hop : ∀ a b, tempInRange a = true → tempInRange b = true → tempInRange (op a b) = true) (l : List Temperature) :
    ∀ v, tempInRange v = true → (∀ x ∈ l, tempInRange x = true) → tempInRange (l.foldl op v) = true := by
  induction l with
  | nil => exact fun _ hv _ => hv
  | cons x xs ih =>
    intro v hv hl
    exact ih _ (hop v x hv (hl x List.mem_cons_self)) fun y hy => hl y (List.mem_cons_of_mem _ hy)

theorem summaryTemps_inRange {l : List Temperature} (hl : ∀ x ∈ l, tempInRange x = true) :
    ∀ t ∈ summaryTemps l, t.inRange := by
  cases l with
  | nil => exact nofun
  | cons v vs =>
    intro t ht
    obtain rfl := Option.some.inj ht
    have hv := hl v List.mem_cons_self
    have hvs := fun x hx => hl x (List.mem_cons_of_mem _ hx)
    exact ⟨foldl_inRange (fun _ _ => tempInRange_max) vs v hv hvs, foldl_inRange (fun _ _ => tempInRange_min) vs v hv hvs⟩

theorem countedValues_inRange {u : Setup} {fs : Four Filter} (h : ∀ i, tempInRange (fs.get i).value = true) :
    ∀ x ∈ countedValues u fs, tempInRange x = true := by
  intro x hx
  simp only [countedValues, List.mem_filterMap] at hx
  obtain ⟨i, _, hi⟩ := hx
  split at hi
  · obtain rfl := Option.some.inj hi
    exact h i
  · exact nomatch hi

/-! ### Fields of payloads (R125) -/

theorem beNat_lt (bs : List Byte) : beNat bs < 256 ^ bs.length := by
  induction bs with
  | nil => simp [beNat]
  | cons b bs ih =>
    have hb := b.isLt
    have hle : b.toNat * 256 ^ bs.length ≤ 255 * 256 ^ bs.length := Nat.mul_le_mul_right _ (by omega)
    rw [beNat, List.foldl_cons, beNat_foldl, List.length_cons, Nat.pow_succ, Nat.zero_mul, Nat.zero_add]
    omega

theorem field_lt (p : List Byte) (off len : Nat) : field p off len < 256 ^ len := by
  have hlen : ((p.drop off).take len).length ≤ len := by simp
  exact (beNat_lt _).trans_le (Nat.pow_le_pow_right (by decide) hlen)

/-! ### Records of telegrams (R116, R125) -/

theorem legsLaw_of_legsWf {ls : List Leg} (h : legsWf ls = true) : legsLaw ls := by
  simp only [legsWf, Bool.and_eq_true, decide_eq_true_eq] at h
  obtain ⟨⟨⟨⟨hmin, hmax⟩, _⟩, hclosed⟩, hopen⟩ := h
  refine ⟨hmin, hmax, fun l hl => ?_, fun l hl => ?_⟩
  · have := List.all_eq_true.mp hclosed l hl
    exact Option.isSome_iff_ne_none.mp this
  · rw [Option.mem_def.mp hl] at hopen
    simpa using hopen

/-- The accounts and counts of a carried record are as wide as its layout (TABLE 7-8). -/
theorem recordAt_accountsLaw (p : List Byte) (off : Nat) : accountsLaw (recordAt p off) :=
  ⟨Nat.le_of_lt_succ (field_lt p _ 4), Nat.le_of_lt_succ (field_lt p _ 4), Nat.le_of_lt_succ (field_lt p _ 4),
    Nat.le_of_lt_succ (field_lt p _ 4), Nat.le_of_lt_succ (field_lt p _ 2), Nat.le_of_lt_succ (field_lt p _ 1)⟩

/-- R116: a carried record that passes its check is sound, with its temperatures in range. -/
theorem recordCheck_sound {p : List Byte} {off : Nat} (h : recordCheck (recordAt p off) = true) :
    recordSound (recordAt p off) ∧ recordTempsInRange (recordAt p off) = true := by
  simp only [recordCheck, Bool.and_eq_true] at h
  exact ⟨⟨legsLaw_of_legsWf h.1.2, recordAt_accountsLaw p off⟩, h.2⟩

/-- R17: a loaded record has one open leg, and accounts as wide as their fields. -/
theorem loadedRecord_sound (s : State) (p : List Byte) (l : Limits) : recordSound (loadedRecord s p l) := by
  have haccount : ∀ (b : Bool) (off : Nat), (if b then field p off 4 else 0) ≤ Config.max32 := by
    intro b off
    cases b
    · exact Nat.zero_le _
    · exact Nat.le_of_lt_succ (field_lt p off 4)
  refine ⟨⟨le_rfl, by simp [loadedRecord, Config.maxLegs], nofun, ?_⟩, haccount _ _, haccount _ _, haccount _ _,
    haccount _ _, Nat.zero_le _, Nat.zero_le _⟩
  simp [loadedRecord]

/-- R165: the limits of an enabled class lie in the range, as every setup does. -/
theorem enabledClass_inRange {s : State} {i : Nat} {l : Limits} (hlaw : s.setupLaw) (h : s.enabledClass i = some l) :
    limitsInRange l = true := by
  obtain ⟨_, ⟨_, _, _, _, _, _, _, _, _, _, _, hlimits⟩, _⟩ := hlaw
  unfold State.enabledClass at h
  split at h
  · exact nomatch h
  next c hc =>
    split at h
    · obtain rfl := Option.some.inj h
      exact hlimits c (List.mem_of_getElem? hc)
    · exact nomatch h

theorem loadedRecord_tempsInRange {s : State} {p : List Byte} {l : Limits} (h : limitsInRange l = true) :
    recordTempsInRange (loadedRecord s p l) = true :=
  (recordTempsInRange_iff _).mpr ⟨h, nofun⟩

/-- R152: a restored record is as sound as the copy it comes from. -/
theorem restoredRecord_sound {s : State} {q : Option Nat} {r : Record} (h : recordSound r)
    (ht : recordTempsInRange r = true) :
    recordSound (restoredRecord s q r) ∧ recordTempsInRange (restoredRecord s q r) = true := by
  have hleg : Reworked (fun _ => False) r
      (addLeg r (writtenTime (closeOf q s.committed.epoch)) ⟨s.compartment, s.address, s.domain.clock, none, true⟩) :=
    .leg _ rfl .refl
  obtain ⟨hlegs, hwarm, hcold, hdoor, _, hopenings, helided⟩ := hleg.sound h
  exact ⟨⟨hlegs, hwarm, hcold, hdoor, satAdd_le .., hopenings, helided⟩, hleg.tempsInRange (fun _ => False.elim) ht⟩

/-! ### BEACONs (R127) -/

/-- The fields of a BEACON's payload, with the door entries read from it (TABLE 7-7). -/
def carriedBeacon (p : List Byte) (doors : List DoorReport) : Beacon where
  tripId := field p 0 4
  clock := field p 4 4
  compartment := field p 8 1
  epoch := field p 9 2
  sequence := field p 11 4
  temps := present ((field p 19 1).testBit 7) ⟨tempField p 15, tempField p 17⟩
  grace := (field p 19 1).testBit 6
  used :=
    ⟨(field p 19 1).testBit 0, (field p 19 1).testBit 1, (field p 19 1).testBit 2, (field p 19 1).testBit 3⟩
  mode := field p 20 1
  restartCount := field p 21 1
  resetCause := field p 22 1
  custodyCount := field p 23 1
  alerts := field p 24 1
  doors := doors

/-- The door entries of a BEACON's payload, when every one of them has a form. -/
def carriedDoors (p : List Byte) : Option (List DoorReport) :=
  allSome ((List.range (field p 25 1)).map fun i => doorReportAt p (26 + 4 * i))

/-- R127: the tests of a BEACON's length, its fields and its temperatures. -/
def beaconInForm (p : List Byte) (b : Beacon) : Prop :=
  ¬ (p.length < 26 ∨ p.length ≠ 26 + 4 * field p 25 1 ∨ 4 < field p 25 1) ∧
  ¬ (b.compartment = 0 ∨ 15 < b.compartment) ∧ ¬ (b.epoch < 10 ∨ 600 < b.epoch) ∧
  b.temps.all (fun t => tempInRange t.warm && tempInRange t.cold && decide (t.cold ≤ t.warm)) = true

theorem beaconOf_eq_some (p : List Byte) (b : Beacon) :
    beaconOf p = some b ↔ ∃ doors, carriedDoors p = some doors ∧ carriedBeacon p doors = b ∧ beaconInForm p b := by
  have hread : beaconOf p =
      if p.length < 26 ∨ p.length ≠ 26 + 4 * field p 25 1 ∨ 4 < field p 25 1 then none
      else (carriedDoors p).bind fun doors =>
        if (carriedBeacon p doors).compartment = 0 ∨ 15 < (carriedBeacon p doors).compartment then none
        else if (carriedBeacon p doors).epoch < 10 ∨ 600 < (carriedBeacon p doors).epoch then none
        else if (carriedBeacon p doors).temps.all
            (fun t => tempInRange t.warm && tempInRange t.cold && decide (t.cold ≤ t.warm)) then
          some (carriedBeacon p doors)
        else none := by
    refine ite_congr rfl (fun _ => rfl) fun _ => ?_
    unfold carriedDoors
    cases allSome ((List.range (field p 25 1)).map fun i => doorReportAt p (26 + 4 * i)) <;> rfl
  rw [hread]
  simp only [Option.ite_none_left_eq_some, Option.bind_eq_some_iff, Option.ite_none_right_eq_some, Option.some.injEq]
  constructor
  · rintro ⟨hlen, doors, hdoors, hcomp, hepoch, htemps, rfl⟩
    exact ⟨doors, hdoors, rfl, hlen, hcomp, hepoch, htemps⟩
  · rintro ⟨doors, hdoors, rfl, hlen, hcomp, hepoch, htemps⟩
    exact ⟨hlen, doors, hdoors, hcomp, hepoch, htemps, rfl⟩

theorem beaconOf_temps {p : List Byte} {b : Beacon} (h : beaconOf p = some b) : ∀ t ∈ b.temps, t.inRange := by
  obtain ⟨_, _, _, _, _, _, htemps⟩ := (beaconOf_eq_some p b).mp h
  intro t ht
  rw [Option.mem_def.mp ht, Option.all_some, Bool.and_eq_true, Bool.and_eq_true] at htemps
  exact htemps.1

/-! ### Steps of records (R73 to R85, R142) -/

theorem stepHolding_reworked (m : Summary) (h : Holding) :
    Reworked (fun x => m.temps = some x) h.record (stepHolding m h).record := by
  unfold stepHolding
  split
  · dsimp only
    split
    · exact .refl
    · exact .charged (fun _ hx => hx) _ _ _ .refl
  · exact .refl

theorem stepMirror_reworked (b : Beacon) (m : MirrorRecord) :
    Reworked (fun x => b.temps = some x) m.record (stepMirror b m).record := by
  have hstep : ∀ n : Nat, Reworked (fun x => b.temps = some x) m.record
      (if b.sequence < n then m
      else
        { m with
          seq := some b.sequence
          record :=
            charge { m.record with gap := satAdd Config.max32 m.record.gap ((b.sequence - n) * b.epoch) } b.temps
              b.grace b.epoch (epochEnd b.sequence b.epoch) }).record := by
    intro n
    split
    · exact .refl
    · exact .charged (fun _ hx => hx) _ _ _ (.gap _ .refl)
  exact hstep _

theorem chargeStop_reworked {ok : Temps → Prop} (clock : Nat) (h : Holding) :
    Reworked ok h.record (chargeStop clock h).record := by
  unfold chargeStop
  split
  · exact .gap _ .refl
  · exact .refl

end Sys2Proof.Machine
end

