-- ==== Sys2Proof/Proofs/CommandsKeepLaws.lean ====
section
/-!
PROOFS. What each command keeps (`KeepsLaws`), and from it the laws of the tables, the bus, the setups, the records, the
temperatures and the capture channels through every step, with the history of every record that stays.
-/
namespace Sys2Proof.Machine

/-! ### Probes and door inputs -/

section Blocks
variable (s : State)

theorem updateChannel_keeps (i : Fin 4) {f : Channel → Channel} (hlaw : ∀ c, channelLaw c → channelLaw (f c))
    (hreading : ∀ c, readingInRange c → readingInRange (f c)) : Keeps s (s.updateChannel i f) := by
  unfold State.updateChannel
  split
  · exact
      { Keeps.refl s with
        capture := fun h j => by
          simp only [Four.get_set]
          split
          · exact hlaw _ (h i)
          · exact h j
        temps := fun _ ⟨hchannels, hrest⟩ => by
          refine ⟨fun j => ?_, hrest⟩
          simp only [Four.get_set]
          split
          · exact hreading _ (hchannels i)
          · exact hchannels j }
  · exact .refl s

/-- Channels all stopped or just started hold no reading and no captured time (R24). -/
theorem setChannels_keeps {cs : Four Channel} (h : ∀ i, cs.get i = .stopped ∨ cs.get i = .started) :
    Keeps s { s with channels := cs } where
  __ := Keeps.refl s
  capture := fun _ i => by
    obtain hi | hi := h i
    · simpa [hi] using stopped_channelLaw
    · simpa [hi] using started_channelLaw
  temps := fun _ ⟨_, hrest⟩ => by
    refine ⟨fun i => ?_, hrest⟩
    show readingInRange (cs.get i)
    obtain hi | hi := h i <;> rw [hi] <;> exact nofun

theorem startChannels_keeps : Keeps s (startChannels s) :=
  setChannels_keeps s fun i => by
    rw [Four.get_build]
    split
    · exact .inr rfl
    · exact .inl rfl

theorem stopChannels_keeps : Keeps s (stopChannels s) := setChannels_keeps s fun i => .inl (Four.get_all _ i)

theorem startInputs_keeps : Keeps s (startInputs s) := { Keeps.refl s with }

theorem stopInputs_keeps : Keeps s (stopInputs s) := { Keeps.refl s with }

theorem startBlocks_keeps : Keeps s (startBlocks s) :=
  have hcleared : Keeps s
      { s with lastSummary := none, nextExpiry := firstExpiryAfter s.domain.clock s.committed.epoch } :=
    { Keeps.refl s with temps := fun _ ⟨hchannels, hfilters, _, hrest⟩ => ⟨hchannels, hfilters, nofun, hrest⟩ }
  (hcleared.trans (startChannels_keeps _)).trans (startInputs_keeps _)

theorem announce_keeps (i : Fin 4) : Keeps s (announce s i) := by
  unfold announce
  split
  · exact .refl s
  next r _ =>
    have hsight : Keeps s (if s.mode.runsEpochs then sight s r.door r.state r.count s.address else s) := by
      split
      · exact sight_keeps ..
      · exact .refl s
    extract_lets u
    split
    · exact hsight.trans (send_keeps_of_ne (t := ⟨0, .door, doorReportBytes r⟩) .plain (by simp))
    · exact hsight

theorem settleInput_keeps (i : Fin 4) : Keeps s (settleInput s i) :=
  have hsettled : Keeps s { s with inputs := s.inputs.set i (s.inputs.get i).settle } := { Keeps.refl s with }
  hsettled.trans (announce_keeps _ i)

end Blocks

/-! ### The backup domain, trips and starts -/

section Domain
variable (s : State)

/-- The domain's own marks (clock, trip id, flags, tracker and so on) are in none of these laws. -/
theorem marks_keep {d : Domain} (h : d.custody = s.domain.custody ∧ d.mirror = s.domain.mirror ∧
    d.drops = s.domain.drops ∧ d.discardedDrops = s.domain.discardedDrops ∧ d.filters = s.domain.filters) :
    Keeps s { s with domain := d } := by
  obtain ⟨hcustody, hmirror, hdrops, hdiscarded, hfilters⟩ := h
  exact
    { Keeps.refl s with
      mirror := fun h => by simpa only [State.mirrorLaw, hmirror] using h
      drops := fun h => by simpa only [State.dropLaw, hdrops, hdiscarded] using h
      custody := fun h => by simpa only [State.custodyLaw, hcustody] using h
      records := fun h => by simpa only [State.recordLaw, hcustody, hmirror] using h
      temps := fun _ h => by simpa only [State.heldTempLaw, hcustody, hmirror, hfilters] using h
      history := by simpa only [hcustody] using Survives.refl }

/-- A domain whose tables and filters are cleared (R171). -/
theorem clearedDomain_keeps {d : Domain} (doorMap : List Nat)
    (h : d.custody = [] ∧ d.mirror = [] ∧ d.drops = [] ∧ d.discardedDrops = 0 ∧
      d.filters = (Domain.cleared doorMap).filters) : Keeps s { s with domain := d } := by
  obtain ⟨hcustody, hmirror, hdrops, hdiscarded, hfilters⟩ := h
  exact
    { Keeps.refl s with
      mirror := fun _ => by simp [State.mirrorLaw, hmirror]
      drops := fun _ => by simp [State.dropLaw, hdrops, hdiscarded]
      custody := fun _ => by simp [State.custodyLaw, hcustody]
      records := fun _ => by simp [State.recordLaw, hcustody, hmirror]
      temps := fun _ ⟨hchannels, _, hsummary, _, _⟩ => by
        refine ⟨hchannels, fun i => ?_, hsummary, by simp [hcustody], by simp [hmirror]⟩
        simp only [hfilters, Domain.cleared, Four.get_all]
        decide
      history := by simpa only [hcustody] using Survives.nil }

theorem loseDomain_keeps : Keeps s (loseDomain s) :=
  clearedDomain_keeps s s.store.setup.doorMap ⟨rfl, rfl, rfl, rfl, rfl⟩

theorem clearDomain_keeps : Keeps s (clearDomain s) :=
  have hflag : Keeps s { s with cellFell := false } := { Keeps.refl s with }
  hflag.trans (clearedDomain_keeps _ s.store.setup.doorMap ⟨rfl, rfl, rfl, rfl, rfl⟩)

theorem rejoinActive_keeps : Keeps s (rejoinActive s) :=
  have hid := marks_keep s (d := { s.domain with tripId := s.store.tripId }) ⟨rfl, rfl, rfl, rfl, rfl⟩
  (hid.trans (startBlocks_keeps _)).trans (becomeActive_keeps _)

theorem withRoster_cleared_keeps : Keeps s (s.withRoster clearedRoster) :=
  { Keeps.refl s with roster := fun _ => by rfl }

theorem tripStarted_keeps {w : StoreWrite} (hwrite : s.storeWrite = some w) : Keeps s (tripStarted s w) :=
  have hstored : Keeps s { s with store := ⟨w.setup, w.tripId, w.tripState, true⟩, storeWrite := none } :=
    { Keeps.refl s with setup := fun ⟨hstaged, _, hw⟩ => ⟨hstaged, hw w hwrite, fun _ h => nomatch h⟩ }
  have hmarked := hstored.trans (markLeft_keeps _ (s.domain.custody.map (·.record.id)))
  have hcounted := hmarked.trans (withCounters_keeps (c := .zero) fun _ => by simp [Counters.inRange, Counters.zero])
  have hdomain := hcounted.trans (clearedDomain_keeps _
    (d := { Domain.cleared w.setup.doorMap with
            counting := true, tripId := w.tripId, restartCount := s.domain.restartCount })
    w.setup.doorMap ⟨rfl, rfl, rfl, rfl, rfl⟩)
  hdomain.trans (withRoster_cleared_keeps _)

/-- The mode IDLE is not one of those with the bus off. -/
theorem idle_keeps : Keeps s { s with mode := .idle } := withMode_keeps s (by decide)

theorem tripOver_keeps : Keeps s (tripOver s) :=
  have hidle := (idle_keeps s).trans (marks_keep _
    (d := { s.domain with counting := false, tracker := Tracker.cleared s.committed.doorMap }) ⟨rfl, rfl, rfl, rfl, rfl⟩)
  (hidle.trans (stopChannels_keeps _)).trans (stopInputs_keeps _)

/-- A start loses the volatile state; what it stages is in range (R165, R171). -/
theorem restartVolatile_keeps {staged : Setup} (h : s.setupLaw → staged.inRange) :
    Keeps s (restartVolatile s staged) :=
  have hlost : Keeps s
      { s with
        running := true, staged := staged, storeWrite := none, lastSummary := none, offers := []
        roster := clearedRoster, sessions := [], bus := Bus.restarted } :=
    { Keeps.refl s with
      bus := fun _ => by simp [State.busLaw, Bus.restarted, beaconCount]
      silent := fun _ _ _ => ⟨rfl, rfl⟩
      counters := fun _ => by simp [State.counterLaw, Bus.restarted, Counters.inRange, Counters.zero]
      sessions := fun _ => by simp [State.sessionLaw]
      roster := fun _ => by rfl
      setup := fun hlaw => ⟨h hlaw, hlaw.2.1, fun _ hw => nomatch hw⟩
      temps := fun _ ⟨hchannels, hfilters, _, hrest⟩ => ⟨hchannels, hfilters, nofun, hrest⟩ }
  (hlost.trans (stopChannels_keeps _)).trans (stopInputs_keeps _)

theorem settleCustody_survives {ok : Temps → Prop} (clock : Nat) (l : List Holding) :
    Survives ok l (settleCustody clock l) :=
  ((Survives.filter _).trans (.map (setState_reworked .held))).trans (.map (chargeStop_reworked clock))

theorem warmRunning_keeps : Keeps s (warmRunning s) :=
  have hsettled := withCustody_keeps' (settleCustody_survives s.domain.clock s.domain.custody)
  have htracker := hsettled.trans
    (withTracker_keeps _ (s.domain.tracker.settled s.committed.grace s.domain.clock s.address))
  (htracker.trans (startBlocks_keeps _)).trans (becomeActive_keeps _)

theorem enterRejoining_keeps : Keeps s (enterRejoining s) := by
  have hrejoining : Keeps s { s with mode := .rejoining, domain := { s.domain with counting := true } } :=
    (withMode_keeps s (m := .rejoining) (by decide)).trans (marks_keep _ ⟨rfl, rfl, rfl, rfl, rfl⟩)
  unfold enterRejoining
  dsimp only
  split
  · exact hrejoining.trans (withRejoin_keeps _ _)
  next b _ =>
    have hasked := (hrejoining.trans (withRejoin_keeps _ .asking)).trans
      (send_keeps_of_ne (t := ⟨b, .restoreAsk, beBytes 4 s.tripNumber⟩) .restoreAsk (by simp))
    split
    · exact hasked
    · exact hasked.trans (withRejoin_keeps _ _)

theorem warmIdle_keeps : Keeps s (warmIdle s) :=
  (withMode_keeps s (m := .idle) (by decide)).trans
    (marks_keep (s.withMode .idle) (d := { s.domain with counting := false }) ⟨rfl, rfl, rfl, rfl, rfl⟩)

theorem proceed_keeps (cold storeGood : Bool) : Keeps s (proceed s cold storeGood) := by
  have hraised : Keeps s (raiseRestartCount s) := marks_keep s ⟨rfl, rfl, rfl, rfl, rfl⟩
  unfold proceed
  split
  · have hlost : Keeps s { s with store := storeLost } :=
      { Keeps.refl s with setup := fun ⟨hstaged, _, hw⟩ => ⟨hstaged, default_inRange, hw⟩ }
    exact (hlost.trans (clearDomain_keeps _)).trans (idle_keeps (clearDomain { s with store := storeLost }))
  · split
    · split
      · exact (clearDomain_keeps s).trans (enterRejoining_keeps _)
      · exact (clearDomain_keeps s).trans (idle_keeps (clearDomain s))
    · split
      · split
        · exact hraised.trans (warmRunning_keeps _)
        · have hcause : Keeps s { s with resetCause := .retentionFault } := { Keeps.refl s with }
          exact (hcause.trans (clearDomain_keeps _)).trans (enterRejoining_keeps _)
      · exact hraised.trans (warmIdle_keeps _)

theorem writeStops_keeps (landed : Bool) : Keeps s (writeStops landed s) := by
  unfold writeStops
  split
  · exact .refl s
  next w hw =>
    split
    · exact { Keeps.refl s with setup := fun ⟨hstaged, _, hwrite⟩ => ⟨hstaged, hwrite w hw, fun _ h => nomatch h⟩ }
    · exact { Keeps.refl s with setup := fun ⟨hstaged, hstore, _⟩ => ⟨hstaged, hstore, fun _ h => nomatch h⟩ }

end Domain

/-! ### The epoch expiry (R42 to R52, R140, R145) -/

section Expiry
variable (s : State)

theorem takeReadings_keeps : Keeps s (takeReadings s) where
  __ := Keeps.refl s
  capture := fun h i => by
    show channelLaw ((Four.build _).get i)
    rw [Four.get_build]
    exact h i
  temps := fun hsetup ⟨hchannels, hfilters, _, hrest⟩ => by
    obtain ⟨_, ⟨_, _, _, hk, _⟩, _⟩ := hsetup
    have hstepped : ∀ i, tempInRange ((Four.build fun i => Filter.take (s.committed.probes.get i) (s.channels.get i)
        (s.domain.filters.get i)).get i).value = true := fun i => by
      rw [Four.get_build]
      exact take_inRange (hk i).2 (hchannels i) (hfilters i)
    refine ⟨fun i => ?_, hstepped, fun m hm t ht => ?_, hrest⟩
    · show readingInRange ((Four.build _).get i)
      rw [Four.get_build]
      exact taken_readingInRange (hchannels i)
    · obtain rfl := Option.some.inj hm
      exact summaryTemps_inRange (countedValues_inRange hstepped) t ht

theorem rePut_keeps (room : Nat) (l : List Holding) : Keeps s (rePut s room l) := by
  induction l generalizing s room with
  | nil => exact .refl s
  | cons h hs ih =>
    unfold rePut
    split
    · exact (putToBuddy_keeps s _).trans (ih _ _)
    · exact ih s room

theorem reDrop_keeps : Keeps s (reDrop s) := by
  unfold reDrop
  split
  · split
    · exact .refl s
    · exact queueDrop_keeps s _ _
  · exact .refl s

theorem expiryTelegrams_keeps (m : Summary) : Keeps s (expiryTelegrams s m) := by
  have hput : Keeps s (if s.committed.buddy.isSome then rePut s Config.rePutsPerExpiry s.domain.custody else s) := by
    split
    · exact rePut_keeps s _ _
    · exact .refl s
  exact (hput.trans (reDrop_keeps _)).trans (sendBeacon_keeps _ _)

theorem expire_keeps : Keeps s (expire s) := by
  have htimer : Keeps s { s with nextExpiry := s.nextExpiry + s.committed.epoch } := { Keeps.refl s with }
  have hread := htimer.trans (takeReadings_keeps _)
  unfold expire
  dsimp only
  split
  · exact hread
  next m hm =>
    have hstepped := hread.trans (withCustody_keeps (.map fun h => stepHolding_reworked m h)
      fun ⟨_, _, hsummary, _⟩ x hx => hsummary m hm x hx)
    split
    · exact hstepped.trans (expiryTelegrams_keeps _ m)
    · exact hstepped

end Expiry

/-! ### The bus -/

section Bus
variable (s : State)

theorem receive_keeps (f : Frame) : Keeps s (receive s f) := by
  unfold receive
  split
  · dsimp only
    split
    · exact withLine_keeps s .busy
    · split
      · exact (withLine_keeps s .busy).trans (withCounters_keeps addOverrun_inRange)
      next hroom =>
        refine ((withLine_keeps s .busy).trans (withRx_keeps fun _ => ?_)).trans (withOffers_keeps _ _)
        have : (s.withLine .busy).bus.rx.length < 4 := Nat.lt_of_not_le hroom
        simpa using this
  · exact .refl s

theorem busBecomesIdle_keeps : Keeps s (busBecomesIdle s) := by
  unfold busBecomesIdle
  split
  next h =>
    rw [Bool.and_eq_true, Option.isNone_iff_eq_none] at h
    exact (withLine_keeps s .idle).trans (beginNext_keeps (.inl h.2))
  next => exact .refl s

theorem loseArbitration_keeps : Keeps s (loseArbitration s) := by
  unfold loseArbitration
  split
  · exact .refl s
  next e he =>
    have hne : s.bus.queue ≠ [] := by
      obtain ⟨before, after, hqueue, _⟩ := sending?_eq_some he
      simp [hqueue]
    have hmap := map_queue_keeps s (f := backToWaiting s.bus.beaconHold) fun x => by
      unfold backToWaiting
      split
      · split
        next hk => exact ⟨fun _ => hk, nofun⟩
        next => exact ⟨id, nofun⟩
      · exact ⟨id, id⟩
    exact
      { Keeps.refl s with
        bus := hmap.bus
        silent := fun hsilent hrunning hoff => absurd (hsilent hrunning hoff).1 hne
        counters := fun hc => by
          have hlost := addArbitrationLoss_inRange hc
          show Counters.inRange (if _ then _ else _)
          split
          · exact addReplaced_inRange hlost
          · exact hlost }

theorem lineErrorMet_keeps : Keeps s (lineErrorMet s) := by
  unfold lineErrorMet
  split
  · exact .refl s
  next e he =>
    have hended := endSending_keeps he .lineError
    dsimp only
    split
    · split
      · exact hended.trans (enterHold_keeps _)
      · exact hended
    · exact hended.trans (resolve_keeps _ _ _)

theorem outcomeFor_keeps {mine : Origin → Bool} {acked : Bool} {handle : State → Origin → SendOutcome → State}
    (hhandle : ∀ u o oc, Keeps u (handle u o oc)) : Keeps s (outcomeFor s mine acked handle) := by
  unfold outcomeFor
  split
  · split
    · exact .refl s
    next e he =>
      split
      · exact (endSending_keeps he _).trans (hhandle _ _ _)
      · exact .refl s
  · exact .refl s

end Bus

/-! ### Requests of consoles -/

section Console
variable (t : RxTelegram) (s : State)

theorem takeConfigSet_keeps : Keeps s (takeConfigSet t s) := by
  unfold takeConfigSet
  split
  · exact answer_keeps ..
  next hsize =>
    split
    · exact answer_keeps ..
    · split
      · exact answer_keeps ..
      next u stored hitem =>
        have hstaged : Keeps s { s with staged := u } :=
          { Keeps.refl s with setup := fun ⟨hs, hrest⟩ => ⟨stageItem_inRange hs (by simpa using hsize) hitem, hrest⟩ }
        exact hstaged.trans (answer_keeps ..)

theorem takeTripStart_keeps : Keeps s (takeTripStart t s) := by
  unfold takeTripStart
  dsimp only
  split
  · exact answer_keeps ..
  split
  · exact answer_keeps ..
  split
  · exact answer_keeps ..
  split
  · exact answer_keeps ..
  split
  · exact answer_keeps ..
  split
  · exact answer_keeps ..
  · exact
      { Keeps.refl s with
        silent := fun _ _ h => absurd h (by simp)
        setup := fun ⟨hstaged, hstore, _⟩ =>
          have hchecked := checkedClasses_inRange hstaged
          ⟨hchecked, hstore, fun w hw => Option.some.inj hw ▸ hchecked⟩ }

theorem takeTripEnd_keeps : Keeps s (takeTripEnd t s) := by
  unfold takeTripEnd
  split
  · exact answer_keeps ..
  · split
    · exact answer_keeps ..
    · split
      · exact answer_keeps ..
      · exact
          { Keeps.refl s with
            silent := fun _ _ h => absurd h (by simp)
            setup := fun ⟨hstaged, hstore, _⟩ => ⟨hstaged, hstore, fun w hw => Option.some.inj hw ▸ hstore⟩ }

theorem openOffer_keeps (h : Holding) (k target requester : Nat) : Keeps s (openOffer s h k target requester) := by
  have hopened := (updateHolding_keeps s h.record.id (setState_reworked .offered)).trans
    (withOffers_keeps _ (s.offers ++ [⟨h.record.id, target, requester, k, .sending⟩]))
  have hsent := hopened.trans (send_keeps_of_ne (t := offerTelegram s h k target) (.offer h.record.id)
    (by simp [offerTelegram]))
  unfold openOffer
  dsimp only
  split
  · exact hsent
  · exact hsent.trans (offerResolved_keeps _ _ _)

theorem takeMove_keeps : Keeps s (takeMove t s) := by
  unfold takeMove
  dsimp only
  split
  · exact answer_keeps ..
  split
  · exact answer_keeps ..
  split
  · exact answer_keeps ..
  split
  · exact answer_keeps ..
  split
  · exact answer_keeps ..
  split
  · exact answer_keeps ..
  split
  · exact answer_keeps ..
  split
  · exact answer_keeps ..
  · exact openOffer_keeps ..
  · exact answer_keeps ..

theorem takeRelease_keeps : Keeps s (takeRelease t s) := by
  unfold takeRelease
  dsimp only
  split
  · exact answer_keeps ..
  split
  · exact answer_keeps ..
  split
  · exact answer_keeps ..
  split
  · exact answer_keeps ..
  next h _ =>
    split
    · exact answer_keeps ..
    · have hsent := (updateHolding_keeps s (field t.payload 0 6) (setState_reworked .releasing)).trans
        (send_keeps_of_ne (t := replyTelegram t.sender .release .ok 0 0 (certificateBytes s h 0))
          (.certificate (field t.payload 0 6)) (by simp [replyTelegram]))
      split
      · exact hsent
      · exact hsent.trans (certificateResolved_keeps _ _ _)

theorem takeQueryStation_keeps : Keeps s (takeQueryStation t s) := by
  unfold takeQueryStation
  split
  · exact answer_keeps ..
  · exact (answer_keeps s ..).trans (answer_keeps ..)

theorem takeQueryRecord_keeps : Keeps s (takeQueryRecord t s) := by
  unfold takeQueryRecord
  dsimp only
  split
  · exact answer_keeps ..
  split
  · exact answer_keeps ..
  split
  · exact answer_keeps ..
  · exact answer_keeps ..

theorem takeList_keeps : Keeps s (takeList t s) := by
  unfold takeList
  dsimp only
  split
  · exact answer_keeps ..
  · exact answer_keeps ..

theorem takeDiscardMirror_keeps : Keeps s (takeDiscardMirror t s) := by
  unfold takeDiscardMirror
  dsimp only
  split
  · exact answer_keeps ..
  split
  · exact answer_keeps ..
  split
  · exact answer_keeps ..
  · exact (filterMirror_keeps s _).trans (answer_keeps ..)

end Console

/-! ### Telegrams of peers -/

section Peer
variable (t : RxTelegram) (s : State)

/-- Stepping the mirror records of a sender: keys stay, sound records stay sound, temperatures in range (R142). -/
theorem stepMirrors_keeps {b : Beacon} (htemps : ∀ x ∈ b.temps, x.inRange) (sender : Nat) :
    Keeps s (s.withMirror (s.domain.mirror.map fun m => if m.owner = sender then stepMirror b m else m)) := by
  have hreworked : ∀ m : MirrorRecord, Reworked (fun x => b.temps = some x) m.record
      (if m.owner = sender then stepMirror b m else m).record := fun m => by
    split
    · exact stepMirror_reworked b m
    · exact .refl
  refine withMirror_keeps (fun ⟨hlen, hnodup⟩ => ⟨by simpa using hlen, ?_⟩) (fun h m hm => ?_) fun h m hm => ?_
  · have hkeys : (s.domain.mirror.map fun m => if m.owner = sender then stepMirror b m else m).map MirrorRecord.key =
        s.domain.mirror.map MirrorRecord.key := by
      rw [List.map_map]
      refine List.map_congr_left fun m _ => ?_
      simp only [Function.comp]
      split
      · exact stepMirror_key b m
      · rfl
    simpa only [State.withMirror_domain_mirror, hkeys] using hnodup
  · obtain ⟨m', hm', rfl⟩ := List.mem_map.mp hm
    exact (hreworked m').sound (h m' hm')
  · obtain ⟨m', hm', rfl⟩ := List.mem_map.mp hm
    exact (hreworked m').tempsInRange (fun x hx => htemps x hx) (h m' hm')

theorem useBeacon_keeps {b : Beacon} (htemps : ∀ x ∈ b.temps, x.inRange) (sender : Nat) :
    Keeps s (useBeacon b sender s) := by
  have hrecorded := updatePeer_keeps s sender (f := recordBeacon b s.domain.clock) fun _ => rfl
  have hmarked : Keeps s
      (if s.committed.buddy == some sender && (s.peer? sender).any (coldBuddy b) then
        (s.updatePeer sender (recordBeacon b s.domain.clock)).unmirrorAll
      else s.updatePeer sender (recordBeacon b s.domain.clock)) := by
    split
    · exact hrecorded.trans (unmirrorAll_keeps _)
    · exact hrecorded
  exact (hmarked.trans (sightAll_keeps _ sender b.doors)).trans (stepMirrors_keeps _ htemps sender)

theorem takeBeacon_keeps : Keeps s (takeBeacon t s) := by
  unfold takeBeacon
  split
  · exact .refl s
  next b hb =>
    split
    · exact .refl s
    split
    · split
      · have hadopted : Keeps s { s with domain := { s.domain with clock := b.clock, custodyLost := true } } :=
          { Keeps.refl s with }
        exact hadopted.trans (rejoinActive_keeps _)
      · exact .refl s
    split
    · exact useBeacon_keeps s (beaconOf_temps hb) t.sender
    · exact .refl s

theorem takeDoor_keeps : Keeps s (takeDoor t s) := by
  unfold takeDoor
  split
  · exact .refl s
  · split
    · exact .refl s
    · split
      · exact sight_keeps ..
      · exact .refl s

theorem takeHold_keeps : Keeps s (takeHold t s) := by
  unfold takeHold
  split
  · exact updatePeer_keeps s _ fun _ => rfl
  · exact .refl s

theorem takeAccept_keeps : Keeps s (takeAccept t s) := by
  unfold takeAccept
  dsimp only
  split
  · exact .refl s
  · split
    · exact .refl s
    · exact (((withOffers_keeps s _).trans (remove_keeps _ _)).trans (dropAtBuddy_keeps _ _)).trans
        (send_keeps_of_ne _ (by simp [replyTelegram]))

theorem takeDecline_keeps : Keeps s (takeDecline t s) := by
  unfold takeDecline
  dsimp only
  split
  · exact .refl s
  · split
    · exact .refl s
    · exact (closeOffer_keeps s _).trans (answerMoveFailed_keeps ..)

theorem storeMirror_length {l : List MirrorRecord} (h : l.length ≤ 48) (m : MirrorRecord) :
    (storeMirror l m).length ≤ 48 := by
  unfold storeMirror
  dsimp only
  split
  · rwa [updateWhere_length]
  · split
    · exact h
    next hroom =>
      have : l.length < 48 := Nat.lt_of_not_le hroom
      simpa using this

theorem storeMirror_keys {l : List MirrorRecord} (h : (l.map MirrorRecord.key).Nodup) (m : MirrorRecord) :
    ((storeMirror l m).map MirrorRecord.key).Nodup := by
  unfold storeMirror
  dsimp only
  split
  · have hkeys : (updateWhere (fun x => x.owner == m.owner && x.record.id == m.record.id) (fun _ => m) l).map
        MirrorRecord.key = l.map MirrorRecord.key := by
      simp only [updateWhere, List.map_map]
      refine List.map_congr_left fun x _ => ?_
      simp only [Function.comp]
      split
      next hx =>
        rw [Bool.and_eq_true, beq_iff_eq, beq_iff_eq] at hx
        exact Prod.ext hx.1.symm hx.2.symm
      next => rfl
    rwa [hkeys]
  next hnew =>
    split
    · exact h
    · have hmissing : ∀ x ∈ l, x.key ≠ m.key := fun x hx hkey => hnew <| by
        obtain ⟨howner, hid⟩ := Prod.mk.inj hkey
        exact List.any_eq_true.mpr ⟨x, hx, by simp [howner, hid]⟩
      simpa [List.nodup_append] using ⟨h, hmissing⟩

theorem mem_storeMirror {l : List MirrorRecord} {m x : MirrorRecord} (h : x ∈ storeMirror l m) : x ∈ l ∨ x = m := by
  unfold storeMirror at h
  dsimp only at h
  split at h
  · obtain ⟨y, hy, rfl⟩ := List.mem_map.mp h
    split
    · exact .inr rfl
    · exact .inl hy
  · split at h
    · exact .inl h
    · simpa using h

theorem takeMirrorPut_keeps : Keeps s (takeMirrorPut t s) := by
  unfold takeMirrorPut
  dsimp only
  split
  next h =>
    obtain ⟨hsound, htemps⟩ := recordCheck_sound h.2.1
    refine withMirror_keeps (fun ⟨hlen, hnodup⟩ => ⟨storeMirror_length hlen _, storeMirror_keys hnodup _⟩)
      (fun hmirror m hm => ?_) fun hmirror m hm => ?_
    · obtain hm | rfl := mem_storeMirror hm
      · exact hmirror m hm
      · exact hsound
    · obtain hm | rfl := mem_storeMirror hm
      · exact hmirror m hm
      · exact htemps
  next => exact .refl s

theorem takeMirrorDrop_keeps : Keeps s (takeMirrorDrop t s) := by
  unfold takeMirrorDrop
  dsimp only
  split
  · exact .refl s
  · exact filterMirror_keeps s _

/-- A session in its asker's slot or a free one (R148). -/
theorem placeSession_law {l : List Session} (hlaw : l.length ≤ 2 ∧ (l.map (·.asker)).Nodup) {x : Session}
    (hroom : l.any (·.asker == x.asker) = true ∨ l.length < 2) :
    (placeSession l x).length ≤ 2 ∧ ((placeSession l x).map (·.asker)).Nodup := by
  obtain ⟨hlen, hnodup⟩ := hlaw
  unfold placeSession
  split
  · refine ⟨by rwa [updateWhere_length], ?_⟩
    have hsame : (updateWhere (·.asker == x.asker) (fun _ => x) l).map (·.asker) = l.map (·.asker) := by
      simp only [updateWhere, List.map_map]
      refine List.map_congr_left fun y _ => ?_
      simp only [Function.comp]
      split
      next hy => exact (beq_iff_eq.mp hy).symm
      next => rfl
    rwa [hsame]
  next hnew =>
    have hmissing : ∀ y ∈ l, y.asker ≠ x.asker := by simpa using hnew
    obtain hany | hfree := hroom
    · exact absurd hany hnew
    · refine ⟨by simpa using hfree, ?_⟩
      simpa [List.nodup_append] using ⟨hnodup, hmissing⟩

theorem takeRestoreAsk_keeps : Keeps s (takeRestoreAsk t s) := by
  unfold takeRestoreAsk
  split
  next h =>
    have hplaced (x : Session) (hasker : x.asker = t.sender) : Keeps s (s.withSessions (placeSession s.sessions x)) :=
      withSessions_keeps fun hlaw => placeSession_law hlaw (by rw [hasker]; exact h.2.2.2)
    unfold openSession
    dsimp only
    have hopened := ((hplaced ⟨t.sender, (s.domain.mirror.filter (·.owner == t.sender)).map (·.record.id), 0, 0⟩
      rfl).trans (markEnded_keeps _ (· == t.sender))).trans
        (send_keeps_of_ne
          (t := ⟨t.sender, .restoreBegin, beBytes 4 s.tripNumber ++ beBytes 4 s.domain.clock ++
            beBytes 1 ((s.domain.mirror.filter (·.owner == t.sender)).map (·.record.id)).length⟩)
          (.session t.sender false true) (by simp))
    split
    · exact hopened
    · exact hopened.trans (endSession_keeps _ _)
  next => exact .refl s

theorem takeRestoreBegin_keeps : Keeps s (takeRestoreBegin t s) := by
  unfold takeRestoreBegin
  dsimp only
  split
  · exact { Keeps.refl s with }
  · exact .refl s

theorem takeRestoreEnd_keeps : Keeps s (takeRestoreEnd t s) := by
  unfold takeRestoreEnd
  split
  · split
    · have hmarked : ∀ n, Keeps s (if field t.payload 0 1 < n then setIncomplete s else s) := fun n => by
        split
        · exact { Keeps.refl s with }
        · exact .refl s
      exact (hmarked _).trans (rejoinActive_keeps _)
    · exact .refl s
  · exact .refl s

end Peer

/-! ### Commands that take a record in -/

/-- From `s` to `t` every law holds on, and each record of `t` comes from one of `s` or has an id new to the table. -/
structure Admits (s t : State) : Prop extends KeepsLaws s t where
  history : ∃ l, Survives (fun _ => True) l t.domain.custody ∧
    ∀ h ∈ l, h ∈ s.domain.custody ∨ ∀ a ∈ s.domain.custody, a.record.id ≠ h.record.id

theorem Keeps.admits {s t : State} (h : Keeps s t) : Admits s t :=
  ⟨h.toKeepsLaws, s.domain.custody, h.history, fun _ => .inl⟩

theorem Admits.trans_keeps {s t u : State} (h : Admits s t) (k : Keeps t u) : Admits s u := by
  obtain ⟨l, hl, hnew⟩ := h.history
  exact ⟨h.toKeepsLaws.trans k.toKeepsLaws, l, hl.trans k.history, hnew⟩

theorem append_admits {s : State} {h : Holding} (hnew : ¬ (s.find h.record.id).isSome = true)
    (hroom : ¬ Config.custodySlots ≤ s.domain.custody.length) (hsound : recordSound h.record)
    (htemps : s.setupLaw → recordTempsInRange h.record = true) :
    Admits s (s.withCustody (s.domain.custody ++ [h])) := by
  refine ⟨append_keeps (Bool.eq_false_iff.mpr hnew) (Nat.lt_of_not_le hroom) hsound htemps, _, .refl, fun x hx => ?_⟩
  obtain hx | hx := List.mem_append.mp hx
  · exact .inl hx
  · obtain rfl := List.mem_singleton.mp hx
    have : ∀ a ∈ s.domain.custody, a.record.id ≠ x.record.id := by simpa [State.find] using hnew
    exact .inr this

theorem taking_admits {s : State} {k : Kind} {deal : RxTelegram → State → State}
    (hdeal : ∀ m u, Admits u (deal m u)) : Admits s (taking k s deal) := by
  obtain h | ⟨m, rest, ⟨_, hrx, _⟩, h⟩ := taking_cases s k deal
  · rw [h]; exact (Keeps.refl s).admits
  · rw [h]
    have hfreed : Keeps s (s.withRx rest) := withRx_keeps fun hlen => by
      rw [hrx] at hlen
      exact (Nat.le_succ _).trans hlen
    exact ⟨hfreed.toKeepsLaws.trans (hdeal m _).toKeepsLaws, (hdeal m (s.withRx rest)).history⟩

section Admitting
variable (t : RxTelegram) (s : State)

theorem takeLoad_admits : Admits s (takeLoad t s) := by
  unfold takeLoad
  dsimp only
  split
  · exact (answer_keeps ..).admits
  split
  · exact (answer_keeps ..).admits
  split
  · exact (answer_keeps ..).admits
  split
  · exact (answer_keeps ..).admits
  next l hclass =>
    split
    · exact (answer_keeps ..).admits
    next hnew =>
      split
      · exact (answer_keeps ..).admits
      next hroom =>
        have hadmitted := append_admits (h := ⟨loadedRecord s t.payload l, s.domain.clock, .held⟩) hnew hroom
          (loadedRecord_sound s t.payload l)
          fun hlaw => loadedRecord_tempsInRange (enabledClass_inRange hlaw hclass)
        exact ((hadmitted.trans_keeps (withDrops_filter_keeps _ _)).trans_keeps (putToBuddy_keeps _ _)).trans_keeps
          (answer_keeps ..)

theorem declineReason_eq_none {k id : Nat} (h : declineReason s k id = none) :
    s.mode = .active ∧ ¬ (s.find id).isSome = true ∧ ¬ Config.custodySlots ≤ s.domain.custody.length := by
  unfold declineReason at h
  split at h
  · exact nomatch h
  next hmode =>
    split at h
    · exact nomatch h
    · split at h
      · exact nomatch h
      next hnew =>
        split at h
        · exact nomatch h
        next hroom => exact ⟨not_not.mp hmode, hnew, hroom⟩

theorem takeOffer_admits : Admits s (takeOffer t s) := by
  unfold takeOffer
  split
  · exact (Keeps.refl s).admits
  · dsimp only
    split
    next hcheck =>
      obtain ⟨hsound, htemps⟩ := recordCheck_sound hcheck
      split
      · exact (send_keeps_of_ne _ (by simp)).admits
      next hnone =>
        obtain ⟨_, hnew, hroom⟩ := declineReason_eq_none s hnone
        have hsent := (append_admits (h := arrival s t.sender (field t.payload 1 4) (recordAt t.payload 5)) hnew hroom
          hsound fun _ => htemps).trans_keeps
            (send_keeps_of_ne (t := ⟨t.sender, .accept, beBytes 6 (recordAt t.payload 5).id⟩)
              (.accept (recordAt t.payload 5).id) (by simp))
        rw [admitOffer_eq]
        dsimp only
        split
        · exact hsent
        · exact hsent.trans_keeps (acceptResolved_keeps _ _ _)
    next => exact (Keeps.refl s).admits

theorem restoredRecord_id (q : Option Nat) (r : Record) : (restoredRecord s q r).id = r.id := by
  show (addLeg r _ _).id = r.id
  rw [addLeg_frame]

theorem takeRestoreRecord_admits : Admits s (takeRestoreRecord t s) := by
  unfold takeRestoreRecord
  dsimp only
  split
  · split
    next h =>
      obtain ⟨hsound, htemps⟩ := recordCheck_sound h.2.1
      split
      next =>
        have hmarked : Keeps s (setIncomplete s) := { Keeps.refl s with }
        exact hmarked.admits
      next hfits =>
        rw [not_or, ← restoredRecord_id s (seqOf (field t.payload 0 4)) (recordAt t.payload 4)] at hfits
        obtain ⟨hsound', htemps'⟩ := restoredRecord_sound (s := s) (q := seqOf (field t.payload 0 4)) hsound htemps
        have hadmitted := append_admits (s := s)
          (h := ⟨restoredRecord s (seqOf (field t.payload 0 4)) (recordAt t.payload 4), s.domain.clock, .held⟩)
          hfits.1 hfits.2 hsound' fun _ => htemps'
        exact hadmitted.trans_keeps (withDrops_filter_keeps _ _)
    next => exact (Keeps.refl s).admits
  · exact (Keeps.refl s).admits

end Admitting

end Sys2Proof.Machine
end

