-- ==== Sys2Proof/Proofs/StepKeepsLaws.lean ====
section
/-!
PROOFS. What every command keeps, and what a step keeps: the laws of the tables, the bus, the setups, the records, the
temperatures and the capture channels, and the history of every record that stays.
-/
namespace Sys2Proof.Machine

/-! ### Every command -/

theorem keeps_ite {s t u : State} {p : Prop} [Decidable p] (ht : p → Keeps s t) (hu : ¬ p → Keeps s u) :
    Keeps s (if p then t else u) := by
  split
  next h => exact ht h
  next h => exact hu h

/-- A condition for an operation does not matter to what it keeps. -/
theorem keeps_if {s t : State} {p : Prop} [Decidable p] (h : Keeps s t) : Keeps s (if p then t else s) :=
  keeps_ite (fun _ => h) fun _ => .refl s

section Commands
variable (s : State)

/-- A write that completes puts its setup into the store, which stays in range. -/
theorem written_keeps {w : StoreWrite} (hw : s.storeWrite = some w) :
    Keeps s { s with store := Store.written w, storeWrite := none } :=
  { Keeps.refl s with setup := fun ⟨hstaged, _, hwrite⟩ => ⟨hstaged, hwrite w hw, fun _ h => nomatch h⟩ }

theorem writeFailed_keeps : Keeps s { s with storeWrite := none } :=
  { Keeps.refl s with setup := fun ⟨hstaged, hstore, _⟩ => ⟨hstaged, hstore, fun _ h => nomatch h⟩ }

theorem tripStartEnds_keeps (completed : Bool) : Keeps s (tripStartEnds completed s) := by
  unfold tripStartEnds
  split
  · exact .refl s
  next w hw =>
    split
    · split
      · exact (((tripStarted_keeps s hw).trans (startBlocks_keeps _)).trans (becomeActive_keeps _)).trans
          (send_keeps_of_ne .plain (by simp [replyTelegram]))
      · have hidle : Keeps s { s with mode := .idle, storeWrite := none } :=
          (writeFailed_keeps s).trans (idle_keeps _)
        exact hidle.trans (send_keeps_of_ne .plain (by simp [replyTelegram]))
    · exact .refl s

theorem tripEndEnds_keeps (completed : Bool) : Keeps s (tripEndEnds completed s) := by
  unfold tripEndEnds
  split
  · exact .refl s
  next w hw =>
    split
    · dsimp only
      split
      · exact ((written_keeps s hw).trans (tripOver_keeps _)).trans (send_keeps_of_ne .plain (by simp [replyTelegram]))
      · exact ((writeFailed_keeps s).trans (becomeActive_keeps _)).trans
          (send_keeps_of_ne .plain (by simp [replyTelegram]))
    · exact .refl s

theorem rejoinEndWrite_keeps {w : StoreWrite} (hw : s.storeWrite = some w) (completed : Bool) :
    Keeps s (tripOver { s with store := if completed then Store.written w else s.store, storeWrite := none }) := by
  cases completed with
  | true => exact (written_keeps s hw).trans (tripOver_keeps _)
  | false => exact (writeFailed_keeps s).trans (tripOver_keeps _)

theorem supply_keeps (mv : Nat) : Keeps s { s with supplyMv := mv } := { Keeps.refl s with }

theorem coreStop_keeps (cause : StopCause) (landed : Bool) :
    ∃ t, exec (.coreStop cause landed) s = .next t ∧ Keeps s t := by
  have hstopped : Keeps s (writeStops landed { s with running := false, stopCause := cause }) :=
    Keeps.trans (t := { s with running := false, stopCause := cause })
      { Keeps.refl s with silent := fun _ h => nomatch h }
      (writeStops_keeps _ landed)
  exact ⟨_, rfl, keeps_if (keeps_ite (fun _ => hstopped.trans (loseDomain_keeps _)) fun _ => hstopped)⟩

theorem start_keeps (straps : BitVec 4) (domainGood storeGood : Bool) (mv : Nat) :
    ∃ t, exec (.start straps domainGood storeGood mv) s = .next t ∧ Keeps s t := by
  have hread : Keeps s { s with supplyMv := mv, address := straps.toNat } := { Keeps.refl s with }
  have hstarted : Keeps s (restartVolatile { s with supplyMv := mv, address := straps.toNat }
      (if storeGood && s.store.checkGood then s.store.setup else Setup.default)) :=
    hread.trans (restartVolatile_keeps _ fun hlaw => by
      split
      · exact hlaw.2.1
      · exact default_inRange)
  refine ⟨_, rfl, keeps_ite (fun _ => .refl s) fun _ => keeps_ite (fun _ => hstarted.trans ?_) fun _ => ?_⟩
  · exact { Keeps.refl _ with silent := fun _ _ _ => ⟨rfl, rfl⟩ }
  · have hcause : Keeps s
        { restartVolatile { s with supplyMv := mv, address := straps.toNat }
            (if storeGood && s.store.checkGood then s.store.setup else Setup.default) with
          resetCause := startCause s domainGood } := hstarted.trans { Keeps.refl _ with }
    exact hcause.trans (proceed_keeps _ _ _)

theorem listeningTimeout_keeps : Keeps s
    { s with
      rejoin := .ending
      storeWrite := some ⟨s.store.setup, s.store.tripId, .ended, .rejoinEnd⟩
      domain := { s.domain with counting := false } } :=
  have hwrite : Keeps s { s with storeWrite := some ⟨s.store.setup, s.store.tripId, .ended, .rejoinEnd⟩ } :=
    { Keeps.refl s with
      setup := fun ⟨hstaged, hstore, _⟩ => ⟨hstaged, hstore, fun _ h => Option.some.inj h ▸ hstore⟩ }
  (hwrite.trans (withRejoin_keeps _ .ending)).trans
    (marks_keep _ (d := { s.domain with counting := false }) ⟨rfl, rfl, rfl, rfl, rfl⟩)

end Commands

/-- Every command of consoles and peers but those that take a record in. -/
theorem taken_keeps {c : Instr} {s : State} {k : Kind} {deal : RxTelegram → State → State}
    (hexec : exec c s = .next (taking k s deal)) (hdeal : ∀ m u, Keeps u (deal m u)) :
    ∃ t, exec c s = .next t ∧ Keeps s t :=
  ⟨_, hexec, taking_keeps hdeal⟩

/-- LOAD, OFFER and RESTORE-RECORD are the commands that may take a record in. -/
def mayAdmit : Instr → Bool
  | .load | .offer | .restoreRecord => true
  | _ => false

theorem exec_keeps (c : Instr) (s : State) (hc : mayAdmit c = false) : ∃ t, exec c s = .next t ∧ Keeps s t := by
  match c with
  | .configSet => exact taken_keeps rfl takeConfigSet_keeps
  | .tripStart => exact taken_keeps rfl takeTripStart_keeps
  | .tripEnd => exact taken_keeps rfl takeTripEnd_keeps
  | .load | .offer | .restoreRecord => exact nomatch hc
  | .move => exact taken_keeps rfl takeMove_keeps
  | .release => exact taken_keeps rfl takeRelease_keeps
  | .queryStation => exact taken_keeps rfl takeQueryStation_keeps
  | .queryRecord => exact taken_keeps rfl takeQueryRecord_keeps
  | .list => exact taken_keeps rfl takeList_keeps
  | .discardMirror => exact taken_keeps rfl takeDiscardMirror_keeps
  | .beacon => exact taken_keeps rfl takeBeacon_keeps
  | .door => exact taken_keeps rfl takeDoor_keeps
  | .hold => exact taken_keeps rfl takeHold_keeps
  | .accept => exact taken_keeps rfl takeAccept_keeps
  | .decline => exact taken_keeps rfl takeDecline_keeps
  | .mirrorPut => exact taken_keeps rfl takeMirrorPut_keeps
  | .mirrorDrop => exact taken_keeps rfl takeMirrorDrop_keeps
  | .restoreAsk => exact taken_keeps rfl takeRestoreAsk_keeps
  | .restoreBegin => exact taken_keeps rfl takeRestoreBegin_keeps
  | .restoreEnd => exact taken_keeps rfl takeRestoreEnd_keeps
  | .acknowledgeSlot f => exact ⟨_, rfl, receive_keeps s f⟩
  | .busIdle => exact ⟨_, rfl, busBecomesIdle_keeps s⟩
  | .telegramAbandoned => exact ⟨_, rfl, busBecomesIdle_keeps s⟩
  | .sampledLengthAbove160 _ => exact ⟨_, rfl, keeps_if (withLine_keeps s _)⟩
  | .arbitrationLoss => exact ⟨_, rfl, keeps_if (loseArbitration_keeps s)⟩
  | .lineError => exact ⟨_, rfl, keeps_if (lineErrorMet_keeps s)⟩
  | .telegramOutcome _ => exact ⟨_, rfl, outcomeFor_keeps s fun u _ _ => .refl u⟩
  | .offerOutcome _ => exact ⟨_, rfl, outcomeFor_keeps s resolve_keeps⟩
  | .acceptOutcome _ => exact ⟨_, rfl, outcomeFor_keeps s resolve_keeps⟩
  | .certificateReplyOutcome _ => exact ⟨_, rfl, outcomeFor_keeps s resolve_keeps⟩
  | .mirrorPutOutcome _ => exact ⟨_, rfl, outcomeFor_keeps s resolve_keeps⟩
  | .mirrorDropOutcome _ => exact ⟨_, rfl, outcomeFor_keeps s resolve_keeps⟩
  | .holdOutcome _ => exact ⟨_, rfl, outcomeFor_keeps s fun u _ _ => keeps_if (enterHold_keeps u)⟩
  | .restoreAskOutcome _ => exact ⟨_, rfl, outcomeFor_keeps s resolve_keeps⟩
  | .restoreSessionOutcome _ => exact ⟨_, rfl, outcomeFor_keeps s resolve_keeps⟩
  | .epochExpiry => exact ⟨_, rfl, keeps_if (expire_keeps s)⟩
  | .windowExpiry => exact ⟨_, rfl, keeps_if (withTracker_keeps s _)⟩
  | .answerTimeout id =>
    refine ⟨_, rfl, keeps_if ?_⟩
    split
    · exact .refl s
    · exact (closeOffer_keeps s id).trans (answerMoveFailed_keeps ..)
  | .silenceDeadline address =>
    refine ⟨_, rfl, keeps_if (updatePeer_keeps s address fun e => ?_)⟩
    split
    · rfl
    · rfl
  | .askingTimeout => exact ⟨_, rfl, keeps_if (withRejoin_keeps s _)⟩
  | .restoreDeadline =>
    have hmarked : Keeps s { s with domain := { s.domain with restoreIncomplete := true } } := { Keeps.refl s with }
    exact ⟨_, rfl, keeps_if (hmarked.trans (rejoinActive_keeps _))⟩
  | .listeningTimeout => exact ⟨_, rfl, keeps_if (listeningTimeout_keeps s)⟩
  | .holdPendingTimeout => exact ⟨_, rfl, keeps_if (enterHold_keeps s)⟩
  | .risingEdge probe count =>
    exact ⟨_, rfl, updateChannel_keeps s probe (fun _ h => rise_channelLaw h count s.domain.clock)
      fun _ h => rise_readingInRange h count s.domain.clock⟩
  | .fallingEdge probe count =>
    exact ⟨_, rfl, updateChannel_keeps s probe (fun _ h => fall_channelLaw h count) fun _ h =>
      fall_readingInRange h count⟩
  | .runOutInArming probe level =>
    exact ⟨_, rfl, updateChannel_keeps s probe (fun _ h => runOutArming_channelLaw h level s.domain.clock)
      fun _ h => runOutArming_readingInRange h level s.domain.clock⟩
  | .runOutInMeasuring probe =>
    exact ⟨_, rfl, updateChannel_keeps s probe (fun _ h => runOutMeasuring_channelLaw h s.domain.clock)
      fun _ h => runOutMeasuring_readingInRange h s.domain.clock⟩
  | .doorLineLevelChange _ _ => exact ⟨_, rfl, { Keeps.refl s with }⟩
  | .initialAcceptance input => exact ⟨_, rfl, keeps_if (settleInput_keeps s input)⟩
  | .acceptedChange input => exact ⟨_, rfl, keeps_if (settleInput_keeps s input)⟩
  | .tripStartWriteEnd completed => exact ⟨_, rfl, keeps_if (tripStartEnds_keeps s completed)⟩
  | .tripEndWriteEnd completed => exact ⟨_, rfl, keeps_if (tripEndEnds_keeps s completed)⟩
  | .rejoinEndWriteEnd completed =>
    refine ⟨_, rfl, keeps_if ?_⟩
    split
    · exact .refl s
    next w hw => exact rejoinEndWrite_keeps s hw completed
  | .supplyBelowWarning mv =>
    exact ⟨_, rfl, keeps_ite (fun _ => (supply_keeps s mv).trans (enterHoldPending_keeps _)) fun _ => supply_keeps s mv⟩
  | .supplyAboveRelease mv =>
    exact ⟨_, rfl, keeps_ite (fun _ => (supply_keeps s mv).trans (leaveHold_keeps _)) fun _ => supply_keeps s mv⟩
  | .coreStop cause landed => exact coreStop_keeps s cause landed
  | .start straps domainGood storeGood mv => exact start_keeps s straps domainGood storeGood mv
  | .backupCellBelowRetention =>
    have hfell : Keeps s { s with cellFell := true } := { Keeps.refl s with }
    exact ⟨_, rfl, keeps_ite (fun _ => hfell) fun _ => hfell.trans (loseDomain_keeps _)⟩

theorem exec_admits (c : Instr) (s : State) : ∃ t, exec c s = .next t ∧ Admits s t := by
  by_cases hc : mayAdmit c = true
  · unfold mayAdmit at hc
    split at hc
    · exact ⟨_, rfl, taking_admits takeLoad_admits⟩
    · exact ⟨_, rfl, taking_admits takeOffer_admits⟩
    · exact ⟨_, rfl, taking_admits takeRestoreRecord_admits⟩
    · exact nomatch hc
  · obtain ⟨t, hexec, hkeeps⟩ := exec_keeps c s (Bool.eq_false_iff.mpr hc)
    exact ⟨t, hexec, hkeeps.admits⟩

/-- Settles O2: the next state and the queue of waiting commands of each command. -/
theorem everyCommandAnswersNextState : Obligations.EveryCommandAnswersNextState := fun c s =>
  let ⟨t, hexec, hadmits⟩ := exec_admits c s
  ⟨t, hexec, hadmits.pending⟩

/-! ### A step -/

/-- A second of the trip clock is in none of these laws, and changes no record. -/
theorem tick_keeps (s : State) : Keeps { s with pending := (tick s).pending } (tick s) := by
  unfold tick
  split
  · dsimp only
    split
    · exact { Keeps.refl _ with }
    · exact { Keeps.refl _ with }
  · exact .refl s

/-- What a step keeps, of the state that already has the queue it leaves. -/
theorem step_admits {s t : State} (h : step s = .next t) : Admits { s with pending := t.pending } t := by
  unfold step at h
  split at h
  · obtain rfl : tick s = t := Host.Outcome.next.inj h
    exact (tick_keeps s).admits
  next c rest _ =>
    obtain ⟨u, hexec, hadmits⟩ := exec_admits c { s with pending := rest }
    obtain rfl : u = t := Host.Outcome.next.inj (hexec.symm.trans h)
    rw [hadmits.pending]
    exact hadmits

/-- Settles O5. -/
theorem stepKeepsCustodyLaw : Obligations.StepKeepsCustodyLaw := fun _ _ hlaw h => (step_admits h).custody hlaw

/-- Settles O6. -/
theorem stepKeepsMirrorAndDropLaws : Obligations.StepKeepsMirrorAndDropLaws :=
  ⟨fun _ _ hlaw h => (step_admits h).mirror hlaw, fun _ _ hlaw h => (step_admits h).drops hlaw⟩

/-- Settles O7. -/
theorem stepKeepsBusLaws : Obligations.StepKeepsBusLaws :=
  ⟨fun _ _ hlaw h => (step_admits h).bus hlaw, fun _ _ hlaw h => (step_admits h).silent hlaw,
    fun _ _ hlaw h => (step_admits h).sessions hlaw, fun _ _ hlaw h => (step_admits h).roster hlaw,
    fun _ _ hlaw h => (step_admits h).counters hlaw⟩

/-- Settles O8. -/
theorem stepKeepsRecordLaw : Obligations.StepKeepsRecordLaw := fun _ _ hlaw h => (step_admits h).records hlaw

/-- Settles O9: the temperatures rest on the setups, which hold the probes' corrections and factors. -/
theorem stepKeepsSetupAndTemperatures : Obligations.StepKeepsSetupAndTemperatures :=
  ⟨fun _ _ hlaw h => (step_admits h).setup hlaw,
    fun _ _ ⟨hsetup, htemps⟩ h => ⟨(step_admits h).setup hsetup, (step_admits h).temps hsetup htemps⟩⟩

/-- Settles O10. -/
theorem stepKeepsCaptureLaw : Obligations.StepKeepsCaptureLaw := fun _ _ hlaw h => (step_admits h).capture hlaw

/-- Settles O14: a record of the table after the step comes from one before it, which the ids tell apart. -/
theorem stepKeepsRecordHistory : Obligations.StepKeepsRecordHistory := fun s t hcustody hrecords h a ha b hb hid => by
  obtain ⟨l, ⟨_, hreworked⟩, hnew⟩ := (step_admits h).history
  obtain ⟨x, hx, hxb⟩ := hreworked b hb
  have hsame : a.record.id = x.record.id := hid.trans hxb.id_eq
  obtain hx | hx := hnew x hx
  · obtain rfl : a = x := eq_of_custody_id hcustody ha hx hsame
    exact (hxb.sound_history (hrecords.1 a ha)).2
  · exact absurd hsame (hx a ha)

end Sys2Proof.Machine
end

