-- ==== Sys2Proof/Proofs/OffersAndClock.lean ====
section
/-!
PROOFS. What the operations leave of the mode, the clocks, the store, the tracker and the open offers: a relation for
those that touch no custody (`Calm`) and one for those that deal with records and offers (`Deals`).
-/
namespace Sys2Proof.Machine

/-! ### What stands through an operation -/

/-- Mode, store, clock and timer are as they were. -/
structure Stands (s t : State) : Prop where
  pending : t.pending = s.pending
  running : t.running = s.running
  mode : t.mode = s.mode
  store : t.store = s.store
  storeWrite : t.storeWrite = s.storeWrite
  clock : t.domain.clock = s.domain.clock
  nextExpiry : t.nextExpiry = s.nextExpiry

theorem Stands.trans {s t u : State} (h : Stands s t) (k : Stands t u) : Stands s u :=
  ⟨k.pending.trans h.pending, k.running.trans h.running, k.mode.trans h.mode, k.store.trans h.store,
    k.storeWrite.trans h.storeWrite, k.clock.trans h.clock, k.nextExpiry.trans h.nextExpiry⟩

/-- `Stands`, with no record, offer, tracker or phase of REJOINING touched either. -/
structure Calm (s t : State) : Prop extends Stands s t where
  rejoin : t.rejoin = s.rejoin
  tracker : t.domain.tracker = s.domain.tracker
  offers : t.offers = s.offers
  custody : t.domain.custody = s.domain.custody

theorem Calm.refl (s : State) : Calm s s := ⟨⟨rfl, rfl, rfl, rfl, rfl, rfl, rfl⟩, rfl, rfl, rfl, rfl⟩

theorem Calm.trans {s t u : State} (h : Calm s t) (k : Calm t u) : Calm s u :=
  ⟨h.toStands.trans k.toStands, k.rejoin.trans h.rejoin, k.tracker.trans h.tracker,
    k.offers.trans h.offers, k.custody.trans h.custody⟩

theorem Sends.calm {s t : State} {xs : List Letter} (h : Sends s t xs) : Calm s t := by
  rw [h.1]
  exact { Calm.refl s with }

/-! ### Offers and records -/

/-- The match of open offers and OFFERED records (R94), with the ids it rests on. -/
def offersMatch (offers : List Offer) (custody : List Holding) : Prop :=
  offers.length ≤ Config.offerSlots ∧ (offers.map (·.id)).Nodup ∧ (custody.map (·.record.id)).Nodup ∧
  (∀ h ∈ custody, h.state = .offered ↔ ∃ o ∈ offers, o.id = h.record.id) ∧
  (∀ o ∈ offers, ∃ h ∈ custody, h.record.id = o.id)

section Match
variable {offers : List Offer} {custody : List Holding}

/-- A change of records that keeps every id and makes no record OFFERED and none cease to be. -/
theorem offersMatch.map {f : Holding → Holding} (h : offersMatch offers custody)
    (hf : ∀ x ∈ custody, (f x).record.id = x.record.id ∧ ((f x).state = .offered ↔ x.state = .offered)) :
    offersMatch offers (custody.map f) := by
  obtain ⟨hlen, hoffers, hids, hstates, hnamed⟩ := h
  have hsame : (custody.map f).map (·.record.id) = custody.map (·.record.id) := by
    rw [List.map_map]
    exact List.map_congr_left fun x hx => (hf x hx).1
  refine ⟨hlen, hoffers, hsame ▸ hids, fun y hy => ?_, fun o ho => ?_⟩
  · obtain ⟨x, hx, rfl⟩ := List.mem_map.mp hy
    rw [(hf x hx).2, hstates x hx, (hf x hx).1]
  · obtain ⟨x, hx, hid⟩ := hnamed o ho
    exact ⟨f x, List.mem_map_of_mem hx, (hf x hx).1.trans hid⟩

/-- Records that are not OFFERED may leave. -/
theorem offersMatch.filter {p : Holding → Bool} (h : offersMatch offers custody)
    (hp : ∀ x ∈ custody, p x = false → x.state ≠ .offered) : offersMatch offers (custody.filter p) := by
  obtain ⟨hlen, hoffers, hids, hstates, hnamed⟩ := h
  refine ⟨hlen, hoffers, (List.filter_sublist.map _).nodup hids, fun x hx => hstates x (List.mem_of_mem_filter hx),
    fun o ho => ?_⟩
  obtain ⟨x, hx, hid⟩ := hnamed o ho
  have hoffered : x.state = .offered := (hstates x hx).mpr ⟨o, ho, hid.symm⟩
  refine ⟨x, List.mem_filter.mpr ⟨hx, ?_⟩, hid⟩
  by_contra hnot
  exact hp x hx (Bool.eq_false_iff.mpr hnot) hoffered

/-- A record of a new id that is not OFFERED may come. -/
theorem offersMatch.append {h : Holding} (hmatch : offersMatch offers custody)
    (hnew : ∀ x ∈ custody, x.record.id ≠ h.record.id) (hstate : h.state ≠ .offered) :
    offersMatch offers (custody ++ [h]) := by
  obtain ⟨hlen, hoffers, hids, hstates, hnamed⟩ := hmatch
  refine ⟨hlen, hoffers, by simpa [List.nodup_append] using ⟨hids, hnew⟩, fun x hx => ?_, fun o ho => ?_⟩
  · obtain hx | hx := List.mem_append.mp hx
    · exact hstates x hx
    · obtain rfl := List.mem_singleton.mp hx
      refine ⟨fun h => absurd h hstate, fun ⟨o, ho, hid⟩ => ?_⟩
      obtain ⟨y, hy, hyid⟩ := hnamed o ho
      exact absurd (hyid.trans hid) (hnew y hy)
  · obtain ⟨x, hx, hid⟩ := hnamed o ho
    exact ⟨x, List.mem_append_left _ hx, hid⟩

/-- Offers may change their phases. -/
theorem offersMatch.mapOffers {f : Offer → Offer} (hmatch : offersMatch offers custody) (hf : ∀ o, (f o).id = o.id) :
    offersMatch (offers.map f) custody := by
  obtain ⟨hlen, hoffers, hids, hstates, hnamed⟩ := hmatch
  have hsame : (offers.map f).map (·.id) = offers.map (·.id) := by
    rw [List.map_map]
    exact List.map_congr_left fun o _ => hf o
  refine ⟨by simpa using hlen, hsame ▸ hoffers, hids, fun x hx => ?_, fun o ho => ?_⟩
  · simp [hstates x hx, hf]
  · obtain ⟨o', ho', rfl⟩ := List.mem_map.mp ho
    rw [hf]
    exact hnamed o' ho'

/-- An offer closes and its record is HELD again (R94). -/
theorem offersMatch.close (hmatch : offersMatch offers custody) (id : Nat) :
    offersMatch (offers.filter (·.id ≠ id))
      (updateWhere (fun h => h.record.id == id && h.state == .offered) (Holding.setState .held) custody) := by
  obtain ⟨hlen, hoffers, hids, hstates, hnamed⟩ := hmatch
  have hsame := updateWhere_map (fun h : Holding => h.record.id == id && h.state == .offered) (Holding.setState .held)
    (·.record.id) custody fun _ => rfl
  refine ⟨(List.length_filter_le _ _).trans hlen, (List.filter_sublist.map _).nodup hoffers, hsame ▸ hids,
    fun y hy => ?_, fun o ho => ?_⟩
  · obtain ⟨x, hx, rfl⟩ := List.mem_map.mp hy
    have := hstates x hx
    by_cases hid : x.record.id = id
    · by_cases hoffered : x.state = .offered
      · simp [hid, hoffered, Holding.setState]
      · simp [hid, hoffered]
    · simp only [beq_eq_false_iff_ne.mpr hid, Bool.false_and, Bool.false_eq_true, if_false, this, List.mem_filter,
        decide_eq_true_eq]
      exact ⟨fun ⟨o, ho, he⟩ => ⟨o, ⟨ho, he ▸ hid⟩, he⟩, fun ⟨o, ho, he⟩ => ⟨o, ho.1, he⟩⟩
  · obtain ⟨x, hx, hid⟩ := hnamed o (List.mem_of_mem_filter ho)
    exact ⟨_, List.mem_map_of_mem hx, by split <;> exact hid⟩

/-- All offers close. -/
theorem offersMatch.closeAll (hmatch : offersMatch offers custody) :
    offersMatch [] (updateWhere (fun h => h.state == .offered) (Holding.setState .held) custody) := by
  obtain ⟨_, _, hids, _, _⟩ := hmatch
  have hsame := updateWhere_map (fun h : Holding => h.state == .offered) (Holding.setState .held)
    (·.record.id) custody fun _ => rfl
  refine ⟨Nat.zero_le _, .nil, hsame ▸ hids, fun y hy => ?_, nofun⟩
  obtain ⟨x, hx, rfl⟩ := List.mem_map.mp hy
  by_cases hoffered : x.state = .offered
  · simp [hoffered, Holding.setState]
  · simp [hoffered]

/-- An offer completes: it and its record go together (R102). -/
theorem offersMatch.complete (hmatch : offersMatch offers custody) (id : Nat) :
    offersMatch (offers.filter (·.id ≠ id)) (custody.filter fun h => !(h.record.id == id)) := by
  obtain ⟨hlen, hoffers, hids, hstates, hnamed⟩ := hmatch
  refine ⟨(List.length_filter_le _ _).trans hlen, (List.filter_sublist.map _).nodup hoffers,
    (List.filter_sublist.map _).nodup hids, fun x hx => ?_, fun o ho => ?_⟩
  · obtain ⟨hx, hid⟩ := List.mem_filter.mp hx
    have hid : x.record.id ≠ id := by simpa using hid
    rw [hstates x hx]
    simp only [List.mem_filter, decide_eq_true_eq]
    exact ⟨fun ⟨o, ho, he⟩ => ⟨o, ⟨ho, he ▸ hid⟩, he⟩, fun ⟨o, ho, he⟩ => ⟨o, ho.1, he⟩⟩
  · obtain ⟨ho, hid⟩ := List.mem_filter.mp ho
    obtain ⟨x, hx, hxid⟩ := hnamed o ho
    exact ⟨x, List.mem_filter.mpr ⟨hx, by simpa [hxid] using hid⟩, hxid⟩

/-- An offer opens for a HELD record (R93). -/
theorem offersMatch.open (hmatch : offersMatch offers custody) {h : Holding} {o : Offer} (hmem : h ∈ custody)
    (hheld : h.state = .held) (hid : o.id = h.record.id) (hroom : offers.length < Config.offerSlots) :
    offersMatch (offers ++ [o]) (updateWhere (·.record.id == h.record.id) (Holding.setState .offered) custody) := by
  obtain ⟨_, hoffers, hids, hstates, hnamed⟩ := hmatch
  have hsame := updateWhere_map (fun x : Holding => x.record.id == h.record.id) (Holding.setState .offered)
    (·.record.id) custody fun _ => rfl
  have hnone : ∀ o' ∈ offers, o'.id ≠ o.id := fun o' ho' he => by
    have : h.state = .offered := (hstates h hmem).mpr ⟨o', ho', he.trans hid⟩
    rw [hheld] at this
    exact nomatch this
  refine ⟨by simpa using hroom, by simpa [List.nodup_append] using ⟨hoffers, hnone⟩, hsame ▸ hids,
    fun y hy => ?_, fun o' ho' => ?_⟩
  · obtain ⟨x, hx, rfl⟩ := List.mem_map.mp hy
    by_cases he : x.record.id = h.record.id
    · simp [he, Holding.setState, hid]
    · have : o.id ≠ x.record.id := fun hne => he (hne.symm.trans hid)
      simp [he, hstates x hx, this]
  · obtain ho' | ho' := List.mem_append.mp ho'
    · obtain ⟨x, hx, hxid⟩ := hnamed o' ho'
      exact ⟨_, List.mem_map_of_mem hx, by split <;> exact hxid⟩
    · obtain rfl := List.mem_singleton.mp ho'
      exact ⟨_, List.mem_map_of_mem hmem, by simp [Holding.setState, hid]⟩

end Match

/-- At most two offers, never two of one id (R94). -/
def offersListed (offers : List Offer) : Prop := offers.length ≤ Config.offerSlots ∧ (offers.map (·.id)).Nodup

theorem offersListed.filter {offers : List Offer} (h : offersListed offers) (p : Offer → Bool) :
    offersListed (offers.filter p) :=
  ⟨(List.length_filter_le _ _).trans h.1, (List.filter_sublist.map _).nodup h.2⟩

theorem offersListed.updateWhere {offers : List Offer} (h : offersListed offers) (p : Offer → Bool) {f : Offer → Offer}
    (hf : ∀ o, (f o).id = o.id) : offersListed (updateWhere p f offers) := by
  unfold offersListed
  rw [updateWhere_length, updateWhere_map p f _ offers hf]
  exact h

/-- No accounted-to is later than the clock (R7). -/
def accounted (clock : Nat) (custody : List Holding) : Prop := ∀ h ∈ custody, h.accountedTo ≤ clock

/-- An operation on records and offers: what the laws of custody operations need of it. -/
structure Deals (s t : State) : Prop extends Stands s t where
  rejoin : t.rejoin = s.rejoin ∨ (s.rejoin = .asking ∧ t.rejoin = .listening)
  place : t.domain.custody = [] ∨ s.domain.custody ≠ [] ∨
    (s.running = true ∧ (s.mode = .active ∨ (s.mode = .rejoining ∧ ∃ d n, s.rejoin = .receiving d n)))
  window : s.windowLaw → t.windowLaw
  opened : t.offers ≠ [] → s.offers ≠ [] ∨ s.mode = .active
  matched : offersMatch s.offers s.domain.custody → offersMatch t.offers t.domain.custody
  listed : (s.running = true → s.mode = .active → offersMatch s.offers s.domain.custody) → offersListed s.offers →
    offersListed t.offers
  accounts : accounted s.domain.clock s.domain.custody → accounted s.domain.clock t.domain.custody

theorem custody_empty_or (l : List Holding) : l = [] ∨ l ≠ [] := Classical.em _

theorem Calm.deals {s t : State} (h : Calm s t) : Deals s t where
  toStands := h.toStands
  rejoin := .inl h.rejoin
  place := by
    rw [h.custody]
    exact (custody_empty_or _).imp_right .inl
  window := by
    unfold State.windowLaw State.committed
    rw [h.tracker, h.clock, h.running, h.mode, h.store, h.pending]
    exact fun h => h
  opened := by
    rw [h.offers]
    exact .inl
  matched := by
    rw [h.offers, h.custody]
    exact fun h => h
  listed := by
    rw [h.offers]
    exact fun _ h => h
  accounts := by
    rw [h.custody]
    exact fun h => h

theorem Deals.refl (s : State) : Deals s s := (Calm.refl s).deals

theorem Deals.trans {s t u : State} (h : Deals s t) (k : Deals t u) : Deals s u where
  toStands := h.toStands.trans k.toStands
  rejoin := by
    obtain hst | ⟨hs, ht⟩ := h.rejoin <;> obtain htu | ⟨ht', hu⟩ := k.rejoin
    · exact .inl (htu.trans hst)
    · exact .inr ⟨hst ▸ ht', hu⟩
    · exact .inr ⟨hs, htu.trans ht⟩
    · exact absurd (ht.symm.trans ht') nofun
  place := by
    obtain hu | ht | ⟨hrunning, hactive | ⟨hmode, d, n, hphase⟩⟩ := k.place
    · exact .inl hu
    · exact h.place.resolve_left ht |> .inr
    · exact .inr (.inr ⟨h.running ▸ hrunning, .inl (h.mode ▸ hactive)⟩)
    · obtain hst | ⟨_, ht⟩ := h.rejoin
      · exact .inr (.inr ⟨h.running ▸ hrunning, .inr ⟨h.mode ▸ hmode, d, n, hst ▸ hphase⟩⟩)
      · exact absurd (ht.symm.trans hphase) nofun
  window := k.window ∘ h.window
  opened := fun hu => (k.opened hu).elim h.opened fun hactive => .inr (h.mode ▸ hactive)
  matched := k.matched ∘ h.matched
  listed := fun hmatch hlisted => k.listed
    (fun hrunning hmode => h.matched (hmatch (h.running ▸ hrunning) (h.mode ▸ hmode))) (h.listed hmatch hlisted)
  accounts := fun hs => by
    have := k.accounts
    rw [h.clock] at this
    exact this (h.accounts hs)

/-! ### Shared operations -/

section Ops
variable (s : State)

theorem withCustody_deals {l : List Holding} (hplace : l = [] ∨ s.domain.custody ≠ [])
    (hmatched : offersMatch s.offers s.domain.custody → offersMatch s.offers l)
    (haccounts : accounted s.domain.clock s.domain.custody → accounted s.domain.clock l) :
    Deals s (s.withCustody l) :=
  { Deals.refl s with
    place := hplace.imp_right .inl
    matched := hmatched
    accounts := haccounts }

/-- A change of records that keeps ids and what is OFFERED, and sets no accounted-to beyond the clock. -/
theorem mapCustody_deals {f : Holding → Holding}
    (hf : ∀ x ∈ s.domain.custody, (f x).record.id = x.record.id ∧ ((f x).state = .offered ↔ x.state = .offered) ∧
      ((f x).accountedTo = x.accountedTo ∨ (f x).accountedTo ≤ s.domain.clock)) :
    Deals s (s.withCustody (s.domain.custody.map f)) := by
  refine withCustody_deals s ?_ (fun h => h.map fun x hx => ⟨(hf x hx).1, (hf x hx).2.1⟩) fun h y hy => ?_
  · simpa using custody_empty_or s.domain.custody
  · obtain ⟨x, hx, rfl⟩ := List.mem_map.mp hy
    exact (hf x hx).2.2.elim (fun he => he ▸ h x hx) fun hle => hle

theorem filterCustody_deals {p : Holding → Bool}
    (hp : offersMatch s.offers s.domain.custody → ∀ x ∈ s.domain.custody, p x = false → x.state ≠ .offered) :
    Deals s (s.withCustody (s.domain.custody.filter p)) := by
  refine withCustody_deals s ?_ (fun h => h.filter (hp h)) fun h x hx => h x (List.mem_of_mem_filter hx)
  obtain hnil | hne := custody_empty_or s.domain.custody
  · exact .inl (by simp [hnil])
  · exact .inr hne

theorem withQueue_calm (q : List TxEntry) : Calm s (s.withQueue q) := { Calm.refl s with }

theorem removeWhere_deals {p : Holding → Bool}
    (hp : offersMatch s.offers s.domain.custody → ∀ x ∈ s.domain.custody, p x = true → x.state ≠ .offered) :
    Deals s (s.removeWhere p) :=
  (filterCustody_deals s fun h x hx hnot => hp h x hx (by simpa using hnot)).trans (withQueue_calm _ _).deals

/-- With no two ids alike, a record of an id is the one that looking it up finds. -/
theorem eq_of_find {id : Nat} {h x : Holding} (hmatch : offersMatch s.offers s.domain.custody)
    (hfind : s.find id = some h) (hx : x ∈ s.domain.custody) (hid : x.record.id = id) : x = h := by
  obtain ⟨_, _, hids, _, _⟩ := hmatch
  have hmem := List.mem_of_find?_eq_some hfind
  have hhid : h.record.id = id := by simpa using List.find?_some hfind
  exact List.inj_on_of_nodup_map hids hx hmem (hid.trans hhid.symm)

/-- The record of an id is changed, which is not OFFERED before or after. -/
theorem updateHolding_deals {id : Nat} {h : Holding} {f : Holding → Holding} (hfind : s.find id = some h)
    (hbefore : h.state ≠ .offered) (hf : ∀ x, x.record.id = id →
      (f x).record.id = id ∧ (x.state ≠ .offered → (f x).state ≠ .offered) ∧ (f x).accountedTo = x.accountedTo) :
    Deals s (s.updateHolding id f) := by
  refine withCustody_deals s ?_ (fun hmatch => hmatch.map fun x hx => ?_) fun hle y hy => ?_
  · simpa [updateWhere] using custody_empty_or s.domain.custody
  · by_cases hid : x.record.id = id
    · obtain ⟨hsame, hstate, _⟩ := hf x hid
      rw [← eq_of_find s hmatch hfind hx hid] at hbefore
      simp [hid, hsame, hstate hbefore, hbefore]
    · simp [hid]
  · obtain ⟨x, hx, rfl⟩ := List.mem_map.mp hy
    split
    next hid => exact (hf x (by simpa using hid)).2.2 ▸ hle x hx
    next => exact hle x hx

theorem find_updateHolding (id : Nat) {f : Holding → Holding} (hf : ∀ x, (f x).record.id = x.record.id) :
    (s.updateHolding id f).find id = (s.find id).map f := by
  show List.find? _ (updateWhere _ f _) = _
  unfold updateWhere State.find
  rw [List.find?_map]
  have hid : (fun h : Holding => h.record.id == id) ∘ (fun x => if x.record.id == id then f x else x) =
      fun h => h.record.id == id := by
    funext x
    simp only [Function.comp]
    split
    · rw [hf]
    · rfl
  rw [hid]
  cases hfind : s.domain.custody.find? fun h => h.record.id == id with
  | none => rfl
  | some x =>
    have hx : x.record.id = id := by simpa using List.find?_some hfind
    simp [hx]

theorem setState_deals {id : Nat} {h : Holding} {st : RecordState} (hfind : s.find id = some h)
    (hbefore : h.state ≠ .offered) (hafter : st ≠ .offered) : Deals s (s.updateHolding id (Holding.setState st)) :=
  updateHolding_deals s hfind hbefore fun _ hid => ⟨hid, fun _ => hafter, rfl⟩

theorem remove_deals {id : Nat} {h : Holding} (hfind : s.find id = some h) (hstate : h.state ≠ .offered) :
    Deals s (s.remove id) :=
  removeWhere_deals s fun hmatch x hx hid => by
    rw [eq_of_find s hmatch hfind hx (by simpa using hid)]
    exact hstate

theorem unmirrorAll_deals : Deals s s.unmirrorAll := mapCustody_deals s fun _ _ => ⟨rfl, .rfl, .inl rfl⟩

/-- The mirror path marks a record. -/
theorem markRecord_deals (id : Nat) (b : Bool) :
    Deals s (s.updateHolding id fun h => { h with record := { h.record with unmirrored := b } }) :=
  mapCustody_deals s fun x _ => by
    split
    · exact ⟨rfl, .rfl, .inl rfl⟩
    · exact ⟨rfl, .rfl, .inl rfl⟩

theorem closeOffer_deals (id : Nat) : Deals s (closeOffer s id) :=
  { Deals.refl s with
    place := by simpa [closeOffer, updateWhere] using (custody_empty_or s.domain.custody).imp_right .inl
    opened := fun h => .inl fun hnil => h (by simp [closeOffer, hnil])
    matched := fun h => h.close id
    listed := fun _ h => h.filter _
    accounts := fun h y hy => by
      obtain ⟨x, hx, rfl⟩ := List.mem_map.mp hy
      split <;> exact h x hx }

theorem closeAllOffers_deals : Deals s (closeAllOffers s) :=
  { Deals.refl s with
    place := by simpa [closeAllOffers, updateWhere] using (custody_empty_or s.domain.custody).imp_right .inl
    opened := fun h => absurd rfl h
    matched := fun h => h.closeAll
    listed := fun _ _ => ⟨Nat.zero_le _, .nil⟩
    accounts := fun h y hy => by
      obtain ⟨x, hx, rfl⟩ := List.mem_map.mp hy
      split <;> exact h x hx }

theorem withDrops_calm (d : List Nat) : Calm s (s.withDrops d) := { Calm.refl s with }

theorem placeDrop_calm (id : Nat) : Calm s (placeDrop s id) := by
  rw [placeDrop_eq]
  exact { Calm.refl s with }

theorem dropAtBuddy_calm (id : Nat) : Calm s (dropAtBuddy s id) := by
  have h := (dropAtBuddy_sends s id).calm
  split at h
  · exact h
  · exact (placeDrop_calm s id).trans h

theorem offerResolved_deals (id : Nat) (oc : SendOutcome) : Deals s (offerResolved s id oc) := by
  unfold offerResolved
  split
  · exact .refl s
  next o ho =>
    split
    · have hopen : s.offers ≠ [] := by
        rintro hnil
        rw [hnil] at ho
        exact nomatch ho
      exact
        { Deals.refl s with
          opened := fun _ => .inl hopen
          matched := fun h => h.mapOffers fun o => by split <;> rfl
          listed := fun _ h => h.updateWhere _ fun _ => rfl }
    · exact (closeOffer_deals s id).trans (answerMoveFailed_sends ..).calm.deals

theorem acceptedRecord_id (r : Record) (receipt : Nat) : (acceptedRecord s r receipt).id = r.id := by
  show (addLeg r _ _).id = r.id
  rw [addLeg_frame]

theorem acceptResolved_deals (id : Nat) (oc : SendOutcome) : Deals s (acceptResolved s id oc) := by
  unfold acceptResolved
  split
  · exact .refl s
  next h hfind =>
    have hid : h.record.id = id := by simpa using List.find?_some hfind
    split
    next receipt _ hstate =>
      have harriving : h.state ≠ .offered := by simp [hstate]
      split
      · have hheld := updateHolding_deals s
          (f := fun x => { x with record := acceptedRecord s h.record receipt, state := .held }) hfind harriving
          fun x _ => ⟨(acceptedRecord_id ..).trans hid, fun _ => nofun, rfl⟩
        exact (hheld.trans (withDrops_calm _ _).deals).trans (putToBuddy_sends ..).calm.deals
      · exact remove_deals s hfind harriving
    · exact .refl s

theorem certificateResolved_deals (id : Nat) (oc : SendOutcome) : Deals s (certificateResolved s id oc) := by
  unfold certificateResolved
  split
  · exact .refl s
  next h hfind =>
    split
    next hstate =>
      have hreleasing : h.state ≠ .offered := by simp [hstate]
      split
      · have hclosed := updateHolding_deals s
          (f := fun x => { x with record := { x.record with legs := closeLast x.record.legs s.domain.clock } }) hfind
          hreleasing fun x hid => ⟨hid, fun h => h, rfl⟩
        have hfound := (find_updateHolding s id
          (f := fun x => { x with record := { x.record with legs := closeLast x.record.legs s.domain.clock } })
          fun _ => rfl).trans (congrArg _ hfind)
        exact (hclosed.trans (remove_deals _ hfound hreleasing)).trans (dropAtBuddy_calm _ id).deals
      · exact setState_deals s hfind hreleasing nofun
    · exact .refl s

theorem sessionNext_calm (x : Session) : Calm s (sessionNext s x) := by
  have hsent : ∀ (t : TxTelegram) (o : Origin) (l : List Session → List Session),
      Calm s (if (send s t o).2 = true then (send s t o).1.withSessions (l (send s t o).1.sessions)
        else endSession ((send s t o).1.withSessions (l (send s t o).1.sessions)) x.asker) := fun t o l => by
    have h := (send_sends s t o).calm
    split
    · exact h.trans { Calm.refl _ with }
    · exact h.trans { Calm.refl _ with }
  unfold sessionNext
  split
  · exact hsent _ _ _
  · split
    · exact .refl s
    · exact hsent _ _ _

theorem sessionResolved_calm (asker : Nat) (last current : Bool) (oc : SendOutcome) :
    Calm s (sessionResolved s asker last current oc) := by
  unfold sessionResolved
  split
  · split
    · exact .refl s
    · split
      · exact { Calm.refl s with }
      · exact sessionNext_calm s _
  · exact .refl s

theorem resolve_deals (o : Origin) (oc : SendOutcome) : Deals s (resolve s o oc) :=
  match o with
  | .plain | .hold => .refl s
  | .offer id => offerResolved_deals s id oc
  | .accept id => acceptResolved_deals s id oc
  | .certificate id => certificateResolved_deals s id oc
  | .mirrorPut id staying => by
    show Deals s (putResolved s id staying oc)
    unfold putResolved
    split
    · exact markRecord_deals s id false
    · exact .refl s
  | .mirrorDrop id => by
    show Deals s (dropResolved s id oc)
    unfold dropResolved
    split
    · exact (withDrops_calm s _).deals.trans (markRecord_deals _ id true)
    · exact .refl s
  | .restoreAsk => by
    show Deals s (askResolved s oc)
    unfold askResolved
    split
    next h => exact { Deals.refl s with rejoin := .inr ⟨h.2.1, rfl⟩ }
    next => exact .refl s
  | .session asker last current => (sessionResolved_calm s asker last current oc).deals

theorem flushAll_deals (l : List TxEntry) : Deals s (flushAll s l) := by
  induction l generalizing s with
  | nil => exact .refl s
  | cons e es ih => exact (resolve_deals s e.origin .flushed).trans (ih _)

end Ops

/-! ### Commands -/

section Commands
variable (s : State)

theorem busBecomesIdle_calm : Calm s (busBecomesIdle s) := by
  unfold busBecomesIdle
  split
  · have hidle : Calm s (s.withLine .idle) := { Calm.refl s with }
    exact hidle.trans (beginNext_sends (s.withLine .idle)).calm
  · exact .refl s

theorem loseArbitration_calm : Calm s (loseArbitration s) := by
  unfold loseArbitration
  split
  · exact .refl s
  · exact { Calm.refl s with }

theorem outcomeFor_deals {mine : Origin → Bool} {acked : Bool} {handle : State → Origin → SendOutcome → State}
    (hhandle : ∀ u o oc, Deals u (handle u o oc)) : Deals s (outcomeFor s mine acked handle) := by
  unfold outcomeFor
  split
  · split
    · exact .refl s
    next e _ =>
      have hended : Calm s (endSending s e (slotOutcome e acked)) := { Calm.refl s with }
      split
      · exact hended.deals.trans (hhandle _ _ _)
      · exact .refl s
  · exact .refl s

theorem answerOffer_deals (k : Kind) (id : Nat) : Deals s (s.withOffers (answerOffer k id s.offers)) := by
  have hanswered : Deals s (s.withOffers (updateWhere (·.id == id) (fun o => { o with phase := .answered }) s.offers)) :=
    { Deals.refl s with
      opened := fun h => .inl fun hnil => h (by simp [hnil, updateWhere])
      matched := fun h => h.mapOffers fun o => by split <;> rfl
      listed := fun _ h => h.updateWhere _ fun _ => rfl }
  unfold answerOffer
  split
  · exact hanswered
  · exact hanswered
  · exact .refl s

theorem receive_deals (f : Frame) : Deals s (receive s f) := by
  have hbusy : Calm s (s.withLine .busy) := { Calm.refl s with }
  unfold receive
  split
  · dsimp only
    split
    · exact hbusy.deals
    next t _ =>
      split
      · have hcounted : Calm s ((s.withLine .busy).withCounters (s.withLine .busy).bus.counters.addOverrun) :=
          hbusy.trans { Calm.refl _ with }
        exact hcounted.deals
      · have hplaced : Calm s ((s.withLine .busy).withRx ((s.withLine .busy).bus.rx ++ [t])) :=
          hbusy.trans { Calm.refl _ with }
        exact hplaced.deals.trans (answerOffer_deals _ t.kind (field t.payload 0 6))
  · exact .refl s

theorem taking_deals {k : Kind} {deal : RxTelegram → State → State} 
    (hdeal : ∀ m u, u.running = true → Deals u (deal m u)) : Deals s (taking k s deal) := by
  obtain h | ⟨m, rest, ⟨hrunning, _⟩, h⟩ := taking_cases s k deal
  · rw [h]; exact .refl s
  · rw [h]
    have hfreed : Calm s (s.withRx rest) := { Calm.refl s with }
    exact hfreed.deals.trans (hdeal m _ hrunning)

end Commands

section Requests
variable (t : RxTelegram) (s : State)

theorem answer_calm (r : Result) (body : List Byte) : Calm s (answer s t r body) := (answer_sends s t r body).calm

theorem takeConfigSet_calm : Calm s (takeConfigSet t s) := by
  unfold takeConfigSet
  repeat' split
  · exact answer_calm ..
  · exact answer_calm ..
  · exact answer_calm ..
  next u _ _ =>
    have hstaged : Calm s { s with staged := u } := { Calm.refl s with }
    exact hstaged.trans (answer_calm ..)

theorem takeQueryStation_calm : Calm s (takeQueryStation t s) := by
  unfold takeQueryStation
  split
  · exact answer_calm ..
  · exact (answer_calm t s _ _).trans (answer_calm ..)

theorem takeQueryRecord_calm : Calm s (takeQueryRecord t s) := by
  unfold takeQueryRecord
  dsimp only
  repeat' split
  all_goals exact answer_calm ..

theorem takeList_calm : Calm s (takeList t s) := by
  unfold takeList
  dsimp only
  repeat' split
  all_goals exact answer_calm ..

theorem withMirror_calm (l : List MirrorRecord) : Calm s (s.withMirror l) := { Calm.refl s with }

theorem takeDiscardMirror_calm : Calm s (takeDiscardMirror t s) := by
  unfold takeDiscardMirror
  dsimp only
  repeat' split
  · exact answer_calm ..
  · exact answer_calm ..
  · exact answer_calm ..
  · exact (withMirror_calm s _).trans (answer_calm ..)

theorem active_of_refusal {m : Mode} (h : m.refusal = none) : m = .active := by
  cases m <;> first | rfl | exact nomatch h

/-- A record of a new id comes to the table where the place allows it. -/
theorem append_deals {h : Holding} (hrunning : s.running = true)
    (hplace : s.mode = .active ∨ (s.mode = .rejoining ∧ ∃ d n, s.rejoin = .receiving d n))
    (hnew : ¬ (s.find h.record.id).isSome = true) (hstate : h.state ≠ .offered)
    (hclock : h.accountedTo ≤ s.domain.clock) : Deals s (s.withCustody (s.domain.custody ++ [h])) := by
  have hmissing : ∀ x ∈ s.domain.custody, x.record.id ≠ h.record.id := by simpa [State.find] using hnew
  exact
    { Deals.refl s with
      place := .inr (.inr ⟨hrunning, hplace⟩)
      matched := fun hmatch => hmatch.append hmissing hstate
      accounts := fun hle x hx => by
        obtain hx | hx := List.mem_append.mp hx
        · exact hle x hx
        · exact List.mem_singleton.mp hx ▸ hclock }

theorem takeLoad_deals (hrunning : s.running = true) : Deals s (takeLoad t s) := by
  unfold takeLoad
  dsimp only
  split
  · exact (answer_calm ..).deals
  split
  · exact (answer_calm ..).deals
  next hrefusal =>
    repeat' split
    · exact (answer_calm ..).deals
    · exact (answer_calm ..).deals
    · exact (answer_calm ..).deals
    · exact (answer_calm ..).deals
    next l _ hnew _ =>
      have hadmitted := append_deals s (h := ⟨loadedRecord s t.payload l, s.domain.clock, .held⟩) hrunning
        (.inl (active_of_refusal hrefusal)) hnew nofun (Nat.le_refl _)
      have hlisted := hadmitted.trans (withDrops_calm _ (s.domain.drops.filter (· ≠ field t.payload 0 6))).deals
      exact (hlisted.trans (putToBuddy_sends ..).calm.deals).trans (answer_calm ..).deals

theorem openOffer_deals {h : Holding} {k target requester : Nat} (hrunning : s.running = true)
    (hmode : s.mode = .active) (hmem : h ∈ s.domain.custody) (hheld : h.state = .held)
    (hroom : ¬ Config.offerSlots ≤ s.offers.length) :
    Deals s (openOffer s h k target requester) := by
  have hopened : Deals s (s.offerOpened h.record.id k target requester) :=
    { Deals.refl s with
      place := .inr (.inl (List.ne_nil_of_mem hmem))
      opened := fun _ => .inr hmode
      matched := fun hmatch => hmatch.open hmem hheld rfl (Nat.lt_of_not_le hroom)
      listed := fun hmatch _ => by
        obtain ⟨hlen, hnodup, _⟩ := (hmatch hrunning hmode).open hmem hheld
          (o := ⟨h.record.id, target, requester, k, .sending⟩) rfl (Nat.lt_of_not_le hroom)
        exact ⟨hlen, hnodup⟩
      accounts := fun hle y hy => by
        obtain ⟨x, hx, rfl⟩ := List.mem_map.mp hy
        split <;> exact hle x hx }
  have hsent := hopened.trans (send_sends _ (offerTelegram s h k target) (.offer h.record.id)).calm.deals
  rw [openOffer_eq]
  dsimp only
  split
  · exact hsent
  · exact hsent.trans (offerResolved_deals ..)

theorem takeMove_deals (hrunning : s.running = true) : Deals s (takeMove t s) := by
  unfold takeMove
  dsimp only
  split
  · exact (answer_calm ..).deals
  split
  · exact (answer_calm ..).deals
  next hrefusal =>
    split
    · exact (answer_calm ..).deals
    split
    · exact (answer_calm ..).deals
    next h hfind =>
      repeat' split
      · exact (answer_calm ..).deals
      · exact (answer_calm ..).deals
      · exact (answer_calm ..).deals
      · exact (answer_calm ..).deals
      next hheld _ hroom _ _ _ =>
        exact openOffer_deals s hrunning (active_of_refusal hrefusal) (List.mem_of_find?_eq_some hfind)
          (not_not.mp hheld) hroom
      · exact (answer_calm ..).deals

theorem takeRelease_deals : Deals s (takeRelease t s) := by
  unfold takeRelease
  dsimp only
  split
  · exact (answer_calm ..).deals
  split
  · exact (answer_calm ..).deals
  split
  · exact (answer_calm ..).deals
  split
  · exact (answer_calm ..).deals
  next h hfind =>
    split
    · exact (answer_calm ..).deals
    next hheld =>
      have hreleasing := setState_deals s (st := .releasing) hfind (by simp [not_not.mp hheld]) nofun
      have hsent := hreleasing.trans (send_sends _ (replyTelegram t.sender .release .ok 0 0 (certificateBytes s h 0))
        (.certificate (field t.payload 0 6))).calm.deals
      split
      · exact hsent
      · exact hsent.trans (certificateResolved_deals ..)

theorem takeOffer_deals (hrunning : s.running = true) : Deals s (takeOffer t s) := by
  unfold takeOffer
  split
  · exact .refl s
  · dsimp only
    split
    · split
      · exact (sendPlain_sends ..).calm.deals
      next hnone =>
        obtain ⟨hmode, hnew, _⟩ := declineReason_eq_none s hnone
        have hsent := (append_deals s (h := arrival s t.sender (field t.payload 1 4) (recordAt t.payload 5)) hrunning
          (.inl hmode) hnew nofun (Nat.sub_le _ _)).trans (send_sends _
            ⟨t.sender, .accept, beBytes 6 (recordAt t.payload 5).id⟩ (.accept (recordAt t.payload 5).id)).calm.deals
        rw [admitOffer_eq]
        dsimp only
        split
        · exact hsent
        · exact hsent.trans (acceptResolved_deals ..)
    · exact .refl s

theorem takeAccept_deals : Deals s (takeAccept t s) := by
  unfold takeAccept
  dsimp only
  split
  · exact .refl s
  · split
    · exact .refl s
    next o ho =>
      have hopen : s.offers ≠ [] := fun hnil => by
        rw [State.answeredOffer?, hnil] at ho
        exact nomatch ho
      have hcompleted : Deals s ((s.withOffers (s.offers.filter (·.id ≠ field t.payload 0 6))).remove
          (field t.payload 0 6)) :=
        { Deals.refl s with
          place := by
            obtain hnil | hne := custody_empty_or s.domain.custody
            · exact .inl (by simp [State.remove, State.removeWhere, hnil])
            · exact .inr (.inl hne)
          opened := fun _ => .inl hopen
          matched := fun h => h.complete _
          listed := fun _ h => h.filter _
          accounts := fun h x hx => h x (List.mem_of_mem_filter hx) }
      exact (hcompleted.trans (dropAtBuddy_calm _ _).deals).trans (sendPlain_sends ..).calm.deals

theorem takeDecline_deals : Deals s (takeDecline t s) := by
  unfold takeDecline
  dsimp only
  split
  · exact .refl s
  · split
    · exact .refl s
    · exact (closeOffer_deals s _).trans (answerMoveFailed_sends ..).calm.deals

theorem takeHold_calm : Calm s (takeHold t s) := by
  unfold takeHold
  split
  · exact { Calm.refl s with }
  · exact .refl s

theorem takeMirrorPut_calm : Calm s (takeMirrorPut t s) := by
  unfold takeMirrorPut
  dsimp only
  split
  · exact withMirror_calm s _
  · exact .refl s

theorem takeMirrorDrop_calm : Calm s (takeMirrorDrop t s) := by
  unfold takeMirrorDrop
  dsimp only
  split
  · exact .refl s
  · exact withMirror_calm s _

theorem openSession_calm (asker : Nat) : Calm s (openSession s asker) := by
  have hplaced : ∀ x q, Calm s ((s.withSessions x).withQueue q) := fun x q => { Calm.refl s with }
  unfold openSession
  dsimp only
  split
  · exact (hplaced _ _).trans (send_sends ..).calm
  · exact ((hplaced _ _).trans (send_sends ..).calm).trans { Calm.refl _ with }

theorem takeRestoreAsk_calm : Calm s (takeRestoreAsk t s) := by
  unfold takeRestoreAsk
  split
  · exact openSession_calm s t.sender
  · exact .refl s

theorem takeRestoreRecord_deals (hrunning : s.running = true) : Deals s (takeRestoreRecord t s) := by
  unfold takeRestoreRecord
  dsimp only
  split
  next d n hphase =>
    split
    next h =>
      split
      · have hmarked : Calm s (setIncomplete s) := { Calm.refl s with }
        exact hmarked.deals
      next hfits =>
        rw [not_or, ← restoredRecord_id s (seqOf (field t.payload 0 4)) (recordAt t.payload 4)] at hfits
        have hadmitted := append_deals s
          (h := ⟨restoredRecord s (seqOf (field t.payload 0 4)) (recordAt t.payload 4), s.domain.clock, .held⟩)
          hrunning (.inr ⟨h.2.2, d, n, hphase⟩) hfits.1 nofun (Nat.le_refl _)
        exact hadmitted.trans (withDrops_calm _ _).deals
    next => exact .refl s
  next => exact .refl s

end Requests

/-! ### Sightings -/

section Sightings
variable (s : State)

/-- Openings come to HELD records only, and change nothing else of them. -/
theorem addOpenings_deals (n : Nat) : Deals s (s.withCustody (s.domain.custody.map (addOpenings n))) :=
  mapCustody_deals s fun x _ => by
    unfold addOpenings
    split
    · exact ⟨rfl, .rfl, .inl rfl⟩
    · exact ⟨rfl, .rfl, .inl rfl⟩

/-- TABLE 4-3 keeps the law of CLOSED: an opened door leads out of it, and OVERDUE into it with none open. -/
theorem phaseAfter_closedLaw {phase : TrackerPhase} {doors after : List DoorEntry} {state : DoorState} {first : Bool}
    {grace clock : Nat} (hlaw : phase = .closed → doors.any DoorEntry.knownOpen = false)
    (hafter : state = .closed → doors.any DoorEntry.knownOpen = false → after.any DoorEntry.knownOpen = false) :
    phaseAfter phase after state first grace clock = .closed → after.any DoorEntry.knownOpen = false := by
  unfold phaseAfter
  split
  · split
    · split
      · exact nofun
      · split <;> exact nofun
    next hstate =>
      refine fun _ => hafter ?_ (hlaw rfl)
      cases state with
      | opened => exact absurd rfl hstate
      | closed => rfl
  · exact nofun
  · split
    · exact nofun
    next hnone => exact fun _ => Bool.eq_false_iff.mpr hnone

/-- A window that a sighting begins has G seconds to go; one that ran on is as it was. -/
theorem phaseAfter_grace {phase : TrackerPhase} {doors : List DoorEntry} {state : DoorState} {first : Bool}
    {grace clock w : Nat} (h : phaseAfter phase doors state first grace clock = .grace w) :
    (w = clock ∧ clock < w + grace) ∨ phase = .grace w := by
  unfold phaseAfter at h
  split at h
  · split at h
    · split at h
      · exact nomatch h
      · split at h
        next hpos =>
          obtain rfl : clock = w := TrackerPhase.grace.inj h
          exact .inl ⟨rfl, by omega⟩
        next => exact nomatch h
    · exact nomatch h
  · exact .inr h
  · split at h
    · exact nomatch h
    · exact nomatch h

theorem knownOpen_sighted {doors : List DoorEntry} (door count source : Nat)
    (h : doors.any DoorEntry.knownOpen = false) :
    (updateWhere (·.door == door) (fun x => { x with known := some ⟨.closed, count, source⟩ }) doors).any
      DoorEntry.knownOpen = false := by
  rw [List.any_eq_false] at h ⊢
  intro y hy
  obtain ⟨x, hx, rfl⟩ := List.mem_map.mp hy
  split
  · simp [DoorEntry.knownOpen]
  · exact h x hx

theorem sight_deals (hmode : s.mode ≠ .rejoining) (door : Nat) (state : DoorState) (count source : Nat) :
    Deals s (sight s door state count source) := by
  unfold sight
  split
  · exact .refl s
  next e _ =>
    dsimp only
    refine Deals.trans (t := s.withTracker _) ?_ (addOpenings_deals _ _)
    refine { Deals.refl s with window := fun ⟨hclosed, hgrace, _⟩ => ⟨?_, fun w hw => ?_, fun _ hr => absurd hr hmode⟩ }
    · refine phaseAfter_closedLaw hclosed fun hstate hnone => ?_
      subst hstate
      exact knownOpen_sighted door count source hnone
    · obtain ⟨rfl, hlt⟩ | hold := phaseAfter_grace hw
      · exact ⟨Nat.le_refl _, fun _ _ => .inl hlt⟩
      · exact hgrace w hold

theorem sightAll_deals (hmode : s.mode ≠ .rejoining) (source : Nat) (ds : List DoorReport) :
    Deals s (sightAll s source ds) := by
  induction ds generalizing s with
  | nil => exact .refl s
  | cons d ds ih =>
    have hsight := sight_deals s hmode d.door d.state d.count source
    exact hsight.trans (ih _ (hsight.mode ▸ hmode))

theorem announce_deals (i : Fin 4) : Deals s (announce s i) := by
  unfold announce
  split
  · exact .refl s
  next r _ =>
    have hsight : Deals s (if s.mode.runsEpochs then sight s r.door r.state r.count s.address else s) := by
      split
      next hruns =>
        have hmode : s.mode ≠ .rejoining := fun h => by rw [h] at hruns; exact nomatch hruns
        exact sight_deals s hmode r.door r.state r.count s.address
      next => exact .refl s
    extract_lets u
    split
    · exact hsight.trans (sendPlain_sends ..).calm.deals
    · exact hsight

theorem settleInput_deals (i : Fin 4) : Deals s (settleInput s i) :=
  have hsettled : Calm s { s with inputs := s.inputs.set i (s.inputs.get i).settle } := { Calm.refl s with }
  hsettled.deals.trans (announce_deals _ i)

theorem ne_rejoining_of_takesPeers {m : Mode} (h : m.takesPeers = true) : m ≠ .rejoining := by
  rintro rfl
  exact nomatch h

theorem takeDoor_deals (t : RxTelegram) : Deals s (takeDoor t s) := by
  unfold takeDoor
  split
  · exact .refl s
  · split
    · exact .refl s
    next d _ =>
      split
      next h => exact sight_deals s (ne_rejoining_of_takesPeers h) d.door d.state d.count t.sender
      next => exact .refl s

theorem useBeacon_deals (hmode : s.mode ≠ .rejoining) (b : Beacon) (sender : Nat) : Deals s (useBeacon b sender s) := by
  have hrecorded : Calm s (s.updatePeer sender (recordBeacon b s.domain.clock)) := { Calm.refl s with }
  have hmarked : Deals s
      (if s.committed.buddy == some sender && (s.peer? sender).any (coldBuddy b) then
        (s.updatePeer sender (recordBeacon b s.domain.clock)).unmirrorAll
      else s.updatePeer sender (recordBeacon b s.domain.clock)) := by
    split
    · exact hrecorded.deals.trans (unmirrorAll_deals _)
    · exact hrecorded.deals
  exact (hmarked.trans (sightAll_deals _ (hmarked.mode ▸ hmode) sender b.doors)).trans (withMirror_calm _ _).deals

end Sightings

/-! ### The work of an epoch expiry -/

section Expiry
variable (s : State)

theorem rePut_calm (room : Nat) (l : List Holding) : Calm s (rePut s room l) := by
  induction l generalizing s room with
  | nil => exact .refl s
  | cons h hs ih =>
    unfold rePut
    split
    · exact (putToBuddy_sends s _).calm.trans (ih _ _)
    · exact ih s room

theorem reDrop_calm : Calm s (reDrop s) := by
  unfold reDrop
  split
  · split
    · exact .refl s
    · exact (queueDrop_sends s _ _).calm
  · exact .refl s

theorem sendBeacon_calm (t : TxTelegram) : Calm s (sendBeacon s t) := by
  unfold sendBeacon
  split
  · exact { Calm.refl s with }
  · split
    · exact { Calm.refl s with }
    · exact (sendPlain_sends s t).calm

theorem expiryTelegrams_calm (m : Summary) : Calm s (expiryTelegrams s m) := by
  have hput : Calm s (if s.committed.buddy.isSome then rePut s Config.rePutsPerExpiry s.domain.custody else s) := by
    split
    · exact rePut_calm s _ _
    · exact .refl s
  exact (hput.trans (reDrop_calm _)).trans (sendBeacon_calm _ _)

/-- The step of R74 leaves id and state, and accounts to the present. -/
theorem stepHolding_facts (m : Summary) (x : Holding) (clock : Nat) (hm : m.time = clock) :
    (stepHolding m x).record.id = x.record.id ∧ ((stepHolding m x).state = .offered ↔ x.state = .offered) ∧
      ((stepHolding m x).accountedTo = x.accountedTo ∨ (stepHolding m x).accountedTo ≤ clock) := by
  unfold stepHolding
  split
  · dsimp only
    split
    · exact ⟨rfl, .rfl, .inr hm.le⟩
    · obtain ⟨_, _, _, _, _, _, hcharge⟩ := charge_fields x.record m.temps m.grace (m.time - x.accountedTo) m.time
      rw [hcharge]
      exact ⟨rfl, .rfl, .inr hm.le⟩
  · exact ⟨rfl, .rfl, .inl rfl⟩

/-- All of an expiry's work but the timer's next expiry. -/
theorem expire_deals : Deals { s with nextExpiry := s.nextExpiry + s.committed.epoch } (expire s) := by
  have hread : Calm { s with nextExpiry := s.nextExpiry + s.committed.epoch }
      (takeReadings { s with nextExpiry := s.nextExpiry + s.committed.epoch }) := { Calm.refl _ with }
  unfold expire
  dsimp only
  split
  · exact hread.deals
  next m hm =>
    have htime : m.time = s.domain.clock := congrArg Summary.time (Option.some.inj hm).symm
    have hstepped := hread.deals.trans (mapCustody_deals _ fun x _ => stepHolding_facts m x s.domain.clock htime)
    split
    · exact hstepped.trans (expiryTelegrams_calm _ m).deals
    · exact hstepped

end Expiry

end Sys2Proof.Machine
end

