-- ==== Sys2Proof/Proofs/ModeChanges.lean ====
section
/-!
PROOFS. What the entries to ACTIVE, HOLD_PENDING and HOLD leave of the clocks and the tracker, and the laws of the epoch
timer, of the grace window and of custody operations through them.
-/
namespace Sys2Proof.Machine

/-! ### What a change of mode leaves -/

/-- Store, clock, timer and tracker are as they were, whatever the mode. -/
structure Rests (s t : State) : Prop where
  pending : t.pending = s.pending
  running : t.running = s.running
  store : t.store = s.store
  storeWrite : t.storeWrite = s.storeWrite
  clock : t.domain.clock = s.domain.clock
  nextExpiry : t.nextExpiry = s.nextExpiry
  tracker : t.domain.tracker = s.domain.tracker

theorem Rests.refl (s : State) : Rests s s := ⟨rfl, rfl, rfl, rfl, rfl, rfl, rfl⟩

theorem Rests.trans {s t u : State} (h : Rests s t) (k : Rests t u) : Rests s u :=
  ⟨k.pending.trans h.pending, k.running.trans h.running, k.store.trans h.store, k.storeWrite.trans h.storeWrite,
    k.clock.trans h.clock, k.nextExpiry.trans h.nextExpiry, k.tracker.trans h.tracker⟩

theorem untouched.rests {s t : State} (h : untouched s t) : Rests s t := by
  obtain ⟨hpending, hrunning, _, _, _, _, _, hstore, hwrite, _, _, hnext, _, _, _, _, _, hclock, _, _, _, htracker,
    _⟩ := h
  exact ⟨hpending, hrunning, hstore, hwrite, hclock, hnext, htracker⟩

section Rests
variable (s : State)

theorem buddyDeadline_rests : Rests s (buddyDeadline s) := by
  rw [buddyDeadline_eq]
  exact { Rests.refl s with }

theorem leaveHold_rests : Rests s (leaveHold s) :=
  have hactive : Rests s (((s.withMode .active).withLine .ignoring).unmirrorAll) := { Rests.refl s with }
  hactive.trans (buddyDeadline_rests _)

theorem enterHold_rests : Rests s (enterHold s) := by
  have hoff : Rests s ((((s.withMode .hold).withQueue []).withBeaconHold none).withLine .ignoring) :=
    { Rests.refl s with }
  have hflushed := hoff.trans (flushAll_untouched _ s.bus.queue).rests
  unfold enterHold
  dsimp only
  split
  · exact hflushed.trans (leaveHold_rests _)
  · exact hflushed

/-- The state whose sessions have ended and whose queue holds a telegram in transmission only. -/
def onlySending (s : State) : State :=
  let s1 := endAllSessions s
  ((s1.withQueue ((s1.bus.queue.filter (·.sending)).map (spoilAccept (Config.checkBitsSent s1.freeCount)))).withBeaconHold
    none).withFreeCount (s1.freeCount + 1)

theorem endAllSessions_calm : Calm s (endAllSessions s) := { Calm.refl s with }
theorem withBeaconHold_calm (b : Option TxTelegram) : Calm s (s.withBeaconHold b) := { Calm.refl s with }
theorem withFreeCount_calm (n : Nat) : Calm s (s.withFreeCount n) := { Calm.refl s with }

theorem onlySending_calm : Calm s (onlySending s) :=
  (((endAllSessions_calm s).trans (withQueue_calm _ _)).trans (withBeaconHold_calm _ _)).trans (withFreeCount_calm _ _)

theorem Calm.rests {s t : State} (h : Calm s t) : Rests s t :=
  ⟨h.pending, h.running, h.store, h.storeWrite, h.clock, h.nextExpiry, h.tracker⟩

/-- The state in which the queue's waiting telegrams are flushed at the entry to HOLD_PENDING. -/
def beforeFlush (s : State) : State := onlySending ((closeAllOffers s).removeWhere fun h => h.state.isArriving)

/-- The telegrams flushed at the entry to HOLD_PENDING. -/
def flushedAtEntry (s : State) : List TxEntry :=
  (endAllSessions ((closeAllOffers s).removeWhere fun h => h.state.isArriving)).bus.queue.filter fun e => !e.sending

theorem enterHoldPending_eq :
    enterHoldPending s =
      let s2 := (flushAll (beforeFlush s) (flushedAtEntry s)).withMode .holdPending
      (send s2 ⟨0, .hold, beBytes 4 s2.tripNumber⟩ .hold).1 := rfl

theorem enterHoldPending_rests : Rests s (enterHoldPending s) := by
  have hremoved : Rests s ((closeAllOffers s).removeWhere fun h => h.state.isArriving) := { Rests.refl s with }
  have hbefore : Rests s (beforeFlush s) := hremoved.trans (onlySending_calm _).rests
  have hflushed := hbefore.trans (flushAll_untouched (beforeFlush s) (flushedAtEntry s)).rests
  have hpending : Rests s ((flushAll (beforeFlush s) (flushedAtEntry s)).withMode .holdPending) :=
    hflushed.trans { Rests.refl _ with }
  rw [enterHoldPending_eq]
  exact hpending.trans (send_sends ..).untouched.rests

theorem becomeActive_rests : Rests s (becomeActive s) := by
  have hactive : Rests s (s.withMode .active) := { Rests.refl s with }
  have hbuddy := hactive.trans (buddyDeadline_rests _)
  unfold becomeActive
  dsimp only
  split
  · exact hbuddy.trans (enterHoldPending_rests _)
  · exact hbuddy

theorem buddyDeadline_mode : (buddyDeadline s).mode = s.mode := by
  rw [buddyDeadline_eq]
  rfl

theorem leaveHold_mode : (leaveHold s).mode = .active := buddyDeadline_mode _

theorem becomeActive_mode : (becomeActive s).mode = .active ∨ (becomeActive s).mode = .holdPending := by
  unfold becomeActive
  dsimp only
  split
  · exact .inr (enterHoldPending_mode _)
  · exact .inl (buddyDeadline_mode _)

theorem enterHold_mode : (enterHold s).mode = .active ∨ (enterHold s).mode = .hold := by
  unfold enterHold
  dsimp only
  split
  · exact .inl (leaveHold_mode _)
  · exact .inr (flushAll_untouched _ s.bus.queue).2.2.1

end Rests

/-! ### The epoch timer -/

/-- R42, R43 without the setups. -/
def State.timerRest (s : State) : Prop :=
  s.running = true → s.mode.runsEpochs = true →
    s.committed.epoch ∣ s.nextExpiry ∧ 0 < s.nextExpiry ∧
    (s.domain.clock < s.nextExpiry ∨ (s.domain.clock = s.nextExpiry ∧ Instr.epochExpiry ∈ s.pending))

theorem Rests.timerRest {s t : State} (h : Rests s t) (hmode : t.mode.runsEpochs = true → s.mode.runsEpochs = true)
    (hs : s.timerRest) : t.timerRest := fun hrunning hruns => by
  have := hs (h.running ▸ hrunning) (hmode hruns)
  unfold State.committed
  rw [h.store, h.nextExpiry, h.clock, h.pending]
  exact this

/-- The timer set at a start of the blocks (R43). -/
theorem firstExpiryAfter_facts {epoch : Nat} (hepoch : 0 < epoch) (clock : Nat) :
    epoch ∣ firstExpiryAfter clock epoch ∧ 0 < firstExpiryAfter clock epoch ∧ clock < firstExpiryAfter clock epoch := by
  have hlt : clock < firstExpiryAfter clock epoch := by
    have := Nat.lt_div_mul_add (a := clock) hepoch
    unfold firstExpiryAfter
    rw [Nat.add_mul]
    omega
  exact ⟨Nat.dvd_mul_left _ _, by omega, hlt⟩

theorem startBlocks_timerRest {s t : State} (hepoch : 0 < s.committed.epoch) (h : Rests (startBlocks s) t) :
    t.timerRest := fun _ _ => by
  obtain ⟨hdvd, hpos, hlt⟩ := firstExpiryAfter_facts hepoch s.domain.clock
  unfold State.committed
  rw [h.store, h.nextExpiry, h.clock]
  exact ⟨hdvd, hpos, .inl hlt⟩

theorem timerRest_of_not_runs {s : State} (h : s.mode.runsEpochs = false) : s.timerRest := fun _ hruns => by
  rw [h] at hruns
  exact nomatch hruns

/-! ### The grace window -/

theorem Rests.windowLaw {s t : State} (h : Rests s t) (hmode : t.mode.runsEpochs = true → s.mode.runsEpochs = true)
    (hrejoin : t.mode ≠ .rejoining) (hs : s.windowLaw) : t.windowLaw := by
  obtain ⟨hclosed, hgrace, _⟩ := hs
  refine ⟨h.tracker ▸ hclosed, fun w hw => ?_, fun _ hr => absurd hr hrejoin⟩
  obtain ⟨hstart, hend⟩ := hgrace w (h.tracker ▸ hw)
  unfold State.committed
  rw [h.clock, h.store, h.pending]
  exact ⟨hstart, fun hrunning hruns => hend (h.running ▸ hrunning) (hmode hruns)⟩

/-- A tracker in CLOSED, with no door known open. -/
theorem windowLaw_of_closed {s : State} (hphase : s.domain.tracker.phase = .closed)
    (hdoors : s.domain.tracker.doors.any DoorEntry.knownOpen = false) : s.windowLaw :=
  ⟨fun _ => hdoors, fun _ hw => absurd (hphase.symm.trans hw) nofun, fun _ _ => hphase⟩

theorem windowLaw_of_cleared {s : State} {doorMap : List Nat} (h : s.domain.tracker = Tracker.cleared doorMap) :
    s.windowLaw := by
  refine windowLaw_of_closed (by rw [h]; rfl) ?_
  rw [h, List.any_eq_false]
  intro e he
  obtain ⟨d, _, rfl⟩ := List.mem_map.mp he
  simp [DoorEntry.knownOpen]

theorem Rests.windowLaw_of_closed {s t : State} (h : Rests s t) (hphase : s.domain.tracker.phase = .closed)
    (hs : s.windowLaw) : t.windowLaw :=
  Machine.windowLaw_of_closed (h.tracker ▸ hphase) (h.tracker ▸ hs.1 hphase)

/-! ### Custody operations while the trip runs -/

/-- The laws of custody operations in a trip with no Setup Store write under way. -/
structure TripSound (s : State) : Prop where
  custody : s.custodyLaw
  clock : s.clockLaw
  matched : offersMatch s.offers s.domain.custody
  store : s.store.tripState = .running
  write : s.storeWrite = none

theorem Deals.tripSound {s t : State} (h : Deals s t) (hcustody : s.custodyLaw → t.custodyLaw) (hs : TripSound s) :
    TripSound t where
  custody := hcustody hs.custody
  clock := ⟨h.clock ▸ hs.clock.1, h.clock ▸ h.accounts hs.clock.2⟩
  matched := h.matched hs.matched
  store := h.store ▸ hs.store
  write := h.storeWrite ▸ hs.write

theorem TripSound.operationLaw {s : State} (h : TripSound s) (hopen : s.offers ≠ [] → s.mode = .active)
    (hmode : s.mode = .active ∨ s.mode = .holdPending ∨ s.mode = .hold) : s.operationLaw := by
  obtain ⟨hlen, hoffers, _, hstates, hnamed⟩ := h.matched
  refine ⟨h.custody, ⟨hlen, hoffers, hopen, fun _ _ => ⟨hstates, hnamed⟩⟩, h.clock, fun _ => ⟨h.store, fun _ => ?_⟩,
    fun _ _ => h.store, fun w hw => absurd (h.write.symm.trans hw) nofun⟩
  obtain hactive | hpending | hhold := hmode
  · exact .inl hactive
  · exact .inr (.inl hpending)
  · exact .inr (.inr (.inl hhold))

theorem State.operationLaw.tripSound {s : State} (h : s.operationLaw) (hrunning : s.running = true)
    (hmode : s.mode.inTrip = true) (hwrite : s.storeWrite = none) : TripSound s := by
  obtain ⟨hcustody, ⟨hlen, hoffers, _, hmatch⟩, hclock, _, hstore, _⟩ := h
  have hstrapped : s.mode ≠ .unstrapped := by
    rintro hmode'
    rw [hmode'] at hmode
    exact nomatch hmode
  obtain ⟨hstates, hnamed⟩ := hmatch hrunning hstrapped
  exact ⟨hcustody, hclock, ⟨hlen, hoffers, hcustody.2, hstates, hnamed⟩, hstore hrunning hmode, hwrite⟩

/-- No write is under way but in STARTING, ENDING and at the end of REJOINING. -/
theorem State.operationLaw.no_write {s : State} (h : s.operationLaw)
    (hmode : s.mode ≠ .starting ∧ s.mode ≠ .ending ∧ (s.mode = .rejoining → s.rejoin ≠ .ending)) :
    s.storeWrite = none := by
  obtain ⟨hstarting, hending, hrejoin⟩ := hmode
  obtain ⟨_, _, _, _, _, hwrites⟩ := h
  rw [Option.eq_none_iff_forall_ne_some]
  intro w hw
  obtain ⟨_, ⟨h, _⟩ | ⟨h, _⟩ | ⟨h, hphase, _⟩⟩ := hwrites w hw
  · exact hstarting h
  · exact hending h
  · exact hrejoin h hphase

section Ready
variable {s : State}

theorem TripSound.withMode (h : TripSound s) (m : Mode) : TripSound (s.withMode m) :=
  ⟨h.custody, h.clock, h.matched, h.store, h.write⟩

theorem TripSound.buddyDeadline (h : TripSound s) : TripSound (buddyDeadline s) := by
  rw [buddyDeadline_eq]
  exact ⟨h.custody, h.clock, h.matched, h.store, h.write⟩

theorem TripSound.startBlocks (h : TripSound s) : TripSound (startBlocks s) :=
  ⟨h.custody, h.clock, h.matched, h.store, h.write⟩

/-- A flush with no open offer leaves none. -/
theorem flushAll_offers_nil (hcustody : s.custodyLaw) (hoffers : s.offers = []) (l : List TxEntry) :
    (flushAll s l).offers = [] := by
  obtain ⟨_, hflushed, _⟩ := flushAll_flushed l s hcustody (.inr hoffers)
  rw [hflushed, hoffers]
  rfl

theorem beforeFlush_deals (s : State) : Deals s (beforeFlush s) := by
  have hremoved := (closeAllOffers_deals s).trans (removeWhere_deals _ (p := fun h => h.state.isArriving)
    fun _ x _ harriving hoffered => by rw [hoffered] at harriving; exact nomatch harriving)
  exact hremoved.trans (onlySending_calm _).deals

theorem beforeFlush_custodyLaw (h : s.custodyLaw) : (beforeFlush s).custodyLaw :=
  ((closeAllOffers_keeps s).trans (removeWhere_keeps _ fun h => h.state.isArriving)).custody h

theorem TripSound.enterHoldPending (h : TripSound s) :
    TripSound (enterHoldPending s) ∧ (enterHoldPending s).offers = [] := by
  have hbefore := (beforeFlush_deals s).tripSound (fun h => beforeFlush_custodyLaw h) h
  have hflushed := (flushAll_deals (beforeFlush s) (flushedAtEntry s)).tripSound
    (flushAll_keeps _ _).custody hbefore
  have hnone := flushAll_offers_nil hbefore.custody rfl (flushedAtEntry s)
  have hsent := (send_sends ((flushAll (beforeFlush s) (flushedAtEntry s)).withMode .holdPending)
    ⟨0, .hold, beBytes 4 ((flushAll (beforeFlush s) (flushedAtEntry s)).withMode .holdPending).tripNumber⟩ .hold).calm
  rw [enterHoldPending_eq]
  exact ⟨hsent.deals.tripSound (fun h => by rw [State.custodyLaw, hsent.custody]; exact h)
    (hflushed.withMode .holdPending), hsent.offers.trans hnone⟩

theorem TripSound.leaveHold (h : TripSound s) : TripSound (leaveHold s) := by
  have hactive : TripSound ((s.withMode .active).withLine .ignoring) :=
    ⟨h.custody, h.clock, h.matched, h.store, h.write⟩
  exact ((unmirrorAll_deals _).tripSound (unmirrorAll_keeps _).custody hactive).buddyDeadline

theorem leaveHold_offers (s : State) : (leaveHold s).offers = s.offers := by
  unfold Machine.leaveHold
  rw [buddyDeadline_eq]
  rfl

theorem TripSound.enterHold (h : TripSound s) (hoffers : s.offers = []) :
    TripSound (enterHold s) ∧ (enterHold s).offers = [] := by
  have hoff : TripSound ((((s.withMode .hold).withQueue []).withBeaconHold none).withLine .ignoring) :=
    ⟨h.custody, h.clock, h.matched, h.store, h.write⟩
  have hflushed := (flushAll_deals _ s.bus.queue).tripSound (flushAll_keeps _ _).custody hoff
  have hnone := flushAll_offers_nil hoff.custody hoffers s.bus.queue
  unfold Machine.enterHold
  dsimp only
  split
  · exact ⟨hflushed.leaveHold, (leaveHold_offers _).trans hnone⟩
  · exact ⟨hflushed, hnone⟩

theorem TripSound.becomeActive (h : TripSound s) (hoffers : s.offers = []) :
    TripSound (becomeActive s) ∧ (becomeActive s).offers = [] := by
  have hbuddy := (h.withMode .active).buddyDeadline
  unfold Machine.becomeActive
  dsimp only
  split
  · exact hbuddy.enterHoldPending
  · refine ⟨hbuddy, ?_⟩
    rw [buddyDeadline_eq]
    exact hoffers

theorem TripSound.becomeActive_operationLaw (h : TripSound s) (hoffers : s.offers = []) :
    (Machine.becomeActive s).operationLaw := by
  obtain ⟨hsound, hnone⟩ := h.becomeActive hoffers
  exact hsound.operationLaw (fun hne => absurd hnone hne) ((becomeActive_mode s).imp_right .inl)

end Ready

end Sys2Proof.Machine
end

