-- ==== Sys2Proof/Proofs/TimedLaws.lean ====
section
/-!
PROOFS. The laws of the epoch timer, of the grace window and of custody operations through every command and every step,
and where the trip clock runs back.
-/
namespace Sys2Proof.Machine

/-! ### The three laws together -/

/-- From `s` to `t` the laws of timer, window and custody operations hold on. -/
structure Orders (s t : State) : Prop where
  timer : s.setupLaw → s.timerRest → t.timerRest
  window : s.windowLaw → t.windowLaw
  operation : s.operationLaw → t.custodyLaw → t.operationLaw

theorem Orders.refl (s : State) : Orders s s := ⟨fun _ h => h, fun h => h, fun h _ => h⟩

/-- What an operation leaves of the offers and of the place of records (R10, R94). -/
theorem Deals.operationLaw {s t : State} (h : Deals s t) (hs : s.operationLaw) (hcustody : t.custodyLaw) :
    t.operationLaw := by
  obtain ⟨hold, ⟨hlen, hnodup, hopen, hmatch⟩, ⟨hmax, hclock⟩, hplace, hstore, hwrites⟩ := hs
  have hsmatch (hrunning : s.running = true) (hmode : s.mode ≠ .unstrapped) :
      offersMatch s.offers s.domain.custody :=
    ⟨hlen, hnodup, hold.2, (hmatch hrunning hmode).1, (hmatch hrunning hmode).2⟩
  obtain ⟨hlen', hnodup'⟩ := h.listed (fun hrunning hmode => hsmatch hrunning (by simp [hmode])) ⟨hlen, hnodup⟩
  refine ⟨hcustody, ⟨hlen', hnodup', fun hne => ?_, fun hrunning hmode => ?_⟩,
    ⟨h.clock ▸ hmax, h.clock ▸ h.accounts hclock⟩, fun hne => ?_, fun hrunning hmode => ?_, fun w hw => ?_⟩
  · rw [h.mode]
    exact (h.opened hne).elim hopen fun hmode => hmode
  · obtain ⟨_, _, _, hstates, hnamed⟩ := h.matched (hsmatch (h.running ▸ hrunning) (h.mode ▸ hmode))
    exact ⟨hstates, hnamed⟩
  · rw [h.store, h.running, h.mode]
    obtain hnil | hne' | ⟨hrunning, hmode⟩ := h.place
    · exact absurd hnil hne
    · obtain ⟨hstate, hmodes⟩ := hplace hne'
      refine ⟨hstate, fun hrunning => ?_⟩
      obtain hactive | hpending | hhold | hstrap | ⟨hrejoin, d, n, hphase⟩ := hmodes hrunning
      · exact .inl hactive
      · exact .inr (.inl hpending)
      · exact .inr (.inr (.inl hhold))
      · exact .inr (.inr (.inr (.inl hstrap)))
      · obtain hsame | ⟨hasking, _⟩ := h.rejoin
        · exact .inr (.inr (.inr (.inr ⟨hrejoin, d, n, hsame ▸ hphase⟩)))
        · exact absurd (hasking.symm.trans hphase) nofun
    · obtain hactive | ⟨hrejoin, d, n, hphase⟩ := hmode
      · exact ⟨hstore hrunning (by rw [hactive]; rfl), fun _ => .inl hactive⟩
      · refine ⟨hstore hrunning (by rw [hrejoin]; rfl), fun _ => .inr (.inr (.inr (.inr ⟨hrejoin, d, n, ?_⟩)))⟩
        obtain hsame | ⟨hasking, _⟩ := h.rejoin
        · exact hsame ▸ hphase
        · exact absurd (hasking.symm.trans hphase) nofun
  · rw [h.store]
    exact hstore (h.running ▸ hrunning) (h.mode ▸ hmode)
  · obtain ⟨hrunning, hfits⟩ := hwrites w (h.storeWrite ▸ hw)
    unfold State.writeFits
    rw [h.running, h.mode]
    refine ⟨hrunning, ?_⟩
    obtain hstarting | hending | ⟨hrejoin, hphase, hstate⟩ := hfits
    · exact .inl hstarting
    · exact .inr (.inl hending)
    · obtain hsame | ⟨hasking, _⟩ := h.rejoin
      · exact .inr (.inr ⟨hrejoin, hsame ▸ hphase, hstate⟩)
      · exact absurd (hasking.symm.trans hphase) nofun

theorem Stands.timerRest {s t : State} (h : Stands s t) (hs : s.timerRest) : t.timerRest := by
  unfold State.timerRest State.committed
  rw [h.running, h.mode, h.store, h.nextExpiry, h.clock, h.pending]
  exact hs

theorem Deals.orders {s t : State} (h : Deals s t) : Orders s t :=
  ⟨fun _ => h.toStands.timerRest, h.window, h.operationLaw⟩

theorem Calm.orders {s t : State} (h : Calm s t) : Orders s t := h.deals.orders

theorem Calm.custodyLaw {s t : State} (h : Calm s t) (hs : s.custodyLaw) : t.custodyLaw := by
  rw [State.custodyLaw, h.custody]
  exact hs

/-- An operation that leaves custody alone, then another. -/
theorem Calm.trans_orders {s t u : State} (h : Calm s t) (hsetup : s.setupLaw → t.setupLaw) (k : Orders t u) :
    Orders s u where
  timer := fun hs htimer => k.timer (hsetup hs) (h.orders.timer hs htimer)
  window := k.window ∘ h.orders.window
  operation := fun hs hu => k.operation (h.orders.operation hs (h.custodyLaw hs.1)) hu

theorem Orders.trans_calm {s t u : State} (h : Orders s t) (k : Calm t u) : Orders s u where
  timer := fun hs htimer => k.toStands.timerRest (h.timer hs htimer)
  window := k.deals.window ∘ h.window
  operation := fun hs hu => k.deals.operationLaw (h.operation hs (by rw [State.custodyLaw, ← k.custody]; exact hu)) hu

/-- Custody operations with no record, no offer and no Setup Store write. -/
theorem operationLaw_of_empty {s : State} (hcustody : s.domain.custody = []) (hoffers : s.offers = [])
    (hclock : s.domain.clock ≤ Config.max32)
    (hstore : s.running = true → s.mode.inTrip = true → s.store.tripState = .running)
    (hwrite : ∀ w ∈ s.storeWrite, s.writeFits w) : s.operationLaw := by
  exact ⟨by simp [State.custodyLaw, hcustody], ⟨by simp [hoffers], by simp [hoffers], fun h => absurd hoffers h,
    fun _ _ => by simp [hcustody, hoffers]⟩, ⟨hclock, by simp [hcustody]⟩, fun h => absurd hcustody h, hstore, hwrite⟩

/-! ### HOLD_PENDING and HOLD -/

section Hold
variable {s : State}

theorem offers_nil_of_mode (h : s.operationLaw) (hmode : s.mode ≠ .active) : s.offers = [] := by
  obtain ⟨_, ⟨_, _, hopen, _⟩, _⟩ := h
  exact Classical.not_not.mp fun hne => hmode (hopen hne)

theorem enterHold_orders (hrunning : s.running = true) (hmode : s.mode = .holdPending) : Orders s (enterHold s) where
  timer := fun _ => (enterHold_rests s).timerRest fun _ => by rw [hmode]; rfl
  window := (enterHold_rests s).windowLaw (fun _ => by rw [hmode]; rfl) (by
    obtain h | h := enterHold_mode s <;> rw [h] <;> exact nofun)
  operation := fun hs _ => by
    have hoffers := offers_nil_of_mode hs (by rw [hmode]; exact nofun)
    have hsound := hs.tripSound hrunning (by rw [hmode]; rfl) (hs.no_write (by rw [hmode]; exact ⟨nofun, nofun, nofun⟩))
    obtain ⟨hheld, hnone⟩ := hsound.enterHold hoffers
    exact hheld.operationLaw (fun hne => absurd hnone hne) ((enterHold_mode s).imp_right .inr)

theorem enterHoldPending_orders (hrunning : s.running = true) (hmode : s.mode = .active) :
    Orders s (enterHoldPending s) where
  timer := fun _ => (enterHoldPending_rests s).timerRest fun _ => by rw [hmode]; rfl
  window := (enterHoldPending_rests s).windowLaw (fun _ => by rw [hmode]; rfl) (by
    rw [enterHoldPending_mode]; exact nofun)
  operation := fun hs _ => by
    have hsound := hs.tripSound hrunning (by rw [hmode]; rfl) (hs.no_write (by rw [hmode]; exact ⟨nofun, nofun, nofun⟩))
    obtain ⟨hpending, hnone⟩ := hsound.enterHoldPending
    exact hpending.operationLaw (fun hne => absurd hnone hne) (.inr (.inl (enterHoldPending_mode s)))

theorem leaveHold_orders (hrunning : s.running = true) (hmode : s.mode = .hold) : Orders s (leaveHold s) where
  timer := fun _ => (leaveHold_rests s).timerRest fun _ => by rw [hmode]; rfl
  window := (leaveHold_rests s).windowLaw (fun _ => by rw [hmode]; rfl) (by
    rw [leaveHold_mode]; exact nofun)
  operation := fun hs _ => by
    have hoffers := offers_nil_of_mode hs (by rw [hmode]; exact nofun)
    have hsound := hs.tripSound hrunning (by rw [hmode]; rfl) (hs.no_write (by rw [hmode]; exact ⟨nofun, nofun, nofun⟩))
    exact hsound.leaveHold.operationLaw (fun hne => absurd ((leaveHold_offers s).trans hoffers) hne)
      (.inl (leaveHold_mode s))

theorem lineErrorMet_orders (hrunning : s.running = true) : Orders s (lineErrorMet s) := by
  unfold lineErrorMet
  split
  · exact .refl s
  next e he =>
    have hended : Calm s (endSending s e .lineError) := { Calm.refl s with }
    have hsetup := (endSending_keeps he .lineError).setup
    dsimp only
    split
    · split
      next hmode => exact hended.trans_orders hsetup (enterHold_orders hrunning hmode)
      next => exact hended.orders
    · exact hended.trans_orders hsetup (resolve_deals _ _ _).orders

theorem holdOutcome_orders (acked : Bool) : Orders s
    (outcomeFor s (· == .hold) acked fun s1 _ _ => if s1.mode = .holdPending then enterHold s1 else s1) := by
  unfold outcomeFor
  split
  next hon =>
    have hrunning : s.running = true := by
      unfold State.busOn at hon
      simp only [Bool.and_eq_true] at hon
      exact hon.1.1
    split
    · exact .refl s
    next e he =>
      have hended : Calm s (endSending s e (slotOutcome e acked)) := { Calm.refl s with }
      have hsetup := (endSending_keeps he (slotOutcome e acked)).setup
      dsimp only
      split
      · split
        next hmode => exact hended.trans_orders hsetup (enterHold_orders hrunning hmode)
        next => exact hended.orders
      · exact .refl s
  next => exact .refl s

end Hold

/-! ### The mode becomes ACTIVE -/

section Active
variable {s : State}

theorem epoch_pos (h : s.setupLaw) : 0 < s.committed.epoch := by
  obtain ⟨_, ⟨_, ⟨hlow, _⟩, _⟩, _⟩ := h
  exact Nat.lt_of_lt_of_le (by decide) hlow

/-- REJOINING ends in ACTIVE (R154): for the laws, of the state as its last telegram or deadline left it. -/
theorem rejoinActive_timerRest (h : s.setupLaw) : (rejoinActive s).timerRest :=
  startBlocks_timerRest (s := { s with domain := { s.domain with tripId := s.store.tripId } }) (epoch_pos h)
    (becomeActive_rests _)

theorem rejoinActive_windowLaw (hphase : s.domain.tracker.phase = .closed)
    (hdoors : s.domain.tracker.doors.any DoorEntry.knownOpen = false) : (rejoinActive s).windowLaw :=
  (becomeActive_rests (startBlocks { s with domain := { s.domain with tripId := s.store.tripId } })).windowLaw_of_closed
    hphase (windowLaw_of_closed hphase hdoors)

theorem rejoinActive_operationLaw (h : TripSound s) (hoffers : s.offers = []) : (rejoinActive s).operationLaw := by
  have hid : TripSound { s with domain := { s.domain with tripId := s.store.tripId } } :=
    ⟨h.custody, h.clock, h.matched, h.store, h.write⟩
  exact hid.startBlocks.becomeActive_operationLaw hoffers

/-- Records stand in REJOINING in RECEIVING only (R10). -/
theorem custody_nil_of_rejoin (h : s.operationLaw) (hrunning : s.running = true) (hmode : s.mode = .rejoining)
    (hphase : ∀ d n, s.rejoin ≠ .receiving d n) : s.domain.custody = [] := by
  obtain ⟨_, _, _, hplace, _⟩ := h
  by_contra hne
  obtain ⟨_, hmodes⟩ := hplace hne
  obtain h | h | h | h | ⟨_, d, n, h⟩ := hmodes hrunning
  · exact absurd (hmode.symm.trans h) nofun
  · exact absurd (hmode.symm.trans h) nofun
  · exact absurd (hmode.symm.trans h) nofun
  · exact absurd (hmode.symm.trans h) nofun
  · exact hphase d n h

/-- A restore that ends, by its RESTORE-END or its deadline. -/
theorem restoreOver_orders {u : State} (hcalm : Calm s u) (hsetup : s.setupLaw → u.setupLaw)
    (hrunning : s.running = true) (hmode : s.mode = .rejoining) (hphase : s.rejoin ≠ .ending) :
    Orders s (rejoinActive u) := by
  refine hcalm.trans_orders hsetup ⟨fun hs _ => rejoinActive_timerRest hs, fun hs => ?_, fun hs _ => ?_⟩
  · have hclosed := hs.2.2 (hcalm.running ▸ hrunning) (hcalm.mode ▸ hmode)
    exact rejoinActive_windowLaw hclosed (hs.1 hclosed)
  · have hmode' : u.mode = .rejoining := hcalm.mode ▸ hmode
    have hwrite := hs.no_write (by rw [hmode', hcalm.rejoin]; exact ⟨nofun, nofun, fun _ => hphase⟩)
    exact rejoinActive_operationLaw (hs.tripSound (hcalm.running ▸ hrunning) (by rw [hmode']; rfl) hwrite)
      (offers_nil_of_mode hs (by rw [hmode']; exact nofun))

/-- The first BEACON heard in LISTENING gives the clock (R153). -/
theorem adoptBeacon_orders {b : Beacon} (hclock : b.clock ≤ Config.max32) (hrunning : s.running = true)
    (hmode : s.mode = .rejoining) (hphase : s.rejoin = .listening) : Orders s (adoptBeacon b s) where
  timer := fun hs _ =>
    rejoinActive_timerRest (s := { s with domain := { s.domain with clock := b.clock, custodyLost := true } }) hs
  window := fun hs => rejoinActive_windowLaw (hs.2.2 hrunning hmode) (hs.1 (hs.2.2 hrunning hmode))
  operation := fun hs _ => by
    have hnil := custody_nil_of_rejoin hs hrunning hmode fun d n h => absurd (hphase.symm.trans h) nofun
    have hwrite := hs.no_write (by rw [hmode, hphase]; exact ⟨nofun, nofun, fun _ => nofun⟩)
    have hsound := hs.tripSound hrunning (by rw [hmode]; rfl) hwrite
    have hoffers := offers_nil_of_mode hs (by rw [hmode]; exact nofun)
    have hadopted : TripSound { s with domain := { s.domain with clock := b.clock, custodyLost := true } } :=
      ⟨hsound.custody, ⟨hclock, fun h hh => by rw [hnil] at hh; exact nomatch hh⟩, hsound.matched, hsound.store,
        hsound.write⟩
    exact rejoinActive_operationLaw hadopted hoffers

theorem takeBeacon_orders {t : RxTelegram} (hrunning : s.running = true) : Orders s (takeBeacon t s) := by
  unfold takeBeacon
  split
  · exact .refl s
  next b hb =>
    split
    · exact .refl s
    split
    next hmode =>
      split
      next hphase =>
        refine adoptBeacon_orders ?_ hrunning hmode hphase
        obtain ⟨_, _, hcarried, _⟩ := (beaconOf_eq_some ..).mp hb
        rw [← hcarried]
        exact Nat.le_of_lt_succ (field_lt t.payload 4 4)
      next => exact .refl s
    next hmode =>
      split
      · exact (useBeacon_deals s hmode b t.sender).orders
      · exact .refl s

theorem takeRestoreBegin_orders {t : RxTelegram} (hrunning : s.running = true) : Orders s (takeRestoreBegin t s) := by
  unfold takeRestoreBegin
  dsimp only
  split
  next h =>
    obtain ⟨_, hmode, hphase, _⟩ := h
    refine ⟨fun _ _ => timerRest_of_not_runs (by show s.mode.runsEpochs = false; rw [hmode]; rfl), fun hs => ?_,
      fun hs _ => ?_⟩
    · have hclosed := hs.2.2 hrunning hmode
      have hdoors := hs.1 hclosed
      exact windowLaw_of_closed hclosed hdoors
    · have hnil := custody_nil_of_rejoin hs hrunning hmode fun d n h => absurd (hphase.symm.trans h) nofun
      have hoffers := offers_nil_of_mode hs (by rw [hmode]; exact nofun)
      have hwrite := hs.no_write (by rw [hmode, hphase]; exact ⟨nofun, nofun, fun _ => nofun⟩)
      have hstore := hs.2.2.2.2.1
      exact operationLaw_of_empty hnil hoffers (Nat.le_of_lt_succ (field_lt t.payload 4 4)) hstore fun w hw =>
        absurd (hwrite.symm.trans hw) nofun
  next => exact .refl s

theorem takeRestoreEnd_orders {t : RxTelegram} (hrunning : s.running = true) : Orders s (takeRestoreEnd t s) := by
  unfold takeRestoreEnd
  split
  next d n hphase =>
    split
    next h =>
      have hne : s.rejoin ≠ .ending := by rw [hphase]; exact nofun
      split
      · exact restoreOver_orders { Calm.refl s with } (fun h => h) hrunning h.2 hne
      · exact restoreOver_orders (.refl s) (fun h => h) hrunning h.2 hne
    next => exact .refl s
  next => exact .refl s

end Active

/-! ### Setup Store writes -/

section Writes
variable {s : State}

/-- Where the mode raises no expiries the window law asks for nothing of its end. -/
theorem windowLaw_of_not_runs {t : State} (htracker : t.domain.tracker = s.domain.tracker)
    (hclock : t.domain.clock = s.domain.clock) (hruns : t.running = true → t.mode.runsEpochs = false)
    (hrejoin : t.running = true → t.mode ≠ .rejoining) (hs : s.windowLaw) : t.windowLaw := by
  obtain ⟨hclosed, hgrace, _⟩ := hs
  refine ⟨htracker ▸ hclosed, fun w hw => ⟨hclock ▸ (hgrace w (htracker ▸ hw)).1, fun hrunning h => ?_⟩,
    fun hrunning hr => absurd hr (hrejoin hrunning)⟩
  rw [hruns hrunning] at h
  exact nomatch h

/-- No record stands in IDLE, STARTING and ENDING (R168). -/
theorem custody_nil_of_mode (h : s.operationLaw) (hrunning : s.running = true)
    (hmode : s.mode = .idle ∨ s.mode = .starting ∨ s.mode = .ending) : s.domain.custody = [] := by
  obtain ⟨_, _, _, hplace, _⟩ := h
  by_contra hne
  obtain ⟨_, hmodes⟩ := hplace hne
  have hplaces := hmodes hrunning
  obtain hidle | hstarting | hending := hmode
  · simp [hidle] at hplaces
  · simp [hstarting] at hplaces
  · simp [hending] at hplaces

theorem takeTripStart_orders {t : RxTelegram} (hrunning : s.running = true) : Orders s (takeTripStart t s) := by
  unfold takeTripStart
  dsimp only
  split
  · exact (answer_calm ..).orders
  split
  · exact (answer_calm ..).orders
  split
  · exact (answer_calm ..).orders
  split
  · exact (answer_calm ..).orders
  split
  · exact (answer_calm ..).orders
  split
  · exact (answer_calm ..).orders
  next hmode _ =>
    have hidle : s.mode = .idle := Classical.not_not.mp hmode
    refine ⟨fun _ _ => timerRest_of_not_runs rfl,
      windowLaw_of_not_runs (s := s) rfl rfl (fun _ => rfl) fun _ => nofun, fun hs _ => ?_⟩
    have hnil := custody_nil_of_mode hs hrunning (.inl hidle)
    have hoffers := offers_nil_of_mode hs (by rw [hidle]; exact nofun)
    have hclock := hs.2.2.1.1
    exact operationLaw_of_empty hnil hoffers hclock (fun _ h => nomatch h) fun w hw => by
      obtain rfl := Option.some.inj hw
      exact ⟨hrunning, .inl ⟨rfl, rfl⟩⟩

theorem takeTripEnd_orders {t : RxTelegram} (hrunning : s.running = true) : Orders s (takeTripEnd t s) := by
  unfold takeTripEnd
  split
  · exact (answer_calm ..).orders
  split
  · exact (answer_calm ..).orders
  next hrefusal =>
    have hactive := active_of_refusal hrefusal
    split
    · exact (answer_calm ..).orders
    next hempty =>
      rw [not_or, Classical.not_not] at hempty
      have hruns : s.mode.runsEpochs = true := by rw [hactive]; rfl
      refine ⟨fun _ htimer _ _ => htimer hrunning hruns, fun ⟨hclosed, hgrace, _⟩ => ?_, fun hs _ => ?_⟩
      · exact ⟨hclosed, fun w hw => ⟨(hgrace w hw).1, fun _ _ => (hgrace w hw).2 hrunning hruns⟩, fun _ h => nomatch h⟩
      · have hstore := hs.2.2.2.2.1 hrunning (by rw [hactive]; rfl)
        have hclock := hs.2.2.1.1
        have hoffers : s.offers = [] := by
          obtain ⟨_, ⟨_, _, _, hmatch⟩, _⟩ := hs
          obtain ⟨_, hnamed⟩ := hmatch hrunning (by rw [hactive]; exact nofun)
          rw [List.eq_nil_iff_forall_not_mem]
          intro o ho
          obtain ⟨h, hh, _⟩ := hnamed o ho
          rw [hempty.1] at hh
          exact nomatch hh
        exact operationLaw_of_empty hempty.1 hoffers hclock (fun _ _ => hstore) fun w hw => by
          obtain rfl := Option.some.inj hw
          exact ⟨hrunning, .inr (.inl ⟨rfl, rfl⟩)⟩

/-- The trip over: IDLE, with no record and no write. -/
theorem tripOver_orders {u : State} (hempty : s.operationLaw → u.domain.custody = [] ∧ u.offers = [] ∧
    u.domain.clock ≤ Config.max32 ∧ u.storeWrite = none) : Orders s (tripOver u) where
  timer := fun _ _ => timerRest_of_not_runs rfl
  window := fun _ => windowLaw_of_cleared (doorMap := u.committed.doorMap) rfl
  operation := fun hs _ => by
    obtain ⟨hnil, hoffers, hclock, hwrite⟩ := hempty hs
    exact operationLaw_of_empty hnil hoffers hclock (fun _ h => nomatch h) fun w hw =>
      absurd (hwrite.symm.trans hw) nofun

/-- The write of a trip start shows the trip running (R166). -/
theorem write_running (h : s.operationLaw) (hmode : s.mode = .starting) {w : StoreWrite} (hw : s.storeWrite = some w) :
    w.tripState = .running := by
  obtain ⟨_, _, _, _, _, hwrites⟩ := h
  obtain ⟨_, ⟨_, hstate⟩ | ⟨hending, _⟩ | ⟨hrejoin, _⟩⟩ := hwrites w hw
  · exact hstate
  · exact absurd (hmode.symm.trans hending) nofun
  · exact absurd (hmode.symm.trans hrejoin) nofun

theorem tripSound_of_empty (hcustody : s.domain.custody = []) (hoffers : s.offers = [])
    (hclock : s.domain.clock ≤ Config.max32) (hstore : s.store.tripState = .running) (hwrite : s.storeWrite = none) :
    TripSound s := by
  have hmatch : offersMatch s.offers s.domain.custody := by
    simp [offersMatch, hcustody, hoffers]
  exact ⟨by simp [State.custodyLaw, hcustody], ⟨hclock, by simp [hcustody]⟩, hmatch, hstore, hwrite⟩

theorem tripStarted_tripSound {w : StoreWrite} (hstate : w.tripState = .running) (hoffers : s.offers = []) :
    TripSound (tripStarted s w) :=
  tripSound_of_empty rfl hoffers (Nat.zero_le _) hstate rfl

theorem tripStartEnds_orders (hmode : s.mode = .starting) (completed : Bool) (hrunning : s.running = true) :
    Orders s (tripStartEnds completed s) := by
  unfold tripStartEnds
  split
  · exact .refl s
  next w hw =>
    split
    next requester disabled hjob =>
      split
      · have hstarted : Orders s (becomeActive (startBlocks (tripStarted s w))) := by
          refine ⟨fun hs _ => ?_, fun _ => ?_, fun hs _ => ?_⟩
          · have hepoch : 0 < (tripStarted s w).committed.epoch := epoch_pos ((tripStarted_keeps s hw).setup hs)
            exact startBlocks_timerRest hepoch (becomeActive_rests _)
          · have hcleared : (startBlocks (tripStarted s w)).windowLaw :=
              windowLaw_of_cleared (doorMap := w.setup.doorMap) rfl
            exact (becomeActive_rests _).windowLaw_of_closed rfl hcleared
          · have hoffers := offers_nil_of_mode hs (by rw [hmode]; exact nofun)
            have hsound := tripStarted_tripSound (write_running hs hmode hw) hoffers
            exact hsound.startBlocks.becomeActive_operationLaw hoffers
        exact hstarted.trans_calm (sendPlain_sends ..).calm
      · have hfailed : Orders s { s with mode := .idle, storeWrite := none } := by
          refine ⟨fun _ _ => timerRest_of_not_runs rfl,
            windowLaw_of_not_runs (s := s) rfl rfl (fun _ => rfl) fun _ => nofun, fun hs _ => ?_⟩
          have hnil := custody_nil_of_mode hs hrunning (.inr (.inl hmode))
          have hoffers := offers_nil_of_mode hs (by rw [hmode]; exact nofun)
          have hclock := hs.2.2.1.1
          exact operationLaw_of_empty hnil hoffers hclock (fun _ h => nomatch h) fun _ hw => nomatch hw
        exact hfailed.trans_calm (sendPlain_sends ..).calm
    · exact .refl s

theorem tripEndEnds_orders (hmode : s.mode = .ending) (completed : Bool) (hrunning : s.running = true) :
    Orders s (tripEndEnds completed s) := by
  unfold tripEndEnds
  split
  · exact .refl s
  next w hw =>
    split
    · dsimp only
      split
      · have hover : Orders s (tripOver { s with store := Store.written w, storeWrite := none }) :=
          tripOver_orders fun hs => by
            have hnil := custody_nil_of_mode hs hrunning (.inr (.inr hmode))
            have hoffers := offers_nil_of_mode hs (by rw [hmode]; exact nofun)
            exact ⟨hnil, hoffers, hs.2.2.1.1, rfl⟩
        exact hover.trans_calm (sendPlain_sends ..).calm
      · have hruns : s.mode.runsEpochs = true := by rw [hmode]; rfl
        have hrests := becomeActive_rests { s with storeWrite := none }
        have hback : Orders s (becomeActive { s with storeWrite := none }) := by
          refine ⟨fun _ htimer => hrests.timerRest (fun _ => hruns) htimer, fun hs => ?_, fun hs _ => ?_⟩
          · refine hrests.windowLaw (fun _ => hruns) ?_ hs
            obtain h | h := becomeActive_mode { s with storeWrite := none } <;> rw [h] <;> exact nofun
          · have hnil := custody_nil_of_mode hs hrunning (.inr (.inr hmode))
            have hoffers := offers_nil_of_mode hs (by rw [hmode]; exact nofun)
            have hstore := hs.2.2.2.2.1 hrunning (by rw [hmode]; rfl)
            have hsound : TripSound { s with storeWrite := none } :=
              tripSound_of_empty hnil hoffers hs.2.2.1.1 hstore rfl
            exact hsound.becomeActive_operationLaw hoffers
        exact hback.trans_calm (sendPlain_sends ..).calm
    · exact .refl s

theorem rejoinEnd_orders (hmode : s.mode = .rejoining) (hphase : s.rejoin = .ending) (store : Store)
    (hrunning : s.running = true) : Orders s (tripOver { s with store := store, storeWrite := none }) :=
  tripOver_orders fun hs => by
    have hnil := custody_nil_of_rejoin hs hrunning hmode fun d n h => absurd (hphase.symm.trans h) nofun
    have hoffers := offers_nil_of_mode hs (by rw [hmode]; exact nofun)
    exact ⟨hnil, hoffers, hs.2.2.1.1, rfl⟩

theorem listeningTimeout_orders (hmode : s.mode = .rejoining) (hphase : s.rejoin = .listening)
    (hrunning : s.running = true) : Orders s
      { s with
        rejoin := .ending
        storeWrite := some ⟨s.store.setup, s.store.tripId, .ended, .rejoinEnd⟩
        domain := { s.domain with counting := false } } where
  timer := fun _ _ => timerRest_of_not_runs (by show s.mode.runsEpochs = false; rw [hmode]; rfl)
  window := fun hs => by
    have hclosed := hs.2.2 hrunning hmode
    have hdoors := hs.1 hclosed
    exact windowLaw_of_closed hclosed hdoors
  operation := fun hs _ => by
    have hnil := custody_nil_of_rejoin hs hrunning hmode fun d n h => absurd (hphase.symm.trans h) nofun
    have hoffers := offers_nil_of_mode hs (by rw [hmode]; exact nofun)
    have hclock := hs.2.2.1.1
    have hstore := hs.2.2.2.2.1
    exact operationLaw_of_empty hnil hoffers hclock hstore fun w hw => by
      obtain rfl := Option.some.inj hw
      exact ⟨hrunning, .inr (.inr ⟨hmode, rfl, rfl⟩)⟩

end Writes

end Sys2Proof.Machine
end

