-- ==== Sys2Proof/Proofs/StepKeepsTimedLaws.lean ====
section
/-!
PROOFS. The laws of the epoch timer, of the grace window and of custody operations through stops, starts, expiries and
the passing of a second, and so through every step; where the trip clock runs back.
-/
namespace Sys2Proof.Machine

/-! ### Stop, cell and start -/

section Starts
variable {s : State}

/-- A write that ends at a stop, one way or the other, leaves the records where they may stand. -/
theorem writeStops_operationLaw (hs : s.operationLaw) (hstopped : s.running = true) (cause : StopCause) (landed : Bool) :
    (writeStops landed { s with running := false, stopCause := cause }).operationLaw := by
  have hold := hs
  obtain ⟨hcustody, ⟨hlen, hnodup, hopen, _⟩, hclock, hplace, _, hwrites⟩ := hs
  have hoff (store : Store) (write : Option StoreWrite) (counting : Bool)
      (hstore : s.domain.custody ≠ [] → store.tripState = .running) (hnone : write = none) : State.operationLaw
        { s with
          running := false, stopCause := cause, store := store, storeWrite := write
          domain := { s.domain with counting := counting } } :=
    ⟨hcustody, ⟨hlen, hnodup, hopen, fun h => nomatch h⟩, hclock, fun hne => ⟨hstore hne, fun h => nomatch h⟩,
      fun h => (nomatch h), fun w hw => by rw [Option.mem_def, hnone] at hw; exact nomatch hw⟩
  unfold writeStops
  split
  next hnone => exact hoff s.store s.storeWrite s.domain.counting (fun hne => (hplace hne).1) hnone
  next w hw =>
    split
    · refine hoff (Store.written w) none _ (fun hne => ?_) rfl
      obtain ⟨_, hmodes⟩ := hplace hne
      obtain ⟨_, ⟨_, hstate⟩ | ⟨hending, _⟩ | ⟨hrejoin, hphase, _⟩⟩ := hwrites w hw
      · exact hstate
      · exact absurd (custody_nil_of_mode hold hstopped (.inr (.inr hending))) hne
      · exact absurd (custody_nil_of_rejoin hold hstopped hrejoin fun d n h => absurd (hphase.symm.trans h) nofun) hne
    · exact hoff s.store none s.domain.counting (fun hne => (hplace hne).1) rfl

theorem writeStops_frame (u : State) (landed : Bool) :
    (writeStops landed u).running = u.running ∧ (writeStops landed u).mode = u.mode ∧
    (writeStops landed u).offers = u.offers ∧ (writeStops landed u).domain.clock = u.domain.clock ∧
    (writeStops landed u).domain.tracker = u.domain.tracker ∧ (writeStops landed u).cellFell = u.cellFell := by
  unfold writeStops
  split
  · exact ⟨rfl, rfl, rfl, rfl, rfl, rfl⟩
  · split <;> exact ⟨rfl, rfl, rfl, rfl, rfl, rfl⟩

/-- A domain lost with the core stopped. -/
theorem loseDomain_operationLaw (hs : s.operationLaw) (hstopped : s.running = false) : (loseDomain s).operationLaw := by
  obtain ⟨_, ⟨hlen, hnodup, hopen, _⟩, _, _, _, hwrites⟩ := hs
  have hno : ¬ (loseDomain s).running = true := by
    show ¬ s.running = true
    rw [hstopped]
    exact nofun
  refine ⟨⟨Nat.zero_le _, .nil⟩, ⟨hlen, hnodup, hopen, fun h => absurd h hno⟩, ⟨Nat.zero_le _, fun h hh => nomatch hh⟩,
    fun hne => absurd rfl hne, fun h => absurd h hno, fun w hw => ?_⟩
  have := (hwrites w hw).1
  rw [hstopped] at this
  exact nomatch this

theorem loseDomain_windowLaw (u : State) : (loseDomain u).windowLaw :=
  windowLaw_of_cleared (doorMap := u.store.setup.doorMap) rfl

theorem coreStop_orders (cause : StopCause) (landed : Bool) :
    ∃ t, exec (.coreStop cause landed) s = .next t ∧ Orders s t := by
  refine ⟨_, rfl, ?_⟩
  split
  next hrunning =>
    obtain ⟨hstop, _, _, hclock, htracker, _⟩ :=
      writeStops_frame { s with running := false, stopCause := cause } landed
    have hstopped : Orders s (writeStops landed { s with running := false, stopCause := cause }) := by
      refine ⟨fun _ _ h => ?_, windowLaw_of_not_runs htracker hclock (fun h => ?_) fun h => ?_,
        fun hs _ => writeStops_operationLaw hs hrunning cause landed⟩
      · exact absurd (hstop.symm.trans h) nofun
      · exact absurd (hstop.symm.trans h) nofun
      · exact absurd (hstop.symm.trans h) nofun
    dsimp only
    split
    · refine ⟨fun _ _ h => absurd (hstop.symm.trans h) nofun, fun _ => loseDomain_windowLaw _, fun hs _ => ?_⟩
      exact loseDomain_operationLaw (writeStops_operationLaw hs hrunning cause landed) hstop
    · exact hstopped
  next => exact .refl s

theorem backupCell_orders : ∃ t, exec .backupCellBelowRetention s = .next t ∧ Orders s t := by
  have hfell : Calm s { s with cellFell := true } := { Calm.refl s with }
  refine ⟨_, rfl, ?_⟩
  split
  · exact hfell.orders
  next hstopped =>
    have hstop : s.running = false := Bool.eq_false_iff.mpr hstopped
    refine ⟨fun _ _ h => absurd h hstopped, fun _ => loseDomain_windowLaw _, fun hs _ => ?_⟩
    exact loseDomain_operationLaw (s := { s with cellFell := true }) hs hstop

theorem clearDomain_orders {u : State} (hoffers : u.offers = []) (hwrite : u.storeWrite = none) :
    Orders s { clearDomain u with mode := .idle } where
  timer := fun _ _ => timerRest_of_not_runs rfl
  window := fun _ => windowLaw_of_cleared (doorMap := u.store.setup.doorMap) rfl
  operation := fun _ _ =>
    operationLaw_of_empty rfl hoffers (Nat.zero_le _) (fun _ h => nomatch h) fun _ hw =>
      absurd (hwrite.symm.trans hw) nofun

/-- Entry to REJOINING, with the buddy asked or listening, then a telegram offered or none (R150). -/
theorem enterRejoining_calm (u : State) : ∃ p, (p = .asking ∨ p = .listening) ∧
    Calm (({ u with mode := .rejoining, domain := { u.domain with counting := true } } : State).withRejoin p)
      (enterRejoining u) := by
  unfold enterRejoining
  dsimp only
  split
  · exact ⟨.listening, .inr rfl, .refl _⟩
  · split
    · exact ⟨.asking, .inl rfl, (send_sends ..).calm⟩
    next hrefused =>
      refine ⟨.listening, .inr rfl, ?_⟩
      rw [send_refused _ _ _ (Bool.eq_false_iff.mpr hrefused)]
      exact .refl _

/-- A start into REJOINING with the domain cleared (R150). -/
theorem enterRejoining_orders {u : State} (hoffers : u.offers = []) (hwrite : u.storeWrite = none)
    (hstore : u.store.tripState = .running) : Orders s (enterRejoining (clearDomain u)) := by
  obtain ⟨p, _, hcalm⟩ := enterRejoining_calm (clearDomain u)
  refine Orders.trans_calm ⟨fun _ _ => timerRest_of_not_runs rfl, fun _ => ?_, fun _ _ => ?_⟩ hcalm
  · exact windowLaw_of_cleared (doorMap := u.store.setup.doorMap) rfl
  · exact operationLaw_of_empty rfl hoffers (Nat.zero_le _) (fun _ _ => hstore) fun _ hw =>
      absurd (hwrite.symm.trans hw) nofun

/-- A settled table holds HELD records only, each accounted to the present (R20). -/
theorem settleCustody_facts (clock : Nat) (l : List Holding) :
    ∀ x ∈ settleCustody clock l, x.state = .held ∧ x.accountedTo = clock := by
  intro x hx
  obtain ⟨y, hy, rfl⟩ := List.mem_map.mp hx
  obtain ⟨z, _, rfl⟩ := List.mem_map.mp hy
  exact ⟨rfl, rfl⟩

theorem windowEnded_closedLaw (t : Tracker) : t.windowEnded.closedLaw := fun hphase => by
  unfold Tracker.windowEnded at hphase ⊢
  dsimp only at hphase ⊢
  split at hphase
  · exact nomatch hphase
  next h => exact Bool.eq_false_iff.mpr h

theorem windowEnded_phase (t : Tracker) (w : Nat) : t.windowEnded.phase ≠ .grace w := by
  unfold Tracker.windowEnded
  dsimp only
  split
  · exact nofun
  · exact nofun

/-- Doors that become unknown are not known open. -/
theorem knownOpen_forgotten (doors : List DoorEntry) (p : DoorEntry → Bool)
    (h : doors.any DoorEntry.knownOpen = false) :
    (doors.map fun e => if p e then { e with known := none } else e).any DoorEntry.knownOpen = false := by
  rw [List.any_eq_false] at h ⊢
  intro y hy
  obtain ⟨x, hx, rfl⟩ := List.mem_map.mp hy
  split
  · simp [DoorEntry.knownOpen]
  · exact h x hx

/-- R71: a settled tracker has no window beyond its end. -/
theorem settled_facts {t : Tracker} {clock : Nat} (hclosed : t.closedLaw)
    (hstart : ∀ w, t.phase = .grace w → w ≤ clock) (grace address : Nat) :
    (t.settled grace clock address).closedLaw ∧
      ∀ w, (t.settled grace clock address).phase = .grace w → w ≤ clock ∧ clock < w + grace := by
  have hended : ∀ t1 : Tracker, t1.closedLaw → (∀ w, t1.phase = .grace w → w ≤ clock ∧ clock < w + grace) →
      Tracker.closedLaw { t1 with
        doors := t1.doors.map fun e =>
          if e.known.any fun k => k.source == address then { e with known := none } else e } ∧
      ∀ w, t1.phase = .grace w → w ≤ clock ∧ clock < w + grace :=
    fun t1 hlaw hgrace => ⟨fun hphase => knownOpen_forgotten t1.doors _ (hlaw hphase), hgrace⟩
  unfold Tracker.settled
  refine hended _ ?_ fun w hw => ?_
  · split
    · split
      · exact windowEnded_closedLaw t
      · exact hclosed
    · exact hclosed
  · split at hw
    next v hv =>
      split at hw
      · exact absurd hw (windowEnded_phase t w)
      next hlt =>
        obtain rfl : v = w := TrackerPhase.grace.inj (hv.symm.trans hw)
        exact ⟨hstart v hv, Nat.lt_of_not_le hlt⟩
    next hno => exact absurd hw (hno w)

theorem Rests.windowLaw_of_open {s t : State} (h : Rests s t) (hclosed : s.domain.tracker.closedLaw)
    (hgrace : ∀ w, s.domain.tracker.phase = .grace w → w ≤ s.domain.clock ∧ s.domain.clock < w + s.committed.grace)
    (hrejoin : t.mode ≠ .rejoining) : t.windowLaw := by
  refine ⟨h.tracker ▸ hclosed, fun w hw => ?_, fun _ hr => absurd hr hrejoin⟩
  obtain ⟨hstart, hend⟩ := hgrace w (h.tracker ▸ hw)
  unfold State.committed
  rw [h.clock, h.store]
  exact ⟨hstart, fun _ _ => .inl hend⟩

/-- The state that a warm start in the running trip settles, before the blocks start. -/
def settledState (u : State) : State :=
  { u with
    domain :=
      { u.domain with
        custody := settleCustody u.domain.clock u.domain.custody
        tracker := u.domain.tracker.settled u.committed.grace u.domain.clock u.address } }

theorem warmRunning_orders {u : State} (hsetup : s.setupLaw → u.setupLaw) (hoffers : u.offers = [])
    (hwrite : u.storeWrite = none) (hstore : u.store.tripState = .running)
    (hcustody : u.domain.custody = s.domain.custody) (hclock : u.domain.clock = s.domain.clock)
    (htracker : u.domain.tracker = s.domain.tracker) : Orders s (warmRunning u) where
  timer := fun hs _ => startBlocks_timerRest (s := settledState u) (epoch_pos (hsetup hs)) (becomeActive_rests _)
  window := fun ⟨hclosed, hgrace, _⟩ => by
    obtain ⟨hclosed', hgrace'⟩ := settled_facts (t := u.domain.tracker) (clock := u.domain.clock) (htracker ▸ hclosed)
      (fun w hw => hclock ▸ (hgrace w (htracker ▸ hw)).1) u.committed.grace u.address
    refine (becomeActive_rests (startBlocks (settledState u))).windowLaw_of_open hclosed' hgrace' ?_
    obtain h | h := becomeActive_mode (startBlocks (settledState u)) <;> rw [h] <;> exact nofun
  operation := fun hs _ => by
    obtain ⟨hold, _, ⟨hmax, _⟩, _⟩ := hs
    have hfacts := settleCustody_facts u.domain.clock u.domain.custody
    have hkept : (settledState u).custodyLaw :=
      (withCustody_keeps' (settleCustody_survives u.domain.clock u.domain.custody)).custody
        (by rw [State.custodyLaw, hcustody]; exact hold)
    have hmatch : offersMatch u.offers (settleCustody u.domain.clock u.domain.custody) := by
      rw [hoffers]
      exact ⟨Nat.zero_le _, .nil, hkept.2, fun x hx => by simp [(hfacts x hx).1], fun o ho => nomatch ho⟩
    have hsound : TripSound (settledState u) :=
      ⟨hkept, ⟨hclock ▸ hmax, fun x hx => (hfacts x hx).2.le⟩, hmatch, hstore, hwrite⟩
    exact hsound.startBlocks.becomeActive_operationLaw hoffers

/-- A start that finds no trip running, or straps of 0: the domain stays as found. -/
theorem standingStart_orders {u : State} (hmode : u.mode = .idle ∧ u.store.tripState ≠ .running ∨ u.mode = .unstrapped)
    (hoffers : u.offers = []) (hwrite : u.storeWrite = none) (hstore : u.store = s.store)
    (hcustody : u.domain.custody = s.domain.custody) (hclock : u.domain.clock = s.domain.clock)
    (htracker : u.domain.tracker = s.domain.tracker) : Orders s u where
  timer := fun _ _ => timerRest_of_not_runs (by obtain ⟨h, _⟩ | h := hmode <;> rw [h] <;> rfl)
  window := windowLaw_of_not_runs htracker hclock (fun _ => by obtain ⟨h, _⟩ | h := hmode <;> rw [h] <;> rfl)
    fun _ => by obtain ⟨h, _⟩ | h := hmode <;> rw [h] <;> exact nofun
  operation := fun hs hcustody' => by
    obtain ⟨_, _, ⟨hmax, hle⟩, hplace, _⟩ := hs
    obtain ⟨hidle, hno⟩ | hstrap := hmode
    · have hnil : u.domain.custody = [] := by
        by_contra hne
        exact hno (hstore ▸ (hplace (hcustody ▸ hne)).1)
      exact operationLaw_of_empty hnil hoffers (hclock ▸ hmax) (fun _ h => by rw [hidle] at h; exact nomatch h)
        fun _ hw => absurd (hwrite.symm.trans hw) nofun
    · refine ⟨hcustody', ⟨by simp [hoffers], by simp [hoffers], fun h => absurd hoffers h, fun _ h => absurd hstrap h⟩,
        ⟨hclock ▸ hmax, by rw [hcustody, hclock]; exact hle⟩, fun hne => ⟨?_, fun _ => ?_⟩,
        fun _ h => absurd h (by rw [hstrap]; exact nofun), fun _ hw => absurd (hwrite.symm.trans hw) nofun⟩
      · exact hstore ▸ (hplace (hcustody ▸ hne)).1
      · exact .inr (.inr (.inr (.inl hstrap)))

/-- R171, R172: the ways a start goes on, from a restarted core whose domain and store are as the stop left them. -/
theorem proceed_orders {u : State} (hsetup : s.setupLaw → u.setupLaw) (hoffers : u.offers = [])
    (hwrite : u.storeWrite = none) (hstore : u.store = s.store)
    (hcustody : u.domain.custody = s.domain.custody) (hclock : u.domain.clock = s.domain.clock)
    (htracker : u.domain.tracker = s.domain.tracker) (cold storeGood : Bool) :
    Orders s (proceed u cold storeGood) := by
  unfold proceed
  split
  · exact clearDomain_orders (u := { u with store := storeLost }) hoffers hwrite
  · split
    · split
      next hrunning => exact enterRejoining_orders hoffers hwrite hrunning
      next => exact clearDomain_orders hoffers hwrite
    · split
      next hrunning =>
        split
        · exact warmRunning_orders (u := raiseRestartCount u) hsetup hoffers hwrite hrunning hcustody hclock htracker
        · exact enterRejoining_orders (u := { u with resetCause := .retentionFault }) hoffers hwrite hrunning
      next hno =>
        exact standingStart_orders (u := warmIdle (raiseRestartCount u)) (.inl ⟨rfl, hno⟩) hoffers hwrite hstore hcustody
          hclock htracker

theorem start_orders (straps : BitVec 4) (domainGood storeGood : Bool) (mv : Nat) :
    ∃ t, exec (.start straps domainGood storeGood mv) s = .next t ∧ Orders s t := by
  refine ⟨_, rfl, ?_⟩
  have hsetup : s.setupLaw → (restartVolatile { s with supplyMv := mv, address := straps.toNat }
      (if storeGood && s.store.checkGood then s.store.setup else Setup.default)).setupLaw :=
    (restartVolatile_keeps { s with supplyMv := mv, address := straps.toNat } fun hlaw => by
      split
      · exact hlaw.2.1
      · exact default_inRange).setup
  split
  · exact .refl s
  · split
    · exact standingStart_orders (.inr rfl) rfl rfl rfl rfl rfl rfl
    · exact proceed_orders
        (u := { restartVolatile { s with supplyMv := mv, address := straps.toNat }
                  (if storeGood && s.store.checkGood then s.store.setup else Setup.default) with
                resetCause := startCause s domainGood })
        hsetup rfl rfl rfl rfl rfl rfl _ _

end Starts

/-! ### Every command -/

theorem taking_orders {s : State} {k : Kind} {deal : RxTelegram → State → State}
    (hdeal : ∀ m u, u.running = true → Orders u (deal m u)) : Orders s (taking k s deal) := by
  obtain h | ⟨m, rest, ⟨hrunning, _⟩, h⟩ := taking_cases s k deal
  · rw [h]; exact .refl s
  · rw [h]
    have hfreed : Calm s (s.withRx rest) := { Calm.refl s with }
    exact hfreed.trans_orders (fun h => h) (hdeal m _ hrunning)

/-- The commands that only deal with telegrams, records, offers, probes and doors. -/
def changesOrder : Instr → Bool
  | .tripStart | .tripEnd | .beacon | .restoreBegin | .restoreEnd | .lineError | .holdOutcome _ | .epochExpiry
  | .windowExpiry | .restoreDeadline | .listeningTimeout | .holdPendingTimeout | .tripStartWriteEnd _
  | .tripEndWriteEnd _ | .rejoinEndWriteEnd _ | .supplyBelowWarning _ | .supplyAboveRelease _ | .coreStop _ _
  | .start _ _ _ _ | .backupCellBelowRetention => true
  | _ => false

theorem deals_if {s t : State} {p : Prop} [Decidable p] (h : p → Deals s t) : Deals s (if p then t else s) := by
  split
  next hp => exact h hp
  next => exact .refl s

theorem updateChannel_calm (s : State) (i : Fin 4) (f : Channel → Channel) : Calm s (s.updateChannel i f) := by
  unfold State.updateChannel
  split
  · exact { Calm.refl s with }
  · exact .refl s

theorem exec_deals (c : Instr) (s : State) (hc : changesOrder c = false) : ∃ t, exec c s = .next t ∧ Deals s t := by
  match c with
  | .tripStart | .tripEnd | .beacon | .restoreBegin | .restoreEnd | .lineError | .holdOutcome _ | .epochExpiry
  | .windowExpiry | .restoreDeadline | .listeningTimeout | .holdPendingTimeout | .tripStartWriteEnd _
  | .tripEndWriteEnd _ | .rejoinEndWriteEnd _ | .supplyBelowWarning _ | .supplyAboveRelease _ | .coreStop _ _
  | .start _ _ _ _ | .backupCellBelowRetention => exact nomatch hc
  | .configSet => exact ⟨_, rfl, taking_deals s fun m u _ => (takeConfigSet_calm m u).deals⟩
  | .load => exact ⟨_, rfl, taking_deals s takeLoad_deals⟩
  | .move => exact ⟨_, rfl, taking_deals s takeMove_deals⟩
  | .release => exact ⟨_, rfl, taking_deals s fun m u _ => takeRelease_deals m u⟩
  | .queryStation => exact ⟨_, rfl, taking_deals s fun m u _ => (takeQueryStation_calm m u).deals⟩
  | .queryRecord => exact ⟨_, rfl, taking_deals s fun m u _ => (takeQueryRecord_calm m u).deals⟩
  | .list => exact ⟨_, rfl, taking_deals s fun m u _ => (takeList_calm m u).deals⟩
  | .discardMirror => exact ⟨_, rfl, taking_deals s fun m u _ => (takeDiscardMirror_calm m u).deals⟩
  | .door => exact ⟨_, rfl, taking_deals s fun m u _ => takeDoor_deals u m⟩
  | .hold => exact ⟨_, rfl, taking_deals s fun m u _ => (takeHold_calm m u).deals⟩
  | .offer => exact ⟨_, rfl, taking_deals s takeOffer_deals⟩
  | .accept => exact ⟨_, rfl, taking_deals s fun m u _ => takeAccept_deals m u⟩
  | .decline => exact ⟨_, rfl, taking_deals s fun m u _ => takeDecline_deals m u⟩
  | .mirrorPut => exact ⟨_, rfl, taking_deals s fun m u _ => (takeMirrorPut_calm m u).deals⟩
  | .mirrorDrop => exact ⟨_, rfl, taking_deals s fun m u _ => (takeMirrorDrop_calm m u).deals⟩
  | .restoreAsk => exact ⟨_, rfl, taking_deals s fun m u _ => (takeRestoreAsk_calm m u).deals⟩
  | .restoreRecord => exact ⟨_, rfl, taking_deals s takeRestoreRecord_deals⟩
  | .acknowledgeSlot f => exact ⟨_, rfl, receive_deals s f⟩
  | .busIdle => exact ⟨_, rfl, (busBecomesIdle_calm s).deals⟩
  | .telegramAbandoned => exact ⟨_, rfl, (busBecomesIdle_calm s).deals⟩
  | .sampledLengthAbove160 _ => exact ⟨_, rfl, deals_if fun _ => Calm.deals { Calm.refl s with }⟩
  | .arbitrationLoss => exact ⟨_, rfl, deals_if fun _ => (loseArbitration_calm s).deals⟩
  | .telegramOutcome _ => exact ⟨_, rfl, outcomeFor_deals s fun u _ _ => .refl u⟩
  | .offerOutcome _ => exact ⟨_, rfl, outcomeFor_deals s resolve_deals⟩
  | .acceptOutcome _ => exact ⟨_, rfl, outcomeFor_deals s resolve_deals⟩
  | .certificateReplyOutcome _ => exact ⟨_, rfl, outcomeFor_deals s resolve_deals⟩
  | .mirrorPutOutcome _ => exact ⟨_, rfl, outcomeFor_deals s resolve_deals⟩
  | .mirrorDropOutcome _ => exact ⟨_, rfl, outcomeFor_deals s resolve_deals⟩
  | .restoreAskOutcome _ => exact ⟨_, rfl, outcomeFor_deals s resolve_deals⟩
  | .restoreSessionOutcome _ => exact ⟨_, rfl, outcomeFor_deals s resolve_deals⟩
  | .answerTimeout id =>
    refine ⟨_, rfl, deals_if fun _ => ?_⟩
    split
    · exact .refl s
    · exact (closeOffer_deals s id).trans (answerMoveFailed_sends ..).calm.deals
  | .silenceDeadline _ => exact ⟨_, rfl, deals_if fun _ => Calm.deals { Calm.refl s with }⟩
  | .askingTimeout =>
    refine ⟨_, rfl, deals_if fun h => { Deals.refl s with rejoin := .inr ⟨?_, rfl⟩ }⟩
    simp only [State.askingOver, Bool.and_eq_true, beq_iff_eq] at h
    exact h.1.2
  | .risingEdge _ _ => exact ⟨_, rfl, (updateChannel_calm s _ _).deals⟩
  | .fallingEdge _ _ => exact ⟨_, rfl, (updateChannel_calm s _ _).deals⟩
  | .runOutInArming _ _ => exact ⟨_, rfl, (updateChannel_calm s _ _).deals⟩
  | .runOutInMeasuring _ => exact ⟨_, rfl, (updateChannel_calm s _ _).deals⟩
  | .doorLineLevelChange _ _ => exact ⟨_, rfl, Calm.deals { Calm.refl s with }⟩
  | .initialAcceptance input => exact ⟨_, rfl, deals_if fun _ => settleInput_deals s input⟩
  | .acceptedChange input => exact ⟨_, rfl, deals_if fun _ => settleInput_deals s input⟩

theorem orders_if {s t : State} {p : Prop} [Decidable p] (h : p → Orders s t) : Orders s (if p then t else s) := by
  split
  next hp => exact h hp
  next => exact .refl s

/-- Every command but the two expiries, which are what the laws of timer and window wait for. -/
theorem exec_orders (c : Instr) (s : State) (hepoch : c ≠ .epochExpiry) (hwindow : c ≠ .windowExpiry) :
    ∃ t, exec c s = .next t ∧ Orders s t := by
  by_cases hc : changesOrder c = false
  · obtain ⟨t, hexec, hdeals⟩ := exec_deals c s hc
    exact ⟨t, hexec, hdeals.orders⟩
  unfold changesOrder at hc
  split at hc
  · exact ⟨_, rfl, taking_orders fun _ _ => takeTripStart_orders⟩
  · exact ⟨_, rfl, taking_orders fun _ _ => takeTripEnd_orders⟩
  · exact ⟨_, rfl, taking_orders fun _ _ => takeBeacon_orders⟩
  · exact ⟨_, rfl, taking_orders fun _ _ => takeRestoreBegin_orders⟩
  · exact ⟨_, rfl, taking_orders fun _ _ => takeRestoreEnd_orders⟩
  · refine ⟨_, rfl, orders_if fun hon => lineErrorMet_orders ?_⟩
    simp only [State.busOn, Bool.and_eq_true] at hon
    exact hon.1.1
  · exact ⟨_, rfl, holdOutcome_orders _⟩
  · exact absurd rfl hepoch
  · exact absurd rfl hwindow
  · refine ⟨_, rfl, orders_if fun h => ?_⟩
    simp only [State.receivingOver, State.rejoins, Bool.and_eq_true, beq_iff_eq] at h
    obtain ⟨⟨hrunning, hmode⟩, hphase⟩ := h
    exact restoreOver_orders { Calm.refl s with } (fun h => h) hrunning hmode fun hending => by
      rw [hending] at hphase
      exact nomatch hphase
  · refine ⟨_, rfl, orders_if fun h => ?_⟩
    simp only [State.listeningOver, State.rejoins, Bool.and_eq_true, beq_iff_eq] at h
    exact listeningTimeout_orders h.1.1.2 h.1.2 h.1.1.1
  · refine ⟨_, rfl, orders_if fun h => ?_⟩
    rw [Bool.and_eq_true, beq_iff_eq] at h
    exact enterHold_orders h.1 h.2
  · refine ⟨_, rfl, orders_if fun h => ?_⟩
    rw [Bool.and_eq_true, beq_iff_eq] at h
    exact tripStartEnds_orders h.2 _ h.1
  · refine ⟨_, rfl, orders_if fun h => ?_⟩
    rw [Bool.and_eq_true, beq_iff_eq] at h
    exact tripEndEnds_orders h.2 _ h.1
  · refine ⟨_, rfl, orders_if fun h => ?_⟩
    rw [Bool.and_eq_true, Bool.and_eq_true, beq_iff_eq, beq_iff_eq] at h
    split
    · exact .refl s
    · exact rejoinEnd_orders h.1.2 h.2 _ h.1.1
  next mv =>
    have hread : Calm s { s with supplyMv := mv } := { Calm.refl s with }
    refine ⟨_, rfl, ?_⟩
    split
    next h =>
      rw [Bool.and_eq_true, Bool.and_eq_true, beq_iff_eq] at h
      exact hread.trans_orders (fun h => h) (enterHoldPending_orders h.1.1 h.1.2)
    next => exact hread.orders
  next mv =>
    have hread : Calm s { s with supplyMv := mv } := { Calm.refl s with }
    refine ⟨_, rfl, ?_⟩
    split
    next h =>
      rw [Bool.and_eq_true, Bool.and_eq_true, beq_iff_eq] at h
      exact hread.trans_orders (fun h => h) (leaveHold_orders h.1.1 h.1.2)
    next => exact hread.orders
  · exact coreStop_orders _ _
  · exact start_orders _ _ _ _
  · exact backupCell_orders
  · exact absurd rfl hc

/-! ### The two expiries -/

section Expiries
variable {s : State} {rest : List Instr}

/-- An expiry taken from the queue is served, or was not due. -/
theorem epochExpiry_timerRest (hs : s.timerRest) :
    State.timerRest (if State.expiryDue { s with pending := rest } then expire { s with pending := rest }
      else { s with pending := rest }) := by
  split
  next hdue =>
    simp only [State.expiryDue, Bool.and_eq_true, decide_eq_true_eq] at hdue
    obtain ⟨⟨⟨hrunning, hruns⟩, hnow⟩, hpos⟩ := hdue
    obtain ⟨hdvd, hnext, _⟩ := hs hrunning hruns
    have hserved : State.timerRest
        { s with pending := rest, nextExpiry := s.nextExpiry + s.committed.epoch } := fun _ _ => by
      have hepoch : 0 < s.committed.epoch := Nat.pos_of_dvd_of_pos hdvd hnext
      exact ⟨(Nat.dvd_add_right hdvd).mpr (Nat.dvd_refl _), Nat.lt_of_lt_of_le hnext (Nat.le_add_right _ _),
        .inl (Nat.lt_of_le_of_lt (Nat.le_of_eq hnow) (Nat.lt_add_of_pos_right hepoch))⟩
    exact (expire_deals { s with pending := rest }).toStands.timerRest hserved
  next hdue =>
    intro hrunning hruns
    obtain ⟨hdvd, hnext, hlt | ⟨hnow, _⟩⟩ := hs hrunning hruns
    · exact ⟨hdvd, hnext, .inl hlt⟩
    · have hruns' : s.mode.runsEpochs = true := hruns
      exact absurd (by simp [State.expiryDue, show s.running = true from hrunning, hruns', hnow, hnext]) hdue

theorem epochExpiry_deals (u : State) : ∃ v t, exec .epochExpiry u = .next t ∧ Deals v t ∧
    (v = u ∨ v = { u with nextExpiry := u.nextExpiry + u.committed.epoch }) := by
  by_cases hdue : u.expiryDue = true
  · exact ⟨_, expire u, by simp [exec, execEpochExpiry, hdue], expire_deals u, .inr rfl⟩
  · exact ⟨u, u, by simp [exec, execEpochExpiry, hdue], .refl u, .inl rfl⟩

/-- A window's end taken from the queue ends the window, or was not due. -/
theorem windowExpiry_windowLaw (hs : s.windowLaw) :
    State.windowLaw (if State.windowDue { s with pending := rest } then
        State.withTracker { s with pending := rest } s.domain.tracker.windowEnded
      else { s with pending := rest }) := by
  obtain ⟨hclosed, hgrace, hrejoin⟩ := hs
  split
  next hdue =>
    refine ⟨windowEnded_closedLaw s.domain.tracker, fun w hw => absurd hw (windowEnded_phase _ w),
      fun hrunning hmode => ?_⟩
    simp only [State.windowDue, Bool.and_eq_true] at hdue
    have hruns : s.mode.runsEpochs = true := hdue.1.2
    have hmode' : s.mode = .rejoining := hmode
    rw [hmode'] at hruns
    exact nomatch hruns
  next hdue =>
    refine ⟨hclosed, fun w hw => ⟨(hgrace w hw).1, fun hrunning hruns => .inl ?_⟩, hrejoin⟩
    have hphase : s.domain.tracker.phase = .grace w := hw
    have hrunning' : s.running = true := hrunning
    have hruns' : s.mode.runsEpochs = true := hruns
    simpa [State.windowDue, hphase, hrunning', hruns'] using hdue

theorem windowExpiry_rests (u : State) : ∃ t, exec .windowExpiry u = .next t ∧ Rests u { t with domain := { t.domain with
    tracker := u.domain.tracker } } ∧ t.mode = u.mode := by
  refine ⟨_, rfl, ?_⟩
  split
  · exact ⟨{ Rests.refl u with }, rfl⟩
  · exact ⟨{ Rests.refl u with }, rfl⟩

end Expiries

/-! ### The passing of a second -/

/-- The state one second later, its due events not yet waiting. -/
def secondLater (s : State) : State := { s with domain := { s.domain with clock := s.domain.clock + 1 } }

theorem tick_of_counts {s : State} (h : s.clockCounts = true) :
    tick s = { secondLater s with pending := (tick s).pending, freeCount := (tick s).freeCount } ∧
      ∀ c, c ∈ (tick s).pending ↔ c ∈ dueEvents (secondLater s) := by
  unfold tick
  rw [if_pos h]
  dsimp only
  split
  · exact ⟨rfl, fun _ => .rfl⟩
  · exact ⟨rfl, fun c => mem_arrange _ _ c⟩

theorem tick_of_not_counts {s : State} (h : ¬ s.clockCounts = true) : tick s = s := by
  unfold tick
  rw [if_neg h]

theorem clockCounts_iff (s : State) : s.clockCounts = true ↔
    s.domain.counting = true ∧ (s.running = true ∨ s.cellFell = false) ∧ s.domain.clock < 4294967295 := by
  simp only [State.clockCounts, Bool.and_eq_true, Bool.or_eq_true, decide_eq_true_eq, Bool.not_eq_true', and_assoc]
  exact .rfl

theorem expiryDue_iff (s : State) : s.expiryDue = true ↔
    s.running = true ∧ s.mode.runsEpochs = true ∧ s.domain.clock = s.nextExpiry ∧ 0 < s.domain.clock := by
  simp only [State.expiryDue, Bool.and_eq_true, decide_eq_true_eq, and_assoc]

theorem windowDue_iff (s : State) : s.windowDue = true ↔ s.running = true ∧ s.mode.runsEpochs = true ∧
    ∃ w, s.domain.tracker.phase = .grace w ∧ w + s.committed.grace ≤ s.domain.clock := by
  cases hphase : s.domain.tracker.phase <;> simp [State.windowDue, hphase, and_assoc]

theorem timedOut_iff (clock : Nat) (o : Offer) : o.timedOut clock = true ↔ ∃ d, o.phase = .awaiting d ∧ d ≤ clock := by
  cases hphase : o.phase <;> simp [Offer.timedOut, hphase]

theorem askingOver_iff (s : State) : s.askingOver = true ↔
    s.running = true ∧ s.mode = .rejoining ∧ s.rejoin = .asking ∧ 10 ≤ s.domain.clock := by
  simp only [State.askingOver, State.rejoins, Bool.and_eq_true, beq_iff_eq, decide_eq_true_eq, and_assoc]
  exact .rfl

theorem receivingOver_iff (s : State) : s.receivingOver = true ↔
    s.running = true ∧ s.mode = .rejoining ∧ ∃ d n, s.rejoin = .receiving d n ∧ d ≤ s.domain.clock := by
  cases hphase : s.rejoin <;> simp [State.receivingOver, State.rejoins, hphase, and_assoc]

theorem listeningOver_iff (s : State) : s.listeningOver = true ↔ s.running = true ∧ s.mode = .rejoining ∧
    s.rejoin = .listening ∧ 2 * s.committed.epoch + 10 ≤ s.domain.clock := by
  simp only [State.listeningOver, State.rejoins, Bool.and_eq_true, beq_iff_eq, decide_eq_true_eq, and_assoc]

theorem mem_dueEvents (s : State) (c : Instr) : c ∈ dueEvents s ↔ s.running = true ∧
    ((c = .epochExpiry ∧ s.mode.runsEpochs = true ∧ s.domain.clock = s.nextExpiry ∧ 0 < s.domain.clock) ∨
     (c = .windowExpiry ∧ s.mode.runsEpochs = true ∧
       ∃ w, s.domain.tracker.phase = .grace w ∧ w + s.committed.grace ≤ s.domain.clock) ∨
     (∃ o ∈ s.offers, c = .answerTimeout o.id ∧ ∃ d, o.phase = .awaiting d ∧ d ≤ s.domain.clock) ∨
     (s.mode.runsEpochs = true ∧ ∃ e ∈ s.roster, c = .silenceDeadline e.address ∧
       (e.state = .live ∨ e.state = .unheard) ∧ ∃ d, e.deadline = some d ∧ d ≤ s.domain.clock) ∨
     (c = .askingTimeout ∧ s.mode = .rejoining ∧ s.rejoin = .asking ∧ 10 ≤ s.domain.clock) ∨
     (c = .restoreDeadline ∧ s.mode = .rejoining ∧ ∃ d n, s.rejoin = .receiving d n ∧ d ≤ s.domain.clock) ∨
     (c = .listeningTimeout ∧ s.mode = .rejoining ∧ s.rejoin = .listening ∧
       2 * s.committed.epoch + 10 ≤ s.domain.clock)) := by
  simp only [dueEvents, List.mem_append, List.mem_ite_nil_right, List.mem_map, List.mem_filter, List.mem_singleton,
    expiryDue_iff, windowDue_iff, timedOut_iff, overdue_iff, askingOver_iff, receivingOver_iff, listeningOver_iff,
    Bool.and_eq_true, Option.any_eq_true, decide_eq_true_eq]
  constructor
  · rintro ((((((h | h) | ⟨hrunning, o, ⟨ho, hdue⟩, rfl⟩) | ⟨⟨hrunning, hruns⟩, e, ⟨he, hdue⟩, rfl⟩) | h) | h) | h)
    · exact ⟨h.1.1, .inl ⟨h.2, h.1.2⟩⟩
    · exact ⟨h.1.1, .inr (.inl ⟨h.2, h.1.2⟩)⟩
    · exact ⟨hrunning, .inr (.inr (.inl ⟨o, ho, rfl, hdue⟩))⟩
    · exact ⟨hrunning, .inr (.inr (.inr (.inl ⟨hruns, e, he, rfl, hdue⟩)))⟩
    · exact ⟨h.1.1, .inr (.inr (.inr (.inr (.inl ⟨h.2, h.1.2⟩))))⟩
    · exact ⟨h.1.1, .inr (.inr (.inr (.inr (.inr (.inl ⟨h.2, h.1.2⟩)))))⟩
    · exact ⟨h.1.1, .inr (.inr (.inr (.inr (.inr (.inr ⟨h.2, h.1.2⟩)))))⟩
  · rintro ⟨hrunning, ⟨hc, h⟩ | ⟨hc, h⟩ | ⟨o, ho, hc, h⟩ | ⟨hruns, e, he, hc, h⟩ | ⟨hc, h⟩ | ⟨hc, h⟩ | ⟨hc, h⟩⟩
    · exact .inl (.inl (.inl (.inl (.inl (.inl ⟨⟨hrunning, h⟩, hc⟩)))))
    · exact .inl (.inl (.inl (.inl (.inl (.inr ⟨⟨hrunning, h⟩, hc⟩)))))
    · exact .inl (.inl (.inl (.inl (.inr ⟨hrunning, o, ⟨ho, h⟩, hc.symm⟩))))
    · exact .inl (.inl (.inl (.inr ⟨⟨hrunning, hruns⟩, e, ⟨he, h⟩, hc.symm⟩)))
    · exact .inl (.inl (.inr ⟨⟨hrunning, h⟩, hc⟩))
    · exact .inl (.inr ⟨⟨hrunning, h⟩, hc⟩)
    · exact .inr ⟨⟨hrunning, h⟩, hc⟩

/-- Settles O3: the due events of the second after, in whatever order. -/
theorem idleStepIsOneSecond : Obligations.IdleStepIsOneSecond := fun s hidle => by
  refine ⟨tick s, by simp [step, hidle], fun hcounts => ?_, fun hcounts => ?_⟩
  · obtain ⟨hframe, hmem⟩ := tick_of_counts ((clockCounts_iff s).mpr hcounts)
    refine ⟨hframe, fun c => ?_⟩
    rw [hmem, mem_dueEvents]
    have hpos : 0 < (secondLater s).domain.clock := Nat.succ_pos _
    simp only [hpos, and_true]
    exact .rfl
  · exact tick_of_not_counts fun h => hcounts ((clockCounts_iff s).mp h)

theorem tick_timerRest {s : State} (hidle : s.pending = []) (hs : s.timerRest) : (tick s).timerRest := by
  by_cases hcounts : s.clockCounts = true
  · obtain ⟨hframe, hmem⟩ := tick_of_counts hcounts
    rw [hframe]
    intro hrunning hruns
    obtain ⟨hdvd, hnext, hlt | ⟨_, hwaits⟩⟩ := hs hrunning hruns
    · refine ⟨hdvd, hnext, (Nat.lt_or_eq_of_le hlt).imp_right fun hnow => ⟨hnow, ?_⟩⟩
      exact (hmem _).mpr ((mem_dueEvents _ _).mpr ⟨hrunning, .inl ⟨rfl, hruns, hnow, Nat.succ_pos _⟩⟩)
    · rw [hidle] at hwaits
      exact nomatch hwaits
  · rw [tick_of_not_counts hcounts]
    exact hs

theorem tick_windowLaw {s : State} (hidle : s.pending = []) (hs : s.windowLaw) : (tick s).windowLaw := by
  by_cases hcounts : s.clockCounts = true
  · obtain ⟨hframe, hmem⟩ := tick_of_counts hcounts
    rw [hframe]
    obtain ⟨hclosed, hgrace, hrejoin⟩ := hs
    refine ⟨hclosed, fun w hw => ?_, hrejoin⟩
    obtain ⟨hstart, hend⟩ := hgrace w hw
    refine ⟨Nat.le_succ_of_le hstart, fun hrunning hruns => ?_⟩
    obtain hlt | hwaits := hend hrunning hruns
    · refine (Nat.lt_or_ge _ _).imp_right fun hdue => ?_
      exact (hmem _).mpr ((mem_dueEvents _ _).mpr ⟨hrunning, .inr (.inl ⟨rfl, hruns, w, hw, hdue⟩)⟩)
    · rw [hidle] at hwaits
      exact nomatch hwaits
  · rw [tick_of_not_counts hcounts]
    exact hs

theorem tick_operationLaw {s : State} (hs : s.operationLaw) : (tick s).operationLaw := by
  by_cases hcounts : s.clockCounts = true
  · obtain ⟨hframe, _⟩ := tick_of_counts hcounts
    have hmax : s.domain.clock < 4294967295 := ((clockCounts_iff s).mp hcounts).2.2
    rw [hframe]
    obtain ⟨hcustody, hoffers, ⟨_, hle⟩, hplace, hstore, hwrites⟩ := hs
    exact ⟨hcustody, hoffers, ⟨hmax, fun h hh => Nat.le_succ_of_le (hle h hh)⟩, hplace, hstore, hwrites⟩
  · rw [tick_of_not_counts hcounts]
    exact hs

/-! ### A step -/

/-- A step with commands waiting runs the first of them. -/
theorem step_cases {s t : State} (h : step s = .next t) : (s.pending = [] ∧ t = tick s) ∨
    ∃ c rest, s.pending = c :: rest ∧ exec c { s with pending := rest } = .next t := by
  unfold step at h
  split at h
  next hidle => exact .inl ⟨hidle, (Host.Outcome.next.inj h).symm⟩
  next c rest hpending => exact .inr ⟨c, rest, hpending, h⟩

theorem exec_eq_next {c : Instr} {s t u : State} (h : exec c s = .next t) (k : exec c s = .next u) : t = u :=
  Host.Outcome.next.inj (h.symm.trans k)

/-- Settles O12: the expiry is served when it is taken, and waits from the second it falls due. -/
theorem stepKeepsTimerLaw : Obligations.StepKeepsTimerLaw := fun s t ⟨hsetup, htimer⟩ h => by
  refine ⟨(step_admits h).setup hsetup, ?_⟩
  obtain ⟨hidle, rfl⟩ | ⟨c, rest, hpending, hexec⟩ := step_cases h
  · exact tick_timerRest hidle htimer
  · by_cases hepoch : c = .epochExpiry
    · subst hepoch
      obtain rfl := exec_eq_next hexec rfl
      exact epochExpiry_timerRest htimer
    · have hrest : State.timerRest { s with pending := rest } := fun hrunning hruns => by
        obtain ⟨hdvd, hnext, hwhen⟩ := htimer hrunning hruns
        refine ⟨hdvd, hnext, hwhen.imp_right fun ⟨hnow, hwaits⟩ => ⟨hnow, ?_⟩⟩
        rw [hpending] at hwaits
        exact (List.mem_cons.mp hwaits).resolve_left (Ne.symm hepoch)
      by_cases hwindow : c = .windowExpiry
      · subst hwindow
        obtain ⟨u, hu, hrests, hmode⟩ := windowExpiry_rests { s with pending := rest }
        obtain rfl := exec_eq_next hexec hu
        exact hrests.timerRest (fun hruns => hmode ▸ hruns) hrest
      · obtain ⟨u, hu, horders⟩ := exec_orders c { s with pending := rest } hepoch hwindow
        obtain rfl := exec_eq_next hexec hu
        exact horders.timer hsetup hrest

/-- Settles O11: the window ends when its expiry is taken, and the expiry waits from the second it falls due. -/
theorem stepKeepsWindowLaw : Obligations.StepKeepsWindowLaw := fun s t hs h => by
  obtain ⟨hidle, rfl⟩ | ⟨c, rest, hpending, hexec⟩ := step_cases h
  · exact tick_windowLaw hidle hs
  · by_cases hwindow : c = .windowExpiry
    · subst hwindow
      obtain rfl := exec_eq_next hexec rfl
      exact windowExpiry_windowLaw hs
    · have hrest : State.windowLaw { s with pending := rest } := by
        obtain ⟨hclosed, hgrace, hrejoin⟩ := hs
        refine ⟨hclosed, fun w hw => ⟨(hgrace w hw).1, fun hrunning hruns => ?_⟩, hrejoin⟩
        refine ((hgrace w hw).2 hrunning hruns).imp_right fun hwaits => ?_
        rw [hpending] at hwaits
        exact (List.mem_cons.mp hwaits).resolve_left (Ne.symm hwindow)
      by_cases hepoch : c = .epochExpiry
      · subst hepoch
        obtain ⟨v, u, hu, hdeals, rfl | rfl⟩ := epochExpiry_deals { s with pending := rest }
        · obtain rfl := exec_eq_next hexec hu
          exact hdeals.window hrest
        · obtain rfl := exec_eq_next hexec hu
          exact hdeals.window hrest
      · obtain ⟨u, hu, horders⟩ := exec_orders c { s with pending := rest } hepoch hwindow
        obtain rfl := exec_eq_next hexec hu
        exact horders.window hrest

/-- Settles O13: what each command does with records, offers, the mode and a Setup Store write. -/
theorem stepKeepsOperationLaw : Obligations.StepKeepsOperationLaw := fun s t hs h => by
  have hcustody := (step_admits h).custody hs.1
  obtain ⟨hidle, rfl⟩ | ⟨c, rest, hpending, hexec⟩ := step_cases h
  · exact tick_operationLaw hs
  · have hrest : State.operationLaw { s with pending := rest } := hs
    by_cases hepoch : c = .epochExpiry
    · subst hepoch
      obtain ⟨v, u, hu, hdeals, rfl | rfl⟩ := epochExpiry_deals { s with pending := rest }
      · obtain rfl := exec_eq_next hexec hu
        exact hdeals.operationLaw hrest hcustody
      · obtain rfl := exec_eq_next hexec hu
        exact hdeals.operationLaw hrest hcustody
    by_cases hwindow : c = .windowExpiry
    · subst hwindow
      obtain rfl := exec_eq_next hexec rfl
      split
      · exact hrest
      · exact hrest
    · obtain ⟨u, hu, horders⟩ := exec_orders c { s with pending := rest } hepoch hwindow
      obtain rfl := exec_eq_next hexec hu
      exact horders.operation hrest hcustody

/-! ### The trip clock (R40) -/

section Clock
variable (s : State)

theorem rejoinActive_clock : (rejoinActive s).domain.clock = s.domain.clock :=
  (becomeActive_rests (startBlocks { s with domain := { s.domain with tripId := s.store.tripId } })).clock

theorem lineErrorMet_clock : (lineErrorMet s).domain.clock = s.domain.clock := by
  unfold lineErrorMet
  split
  · rfl
  · dsimp only
    split
    · split
      · exact (enterHold_rests _).clock
      · rfl
    · exact (resolve_deals _ _ _).clock

theorem outcomeFor_clock {mine : Origin → Bool} {acked : Bool} {handle : State → Origin → SendOutcome → State}
    (hhandle : ∀ u o oc, (handle u o oc).domain.clock = u.domain.clock) :
    (outcomeFor s mine acked handle).domain.clock = s.domain.clock := by
  unfold outcomeFor
  split
  · split
    · rfl
    · split
      · exact hhandle _ _ _
      · rfl
  · rfl

theorem taking_clock {k : Kind} {deal : RxTelegram → State → State}
    (hdeal : ∀ m u, u.mode = s.mode → (deal m u).domain.clock = u.domain.clock) :
    (taking k s deal).domain.clock = s.domain.clock := by
  obtain h | ⟨m, rest, _, h⟩ := taking_cases s k deal
  · rw [h]
  · rw [h, hdeal m (s.withRx rest) rfl]
    rfl

theorem clock_if {t : State} {p : Prop} [Decidable p] (h : p → t.domain.clock = s.domain.clock) :
    (if p then t else s).domain.clock = s.domain.clock := by
  split
  next hp => exact h hp
  next => rfl

variable (t : RxTelegram)

theorem takeTripStart_clock : (takeTripStart t s).domain.clock = s.domain.clock := by
  unfold takeTripStart
  dsimp only
  repeat' split
  iterate 6 exact (answer_calm ..).clock
  rfl

theorem takeTripEnd_clock : (takeTripEnd t s).domain.clock = s.domain.clock := by
  unfold takeTripEnd
  repeat' split
  iterate 3 exact (answer_calm ..).clock
  rfl

theorem takeBeacon_clock (hmode : s.mode ≠ .rejoining) : (takeBeacon t s).domain.clock = s.domain.clock := by
  unfold takeBeacon
  split
  · rfl
  · split
    · rfl
    · split
      · exact (useBeacon_deals s hmode _ _).clock
      · rfl

theorem takeRestoreBegin_clock (hmode : s.mode ≠ .rejoining) : (takeRestoreBegin t s).domain.clock = s.domain.clock := by
  unfold takeRestoreBegin
  dsimp only
  rw [if_neg fun h => hmode h.2.1]

theorem takeRestoreEnd_clock : (takeRestoreEnd t s).domain.clock = s.domain.clock := by
  unfold takeRestoreEnd
  split
  · split
    · rw [rejoinActive_clock]
      split
      · rfl
      · rfl
    · rfl
  · rfl

theorem tripStartEnds_clock (completed : Bool) : (tripStartEnds completed s).domain.clock = s.domain.clock ∨
    (completed = true ∧ (tripStartEnds completed s).domain.clock = 0) := by
  unfold tripStartEnds
  split
  · exact .inl rfl
  next w _ =>
    split
    · split
      next hcompleted =>
        refine .inr ⟨hcompleted, ?_⟩
        exact (sendPlain_sends ..).calm.clock.trans (becomeActive_rests (startBlocks (tripStarted s w))).clock
      next => exact .inl (sendPlain_sends ..).calm.clock
    · exact .inl rfl

theorem tripEndEnds_clock (completed : Bool) : (tripEndEnds completed s).domain.clock = s.domain.clock := by
  unfold tripEndEnds
  split
  · rfl
  next w _ =>
    split
    · dsimp only
      split
      · exact (sendPlain_sends ..).calm.clock
      · exact (sendPlain_sends ..).calm.clock.trans (becomeActive_rests { s with storeWrite := none }).clock
    · rfl

/-- A start leaves the clock, or clears it with the domain. -/
theorem proceed_clock (cold storeGood : Bool) : (proceed s cold storeGood).domain.clock = s.domain.clock ∨
    ((proceed s cold storeGood).domain.clock = 0 ∧ (proceed s cold storeGood).domain.custody = []) := by
  have hrejoins (u : State) : (enterRejoining (clearDomain u)).domain.clock = 0 ∧
      (enterRejoining (clearDomain u)).domain.custody = [] := by
    obtain ⟨_, _, hcalm⟩ := enterRejoining_calm (clearDomain u)
    exact ⟨hcalm.clock, hcalm.custody⟩
  unfold proceed
  split
  · exact .inr ⟨rfl, rfl⟩
  · split
    · split
      · exact .inr (hrejoins _)
      · exact .inr ⟨rfl, rfl⟩
    · split
      · split
        · exact .inl (becomeActive_rests (startBlocks (settledState (raiseRestartCount s)))).clock
        · exact .inr (hrejoins _)
      · exact .inl rfl

end Clock

/-- The commands that may set the trip clock back (R40). -/
def mayTurnBack : Instr → Bool
  | .tripStartWriteEnd _ | .restoreBegin | .beacon | .backupCellBelowRetention | .coreStop _ _ | .start _ _ _ _ => true
  | _ => false

theorem exec_clock (c : Instr) (s : State) (hc : mayTurnBack c = false) :
    ∃ t, exec c s = .next t ∧ t.domain.clock = s.domain.clock := by
  by_cases horder : changesOrder c = false
  · obtain ⟨t, hexec, hdeals⟩ := exec_deals c s horder
    exact ⟨t, hexec, hdeals.clock⟩
  unfold changesOrder at horder
  split at horder
  · exact ⟨_, rfl, taking_clock s fun m u _ => takeTripStart_clock u m⟩
  · exact ⟨_, rfl, taking_clock s fun m u _ => takeTripEnd_clock u m⟩
  · exact nomatch hc
  · exact nomatch hc
  · exact ⟨_, rfl, taking_clock s fun m u _ => takeRestoreEnd_clock u m⟩
  · exact ⟨_, rfl, clock_if s fun _ => lineErrorMet_clock s⟩
  · refine ⟨_, rfl, outcomeFor_clock s fun u _ _ => clock_if u fun _ => (enterHold_rests u).clock⟩
  · exact ⟨_, rfl, clock_if s fun _ => (expire_deals s).clock⟩
  · exact ⟨_, rfl, clock_if s fun _ => rfl⟩
  · exact ⟨_, rfl, clock_if s fun _ => rejoinActive_clock _⟩
  · exact ⟨_, rfl, clock_if s fun _ => rfl⟩
  · exact ⟨_, rfl, clock_if s fun _ => (enterHold_rests s).clock⟩
  · exact nomatch hc
  · exact ⟨_, rfl, clock_if s fun _ => tripEndEnds_clock s _⟩
  · refine ⟨_, rfl, clock_if s fun _ => ?_⟩
    split
    · rfl
    · rfl
  next mv =>
    refine ⟨_, rfl, ?_⟩
    split
    · exact (enterHoldPending_rests { s with supplyMv := mv }).clock
    · rfl
  next mv =>
    refine ⟨_, rfl, ?_⟩
    split
    · exact (leaveHold_rests { s with supplyMv := mv }).clock
    · rfl
  · exact nomatch hc
  · exact nomatch hc
  · exact nomatch hc
  · exact absurd rfl horder

/-- Settles O15: every other command leaves the clock; of these, what each that sets it back writes. -/
theorem clockRunsBackOnlyWhereWritten : Obligations.ClockRunsBackOnlyWhereWritten := fun c s t hexec hback => by
  by_cases hc : mayTurnBack c = false
  · obtain ⟨u, hu, hclock⟩ := exec_clock c s hc
    obtain rfl := exec_eq_next hexec hu
    exact absurd hback (Nat.not_lt.mpr hclock.ge)
  unfold mayTurnBack at hc
  split at hc
  next completed =>
    obtain rfl := exec_eq_next hexec rfl
    split at hback
    next h =>
      rw [Bool.and_eq_true, beq_iff_eq] at h
      obtain hsame | ⟨rfl, hzero⟩ := tripStartEnds_clock s completed
      · exact absurd hback (Nat.not_lt.mpr hsame.ge)
      · refine .inl ⟨rfl, h.2, ?_⟩
        rwa [if_pos (by rw [h.1, h.2]; rfl)]
    next => exact absurd hback (Nat.lt_irrefl _)
  · obtain rfl := exec_eq_next hexec rfl
    refine .inr (.inl ⟨.inl rfl, Classical.not_not.mp fun hmode => ?_⟩)
    have := taking_clock s (k := .restoreBegin) fun m u hu => takeRestoreBegin_clock u m (hu ▸ hmode)
    exact absurd hback (Nat.not_lt.mpr this.ge)
  · obtain rfl := exec_eq_next hexec rfl
    refine .inr (.inl ⟨.inr rfl, Classical.not_not.mp fun hmode => ?_⟩)
    have := taking_clock s (k := .beacon) fun m u hu => takeBeacon_clock u m (hu ▸ hmode)
    exact absurd hback (Nat.not_lt.mpr this.ge)
  · obtain rfl := exec_eq_next hexec rfl
    refine .inr (.inr ⟨.inl rfl, ?_⟩)
    split at hback
    · exact absurd hback (Nat.lt_irrefl _)
    next hstopped =>
      rw [if_neg hstopped]
      exact ⟨rfl, rfl⟩
  next cause landed =>
    obtain rfl := exec_eq_next hexec rfl
    refine .inr (.inr ⟨.inr (.inl ⟨_, _, rfl⟩), ?_⟩)
    have hsame := (writeStops_frame { s with running := false, stopCause := cause } landed).2.2.2.1
    split at hback
    next hrunning =>
      rw [if_pos hrunning]
      dsimp only at hback ⊢
      split at hback
      next hfell =>
        rw [if_pos hfell]
        exact ⟨rfl, rfl⟩
      next => exact absurd hback (Nat.not_lt.mpr hsame.ge)
    next => exact absurd hback (Nat.lt_irrefl _)
  next straps domainGood storeGood mv =>
    obtain rfl := exec_eq_next hexec rfl
    refine .inr (.inr ⟨.inr (.inr ⟨_, _, _, _, rfl⟩), ?_⟩)
    split at hback
    · exact absurd hback (Nat.lt_irrefl _)
    next hstopped =>
      split at hback
      · exact absurd hback (Nat.lt_irrefl _)
      next hstraps =>
        rw [if_neg hstopped, if_neg hstraps]
        obtain hsame | hcleared := proceed_clock
          { restartVolatile { s with supplyMv := mv, address := straps.toNat }
              (if storeGood && s.store.checkGood then s.store.setup else Setup.default) with
            resetCause := startCause s domainGood } (s.cellFell || !domainGood) (storeGood && s.store.checkGood)
        · exact absurd hback (Nat.not_lt.mpr hsame.ge)
        · exact hcleared
  · exact absurd rfl hc

end Sys2Proof.Machine
end

