-- ==== Sys2Proof/Proofs/Layouts.lean ====
section
/-!
PROOFS. The layouts of records and BEACONs (TABLE 7-7 to TABLE 7-9): their lengths, and that every field is read back.
-/
namespace Sys2Proof.Machine

/-! ### Fields -/

/-- What comes before a payload's part only shifts its fields. -/
theorem field_shift (pre q : List Byte) (k n : Nat) : field (pre ++ q) (pre.length + k) n = field q k n := by
  rw [field_append _ _ _ _ (Nat.le_add_right _ _), Nat.add_sub_cancel_left]

theorem field_shift_zero (pre q : List Byte) (n : Nat) : field (pre ++ q) pre.length n = field q 0 n :=
  field_shift pre q 0 n

theorem tempBytes_length (t : Int) : (tempBytes t).length = 2 := beBytes_length 2 _

theorem optTempBytes_length (t : Option Temperature) : (optTempBytes t).length = 2 := beBytes_length 2 _

theorem tempOf_field {t : Int} (h : tempFits t) : tempOf ((t % 65536).toNat % 256 ^ 2) = t := tempOf_bytes t h.1 h.2

/-- An optional field is read back by its presence mark. -/
theorem present_getD {α : Type} (x : Option α) (d : α) : present x.isSome (x.getD d) = x := by
  cases x <;> rfl

/-- An optional temperature is read back by its presence mark. -/
theorem present_temp {x : Option Temperature} (h : ∀ t ∈ x, tempFits t) :
    present x.isSome (tempOf (((x.getD 0) % 65536).toNat % 256 ^ 2)) = x := by
  cases x with
  | none => rfl
  | some t => exact congrArg some (tempOf_field (h t rfl))

theorem tempFits_of_range {t : Int} (hlow : -500 ≤ t) (hhigh : t ≤ 700) : tempFits t := by
  exact ⟨Int.le_trans (by decide) hlow, Int.le_trans hhigh (by decide)⟩

/-- The two temperatures of peaks or of a summary are read back by their presence mark. -/
theorem present_temps {x : Option Temps} (h : ∀ t ∈ x, tempFits t.warm ∧ tempFits t.cold) :
    present x.isSome (⟨tempOf ((((x.map (·.warm)).getD 0) % 65536).toNat % 256 ^ 2),
      tempOf ((((x.map (·.cold)).getD 0) % 65536).toNat % 256 ^ 2)⟩ : Temps) = x := by
  cases x with
  | none => rfl
  | some t =>
    obtain ⟨hwarm, hcold⟩ := h t rfl
    exact congrArg some (congrArg₂ Temps.mk (tempOf_field hwarm) (tempOf_field hcold))

/-- A number that its bytes can carry is not cut. -/
theorem word_fits (n : Nat) {v : Nat} (h : v ≤ 256 ^ n - 1) : v % 256 ^ n = v :=
  Nat.mod_eq_of_lt (Nat.lt_of_le_pred (Nat.pow_pos (by decide)) h)

/-- A cold limit is read back by its presence mark. -/
theorem present_cold {x : Option ColdLimit} (h : ∀ c ∈ x, tempFits c.tmin ∧ c.budget ≤ 4294967295) :
    present x.isSome (⟨tempOf ((((x.map (·.tmin)).getD 0) % 65536).toNat % 256 ^ 2),
      (x.map (·.budget)).getD 0 % 256 ^ 4⟩ : ColdLimit) = x := by
  cases x with
  | none => rfl
  | some c =>
    obtain ⟨htmin, hbudget⟩ := h c rfl
    exact congrArg some (congrArg₂ ColdLimit.mk (tempOf_field htmin) (word_fits 4 hbudget))

/-! ### Legs -/

theorem legBytes_length (l : Leg) : (legBytes l).length = 11 := by simp [legBytes]

theorem legMarks_bits (a b : Bool) : (bit a 2 + bit b 1) % 256 ^ 1 = bit a 2 + bit b 1 ∧
    (bit a 2 + bit b 1).testBit 1 = a ∧ (bit a 2 + bit b 1).testBit 0 = b := by
  revert a b
  decide

theorem exit_getD_lt {l : Leg} (h : ∀ x ∈ l.exit, x ≤ 4294967295) : l.exit.getD 0 < 256 ^ 4 := by
  cases hexit : l.exit with
  | none => decide
  | some x => exact Nat.lt_succ_of_le (h x hexit)

/-- A leg is read back from its 11 bytes. -/
theorem legAt_legBytes {l : Leg} (hl : legFits l) (post : List Byte) : legAt (legBytes l ++ post) 0 = l := by
  obtain ⟨hcompartment, hstation, hentry, hexit⟩ := hl
  obtain ⟨hmarks, hhas, hrestored⟩ := legMarks_bits l.exit.isSome l.restored
  have hentry' : l.entry % 256 ^ 4 = l.entry := Nat.mod_eq_of_lt (Nat.lt_succ_of_le hentry)
  have hexit' : l.exit.getD 0 % 256 ^ 4 = l.exit.getD 0 := Nat.mod_eq_of_lt (exit_getD_lt hexit)
  have hcompartment' : l.compartment % 256 ^ 1 = l.compartment := Nat.mod_eq_of_lt (Nat.lt_succ_of_le hcompartment)
  have hstation' : l.station % 256 ^ 1 = l.station := Nat.mod_eq_of_lt (Nat.lt_succ_of_le hstation)
  simp only [legAt, legBytes, List.append_assoc, Nat.zero_add, field_here, field_skip, Nat.reduceSub, Nat.reduceLeDiff,
    hcompartment', hstation', hentry', hexit', hmarks, hhas, hrestored, present_getD]

theorem legAt_shift (pre q : List Byte) (k : Nat) : legAt (pre ++ q) (pre.length + k) = legAt q k := by
  simp only [legAt, Nat.add_assoc, field_shift]

/-- Legs one after another are read back in their order. -/
theorem legs_read {ls : List Leg} (hls : ∀ l ∈ ls, legFits l) (post : List Byte) :
    (List.range ls.length).map (fun i => legAt (ls.flatMap legBytes ++ post) (11 * i)) = ls := by
  induction ls with
  | nil => rfl
  | cons l ls ih =>
    have hshift : ∀ i, legAt (legBytes l ++ (ls.flatMap legBytes ++ post)) (11 * (i + 1)) =
        legAt (ls.flatMap legBytes ++ post) (11 * i) := fun i => by
      rw [Nat.mul_succ, Nat.add_comm, ← legBytes_length l, legAt_shift]
    simp only [List.length_cons, List.range_succ_eq_map, List.map_cons, List.map_map, List.flatMap_cons,
      List.append_assoc, Nat.mul_zero]
    rw [legAt_legBytes (hls l (by simp))]
    exact congrArg (l :: ·) ((List.map_congr_left fun i _ => hshift i).trans (ih fun x hx => hls x (by simp [hx])))

theorem legs_length (ls : List Leg) : (ls.flatMap legBytes).length = 11 * ls.length := by
  simp [List.length_flatMap, legBytes_length, Nat.mul_comm]

/-! ### Records -/

/-- The seven marks of a record, of eight bits, are read back. -/
theorem recordMarks_bits (a b c d e f g : Bool) :
    (bit a 128 + bit b 64 + bit c 32 + bit d 16 + bit e 8 + bit f 4 + bit g 2) % 256 ^ 1 =
      bit a 128 + bit b 64 + bit c 32 + bit d 16 + bit e 8 + bit f 4 + bit g 2 ∧
    (bit a 128 + bit b 64 + bit c 32 + bit d 16 + bit e 8 + bit f 4 + bit g 2).testBit 7 = a ∧
    (bit a 128 + bit b 64 + bit c 32 + bit d 16 + bit e 8 + bit f 4 + bit g 2).testBit 6 = b ∧
    (bit a 128 + bit b 64 + bit c 32 + bit d 16 + bit e 8 + bit f 4 + bit g 2).testBit 5 = c ∧
    (bit a 128 + bit b 64 + bit c 32 + bit d 16 + bit e 8 + bit f 4 + bit g 2).testBit 4 = d ∧
    (bit a 128 + bit b 64 + bit c 32 + bit d 16 + bit e 8 + bit f 4 + bit g 2).testBit 3 = e ∧
    (bit a 128 + bit b 64 + bit c 32 + bit d 16 + bit e 8 + bit f 4 + bit g 2).testBit 2 = f ∧
    (bit a 128 + bit b 64 + bit c 32 + bit d 16 + bit e 8 + bit f 4 + bit g 2).testBit 1 = g := by
  revert a b c d e f g
  decide

theorem breachCause_code_le (c : BreachCause) : c.code ≤ 3 := by
  cases c <;> decide

theorem causeCode_le (v : Verdict) : v.causeCode ≤ 3 := by
  cases v with
  | breached c x => exact breachCause_code_le c
  | _ => exact Nat.zero_le _

theorem verdict_rank_le (v : Verdict) : v.rank ≤ 3 := by
  cases v with
  | breached c x => exact Nat.le_refl 3
  | _ => decide

/-- A verdict is read back from its code, its cause and its time. -/
theorem verdictOf_codes (v : Verdict) : verdictOf v.rank v.causeCode v.time = v := by
  cases v with
  | breached c x => cases c <;> rfl
  | _ => rfl

theorem verdict_time_lt {v : Verdict} (h : ∀ c x, v = .breached c x → x ≤ 4294967295) : v.time < 256 ^ 4 := by
  cases v with
  | breached c x => exact Nat.lt_succ_of_le (h c x rfl)
  | _ => exact Nat.lt_of_sub_eq_succ rfl

/-- Class, verdict and cause share a byte. -/
theorem sharedByte {cls rank cause : Nat} (hcls : cls ≤ 7) (hrank : rank ≤ 3) (hcause : cause ≤ 3) :
    (cls * 32 + rank * 8 + cause * 2) % 256 ^ 1 / 32 = cls ∧
    (cls * 32 + rank * 8 + cause * 2) % 256 ^ 1 / 8 % 4 = rank ∧
    (cls * 32 + rank * 8 + cause * 2) % 256 ^ 1 / 2 % 4 = cause := by
  omega

theorem recordAt_shift (pre q : List Byte) : recordAt (pre ++ q) pre.length = recordAt q 0 := by
  have hlegs : ∀ i, legAt (pre ++ q) (pre.length + 60 + 11 * i) = legAt q (60 + 11 * i) := fun i => by
    rw [Nat.add_assoc, legAt_shift]
  simp only [recordAt, tempField, field_shift, field_shift_zero, hlegs, Nat.zero_add]

/-- The 60 bytes of a record before its legs. -/
def recordHead (r : Record) : List Byte :=
  beBytes 6 r.id ++
  beBytes 1 (r.classIndex * 32 + r.verdict.rank * 8 + r.verdict.causeCode * 2) ++
  beBytes 1 (recordMarks r) ++ beBytes 4 r.loadedTime ++ tempBytes r.limits.tmax ++
  optTempBytes r.limits.ceiling ++ optTempBytes (r.limits.cold.map (·.tmin)) ++ optTempBytes r.limits.floor ++
  beBytes 4 r.limits.warmBudget ++ beBytes 4 ((r.limits.cold.map (·.budget)).getD 0) ++
  beBytes 4 r.limits.gapAllowance ++
  beBytes 4 r.warm ++ beBytes 4 r.cold ++ beBytes 4 r.door ++ beBytes 4 r.gap ++
  optTempBytes (r.peaks.map (·.warm)) ++ optTempBytes (r.peaks.map (·.cold)) ++ beBytes 4 r.verdict.time ++
  beBytes 2 r.openings ++ beBytes 1 r.elided ++ beBytes 1 r.legs.length

theorem recordBytes_eq (r : Record) : recordBytes r =
    recordHead r ++ (r.legs.flatMap legBytes ++ List.replicate (66 - 11 * r.legs.length) 0) := by
  unfold recordBytes recordHead
  simp only [List.append_assoc]

theorem recordHead_length (r : Record) : (recordHead r).length = 60 := by
  unfold recordHead
  simp only [List.length_append, beBytes_length, tempBytes_length, optTempBytes_length]

theorem recordBytes_length {r : Record} (h : r.legs.length ≤ 6) : (recordBytes r).length = 126 := by
  rw [recordBytes_eq, List.length_append, List.length_append, recordHead_length, legs_length, List.length_replicate]
  omega

section Read
variable {r : Record} (post : List Byte)

/-- A field of the head stands at its place in the record. -/
theorem field_record (k n : Nat) (h : k + n ≤ 60) :
    field (recordBytes r ++ post) k n = field (recordHead r) k n := by
  rw [recordBytes_eq, List.append_assoc, field_append_left _ _ _ _ (by rw [recordHead_length]; exact h)]

theorem recordAt_recordBytes (hr : recordFits r) : recordAt (recordBytes r ++ post) 0 = r := by
  obtain ⟨hid, hclass, hloaded, htmax, hceiling, hfloor, hcold, hwarmBudget, hgapAllowance, hwarm, hcoldAccount, hdoor,
    hgap, hpeaks, hverdict, hopenings, helided, hlen, hlegs⟩ := hr
  have hread : (List.range r.legs.length).map (fun i => legAt (recordBytes r ++ post) (60 + 11 * i)) = r.legs := by
    have := legs_read hlegs (List.replicate (66 - 11 * r.legs.length) 0 ++ post)
    refine (List.map_congr_left fun i _ => ?_).trans this
    rw [recordBytes_eq, List.append_assoc, List.append_assoc, ← recordHead_length r, legAt_shift]
  simp only [recordAt, tempField, Nat.zero_add]
  rw [field_record post 0 6 (by decide), field_record post 6 1 (by decide), field_record post 7 1 (by decide),
    field_record post 8 4 (by decide), field_record post 12 2 (by decide), field_record post 14 2 (by decide),
    field_record post 16 2 (by decide), field_record post 18 2 (by decide), field_record post 20 4 (by decide),
    field_record post 24 4 (by decide), field_record post 28 4 (by decide), field_record post 32 4 (by decide),
    field_record post 36 4 (by decide), field_record post 40 4 (by decide), field_record post 44 4 (by decide),
    field_record post 48 2 (by decide), field_record post 50 2 (by decide), field_record post 52 4 (by decide),
    field_record post 56 2 (by decide), field_record post 58 1 (by decide), field_record post 59 1 (by decide)]
  unfold recordHead tempBytes optTempBytes tempBytes
  simp only [List.append_assoc, field_here, field_skip, field_only, Nat.reduceSub, Nat.reduceLeDiff]
  obtain ⟨hmarks, hcarried, hrestored, hunmirrored, hhasCeiling, hhasCold, hhasFloor, hhasPeaks⟩ :=
    recordMarks_bits r.carriedIn r.restored r.unmirrored r.limits.ceiling.isSome r.limits.cold.isSome
      r.limits.floor.isSome r.peaks.isSome
  obtain ⟨hcls, hrank, hcause⟩ := sharedByte hclass (verdict_rank_le r.verdict) (causeCode_le r.verdict)
  have hlen' : r.legs.length % 256 ^ 1 = r.legs.length := word_fits 1 (hlen.trans (by decide))
  simp only [recordMarks, hmarks, hcarried, hrestored, hunmirrored, hhasCeiling, hhasCold, hhasFloor, hhasPeaks, hcls,
    hrank, hcause, hlen', hread, word_fits 6 (Nat.le_of_lt_succ hid), word_fits 4 hloaded, word_fits 4 hwarmBudget,
    word_fits 4 hgapAllowance, word_fits 4 hwarm, word_fits 4 hcoldAccount, word_fits 4 hdoor, word_fits 4 hgap,
    word_fits 4 (Nat.le_of_lt_succ (verdict_time_lt hverdict)), word_fits 2 hopenings, word_fits 1 helided,
    tempOf_field htmax, present_temp hceiling, present_temp hfloor, present_cold hcold, present_temps hpeaks,
    verdictOf_codes]
end Read

/-- Settles O16: the bytes before the record only shift its fields, and each field stands at its place in the head. -/
theorem recordSurvivesItsLayout : Obligations.RecordSurvivesItsLayout := by
  intro r pre post hr
  have hlegs : r.legs.length ≤ 6 := by
    obtain ⟨-, -, -, -, -, -, -, -, -, -, -, -, -, -, -, -, -, hlen, -⟩ := hr
    exact hlen
  refine ⟨recordBytes_length hlegs, ?_⟩
  rw [List.append_assoc, recordAt_shift, recordAt_recordBytes post hr]

/-! ### BEACONs -/

theorem doorReportBytes_length (d : DoorReport) : (doorReportBytes d).length = 4 := by
  simp [doorReportBytes]

theorem doorState_code_le (x : DoorState) : x.code ≤ 1 := by
  cases x <;> decide

/-- A door report is read back from its four bytes. -/
theorem doorReportAt_bytes {d : DoorReport} (hdoor : d.door ≤ 255) (hcount : d.count ≤ 65535) (post : List Byte) :
    doorReportAt (doorReportBytes d ++ post) 0 = some d := by
  obtain ⟨door, state, count⟩ := d
  have hread : field (doorReportBytes ⟨door, state, count⟩ ++ post) 1 1 = state.code := by
    simp only [doorReportBytes, List.append_assoc, field_skip, field_here, Nat.reduceSub, Nat.reduceLeDiff,
      word_fits 1 ((doorState_code_le state).trans (by decide))]
  have hfields : field (doorReportBytes ⟨door, state, count⟩ ++ post) 0 1 = door ∧
      field (doorReportBytes ⟨door, state, count⟩ ++ post) 2 2 = count := by
    simp only [doorReportBytes, List.append_assoc, field_skip, field_here, Nat.reduceSub, Nat.reduceLeDiff,
      word_fits 1 hdoor, word_fits 2 hcount, and_self]
  obtain ⟨hnumber, hopenings⟩ := hfields
  simp only [doorReportAt, Nat.zero_add, hread, hnumber, hopenings]
  cases state <;> rfl

theorem doorReportAt_shift (pre q : List Byte) (k : Nat) :
    doorReportAt (pre ++ q) (pre.length + k) = doorReportAt q k := by
  simp only [doorReportAt, Nat.add_assoc, field_shift]

/-- Door reports one after another are read back in their order. -/
theorem doorReports_read {ds : List DoorReport} (hds : ∀ d ∈ ds, d.door ≤ 255 ∧ d.count ≤ 65535) :
    allSome ((List.range ds.length).map fun i => doorReportAt (ds.flatMap doorReportBytes) (4 * i)) = some ds := by
  induction ds with
  | nil => rfl
  | cons d ds ih =>
    obtain ⟨hdoor, hcount⟩ := hds d (by simp)
    have hshift : ∀ i, doorReportAt (doorReportBytes d ++ ds.flatMap doorReportBytes) (4 * (i + 1)) =
        doorReportAt (ds.flatMap doorReportBytes) (4 * i) := fun i => by
      rw [Nat.mul_succ, Nat.add_comm, ← doorReportBytes_length d, doorReportAt_shift]
    have hrest : (List.range ds.length).map
        (fun i => doorReportAt (doorReportBytes d ++ ds.flatMap doorReportBytes) (4 * (i + 1))) =
        (List.range ds.length).map fun i => doorReportAt (ds.flatMap doorReportBytes) (4 * i) :=
      List.map_congr_left fun i _ => hshift i
    simp only [List.length_cons, List.range_succ_eq_map, List.map_cons, List.map_map, List.flatMap_cons, Nat.mul_zero,
      doorReportAt_bytes hdoor hcount, Function.comp_def, Nat.succ_eq_add_one, hrest, allSome,
      ih fun x hx => hds x (by simp [hx]), Option.map_some]

/-- The 26 bytes of a BEACON before its door entries. -/
def beaconHead (b : Beacon) : List Byte :=
  beBytes 4 b.tripId ++ beBytes 4 b.clock ++ beBytes 1 b.compartment ++ beBytes 2 b.epoch ++ beBytes 4 b.sequence ++
  optTempBytes (b.temps.map (·.warm)) ++ optTempBytes (b.temps.map (·.cold)) ++
  beBytes 1 (bit b.temps.isSome 128 + bit b.grace 64 + usedMarks b.used) ++
  beBytes 1 b.mode ++ beBytes 1 b.restartCount ++ beBytes 1 b.resetCause ++ beBytes 1 b.custodyCount ++
  beBytes 1 b.alerts ++ beBytes 1 b.doors.length

theorem beaconBytes_eq (b : Beacon) : beaconBytes b = beaconHead b ++ b.doors.flatMap doorReportBytes := rfl

theorem beaconHead_length (b : Beacon) : (beaconHead b).length = 26 := by
  unfold beaconHead
  simp only [List.length_append, beBytes_length, optTempBytes_length]

theorem beaconBytes_length (b : Beacon) : (beaconBytes b).length = 26 + 4 * b.doors.length := by
  rw [beaconBytes_eq, List.length_append, beaconHead_length, List.length_flatMap]
  simp [doorReportBytes_length, Nat.mul_comm]

/-- A field of the head stands at its place in the BEACON. -/
theorem field_beacon (b : Beacon) (k n : Nat) (h : k + n ≤ 26) : field (beaconBytes b) k n = field (beaconHead b) k n := by
  rw [beaconBytes_eq, field_append_left _ _ _ _ (by rw [beaconHead_length]; exact h)]

theorem beaconDoorCount {b : Beacon} (h : b.doors.length ≤ 4) : field (beaconBytes b) 25 1 = b.doors.length := by
  rw [field_beacon b 25 1 (by decide)]
  unfold beaconHead optTempBytes tempBytes
  simp only [List.append_assoc, field_skip, field_only, Nat.reduceSub, Nat.reduceLeDiff, word_fits 1 (h.trans (by decide))]

/-- The marks of a BEACON, of six bits, are read back. -/
theorem beaconMarks_bits (a c : Bool) (u : Four Bool) :
    (bit a 128 + bit c 64 + usedMarks u) % 256 ^ 1 = bit a 128 + bit c 64 + usedMarks u ∧
    (bit a 128 + bit c 64 + usedMarks u).testBit 7 = a ∧ (bit a 128 + bit c 64 + usedMarks u).testBit 6 = c ∧
    (⟨(bit a 128 + bit c 64 + usedMarks u).testBit 0, (bit a 128 + bit c 64 + usedMarks u).testBit 1,
      (bit a 128 + bit c 64 + usedMarks u).testBit 2, (bit a 128 + bit c 64 + usedMarks u).testBit 3⟩ : Four Bool) = u := by
  obtain ⟨n1, n2, n3, n4⟩ := u
  revert a c n1 n2 n3 n4
  decide

theorem beaconDoors_read {b : Beacon} (hcount : b.doors.length ≤ 4)
    (hdoors : ∀ d ∈ b.doors, d.door ≤ 255 ∧ d.count ≤ 65535) : carriedDoors (beaconBytes b) = some b.doors := by
  rw [carriedDoors, beaconDoorCount hcount, ← doorReports_read hdoors]
  refine congrArg allSome (List.map_congr_left fun i _ => ?_)
  rw [beaconBytes_eq, ← beaconHead_length b, doorReportAt_shift]

/-- Settles O17: each field of the head and each door entry stands at its place, and the BEACON passes its tests. -/
theorem beaconSurvivesItsLayout : Obligations.BeaconSurvivesItsLayout := by
  intro b htrip hclock hcompLow hcompHigh hepochLow hepochHigh hsequence htemps hmode hrestart hcause hcustody halerts
    hcount hdoors
  refine ⟨beaconBytes_length b, (beaconOf_eq_some _ _).mpr ⟨b.doors, beaconDoors_read hcount hdoors, ?_, ?_⟩⟩
  · have hfits : ∀ t ∈ b.temps, tempFits t.warm ∧ tempFits t.cold := fun t ht => by
      obtain ⟨hlow, hmid, hhigh⟩ := htemps t ht
      exact ⟨tempFits_of_range (Int.le_trans hlow hmid) hhigh, tempFits_of_range hlow (Int.le_trans hmid hhigh)⟩
    obtain ⟨hmarks, hsome, hgrace, hused⟩ := beaconMarks_bits b.temps.isSome b.grace b.used
    unfold carriedBeacon tempField
    rw [field_beacon b 0 4 (by decide), field_beacon b 4 4 (by decide), field_beacon b 8 1 (by decide),
      field_beacon b 9 2 (by decide), field_beacon b 11 4 (by decide), field_beacon b 15 2 (by decide),
      field_beacon b 17 2 (by decide), field_beacon b 19 1 (by decide), field_beacon b 20 1 (by decide),
      field_beacon b 21 1 (by decide), field_beacon b 22 1 (by decide), field_beacon b 23 1 (by decide),
      field_beacon b 24 1 (by decide)]
    unfold beaconHead optTempBytes tempBytes
    simp only [List.append_assoc, field_here, field_skip, Nat.reduceSub, Nat.reduceLeDiff, hmarks, hsome, hgrace, hused,
      word_fits 4 htrip, word_fits 4 hclock, word_fits 1 (hcompHigh.trans (by decide)),
      word_fits 2 (hepochHigh.trans (by decide)), word_fits 4 hsequence, present_temps hfits, word_fits 1 hmode,
      word_fits 1 hrestart, word_fits 1 hcause, word_fits 1 hcustody, word_fits 1 halerts]
  · refine ⟨?_, by omega, by omega, ?_⟩
    · rw [beaconBytes_length, beaconDoorCount hcount]
      omega
    · rw [Option.all_eq_true]
      intro t ht
      obtain ⟨hlow, hmid, hhigh⟩ := htemps t ht
      rw [Bool.and_eq_true, Bool.and_eq_true, tempInRange_iff, tempInRange_iff, decide_eq_true_iff]
      exact ⟨⟨⟨Int.le_trans hlow hmid, hhigh⟩, hlow, Int.le_trans hmid hhigh⟩, hmid⟩

end Sys2Proof.Machine
end

