-- ==== Sys2Proof/Proofs/Probes.lean ====
section
/-!
PROOFS. Single events and outputs: a step takes one command, a new part meets the laws, what an event of a probe line
does to its channel (R22 to R28), what a stop of the core keeps (R171), and the alert reasons (R162, R163).
-/
namespace Sys2Proof.Machine

/-- Settles O1. -/
theorem stepTakesFrontCommand : Obligations.StepTakesFrontCommand := by
  intro c rest s hpending
  rw [step, hpending]

/-! ### A new part -/

theorem setupDefault_inRange : Setup.default.inRange := by
  refine ⟨by simp [Setup.default], by decide, by decide, by decide, fun i d hd => ?_, by decide, by decide, by decide,
    by decide, by simp [Setup.default], by decide, by decide⟩
  rw [show Setup.default.localDoors.get i = none by fin_cases i <;> rfl] at hd
  exact nomatch hd

theorem reset_setupLaw : State.reset.setupLaw :=
  ⟨setupDefault_inRange, setupDefault_inRange, fun _ h => nomatch h⟩

/-- Settles O4: the tables are empty, the core is stopped and every setup is the default one. -/
theorem resetStateMeetsEveryLaw : Obligations.ResetStateMeetsEveryLaw := by
  have hstopped : ¬ State.reset.running = true := by decide
  have hchannel : ∀ i, State.reset.channels.get i = Channel.stopped := by decide
  have htemp : State.reset.tempLaw := by
    refine ⟨reset_setupLaw, fun i => ?_, by decide, fun _ h => (nomatch h), fun _ h => (nomatch h), fun _ h => nomatch h⟩
    rw [hchannel]
    exact fun _ h => nomatch h
  have hcapture : State.reset.captureLaw := by
    intro i
    rw [hchannel]
    exact ⟨by decide, fun _ h => (nomatch h), fun _ => rfl, fun _ h => nomatch h⟩
  have hwindow : State.reset.windowLaw := by
    refine ⟨fun _ => rfl, fun w h => ?_, fun h => absurd h hstopped⟩
    exact nomatch h
  have hoffers : State.reset.offerLaw :=
    ⟨by decide, by decide, fun h => absurd rfl h, fun h => absurd h hstopped⟩
  have hoperation : State.reset.operationLaw :=
    ⟨by decide, hoffers, ⟨by decide, fun _ h => (nomatch h)⟩, fun h => absurd rfl h, fun h => absurd h hstopped,
      fun _ h => nomatch h⟩
  exact ⟨rfl, rfl, rfl, rfl, rfl, rfl, rfl, rfl, rfl, rfl, rfl, by decide, ⟨by decide, by decide⟩,
    ⟨by decide, by decide, by decide⟩, ⟨by decide, by decide, by decide, by decide⟩, fun h => absurd h hstopped,
    ⟨fun _ h => (nomatch h), fun _ h => (nomatch h)⟩, reset_setupLaw, htemp, hcapture, hwindow,
    ⟨reset_setupLaw, fun h => absurd h hstopped⟩, hoperation, ⟨by decide, by decide⟩, rfl,
    ⟨by decide, by decide, by decide, by decide, by decide, by decide⟩⟩

/-! ### Events of a probe line (R22 to R28) -/

theorem updateChannel_running {s : State} (hrunning : s.running = true) (i : Fin 4) (f : Channel → Channel) :
    s.updateChannel i f = { s with channels := s.channels.set i (f (s.channels.get i)) } :=
  if_pos hrunning

section Edges
variable {c : Channel} {n : Nat}

/-- R22: a change of the line after the channel's last event and up to the run-out's sample is an edge. -/
theorem edgeAt_of_change {level : LineLevel} (hstate : c.state ≠ .off) (hsample : c.sample ≠ some level)
    (hafter : c.counter < n) (hupTo : n ≤ 65536) : c.edgeAt n level = true := by
  simp [Channel.edgeAt, hstate, hsample, hafter, Config.runOutCounts, hupTo]

theorem edgeAt_of_off {level : LineLevel} (hoff : c.state = .off) : c.edgeAt n level = false := by
  simp [Channel.edgeAt, hoff]

theorem rise_of_arming {clock : Nat} (hstate : c.state = .arming) (hedge : c.edgeAt n .high = true) :
    c.rise n clock = { c with state := .measuring, counter := 0, high := none, sample := some .high } := by
  rw [Channel.rise, if_pos hedge, hstate]

theorem rise_of_measuring {clock h : Nat} (hstate : c.state = .measuring) (hhigh : c.high = some h)
    (hedge : c.edgeAt n .high = true) (hbelow : n < 65536) :
    c.rise n clock =
      { c with
        counter := 0, high := none, sample := some .high, last := some ⟨n, h⟩
        reading := some ⟨classify n h, clock, true⟩ } := by
  have hnotLast : n ≠ Config.runOutCounts := Nat.ne_of_lt hbelow
  rw [Channel.rise, if_pos hedge, hstate]
  simp only [if_neg hnotLast, hhigh, Channel.complete, hstate]

theorem rise_at_runOut {clock : Nat} (hstate : c.state = .measuring) (hedge : c.edgeAt 65536 .high = true) :
    c.rise 65536 clock = { c with counter := 65536, sample := some .high } := by
  rw [Channel.rise, if_pos hedge, hstate]
  simp only [Config.runOutCounts, if_true]

theorem fall_of_arming (hstate : c.state = .arming) (hedge : c.edgeAt n .low = true) :
    c.fall n = { c with counter := n, sample := some .low } := by
  rw [Channel.fall, if_pos hedge, hstate]

theorem fall_of_measuring (hstate : c.state = .measuring) (hedge : c.edgeAt n .low = true) :
    c.fall n = { c with counter := n, sample := some .low, high := some n } := by
  rw [Channel.fall, if_pos hedge, hstate]

theorem runOutArming_of_arming {level : LineLevel} {clock : Nat} (hstate : c.state = .arming)
    (hsample : c.sample ≠ some .low ∨ level = .low) :
    c.runOutArming level clock =
      { c with counter := 0, sample := some level, reading := some ⟨.faultStuck level, clock, true⟩ } := by
  have hnoEdge : ¬ (c.sample = some .low ∧ level = .high) := by
    rintro ⟨hlow, rfl⟩
    exact hsample.elim (absurd hlow) (nomatch ·)
  rw [Channel.runOutArming, hstate]
  simp only [if_neg hnoEdge, Channel.complete, hstate]

theorem runOutMeasuring_of_measuring {clock : Nat} (hstate : c.state = .measuring) :
    c.runOutMeasuring clock =
      { c with state := .arming, counter := 0, high := none, reading := some ⟨.faultPeriod, clock, true⟩ } := by
  rw [Channel.runOutMeasuring, hstate]
  rfl

theorem off_unchanged (hoff : c.state = .off) (level : LineLevel) (clock : Nat) :
    c.rise n clock = c ∧ c.fall n = c ∧ c.runOutArming level clock = c ∧ c.runOutMeasuring clock = c := by
  have hno : ∀ level, ¬ c.edgeAt n level = true := fun level => by rw [edgeAt_of_off hoff]; decide
  refine ⟨if_neg (hno .high), if_neg (hno .low), ?_, ?_⟩
  · rw [Channel.runOutArming, hoff]
  · rw [Channel.runOutMeasuring, hoff]

end Edges

/-- Settles O52: on a running core the event's channel alone changes, by the rule of its state. -/
theorem probeEventsCaptured : Obligations.ProbeEventsCaptured := by
  intro s i n level hrunning hn c becomes reading
  have hset : ∀ (f : Channel → Channel) (c' : Channel), f c = c' →
      Host.Outcome.next (s.updateChannel i f) = (.next { s with channels := s.channels.set i c' } :
        Host.Outcome State Fault Refusal) := fun f c' hf => by rw [updateChannel_running hrunning, ← hf]
  refine ⟨fun hstate hafter hsample => ?_, fun h hstate hhigh hafter hbelow hsample => ?_,
    fun hstate hafter hsample => ?_, fun hstate hafter hsample => ?_, fun hstate hsample => ?_, fun hstate => ?_,
    fun hstate hbelow hsample hlast => ?_, fun hoff => ?_⟩
  · exact hset _ _ (rise_of_arming hstate (edgeAt_of_change (by rw [hstate]; decide) hsample hafter hn))
  · exact hset _ _ (rise_of_measuring hstate hhigh (edgeAt_of_change (by rw [hstate]; decide) hsample hafter hn) hbelow)
  · exact hset _ _ (fall_of_measuring hstate (edgeAt_of_change (by rw [hstate]; decide) hsample hafter hn))
  · exact hset _ _ (fall_of_arming hstate (edgeAt_of_change (by rw [hstate]; decide) hsample hafter hn))
  · exact hset _ _ (runOutArming_of_arming hstate hsample)
  · exact hset _ _ (runOutMeasuring_of_measuring hstate)
  · subst hlast
    exact hset _ _ (rise_at_runOut hstate (edgeAt_of_change (by rw [hstate]; decide) hsample hbelow hn))
  · obtain ⟨hrise, hfall, harming, hmeasuring⟩ := off_unchanged (n := n) hoff level s.domain.clock
    exact ⟨hset _ _ hrise, hset _ _ hfall, hset _ _ harming, hset _ _ hmeasuring⟩

/-! ### A stop of the core and the cell (R171) -/

theorem exec_coreStop_running {s : State} (hrunning : s.running = true) (cause : StopCause) (landed : Bool) :
    exec (.coreStop cause landed) s =
      .next (if (writeStops landed { s with running := false, stopCause := cause }).cellFell then
        loseDomain (writeStops landed { s with running := false, stopCause := cause })
      else writeStops landed { s with running := false, stopCause := cause }) :=
  congrArg Host.Outcome.next (if_pos hrunning)

theorem writeStops_of_none {s : State} (hwrite : s.storeWrite = none) (landed : Bool) : writeStops landed s = s := by
  rw [writeStops, hwrite]

theorem writeStops_of_some {s : State} {w : StoreWrite} (hwrite : s.storeWrite = some w) (landed : Bool) :
    writeStops landed s =
      if landed then
        { s with
          store := Store.written w, storeWrite := none
          domain := { s.domain with counting := s.domain.counting && decide (w.tripState = .running) } }
      else { s with storeWrite := none } := by
  rw [writeStops, hwrite]

/-- Settles O56: the write ends first, then the fallen cell decides whether the domain is left. -/
theorem stopKeepsDomainWhileCellHolds : Obligations.StopKeepsDomainWhileCellHolds := by
  intro s cause landed
  refine ⟨fun hrunning hwrite => ?_, fun w hrunning hwrite hcell => ⟨?_, ?_⟩, fun hstopped => ?_, fun hrunning => ?_⟩
  · have hstop : writeStops landed { s with running := false, stopCause := cause } =
        { s with running := false, stopCause := cause } :=
      writeStops_of_none (s := { s with running := false, stopCause := cause }) hwrite landed
    rw [exec_coreStop_running hrunning, hstop]
    exact ⟨fun hcell => congrArg _ (if_neg (by simp [hcell])), fun hcell => congrArg _ (if_pos hcell)⟩
  · have hstop : writeStops false { s with running := false, stopCause := cause } =
        { s with running := false, stopCause := cause, storeWrite := none } :=
      writeStops_of_some (s := { s with running := false, stopCause := cause }) hwrite false
    rw [exec_coreStop_running hrunning, hstop]
    exact congrArg _ (if_neg (by simp [hcell]))
  · have hstop : writeStops true { s with running := false, stopCause := cause } =
        { s with
          running := false, stopCause := cause, storeWrite := none, store := Store.written w
          domain := { s.domain with counting := s.domain.counting && decide (w.tripState = .running) } } :=
      writeStops_of_some (s := { s with running := false, stopCause := cause }) hwrite true
    rw [exec_coreStop_running hrunning, hstop]
    exact ⟨_, congrArg _ (if_neg (by simp [hcell])), rfl, fun hended => by simp [hended], fun hrun => by simp [hrun]⟩
  · exact congrArg Host.Outcome.next (if_neg (by simp [hstopped]))
  · exact congrArg Host.Outcome.next (if_pos hrunning)

/-! ### The alert reasons (R162, R163) -/

/-- Four reasons in four bits. -/
theorem fourBits (a b c d : Bool) :
    (bit a 1 + bit b 2 + bit c 4 + bit d 8) < 16 ∧ (bit a 1 + bit b 2 + bit c 4 + bit d 8).testBit 0 = a ∧
    (bit a 1 + bit b 2 + bit c 4 + bit d 8).testBit 1 = b ∧ (bit a 1 + bit b 2 + bit c 4 + bit d 8).testBit 2 = c ∧
    (bit a 1 + bit b 2 + bit c 4 + bit d 8).testBit 3 = d := by
  revert a b c d
  decide

theorem two_le_rank_iff (v : Verdict) : 2 ≤ v.rank ↔ v = .unproven ∨ ∃ c x, v = .breached c x := by
  cases v with
  | breached c x => exact ⟨fun _ => .inr ⟨c, x, rfl⟩, fun _ => by simp [Verdict.rank]⟩
  | _ => simp [Verdict.rank]

theorem alertRecord_iff (s : State) : s.alertRecord = true ↔ ∃ h ∈ s.domain.custody, h.state = .held ∧
    (h.record.verdict = .unproven ∨ ∃ c x, h.record.verdict = .breached c x) := by
  simp only [State.alertRecord, List.any_eq_true, Bool.and_eq_true, beq_iff_eq, decide_eq_true_eq, two_le_rank_iff]

theorem alertProbe_iff (s : State) : s.alertProbe = true ↔ ∃ m, s.lastSummary = some m ∧ ∃ i,
    (s.committed.probes.get i).enabled = true ∧ (s.committed.probes.get i).counted = true ∧ m.used.get i = false := by
  unfold State.alertProbe
  cases hlast : s.lastSummary with
  | none => simp
  | some m =>
    simp only [List.any_eq_true, Bool.and_eq_true, Bool.not_eq_true', Option.some.injEq, exists_eq_left', and_assoc]
    have hall : ∀ i : Fin 4, i ∈ ([0, 1, 2, 3] : List (Fin 4)) := by decide
    exact ⟨fun ⟨i, _, hi⟩ => ⟨i, hi⟩, fun ⟨i, hi⟩ => ⟨i, hall i, hi⟩⟩

theorem alertBuddy_iff (s : State) : s.alertBuddy = true ↔ ∃ b, s.committed.buddy = some b ∧
    ∃ e ∈ s.roster, e.address = b ∧ e.state = .silent := by
  unfold State.alertBuddy
  cases s.committed.buddy with
  | none => simp
  | some b =>
    simp only [List.any_eq_true, Bool.and_eq_true, beq_iff_eq, Option.some.injEq, exists_eq_left']

/-- The modes in which the ALERT line can be driven. -/
theorem drives_iff (m : Mode) : (m.runsEpochs || m == .rejoining) = true ↔
    m ≠ .idle ∧ m ≠ .starting ∧ m ≠ .unstrapped := by
  cases m <;> decide

/-- Settles O60: each reason has its bit, and the line follows their sum. -/
theorem alertFollowsItsReasons : Obligations.AlertFollowsItsReasons := by
  intro s
  obtain ⟨hbound, hrecord, hprobe, hbuddy, hlost⟩ :=
    fourBits s.alertRecord s.alertProbe s.alertBuddy s.alertCustodyLost
  refine ⟨hbound, ?_, ?_, ?_, ?_, ?_⟩
  · exact (Bool.eq_iff_iff.mp hrecord).trans (alertRecord_iff s)
  · exact (Bool.eq_iff_iff.mp hprobe).trans (alertProbe_iff s)
  · exact (Bool.eq_iff_iff.mp hbuddy).trans (alertBuddy_iff s)
  · exact Bool.eq_iff_iff.mp hlost
  · rw [State.alertDriven, Bool.and_eq_true, Bool.and_eq_true, drives_iff, decide_eq_true_iff, Nat.pos_iff_ne_zero]
    tauto

end Sys2Proof.Machine
end

