-- ==== Sys2Proof/Proofs/BusEvents.lean ====
section
/-!
PROOFS. Events on the line (R109 to R120): the acceptance filter, the acknowledge slot, the idle bus, a lost
arbitration, and the one BEACON of the transmit queue.
-/
namespace Sys2Proof.Machine

/-! ### One BEACON at a time (R120) -/

section OneBeacon
variable {s : State} {before after : List TxEntry} {e : TxEntry}

/-- An update of the only entry that passes a test leaves the entries around it. -/
theorem updateWhere_only {α : Type} {p : α → Bool} (f : α → α) {before after : List α} {e : α}
    (hothers : ∀ x ∈ before ++ after, p x = false) (he : p e = true) :
    updateWhere p f (before ++ e :: after) = before ++ f e :: after := by
  have hsame : ∀ l : List α, (∀ x ∈ l, p x = false) → l.map (fun x => if p x then f x else x) = l := fun l hl =>
    (List.map_congr_left fun x hx => by simp [hl x hx]).trans (List.map_id l)
  rw [updateWhere, List.map_append, List.map_cons, if_pos he, hsame before fun x hx => hothers x (by simp [hx]),
    hsame after fun x hx => hothers x (by simp [hx])]

variable (hq : s.bus.queue = before ++ e :: after) (hkind : e.telegram.kind = .beacon)
  (hothers : ∀ x ∈ before ++ after, x.telegram.kind ≠ .beacon)
include hq hkind hothers

theorem sendBeacon_of_waiting (hwaiting : e.sending = false) (b : TxTelegram) :
    sendBeacon s b =
      { s with
        bus :=
          { s.bus with
            queue := before ++ { e with telegram := b } :: after, counters := s.bus.counters.addReplaced } } := by
  have hwaits : (s.bus.queue.any fun x => x.telegram.kind == .beacon && !x.sending) = true := by
    simp [hq, hkind, hwaiting]
  have hupdate := updateWhere_only (p := fun x : TxEntry => x.telegram.kind == .beacon && !x.sending)
    (fun x => { x with telegram := b }) (before := before) (after := after) (e := e)
    (fun x hx => by simp [hothers x hx]) (by simp [hkind, hwaiting])
  rw [sendBeacon, if_pos hwaits, hq, hupdate]
  rfl

theorem sendBeacon_of_sending (hsending : e.sending = true) (b : TxTelegram) :
    sendBeacon s b =
      { s with
        bus :=
          { s.bus with
            beaconHold := some b
            counters := if s.bus.beaconHold.isSome then s.bus.counters.addReplaced else s.bus.counters } } := by
  have hnone : ¬ (s.bus.queue.any fun x => x.telegram.kind == .beacon && !x.sending) = true := by
    have hleft : ∀ x ∈ before, x.telegram.kind ≠ .beacon := fun x hx => hothers x (by simp [hx])
    have hright : ∀ x ∈ after, x.telegram.kind ≠ .beacon := fun x hx => hothers x (by simp [hx])
    simp only [hq, List.any_append, List.any_cons, hsending, Bool.not_true, Bool.and_false, Bool.false_or,
      Bool.or_eq_true, List.any_eq_true, Bool.and_eq_true, beq_iff_eq]
    rintro (⟨x, hx, hbeacon, -⟩ | ⟨x, hx, hbeacon, -⟩)
    · exact hleft x hx hbeacon
    · exact hright x hx hbeacon
  have hsome : (s.bus.queue.any fun x => x.telegram.kind == .beacon) = true := by simp [hq, hkind]
  rw [sendBeacon, if_neg hnone, if_pos hsome]
  rfl

end OneBeacon

theorem sendBeacon_of_none {s : State} (hnone : ∀ e ∈ s.bus.queue, e.telegram.kind ≠ .beacon) (b : TxTelegram) :
    sendBeacon s b = sendPlain s b := by
  have hany : (s.bus.queue.any fun e => e.telegram.kind == .beacon) = false := by
    simpa [List.any_eq_false] using hnone
  have hwaiting : (s.bus.queue.any fun e => e.telegram.kind == .beacon && !e.sending) = false := by
    simp only [List.any_eq_false, Bool.and_eq_true, beq_iff_eq, not_and]
    exact fun e he hbeacon => absurd hbeacon (hnone e he)
  simp [sendBeacon, hany, hwaiting]

theorem oneBeaconAtATime : Clause.OneBeaconAtATime := by
  intro s before after e b _ hq hkind hothers
  refine ⟨fun hwaiting => sendBeacon_of_waiting hq hkind hothers hwaiting b, fun hsending hhold => ?_⟩
  rw [sendBeacon_of_sending hq hkind hothers hsending, hhold]
  rfl

/-! ### A lost arbitration and a length above 160 (R110, R111) -/

theorem map_backToWaiting_waiting {l : List TxEntry} (hl : ∀ x ∈ l, x.sending = false) (held : Option TxTelegram) :
    l.map (backToWaiting held) = l :=
  (List.map_congr_left fun x hx => by simp [backToWaiting, hl x hx]).trans (List.map_id l)

/-- The queue after a lost arbitration: only the telegram that lost changes. -/
theorem map_backToWaiting {before after : List TxEntry} (e : TxEntry) (hbefore : ∀ x ∈ before, x.sending = false)
    (hafter : ∀ x ∈ after, x.sending = false) (held : Option TxTelegram) :
    (before ++ e :: after).map (backToWaiting held) = before ++ backToWaiting held e :: after := by
  rw [List.map_append, List.map_cons, map_backToWaiting_waiting hbefore, map_backToWaiting_waiting hafter]

theorem exec_arbitrationLoss_sends {s : State} {before after : List TxEntry} {e : TxEntry}
    (hsends : s.sends before e after) : exec .arbitrationLoss s = .next
      { s with
        bus :=
          { s.bus with
            line := .busy
            queue := s.bus.queue.map (backToWaiting s.bus.beaconHold)
            beaconHold := if e.telegram.kind = .beacon then none else s.bus.beaconHold
            counters :=
              if decide (e.telegram.kind = .beacon) && s.bus.beaconHold.isSome then
                s.bus.counters.addArbitrationLoss.addReplaced
              else s.bus.counters.addArbitrationLoss } } := by
  have hloss : exec .arbitrationLoss s = .next (loseArbitration s) := congrArg Host.Outcome.next (if_pos hsends.1)
  rw [hloss, loseArbitration, sending?_sends s before after e hsends]

theorem lineEventsAtTheRecorder : Clause.LineEventsAtTheRecorder := by
  intro s hon
  refine ⟨fun n hn hsending => ?_, fun before e after hsends hafter => ?_⟩
  · have hlong : (s.busOn && s.sending?.isNone && decide (Config.maxPayload < n)) = true := by
      have hmax : Config.maxPayload < n := hn
      simp [hon, hsending, hmax]
    exact congrArg Host.Outcome.next (if_pos hlong)
  · intro lost
    obtain ⟨_, hq, hbefore, he⟩ := hsends
    rw [exec_arbitrationLoss_sends ⟨hon, hq, hbefore, he⟩, hq, map_backToWaiting e hbefore hafter]
    refine ⟨fun hkeeps => ?_, fun b hkind hhold => ?_⟩
    · obtain hkind | hhold := hkeeps
      · simp only [backToWaiting, he, hkind, if_true, if_false, decide_false, Bool.false_and, Bool.false_eq_true]
        rfl
      · simp only [backToWaiting, he, hhold, if_true, Option.getD_none, Option.isSome_none, Bool.and_false,
          Bool.false_eq_true, if_false, ite_self]
        rfl
    · simp only [backToWaiting, he, hkind, hhold, if_true, Option.getD_some, Option.isSome_some, Bool.and_true,
        decide_true]
      rfl

/-- Settles O41. -/
theorem beaconReplacementAndArbitration : Obligations.BeaconReplacementAndArbitration :=
  ⟨oneBeaconAtATime, lineEventsAtTheRecorder⟩

/-! ### The idle bus (R109, R111, R119) -/

theorem kind_cls_le (k : Kind) : k.cls ≤ 3 := by
  cases k <;> decide

theorem lowestClass_le {q : List TxEntry} {e : TxEntry} (he : e ∈ q) : lowestClass q ≤ e.cls := by
  induction q with
  | nil => exact nomatch he
  | cons x xs ih =>
    obtain rfl | hmem := List.mem_cons.mp he
    · exact Nat.min_le_left _ _
    · exact (Nat.min_le_right _ _).trans (ih hmem)

/-- The lowest class of a queue that holds something is that of one of its entries. -/
theorem exists_lowestClass {q : List TxEntry} (hq : q ≠ []) : ∃ e ∈ q, e.cls = lowestClass q := by
  induction q with
  | nil => exact absurd rfl hq
  | cons x xs ih =>
    obtain hlt | hle := Nat.lt_or_ge (lowestClass xs) x.cls
    · have hne : xs ≠ [] := by
        rintro rfl
        exact absurd ((kind_cls_le x.telegram.kind).trans (by decide)) (Nat.not_le.mpr hlt)
      obtain ⟨e, hmem, hcls⟩ := ih hne
      exact ⟨e, by simp [hmem], hcls.trans (Nat.min_eq_right hlt.le).symm⟩
    · exact ⟨x, by simp, (Nat.min_eq_left hle).symm⟩

/-- The first entry of a class is marked; those before it are of other classes. -/
theorem markFirst_split {c : Nat} {q : List TxEntry} (hq : ∃ e ∈ q, e.cls = c) :
    ∃ before e after, q = before ++ e :: after ∧ e.cls = c ∧ (∀ x ∈ before, x.cls ≠ c) ∧
      markFirst c q = before ++ { e with sending := true } :: after := by
  induction q with
  | nil =>
    obtain ⟨e, he, _⟩ := hq
    exact nomatch he
  | cons x xs ih =>
    by_cases hx : x.cls = c
    · exact ⟨[], x, xs, rfl, hx, fun _ h => (nomatch h), by simp [markFirst, hx]⟩
    · have htail : ∃ e ∈ xs, e.cls = c := by
        obtain ⟨e, he, hcls⟩ := hq
        obtain rfl | hmem := List.mem_cons.mp he
        · exact absurd hcls hx
        · exact ⟨e, hmem, hcls⟩
      obtain ⟨before, e, after, hsplit, hcls, hbefore, hmark⟩ := ih htail
      refine ⟨x :: before, e, after, by rw [hsplit]; rfl, hcls, fun y hy => ?_, by simp [markFirst, hx, hmark]⟩
      obtain rfl | hmem := List.mem_cons.mp hy
      · exact hx
      · exact hbefore y hmem

/-- R119: the choice is of the lowest class, and of that class the telegram queued first. -/
theorem markNext_split {q : List TxEntry} (hq : q ≠ []) :
    ∃ before e after, q = before ++ e :: after ∧ (∀ x ∈ before, e.cls < x.cls) ∧ (∀ x ∈ after, e.cls ≤ x.cls) ∧
      markNext q = before ++ { e with sending := true } :: after := by
  obtain ⟨before, e, after, hsplit, hcls, hbefore, hmark⟩ := markFirst_split (exists_lowestClass hq)
  have hle : ∀ x ∈ q, e.cls ≤ x.cls := fun x hx => hcls ▸ lowestClass_le hx
  refine ⟨before, e, after, hsplit, fun x hx => ?_, fun x hx => hle x (by simp [hsplit, hx]), hmark⟩
  exact Nat.lt_of_le_of_ne (hle x (by simp [hsplit, hx])) fun h => hbefore x hx (h ▸ hcls)

/-- The low bits of a number do not see what is cut off above them. -/
theorem bitsOf_mod (n m v : Nat) (h : n ≤ m) : bitsOf n (v % 2 ^ m) = bitsOf n v := by
  induction n with
  | zero => rfl
  | succ n ih =>
    have hbit : (v % 2 ^ m).testBit n = v.testBit n := by
      rw [Nat.testBit_mod_two_pow, decide_eq_true (Nat.lt_of_succ_le h), Bool.true_and]
    rw [bitsOf, bitsOf, hbit, ih (Nat.le_of_succ_le h)]

theorem kind_code_lt (k : Kind) : k.code < 64 := by
  cases k <;> decide

/-- R110: a receiver's own computation confirms the check of a frame as sent. -/
theorem frameCheck_frame (t : TxTelegram) (address : Nat) : frameCheck (t.frame address) = (t.frame address).check := by
  simp only [frameCheck, TxTelegram.frame, BitVec.toNat_ofNat, fieldBits, bitsOf_mod _ _ _ (Nat.le_refl _)]

theorem busBecomesIdle_of_on {s : State} (hon : s.busOn = true) (hsending : s.sending? = none) :
    busBecomesIdle s = beginNext (s.withLine .idle) :=
  if_pos (by simp [hon, hsending])

/-- Settles O40: both commands begin the telegram that `markNext` chooses. -/
theorem idleBusBeginsMostUrgent : Obligations.IdleBusBeginsMostUrgent := by
  intro s c hc hon hsending
  have hexec : exec c s = .next (beginNext (s.withLine .idle)) := by
    have hbegins := congrArg (Host.Outcome.next (φ := Fault) (ρ := Refusal)) (busBecomesIdle_of_on hon hsending)
    obtain rfl | rfl := hc
    · exact hbegins
    · exact hbegins
  refine ⟨fun hempty => ?_, fun hne => ?_⟩
  · rw [hexec, beginNext]
    simp [hempty, markNext, markFirst]
    rw [← hempty]
    rfl
  · obtain ⟨before, e, after, hsplit, hbefore, hafter, hmark⟩ := markNext_split hne
    refine ⟨before, e, after, hsplit, hbefore, hafter, ?_, ?_⟩
    · have hbusy : s.bus.queue.isEmpty = false := by simpa using hne
      rw [hexec, beginNext]
      simp [hbusy, hmark]
      rfl
    · have hcls : e.telegram.kind.cls < 4 := Nat.lt_succ_of_le (kind_cls_le _)
      have hcode : e.telegram.kind.code < 64 := kind_code_lt _
      refine ⟨?_, ?_, rfl, rfl, ?_, rfl, frameCheck_frame _ _⟩
      · exact Nat.mod_eq_of_lt hcls
      · cases hkind : e.telegram.kind <;> simp [TxEntry.cls, Kind.cls, hkind]
      · exact Nat.mod_eq_of_lt hcode

/-! ### The acceptance filter (R114, R115) -/

/-- R101: an answer is awaited for an open offer of its id and target in AWAITING. -/
theorem awaits_iff (s : State) (id sender : Nat) : s.awaits id sender = true ↔
    ∃ o ∈ s.offers, o.id = id ∧ o.target = sender ∧ ∃ d, o.phase = .awaiting d := by
  have hphase : ∀ o : Offer, (match o.phase with | .awaiting _ => true | _ => false) = true ↔ ∃ d, o.phase = .awaiting d := by
    intro o
    cases o.phase <;> simp
  simp only [State.awaits, List.any_eq_true, Bool.and_eq_true, beq_iff_eq, and_assoc]
  exact exists_congr fun o => and_congr_right fun _ => and_congr_right fun _ => and_congr_right fun _ => hphase o

/-- R115: a key that is stored needs no slot; another needs one that no waiting put has reserved. -/
theorem roomFor_iff (s : State) (owner id : Nat) : s.roomFor owner id = true ↔
    (∃ y ∈ s.domain.mirror, y.key = (owner, id)) ∨
      (s.bus.rx.filter (·.kind == .mirrorPut)).length < 48 - s.domain.mirror.length := by
  rw [State.roomFor, Bool.or_eq_true, decide_eq_true_iff]
  simp only [State.reservations, List.any_eq_true, Bool.and_eq_true, beq_iff_eq, MirrorRecord.key, Prod.mk.injEq,
    Config.mirrorSlots]

section Filter
variable {s : State} {sender receiver : Nat} {p : List Byte}

/-- Addressed to this recorder: with an own address, 0 is all stations. -/
theorem own_iff (haddress : s.address ≠ 0) :
    (receiver == s.address && decide (receiver ≠ 0)) = true ↔ receiver = s.address := by
  rw [Bool.and_eq_true, beq_iff_eq, decide_eq_true_iff]
  exact ⟨And.left, fun h => ⟨h, h ▸ haddress⟩⟩

end Filter

/-- Settles O39: each kind's row is a conjunction of tests. -/
theorem filterFollowsItsTable : Obligations.FilterFollowsItsTable := by
  intro s k sender receiver p hreceiver haddress _ _ _
  have hown := own_iff (receiver := receiver) haddress
  have hall : receiver = s.address ∨ receiver = 0 := hreceiver
  refine ⟨?_, fun hconsole htrip => ?_, fun hk => ?_, fun hk => ?_, ?_, fun hk => ?_, fun hk => ?_, ?_, ?_⟩
  · rintro rfl
    simp only [State.accepts, Bool.and_eq_true, Bool.or_eq_true, decide_eq_true_eq, beq_iff_eq]
    have hto : (receiver = s.address ∧ receiver ≠ 0) ∨ receiver = 0 := by
      by_cases h0 : receiver = 0
      · exact .inr h0
      · exact .inl ⟨hall.resolve_right h0, h0⟩
    exact ⟨And.left, fun h => ⟨h, hto⟩⟩
  · have hrow : s.accepts k sender receiver p =
        (decide (16 ≤ sender) && (receiver == s.address && decide (receiver ≠ 0))) := by
      cases k with
      | tripStart => exact absurd rfl htrip
      | configSet | tripEnd | load | move | release | queryStation | queryRecord | list | discardMirror => rfl
      | _ => exact absurd hconsole (by decide)
    rw [hrow, Bool.and_eq_true, hown, decide_eq_true_iff]
  · have hrow : s.accepts k sender receiver p =
        ((decide (1 ≤ sender) && decide (sender ≤ 15)) && receiver == 0) := by
      obtain rfl | rfl | rfl := hk <;> rfl
    rw [hrow]
    simp only [Bool.and_eq_true, decide_eq_true_eq, beq_iff_eq, and_assoc]
  · have hrow : s.accepts k sender receiver p =
        ((decide (1 ≤ sender) && decide (sender ≤ 15)) && (receiver == s.address && decide (receiver ≠ 0))) := by
      obtain rfl | rfl := hk <;> rfl
    rw [hrow, Bool.and_eq_true, hown]
    simp only [Bool.and_eq_true, decide_eq_true_eq, and_assoc]
  · rintro rfl
    rw [State.accepts, Bool.and_eq_true, Bool.and_eq_true, hown]
    simp only [Bool.and_eq_true, decide_eq_true_eq, beq_iff_eq, and_assoc]
  · have hrow : s.accepts k sender receiver p =
        ((decide (1 ≤ sender) && decide (sender ≤ 15)) && (receiver == s.address && decide (receiver ≠ 0)) &&
          s.mode == .rejoining && s.committed.buddy == some sender) := by
      obtain rfl | rfl | rfl := hk <;> rfl
    rw [hrow, Bool.and_eq_true, Bool.and_eq_true, Bool.and_eq_true, hown]
    simp only [Bool.and_eq_true, decide_eq_true_eq, beq_iff_eq, and_assoc]
  · have hrow : s.accepts k sender receiver p =
        ((decide (1 ≤ sender) && decide (sender ≤ 15)) && (receiver == s.address && decide (receiver ≠ 0)) &&
          p.length == (if k = .accept then 6 else 7) && s.awaits (field p 0 6) sender) := by
      obtain rfl | rfl := hk <;> rfl
    rw [hrow, Bool.and_eq_true, Bool.and_eq_true, Bool.and_eq_true, hown, awaits_iff]
    simp only [Bool.and_eq_true, decide_eq_true_eq, beq_iff_eq, and_assoc]
  · rintro rfl
    rw [State.accepts, Bool.and_eq_true, Bool.and_eq_true, Bool.and_eq_true, Bool.and_eq_true, hown, roomFor_iff]
    simp only [Bool.and_eq_true, Bool.or_eq_true, decide_eq_true_eq, beq_iff_eq, and_assoc]
  · rintro rfl
    rfl

/-! ### The acknowledge slot (R113) -/

theorem ofCode_code (k : Kind) : Kind.ofCode k.code = some k := by
  cases k <;> decide

theorem code_ofCode {n : Nat} {k : Kind} (h : Kind.ofCode n = some k) : k.code = n := by
  simpa using List.find?_some h

section Slot
variable {s : State} {f : Frame}

theorem takes_of_unlisted (hkind : ∀ k : Kind, k.code ≠ f.kind.toNat) : s.takes f = none := by
  have hnone : Kind.ofCode f.kind.toNat = none := by
    cases h : Kind.ofCode f.kind.toNat with
    | none => rfl
    | some k => exact absurd (code_ofCode h) (hkind k)
  simp [State.takes, frameTelegram, hnone]

/-- The three tests of a frame whose kind TABLE 7-6 lists. -/
theorem takes_of_listed {k : Kind} (hkind : k.code = f.kind.toNat) :
    s.takes f =
      if (f.receiver.toNat = s.address ∨ f.receiver.toNat = 0) ∧ frameCheck f = f.check ∧
          s.accepts k f.sender.toNat f.receiver.toNat f.payload = true then
        some ⟨f.cls.toNat, f.sender.toNat, f.receiver.toNat, k, f.payload⟩
      else none := by
  have hsome : Kind.ofCode f.kind.toNat = some k := hkind ▸ ofCode_code k
  simp only [State.takes, frameTelegram, hsome, Option.map_some]

theorem listening_of_on (hon : s.busOn = true) (hsending : s.sending? = none) (hline : s.bus.line ≠ .ignoring) :
    s.listening = true := by
  simp [State.listening, hon, hsending, hline]

variable (hlistening : s.listening = true) (hlength : f.payload.length ≤ 160)
include hlistening hlength

theorem receive_of_not_taken (hnone : s.takes f = none) : receive s f = s.withLine .busy := by
  have hnone' : (s.withLine .busy).takes f = none := hnone
  have hmax : f.payload.length ≤ Config.maxPayload := hlength
  simp [receive, hlistening, hmax, hnone']

theorem receive_of_full {t : RxTelegram} (htakes : s.takes f = some t) (hfull : 4 ≤ s.bus.rx.length) :
    receive s f = (s.withLine .busy).withCounters s.bus.counters.addOverrun := by
  have htakes' : (s.withLine .busy).takes f = some t := htakes
  have hmax : f.payload.length ≤ Config.maxPayload := hlength
  simp [receive, hlistening, hmax, htakes', Config.bufferSlots, hfull]

theorem receive_of_room {t : RxTelegram} (htakes : s.takes f = some t) (hroom : s.bus.rx.length < 4) :
    receive s f = ((s.withLine .busy).withRx (s.bus.rx ++ [t])).withOffers
      (answerOffer t.kind (field t.payload 0 6) s.offers) := by
  have htakes' : (s.withLine .busy).takes f = some t := htakes
  have hmax : f.payload.length ≤ Config.maxPayload := hlength
  have hfree : ¬ 4 ≤ s.bus.rx.length := Nat.not_le.mpr hroom
  simp [receive, hlistening, hmax, htakes', Config.bufferSlots, hfree]

theorem acknowledges_iff {t : RxTelegram} (htakes : s.takes f = some t) :
    s.acknowledges f = true ↔ s.bus.rx.length < 4 := by
  have hmax : f.payload.length ≤ Config.maxPayload := hlength
  rw [State.acknowledges, Bool.and_eq_true, decide_eq_true_iff (p := s.bus.rx.length < Config.bufferSlots)]
  simp [hlistening, hmax, htakes, Config.bufferSlots]

end Slot

theorem answerOffer_eq (k : Kind) (id : Nat) (l : List Offer) : answerOffer k id l =
    if k = .accept ∨ k = .decline then l.map fun o => if o.id = id then { o with phase := .answered } else o else l := by
  cases k <;> simp [answerOffer, updateWhere]

theorem acknowledgeSlotDecides : Clause.AcknowledgeSlotDecides := by
  intro s f hon hsending hline hlength
  have hlistening := listening_of_on hon hsending hline
  refine ⟨fun hkind => congrArg Host.Outcome.next
    (receive_of_not_taken hlistening hlength (takes_of_unlisted hkind)), fun k hkind => ?_⟩
  have htakes := takes_of_listed (s := s) hkind
  refine ⟨fun hfails => ?_, fun hpasses hfull => ?_, fun hpasses hroom => ?_⟩
  · rw [if_neg hfails] at htakes
    exact congrArg Host.Outcome.next (receive_of_not_taken hlistening hlength htakes)
  · rw [if_pos hpasses] at htakes
    refine ⟨?_, congrArg Host.Outcome.next (receive_of_full hlistening hlength htakes hfull)⟩
    exact Bool.eq_false_iff.mpr (mt (acknowledges_iff hlistening hlength htakes).mp (Nat.not_lt.mpr hfull))
  · rw [if_pos hpasses] at htakes
    refine ⟨?_, congrArg Host.Outcome.next ((receive_of_room hlistening hlength htakes hroom).trans ?_)⟩
    · exact (acknowledges_iff hlistening hlength htakes).mpr hroom
    · rw [answerOffer_eq]
      rfl

/-- With the bus off nothing is received, and in HOLD and UNSTRAPPED nothing is queued. -/
theorem nothingAcknowledgedInHold : Clause.NothingAcknowledgedInHold := by
  intro s f hoff
  have hnotListening : s.listening = false := by
    have hbus : s.busOn = false := by
      obtain h | h | h := hoff <;> simp [State.busOn, h]
    simp [State.listening, hbus]
  refine ⟨congrArg Host.Outcome.next (by simp [receive, hnotListening]), by simp [State.acknowledges, hnotListening],
    fun hmode x o => ?_⟩
  obtain h | h := hmode <;> simp [send, h, Mode.queues]

/-- Settles O38. -/
theorem acknowledgeSlotsDecided : Obligations.AcknowledgeSlotsDecided :=
  ⟨acknowledgeSlotDecides, nothingAcknowledgedInHold⟩

end Sys2Proof.Machine
end

