-- ==== Sys2Proof/Proofs/EpochExpiry.lean ====
section
/-!
PROOFS. The epoch expiry (R42 to R52, R73 to R85, R126, R140, R145): the readings it takes, the summary it forms, the
records it charges, and the telegrams it offers in their order.
-/
namespace Sys2Proof.Machine

/-! ### The expiry in two parts -/

/-- The filters after they have taken the readings of an expiry. -/
def readFilters (s : State) : Four Filter :=
  Four.build fun i => Filter.take (s.committed.probes.get i) (s.channels.get i) (s.domain.filters.get i)

/-- The summary that an expiry at the present clock forms. -/
def expirySummary (s : State) : Summary := formSummary s (readFilters s)

/-- The state of an expiry before its telegrams. -/
def expirySettled (s : State) : State :=
  { s with
    nextExpiry := s.nextExpiry + s.committed.epoch
    channels := Four.build fun i => (s.channels.get i).taken
    lastSummary := some (expirySummary s)
    domain :=
      { s.domain with
        filters := readFilters s, custody := s.domain.custody.map (stepHolding (expirySummary s)) } }

theorem expire_eq (s : State) :
    expire s =
      if s.mode = .active then expiryTelegrams (expirySettled s) (expirySummary s) else expirySettled s :=
  rfl

theorem exec_epochExpiry_due {s : State} (hrunning : s.running = true) (hruns : s.mode.runsEpochs = true)
    (hnow : s.domain.clock = s.nextExpiry) (hpos : 0 < s.domain.clock) : exec .epochExpiry s = .next (expire s) :=
  congrArg Host.Outcome.next (if_pos (by simp [State.expiryDue, hrunning, hruns, hnow, hnow ▸ hpos]))

/-! ### What offering telegrams can change -/

/-- Nothing but the queue, the line, the beacon hold, the counters and the model's counter differs. -/
def BusOnly (s t : State) : Prop :=
  t = { s with
        freeCount := t.freeCount
        bus :=
          { s.bus with
            line := t.bus.line, queue := t.bus.queue, beaconHold := t.bus.beaconHold, counters := t.bus.counters } }

theorem BusOnly.trans {s t u : State} (h : BusOnly s t) (k : BusOnly t u) : BusOnly s u := by
  unfold BusOnly at h k ⊢
  refine k.trans ?_
  rw [h]

theorem Sends.busOnly {s t : State} {xs : List Letter} (h : Sends s t xs) : BusOnly s t := by
  obtain ⟨hframe, _⟩ := h
  unfold BusOnly
  rw [hframe]
  rfl

theorem sendBeacon_busOnly (s : State) (b : TxTelegram) : BusOnly s (sendBeacon s b) := by
  unfold sendBeacon
  split
  · rfl
  · split
    · rfl
    · exact (sendPlain_sends s b).busOnly

/-! ### Offers behind telegrams that wait already -/

/-- Behind a queue that is not empty nothing is begun: entries, no BEACON among them, are appended and nothing else
changes. -/
def Appends (s t : State) : Prop :=
  s.bus.queue ≠ [] → ∃ added, t = s.withQueue (s.bus.queue ++ added) ∧
    ∀ x ∈ added, x.sending = false ∧ x.spoiled = false ∧ x.telegram.kind ≠ .beacon

theorem Appends.refl (s : State) : Appends s s := fun _ =>
  ⟨[], by rw [List.append_nil]; rfl, fun _ h => nomatch h⟩

theorem Appends.trans {s t u : State} (h : Appends s t) (k : Appends t u) : Appends s u := by
  intro hne
  obtain ⟨a, rfl, ha⟩ := h hne
  obtain ⟨b, rfl, hb⟩ := k (by simp [hne])
  exact ⟨a ++ b, by rw [← List.append_assoc]; rfl, fun x hx => (List.mem_append.mp hx).elim (ha x) (hb x)⟩

theorem send_appends (s : State) {t : TxTelegram} (hkind : t.kind ≠ .beacon) (o : Origin) : Appends s (send s t o).1 := by
  unfold send
  split
  · intro hne
    have hlength : ¬ (s.bus.queue ++ [(⟨t, o, false, false⟩ : TxEntry)]).length = 1 := by
      simpa using hne
    refine ⟨[⟨t, o, false, false⟩], if_neg fun h => hlength h.2, fun x hx => ?_⟩
    obtain rfl := List.mem_singleton.mp hx
    exact ⟨rfl, rfl, hkind⟩
  · exact .refl s

theorem putToBuddy_appends (s : State) (r : Record) : Appends s (putToBuddy s r) := by
  unfold putToBuddy
  split
  · exact .refl s
  · exact send_appends s (by simp) _

theorem rePut_appends (l : List Holding) (s : State) (room : Nat) : Appends s (rePut s room l) := by
  induction l generalizing s room with
  | nil => exact .refl s
  | cons h hs ih =>
    rw [rePut]
    split
    · exact (putToBuddy_appends s h.record).trans (ih _ _)
    · exact ih s room

theorem reDrop_appends (s : State) : Appends s (reDrop s) := by
  unfold reDrop
  split
  · split
    · exact .refl s
    · exact send_appends s (by simp) _
  · exact .refl s

/-! ### The queue as letters -/

/-- Letters that fail a test do not change what of the queue passes it. -/
theorem boxAfter_any (s : State) (p : Letter → Bool) {xs : List Letter} (hxs : ∀ x ∈ xs, p x = false) :
    (s.boxAfter xs).any p = s.outbox.any p := by
  have hposts : ∀ box : List Letter, (xs.foldl post box).any p = box.any p := by
    induction xs with
    | nil => exact fun _ => rfl
    | cons x xs ih =>
      intro box
      have hone : (post box x).any p = box.any p := by
        unfold post
        split
        · simp [hxs x (by simp)]
        · rfl
      exact (ih (fun y hy => hxs y (by simp [hy])) _).trans hone
  unfold State.boxAfter
  split
  · exact hposts s.outbox
  · rfl

/-- A put of an id. -/
def Origin.putOf (id : Nat) : Origin → Bool
  | .mirrorPut x _ => x == id
  | _ => false

/-- A drop of an id. -/
def Origin.dropOf (id : Nat) : Origin → Bool
  | .mirrorDrop x => x == id
  | _ => false

theorem putOutstanding_eq (s : State) (id : Nat) :
    putOutstanding s.bus.queue id = s.outbox.any fun x => x.2.putOf id := by
  rw [State.outbox, List.any_map]
  rfl

theorem dropOutstanding_eq (s : State) (id : Nat) :
    dropOutstanding s.bus.queue id = s.outbox.any fun x => x.2.dropOf id := by
  rw [State.outbox, List.any_map]
  rfl

theorem mem_putLetters {s : State} {r : Record} {x : Letter} (hx : x ∈ s.putLetters r) :
    x.1.kind = .mirrorPut ∧ x.2 = .mirrorPut r.id true := by
  unfold State.putLetters at hx
  obtain ⟨b, _, rfl⟩ := List.mem_map.mp hx
  exact ⟨rfl, rfl⟩

theorem mem_dropLetters {s : State} {id : Nat} {x : Letter} (hx : x ∈ s.dropLetters id) :
    x.1.kind = .mirrorDrop ∧ x.2 = .mirrorDrop id := by
  unfold State.dropLetters at hx
  obtain ⟨b, _, rfl⟩ := List.mem_map.mp hx
  exact ⟨rfl, rfl⟩

theorem Sends.putLetters_eq {s t : State} {xs : List Letter} (h : Sends s t xs) : t.putLetters = s.putLetters := by
  rw [h.1]
  rfl

/-! ### The re-puts and the re-sent drop (R140, R145) -/

/-- A record due for re-put, when `q` is queued. -/
def duePut (q : List TxEntry) (h : Holding) : Bool :=
  h.state == .held && h.record.unmirrored && !putOutstanding q h.record.id

/-- With no two ids alike, a put of one record does not hold back the put of another. -/
theorem rePut_sends (l : List Holding) (s : State) (room : Nat) (hnodup : (l.map (·.record.id)).Nodup) :
    Sends s (rePut s room l) (((l.filter (duePut s.bus.queue)).take room).flatMap fun h => s.putLetters h.record) := by
  induction l generalizing s room with
  | nil => simpa [rePut] using Sends.refl s
  | cons h hs ih =>
    obtain ⟨hnew, htail⟩ := List.nodup_cons.mp hnodup
    by_cases hdue : duePut s.bus.queue h = true
    · cases room with
      | zero =>
        rw [rePut, if_neg fun hc => absurd hc.2.2.2 (Nat.lt_irrefl 0)]
        simpa using ih s 0 htail
      | succ room =>
        have hput := putToBuddy_sends s h.record
        have hcond : h.state = .held ∧ h.record.unmirrored = true ∧
            putOutstanding s.bus.queue h.record.id = false ∧ 0 < room + 1 := by
          simp only [duePut, Bool.and_eq_true, beq_iff_eq, Bool.not_eq_true'] at hdue
          obtain ⟨⟨hheld, hunmirrored⟩, hfree⟩ := hdue
          exact ⟨hheld, hunmirrored, hfree, Nat.succ_pos room⟩
        have hothers : hs.filter (duePut (putToBuddy s h.record).bus.queue) = hs.filter (duePut s.bus.queue) := by
          refine List.filter_congr fun x hx => ?_
          have hid : x.record.id ≠ h.record.id := fun h' => hnew (List.mem_map.mpr ⟨x, hx, h'⟩)
          rw [duePut, duePut, putOutstanding_eq, putOutstanding_eq, hput.2, boxAfter_any]
          intro y hy
          obtain ⟨_, horigin⟩ := mem_putLetters hy
          simp [horigin, Origin.putOf, hid.symm]
        have hrest := ih (putToBuddy s h.record) room htail
        rw [hothers, hput.putLetters_eq] at hrest
        rw [rePut, if_pos hcond, List.filter_cons_of_pos hdue, List.take_succ_cons, List.flatMap_cons]
        exact hput.trans hrest
    · rw [List.filter_cons_of_neg hdue, rePut, if_neg]
      · exact ih s room htail
      · rintro ⟨hheld, hunmirrored, hfree, _⟩
        exact hdue (by simp [duePut, hheld, hunmirrored, hfree])

theorem reDrop_sends (s : State) :
    Sends s (reDrop s)
      (((s.domain.drops.take 1).filter fun id => !dropOutstanding s.bus.queue id).flatMap s.dropLetters) := by
  unfold reDrop
  cases hbuddy : s.committed.buddy with
  | none =>
    rw [List.flatMap_eq_nil_iff.mpr fun id _ => by simp [State.dropLetters, hbuddy]]
    exact Sends.refl s
  | some b =>
    cases hdrops : s.domain.drops with
    | nil => exact Sends.refl s
    | cons id ids =>
      by_cases hout : dropOutstanding s.bus.queue id = true
      · simpa [hout] using Sends.refl s
      · simpa [hout, State.dropLetters, hbuddy] using queueDrop_sends s b id

/-- The state whose BEACON an expiry in ACTIVE offers. -/
def expiryOffered (s : State) : State :=
  reDrop (if s.committed.buddy.isSome then rePut s Config.rePutsPerExpiry s.domain.custody else s)

/-- The puts and the drop of an expiry, in the order of R140. -/
def expiryLetters (s : State) : List Letter :=
  ((s.domain.custody.filter (duePut s.bus.queue)).take 4).flatMap (fun h => s.putLetters h.record) ++
    ((s.domain.drops.take 1).filter fun id => !dropOutstanding s.bus.queue id).flatMap s.dropLetters

theorem expiryTelegrams_eq (s : State) (m : Summary) :
    expiryTelegrams s m = sendBeacon (expiryOffered s) ⟨0, .beacon, beaconBytes (beaconNow (expiryOffered s) m)⟩ :=
  rfl

theorem expiryOffered_sends {s : State} (hlaw : s.custodyLaw) : Sends s (expiryOffered s) (expiryLetters s) := by
  unfold expiryOffered expiryLetters
  have hputs : Sends s (if s.committed.buddy.isSome then rePut s Config.rePutsPerExpiry s.domain.custody else s)
      (((s.domain.custody.filter (duePut s.bus.queue)).take 4).flatMap fun h => s.putLetters h.record) := by
    split
    · exact rePut_sends _ s 4 hlaw.2
    next hnone =>
      rw [List.flatMap_eq_nil_iff.mpr fun h _ => by
        rw [State.putLetters, Option.not_isSome_iff_eq_none.mp hnone]
        rfl]
      exact Sends.refl s
  have hdrop := reDrop_sends (if s.committed.buddy.isSome then rePut s Config.rePutsPerExpiry s.domain.custody else s)
  generalize (if s.committed.buddy.isSome then rePut s Config.rePutsPerExpiry s.domain.custody else s) = t
    at hputs hdrop ⊢
  have hsame : (fun id => !dropOutstanding t.bus.queue id) = fun id => !dropOutstanding s.bus.queue id := by
    funext id
    rw [dropOutstanding_eq, dropOutstanding_eq, hputs.2, boxAfter_any]
    intro y hy
    obtain ⟨h, _, hy⟩ := List.mem_flatMap.mp hy
    obtain ⟨_, horigin⟩ := mem_putLetters hy
    simp [horigin, Origin.dropOf]
  have hfields : t.domain.drops = s.domain.drops ∧ t.dropLetters = s.dropLetters := by
    rw [hputs.1]
    exact ⟨rfl, rfl⟩
  rw [hsame, hfields.1, hfields.2] at hdrop
  exact hputs.trans hdrop

theorem expiryOffered_appends (s : State) : Appends s (expiryOffered s) := by
  unfold expiryOffered
  split
  · exact (rePut_appends _ s _).trans (reDrop_appends _)
  · exact reDrop_appends s

/-- None of the letters before it is a BEACON. -/
theorem expiryLetters_kind {s : State} {x : Letter} (hx : x ∈ expiryLetters s) : (x.1.kind == .beacon) = false := by
  obtain hput | hdrop := List.mem_append.mp hx
  · obtain ⟨h, _, hput⟩ := List.mem_flatMap.mp hput
    rw [(mem_putLetters hput).1]
    rfl
  · obtain ⟨id, _, hdrop⟩ := List.mem_flatMap.mp hdrop
    rw [(mem_dropLetters hdrop).1]
    rfl

theorem expiryOffered_noBeacon {s : State} (hlaw : s.custodyLaw) (hnone : ∀ e ∈ s.bus.queue, e.telegram.kind ≠ .beacon) :
    ∀ e ∈ (expiryOffered s).bus.queue, e.telegram.kind ≠ .beacon := by
  have hany : ((expiryOffered s).outbox.any fun x => x.1.kind == .beacon) = false := by
    rw [(expiryOffered_sends hlaw).2, boxAfter_any s _ fun x hx => expiryLetters_kind hx, State.outbox, List.any_map]
    simpa [List.any_eq_false, TxEntry.letter] using hnone
  rw [State.outbox, List.any_map] at hany
  simpa [List.any_eq_false, TxEntry.letter] using hany

/-! ### What an expiry leaves -/

theorem BusOnly.fields {s t : State} (h : BusOnly s t) :
    t.domain = s.domain ∧ t.lastSummary = s.lastSummary ∧ t.nextExpiry = s.nextExpiry ∧ t.channels = s.channels ∧
    t.bus.rx = s.bus.rx ∧ t.putLetters = s.putLetters ∧ t.alertReasons = s.alertReasons := by
  rw [h]
  exact ⟨rfl, rfl, rfl, rfl, rfl, rfl, rfl⟩

theorem expiryTelegrams_busOnly (s : State) (m : Summary) : BusOnly s (expiryTelegrams s m) := by
  have hputs : ∀ (l : List Holding) (s : State) (room : Nat), BusOnly s (rePut s room l) := by
    intro l
    induction l with
    | nil => exact fun s room => rfl
    | cons h hs ih =>
      intro s room
      rw [rePut]
      split
      · exact (putToBuddy_sends s h.record).busOnly.trans (ih _ _)
      · exact ih s room
  have hoffered : BusOnly s (expiryOffered s) := by
    unfold expiryOffered
    split
    · exact (hputs _ s _).trans (reDrop_sends _).busOnly
    · exact (reDrop_sends s).busOnly
  rw [expiryTelegrams_eq]
  exact hoffered.trans (sendBeacon_busOnly _ _)

theorem expire_busOnly (s : State) : BusOnly (expirySettled s) (expire s) := by
  rw [expire_eq]
  split
  · exact expiryTelegrams_busOnly _ _
  · rfl

/-! ### The readings and the summary (R44 to R50) -/

theorem filterTake_disabled {p : ProbeSetup} (hdisabled : p.enabled = false) (c : Channel) (f : Filter) :
    Filter.take p c f = f := by
  simp [Filter.take, hdisabled]

section Enabled
variable {p : ProbeSetup} (henabled : p.enabled = true) {c : Channel} (f : Filter)
include henabled

theorem filterTake_fresh {r : Reading} {v : Temperature} (hreading : c.reading = some r) (hfresh : r.fresh = true)
    (hvalue : r.status.value? = some v) : Filter.take p c f =
      { f with value := if f.seeded then filterStep p.k f.value v else v, seeded := true, used := true } := by
  have hv : c.freshValue? = some v := by simp [Channel.freshValue?, hreading, hfresh, hvalue]
  simp [Filter.take, henabled, hv]

theorem filterTake_missed (hno : ∀ r ∈ c.reading, r.fresh = false ∨ r.status.value? = none) :
    Filter.take p c f = { f with missed := min (f.missed + 1) 65535, used := false } := by
  have hnone : c.freshValue? = none := by
    unfold Channel.freshValue?
    cases hr : c.reading with
    | none => rfl
    | some r =>
      obtain hstale | hvalue := hno r hr
      · simp [hstale]
      · simp [hvalue]
  simp [Filter.take, henabled, hnone, satAdd, Config.max16]

end Enabled

theorem isGrace_iff (p : TrackerPhase) : p.isGrace = true ↔ ∃ w, p = .grace w := by
  cases p <;> simp [TrackerPhase.isGrace]

theorem mem_countedValues (u : Setup) (fs : Four Filter) (v : Temperature) :
    v ∈ countedValues u fs ↔
      ∃ i, (u.probes.get i).counted = true ∧ (fs.get i).used = true ∧ (fs.get i).value = v := by
  have hall : ∀ i : Fin 4, i ∈ ([0, 1, 2, 3] : List (Fin 4)) := by decide
  simp only [countedValues, List.mem_filterMap, Option.ite_none_right_eq_some, Bool.and_eq_true, Option.some.injEq]
  exact ⟨fun ⟨i, _, ⟨hcounted, hused⟩, hv⟩ => ⟨i, hcounted, hused, hv⟩,
    fun ⟨i, hcounted, hused, hv⟩ => ⟨i, hall i, ⟨hcounted, hused⟩, hv⟩⟩

/-- The greatest of a list, found by folding, is above every element and is one of them. -/
theorem foldl_max_spec {α : Type} [LinearOrder α] (vs : List α) (v : α) :
    (∀ x ∈ v :: vs, x ≤ vs.foldl max v) ∧ vs.foldl max v ∈ v :: vs := by
  induction vs generalizing v with
  | nil => simp
  | cons w ws ih =>
    obtain ⟨habove, hmem⟩ := ih (max v w)
    have hmax : max v w ≤ ws.foldl max (max v w) := habove _ List.mem_cons_self
    refine ⟨fun x hx => ?_, ?_⟩
    · simp only [List.mem_cons] at hx
      obtain rfl | rfl | hx := hx
      · exact (le_max_left _ _).trans hmax
      · exact (le_max_right _ _).trans hmax
      · exact habove x (List.mem_cons_of_mem _ hx)
    · rw [List.foldl_cons]
      obtain heq | htail := List.mem_cons.mp hmem
      · rw [heq]
        obtain h | h := max_choice v w <;> simp [h]
      · simp [htail]

theorem summaryTemps_eq_none (l : List Temperature) : summaryTemps l = none ↔ l = [] := by
  cases l <;> simp [summaryTemps]

/-- Rwarm and Rcold are the greatest and the least of the values. -/
theorem summaryTemps_spec {l : List Temperature} {x : Temps} (h : summaryTemps l = some x) :
    (∀ v ∈ l, x.cold ≤ v ∧ v ≤ x.warm) ∧ x.warm ∈ l ∧ x.cold ∈ l := by
  cases l with
  | nil => exact nomatch h
  | cons v vs =>
    obtain rfl := Option.some.inj h
    obtain ⟨habove, hwarm⟩ := foldl_max_spec (α := Int) vs v
    obtain ⟨hbelow, hcold⟩ := foldl_max_spec (α := Intᵒᵈ) vs v
    exact ⟨fun w hw => ⟨hbelow w hw, habove w hw⟩, hwarm, hcold⟩

/-- Settles O20: the telegrams of the expiry leave what its readings have formed. -/
theorem expiryFormsSummary : Obligations.ExpiryFormsSummary := by
  intro s hrunning hruns hnow hpos
  obtain ⟨hdomain, hlast, hnext, hchannels, -⟩ := (expire_busOnly s).fields
  have hfilter : ∀ i, (expire s).domain.filters.get i =
      Filter.take (s.committed.probes.get i) (s.channels.get i) (s.domain.filters.get i) := fun i => by
    rw [hdomain]
    exact Four.get_build _ i
  have hfilters : readFilters s = (expire s).domain.filters := by
    rw [hdomain]
    rfl
  refine ⟨expire s, expirySummary s, exec_epochExpiry_due hrunning hruns hnow hpos, hlast, hnext, by rw [hdomain]; rfl,
    fun i => ⟨?channel, fun hdisabled => ?kept, fun henabled => ⟨fun r v hreading hfresh hvalue => ?fresh,
      fun hno => ?missed⟩, ?used⟩, rfl, rfl, rfl, isGrace_iff _, ?none, fun x hx => ?some⟩
  case channel =>
    rw [hchannels]
    exact Four.get_build _ i
  case kept => rw [hfilter, filterTake_disabled hdisabled]
  case fresh => rw [hfilter, filterTake_fresh henabled _ hreading hfresh hvalue]
  case missed => rw [hfilter, filterTake_missed henabled _ hno]
  case used =>
    rw [← hfilters]
    exact Four.get_build _ i
  case none =>
    show summaryTemps (countedValues s.committed (readFilters s)) = none ↔ _
    rw [summaryTemps_eq_none, hfilters, List.eq_nil_iff_forall_not_mem]
    exact ⟨fun h i ⟨hcounted, hused⟩ => h _ ((mem_countedValues _ _ _).mpr ⟨i, hcounted, hused, rfl⟩),
      fun h v hv => (let ⟨i, hcounted, hused, _⟩ := (mem_countedValues _ _ _).mp hv; h i ⟨hcounted, hused⟩)⟩
  case some =>
    have hspec := summaryTemps_spec (show summaryTemps (countedValues s.committed (readFilters s)) = some x from hx)
    rw [hfilters] at hspec
    obtain ⟨hbounds, hwarm, hcold⟩ := hspec
    exact ⟨fun i hcounted hused => hbounds _ ((mem_countedValues _ _ _).mpr ⟨i, hcounted, hused, rfl⟩),
      (mem_countedValues _ _ _).mp hwarm, (mem_countedValues _ _ _).mp hcold⟩

/-! ### The records (R73 to R85) -/

/-- A HELD record is charged the seconds since its accounted-to, when there are any; another stays as it was. -/
theorem stepHolding_eq (m : Summary) (h : Holding) :
    stepHolding m h =
      if h.state = .held then
        { h with
          record :=
            if m.time ≤ h.accountedTo then h.record
            else charge h.record m.temps m.grace (m.time - h.accountedTo) m.time
          accountedTo := m.time }
      else h := by
  unfold stepHolding
  cases hstate : h.state with
  | held =>
    by_cases hle : m.time ≤ h.accountedTo
    · simp [hle]
    · have hsecs : ¬ m.time - h.accountedTo = 0 := by omega
      simp [hle, hsecs]
  | _ => simp

/-- Settles O21. -/
theorem expiryStepsHeldRecords : Obligations.ExpiryStepsHeldRecords := by
  intro s hrunning hruns hnow hpos
  have hbus := expire_busOnly s
  obtain ⟨hdomain, hlast, -⟩ := hbus.fields
  refine ⟨expire s, expirySummary s, exec_epochExpiry_due hrunning hruns hnow hpos, hlast, ?_, fun hmode => ?_, ?_⟩
  · refine Eq.trans hbus ?_
    rw [hbus]
    rfl
  · rw [expire_eq, if_neg hmode]
    exact ⟨rfl, rfl⟩
  · rw [hdomain]
    exact List.map_congr_left fun h _ => stepHolding_eq _ h

/-! ### The telegrams (R52, R120, R126, R140, R145) -/

theorem expirySettled_custodyLaw {s : State} (hlaw : s.custodyLaw) : (expirySettled s).custodyLaw := by
  have hids : (s.domain.custody.map (stepHolding (expirySummary s))).map (·.record.id) =
      s.domain.custody.map (·.record.id) := by
    rw [List.map_map]
    exact List.map_congr_left fun h _ => (stepHolding_facts _ h s.domain.clock rfl).1
  unfold State.custodyLaw expirySettled
  rw [hids, List.length_map]
  exact hlaw


/-- The BEACON of an expiry in ACTIVE. -/
def expiryBeacon (s : State) : TxTelegram :=
  ⟨0, .beacon, beaconBytes (beaconNow (expirySettled s) (expirySummary s))⟩

/-- In ACTIVE the puts and the drop are offered, then the BEACON. -/
theorem expire_active {s : State} (hmode : s.mode = .active) (hlaw : s.custodyLaw) :
    expire s = sendBeacon (expiryOffered (expirySettled s)) (expiryBeacon s) := by
  obtain ⟨hframe, _⟩ := expiryOffered_sends (expirySettled_custodyLaw hlaw)
  have hbeacon : beaconNow (expiryOffered (expirySettled s)) (expirySummary s) =
      beaconNow (expirySettled s) (expirySummary s) := by
    rw [hframe]
    rfl
  rw [expire_eq, if_pos hmode, expiryTelegrams_eq, hbeacon]
  rfl

/-- The content of the BEACON in the terms of the state before the expiry (TABLE 7-7). -/
theorem beaconNow_settled {s : State} (hmode : s.mode = .active) :
    beaconNow (expirySettled s) (expirySummary s) =
      { tripId := s.tripNumber, clock := s.domain.clock, compartment := s.compartment
        epoch := s.committed.epoch, sequence := (expirySummary s).sequence, temps := (expirySummary s).temps
        grace := (expirySummary s).grace, used := (expirySummary s).used
        mode := 3, restartCount := s.domain.restartCount, resetCause := s.resetCause.code
        custodyCount := s.domain.custody.length, alerts := (expire s).alertReasons
        doors := ([0, 1, 2, 3] : List (Fin 4)).filterMap fun i =>
          match s.committed.doorOf i, (s.inputs.get i).accepted with
          | some d, some a => some ⟨d, a, (s.inputs.get i).count⟩
          | _, _ => none } := by
  obtain ⟨-, -, -, -, -, -, halerts⟩ := (expire_busOnly s).fields
  have hcode : (expirySettled s).mode.code = 3 := congrArg Mode.code hmode
  have hcount : (expirySettled s).domain.custody.length = s.domain.custody.length := List.length_map _
  rw [beaconNow, hcode, hcount, halerts]
  rfl

/-- Settles O23: the puts and the drop are appended, and the BEACON is offered to the queue as it then stands. -/
theorem expiryOffersTelegramsInOrder : Obligations.ExpiryOffersTelegramsInOrder := by
  intro s hrunning hmode hnow hpos hlaw
  have hsettled := expirySettled_custodyLaw hlaw
  obtain ⟨hdomain, hlast, -, -, hrx, hputs, -⟩ := (expire_busOnly s).fields
  have hsends := expiryOffered_sends hsettled
  refine ⟨expire s, expirySummary s, exec_epochExpiry_due hrunning (by rw [hmode]; rfl) hnow hpos, hlast,
    by rw [hdomain]; rfl, hrx, ?_⟩
  intro due drop beacon letters b replaced
  have hletters : letters = expiryLetters (expirySettled s) := by
    simp only [letters, due, hputs, hdomain]
    rfl
  have hb : b = expiryBeacon s := congrArg (fun x => (⟨0, .beacon, beaconBytes x⟩ : TxTelegram)) (beaconNow_settled hmode).symm
  rw [hletters, hb]
  refine ⟨fun hnone => ?_, fun before e after hq hkind hothers => ?_⟩
  · have hplain : expire s = sendPlain (expiryOffered (expirySettled s)) (expiryBeacon s) :=
      (expire_active hmode hlaw).trans (sendBeacon_of_none (expiryOffered_noBeacon hsettled hnone) _)
    have hall : Sends (expirySettled s) (expire s) (expiryLetters (expirySettled s) ++ [(expiryBeacon s, .plain)]) := by
      rw [hplain]
      exact hsends.trans (sendPlain_sends _ _)
    obtain ⟨-, -, -, -, -, -, -, -, -, -, hcounters, hhold, -⟩ := hall.fields
    exact ⟨hcounters, hhold, hall.2⟩
  · have hne : (expirySettled s).bus.queue ≠ [] := by
      show s.bus.queue ≠ []
      simp [hq]
    obtain ⟨added, happended, hadded⟩ := expiryOffered_appends (expirySettled s) hne
    have hqueue : (expiryOffered (expirySettled s)).bus.queue = before ++ e :: (after ++ added) := by
      rw [happended]
      show s.bus.queue ++ added = _
      rw [hq, List.append_assoc, List.cons_append]
    have hothers' : ∀ x ∈ before ++ (after ++ added), x.telegram.kind ≠ .beacon := by
      intro x hx
      rw [← List.append_assoc] at hx
      exact (List.mem_append.mp hx).elim (hothers x) fun h => (hadded x h).2.2
    refine ⟨added, ?_, fun x hx => ⟨(hadded x hx).1, (hadded x hx).2.1⟩, fun hwaiting => ?_, fun hsending => ?_⟩
    · calc s.boxAfter (expiryLetters (expirySettled s))
          = (expiryOffered (expirySettled s)).outbox := hsends.2.symm
        _ = s.outbox ++ added.map TxEntry.letter := by
          rw [happended]
          exact List.map_append
    · rw [expire_active hmode hlaw, sendBeacon_of_waiting hqueue hkind hothers' hwaiting, happended]
      rfl
    · rw [expire_active hmode hlaw, sendBeacon_of_sending hqueue hkind hothers' hsending, happended]
      rfl

end Sys2Proof.Machine
end

