-- ==== Sys2Proof/Proofs/ConsoleRequests.lean ====
section
/-!
PROOFS. The requests of consoles that change the trip and the Custody Table: TRIP-START (R166), TRIP-END (R168), LOAD
(R16 to R18) and RELEASE (R155 to R158), with the order of the tests of LOAD, MOVE and RELEASE.
-/
namespace Sys2Proof.Machine

/-! ### Requests that are only answered -/

/-- A request that its handler answers at once, with nothing else changed. -/
theorem answeredOnly {c : Instr} {s : State} {k : Kind} {m : RxTelegram} {rest : List RxTelegram}
    {deal : RxTelegram → State → State} {r : Result} {body : List Byte} (hfront : s.front k m rest)
    (hexec : exec c s = .next (taking k s deal))
    (hdeal : deal m (s.withRx rest) = answer (s.withRx rest) m r body) :
    AnsweredOnly c s rest (replyLetter m.sender k r body) := by
  have hkind : m.kind = k := hfront.2.2
  refine ⟨answer (s.withRx rest) m r body, ?_, hkind ▸ answer_sends _ m r body⟩
  rw [hexec, taking_front s k m rest deal hfront, hdeal]

theorem refusal_of_active {m : Mode} (h : m = .active) : m.refusal = none := by
  rw [h]
  rfl

theorem refusal_of_starting {m : Mode} (h : m = .starting) : m.refusal = some .busy := by
  rw [h]
  rfl

theorem refusal_of_other {m : Mode} (hstarting : m ≠ .starting) (hactive : m ≠ .active) :
    m.refusal = some .notActive := by
  cases m with
  | starting => exact absurd rfl hstarting
  | active => exact absurd rfl hactive
  | _ => rfl

theorem firstTrue_nil : firstTrue [] = none := rfl

theorem firstTrue_cons (b : Bool) (r : Result) (l : List (Bool × Result)) :
    firstTrue ((b, r) :: l) = if b then some r else firstTrue l := by
  cases b <;> rfl

/-! ### TRIP-END (R168) -/

/-- Settles O26: each clause is a branch of the handler. -/
theorem tripEndBeginsWriteOrRefused : Obligations.TripEndBeginsWriteOrRefused := by
  intro s m rest hfront answered
  have hanswered : ∀ r, takeTripEnd m (s.withRx rest) = answer (s.withRx rest) m r [] → answered r :=
    fun r h => answeredOnly hfront rfl h
  refine ⟨fun hlength hmode hcustody hmirror => ?_, fun hlength => hanswered _ ?_, fun hlength hmode => hanswered _ ?_,
    fun hlength hstarting hactive => hanswered _ ?_, fun hlength hmode htables => hanswered _ ?_⟩
  · have hdeal : takeTripEnd m (s.withRx rest) = { s.withRx rest with
        mode := .ending, storeWrite := some ⟨s.store.setup, s.store.tripId, .ended, .tripEnd m.sender⟩ } := by
      simp [takeTripEnd, hlength, refusal_of_active hmode, hcustody, hmirror]
    exact congrArg Host.Outcome.next ((taking_front s .tripEnd m rest takeTripEnd hfront).trans hdeal)
  · simp [takeTripEnd, hlength]
  · simp [takeTripEnd, hlength, refusal_of_starting hmode]
  · simp [takeTripEnd, hlength, refusal_of_other hstarting hactive]
  · simp only [takeTripEnd, hlength, State.withRx_mode, refusal_of_active hmode, ne_eq, not_true_eq_false, if_false]
    exact if_pos htables

/-! ### TRIP-START (R166) -/

theorem exists_four_toList {α : Type} (v : Four α) (p : α → Prop) : (∃ x ∈ v.toList, p x) ↔ ∃ i, p (v.get i) := by
  constructor
  · rintro ⟨x, hx, hp⟩
    simp only [Four.toList, List.mem_cons, List.not_mem_nil, or_false] at hx
    obtain rfl | rfl | rfl | rfl := hx
    exacts [⟨0, hp⟩, ⟨1, hp⟩, ⟨2, hp⟩, ⟨3, hp⟩]
  · rintro ⟨i, hp⟩
    refine ⟨v.get i, ?_, hp⟩
    fin_cases i <;> simp [Four.get, Four.toList]

theorem noCountedProbe_iff (u : Setup) : noCountedProbe u = true ↔
    ∀ i, ¬ ((u.probes.get i).enabled = true ∧ (u.probes.get i).counted = true) := by
  rw [noCountedProbe, Bool.not_eq_true', ← Bool.not_eq_true, List.any_eq_true, exists_four_toList u.probes
    (fun p => (p.enabled && p.counted) = true)]
  simp only [Bool.and_eq_true, not_exists]

/-- Three reasons in three bits. -/
theorem threeBits (a b c : Bool) :
    bit a 1 + bit b 2 + bit c 4 < 8 ∧ (bit a 1 + bit b 2 + bit c 4).testBit 0 = a ∧
    (bit a 1 + bit b 2 + bit c 4).testBit 1 = b ∧ (bit a 1 + bit b 2 + bit c 4).testBit 2 = c ∧
    (bit a 1 + bit b 2 + bit c 4 = 0 ↔ a = false ∧ b = false ∧ c = false) := by
  revert a b c
  decide

/-- The reasons byte of SETUP_INVALID: one bit for each test of the staged setup that fails. -/
theorem setupFaults_bits (s : State) :
    setupFaults s < 8 ∧ ((setupFaults s).testBit 0 = true ↔ s.staged.compartment = none) ∧
    ((setupFaults s).testBit 1 = true ↔
      ∀ i, ¬ ((s.staged.probes.get i).enabled = true ∧ (s.staged.probes.get i).counted = true)) ∧
    ((setupFaults s).testBit 2 = true ↔ s.staged.buddy = some s.address) ∧
    (setupFaults s = 0 ↔ s.staged.compartment ≠ none ∧
      ¬ (∀ i, ¬ ((s.staged.probes.get i).enabled = true ∧ (s.staged.probes.get i).counted = true)) ∧
      s.staged.buddy ≠ some s.address) := by
  obtain ⟨hbound, hunset, huncounted, hown, hzero⟩ :=
    threeBits s.staged.compartment.isNone (noCountedProbe s.staged) (s.staged.buddy == some s.address)
  have hcompartment : s.staged.compartment.isNone = true ↔ s.staged.compartment = none := Option.isNone_iff_eq_none
  have hbuddy : (s.staged.buddy == some s.address) = true ↔ s.staged.buddy = some s.address := beq_iff_eq
  refine ⟨hbound, (Bool.eq_iff_iff.mp hunset).trans hcompartment,
    (Bool.eq_iff_iff.mp huncounted).trans (noCountedProbe_iff _), (Bool.eq_iff_iff.mp hown).trans hbuddy,
    hzero.trans ?_⟩
  rw [← Bool.not_eq_true, ← Bool.not_eq_true, ← Bool.not_eq_true, hcompartment, hbuddy, noCountedProbe_iff]

/-- An enabled class whose limits contradict one another (R166). -/
theorem classInconsistent_eq (c : ClassSetup) : classInconsistent c = (c.enabled && decide
    ((∃ x ∈ c.limits.cold, c.limits.tmax ≤ x.tmin) ∨ (∃ x ∈ c.limits.ceiling, x < c.limits.tmax) ∨
      ∃ x ∈ c.limits.cold, ∃ f ∈ c.limits.floor, x.tmin < f)) := by
  rw [Bool.eq_iff_iff]
  simp only [classInconsistent, Bool.and_eq_true, Bool.or_eq_true, Option.any_eq_true, decide_eq_true_eq, or_assoc,
    Option.mem_def]

theorem disabled_if (c : ClassSetup) (b : Bool) :
    (if c.enabled && b then { c with enabled := false } else c) = { c with enabled := c.enabled && !b } := by
  obtain ⟨enabled, limits⟩ := c
  cases enabled <;> cases b <;> rfl

theorem checkedClasses_eq (cs : List ClassSetup) : checkedClasses cs = cs.map fun c =>
    { c with
      enabled := c.enabled && !decide
        ((∃ x ∈ c.limits.cold, c.limits.tmax ≤ x.tmin) ∨ (∃ x ∈ c.limits.ceiling, x < c.limits.tmax) ∨
          ∃ x ∈ c.limits.cold, ∃ f ∈ c.limits.floor, x.tmin < f) } := by
  refine List.map_congr_left fun c _ => ?_
  rw [classInconsistent_eq]
  exact disabled_if c _

/-- Bit i of the mask is set for class i exactly when that class is inconsistent. -/
theorem disabledMask_testBit (cs : List ClassSetup) (i : Nat) :
    (disabledMask cs).testBit i = true ↔ ∃ c, cs[i]? = some c ∧ classInconsistent c = true := by
  induction cs generalizing i with
  | nil => simp [disabledMask]
  | cons c cs ih =>
    have hmod : ∀ (b : Bool) (n : Nat), (bit b 1 + 2 * n).testBit 0 = b ∧ (bit b 1 + 2 * n) / 2 = n := by
      intro b n
      cases b
      · simp [bit]
      · simp [bit, Nat.testBit_zero]
        omega
    obtain ⟨hlow, hhigh⟩ := hmod (classInconsistent c) (disabledMask cs)
    cases i with
    | zero => simp [disabledMask, hlow]
    | succ i => simp [disabledMask, Nat.testBit_succ, hhigh, ih]

/-- A class is inconsistent exactly when the check turns it from enabled to disabled. -/
theorem inconsistent_iff_disabled (cs : List ClassSetup) (i : Nat) :
    (∃ c, cs[i]? = some c ∧ classInconsistent c = true) ↔
      ∃ c c', cs[i]? = some c ∧ (checkedClasses cs)[i]? = some c' ∧ c.enabled = true ∧ c'.enabled = false := by
  simp only [checkedClasses, List.getElem?_map]
  constructor
  · rintro ⟨c, hc, hbad⟩
    have henabled : c.enabled = true := by
      rw [classInconsistent, Bool.and_eq_true] at hbad
      exact hbad.1
    exact ⟨c, { c with enabled := false }, hc, by simp [hc, hbad], henabled, rfl⟩
  · rintro ⟨c, c', hc, hc', henabled, hdisabled⟩
    refine ⟨c, hc, ?_⟩
    rw [hc, Option.map_some] at hc'
    obtain rfl := Option.some.inj hc'
    by_contra hgood
    rw [if_neg hgood, henabled] at hdisabled
    exact nomatch hdisabled

theorem takeTripStart_of_tests {s : State} {m : RxTelegram} (hlength : m.payload.length = 4)
    (hid : field m.payload 0 4 ≠ 0) (hmode : s.mode = .idle) (hfaults : setupFaults s = 0) :
    takeTripStart m s =
      { s with
        mode := .starting
        staged := { s.staged with classes := checkedClasses s.staged.classes }
        storeWrite := some ⟨{ s.staged with classes := checkedClasses s.staged.classes }, some (field m.payload 0 4),
          .running, .tripStart m.sender (disabledMask s.staged.classes)⟩
        domain := { s.domain with tripId := none } } := by
  simp [takeTripStart, hlength, hid, hmode, hfaults]

theorem tripStartBeginsWrite : Clause.TripStartBeginsWrite := by
  intro s m rest hfront hmode hlength hid hcompartment hcounted hbuddy
  obtain ⟨-, -, -, -, hzero⟩ := setupFaults_bits (s.withRx rest)
  obtain ⟨i, hi⟩ := hcounted
  have hfaults : setupFaults (s.withRx rest) = 0 := hzero.mpr ⟨hcompartment, fun hno => hno i hi, hbuddy⟩
  have htake := takeTripStart_of_tests (s := s.withRx rest) hlength hid hmode hfaults
  refine ⟨_, _, congrArg Host.Outcome.next ((taking_front s .tripStart m rest takeTripStart hfront).trans htake), rfl,
    rfl, rfl, rfl, rfl, ⟨_, rfl, fun i => ?_⟩, checkedClasses_eq _⟩
  rw [disabledMask_testBit]
  exact inconsistent_iff_disabled _ i

theorem tripStartRefusedInOrder : Clause.TripStartRefusedInOrder := by
  intro s m rest hfront id body unset uncounted ownBuddy answered
  have hanswered : ∀ r b, takeTripStart m (s.withRx rest) = answer (s.withRx rest) m r b → answered r b :=
    fun r b h => answeredOnly hfront rfl h
  refine ⟨fun hlength => hanswered _ _ ?_, fun hlength hid => hanswered _ _ ?_, fun hlength hid hmode => hanswered _ _ ?_,
    fun hlength hid hmode htrip => hanswered _ _ ?_, fun hlength hid hstarting hidle hother => hanswered _ _ ?_,
    fun hlength hid hmode hfault => ?_⟩
  · simp [takeTripStart, hlength]
  · have hid' : field m.payload 0 4 = 0 := hid
    simp [takeTripStart, hlength, hid', body, id]
  · have hid' : ¬ field m.payload 0 4 = 0 := hid
    simp [takeTripStart, hlength, hid', hmode, body, id]
  · have hid' : ¬ field m.payload 0 4 = 0 := hid
    have htrip' : s.store.tripId = some (field m.payload 0 4) := htrip
    simp [takeTripStart, hlength, hid', hmode, htrip', body, id]
  · have hid' : ¬ field m.payload 0 4 = 0 := hid
    have hother' : ¬ (s.mode = .active ∧ s.store.tripId = some (field m.payload 0 4)) := hother
    simp only [takeTripStart, hlength, hid', State.withRx_mode, State.withRx_store, hstarting, hidle, hother', ne_eq,
      not_true_eq_false, not_false_eq_true, if_false, if_true]
    rfl
  · obtain ⟨hbound, hunset, huncounted, hown, hzero⟩ := setupFaults_bits (s.withRx rest)
    have hid' : ¬ field m.payload 0 4 = 0 := hid
    have hfaults : ¬ setupFaults (s.withRx rest) = 0 := fun h => by
      obtain ⟨hset, hcounted, hbuddy⟩ := hzero.mp h
      exact hfault.elim hset fun h => h.elim hcounted hbuddy
    refine ⟨setupFaults (s.withRx rest), hbound, hunset, huncounted, hown, hanswered _ _ ?_⟩
    simp [takeTripStart, hlength, hid', hmode, hfaults, body, id]

/-- Settles O25. -/
theorem tripStartTestedAndTaken : Obligations.TripStartTestedAndTaken :=
  ⟨tripStartBeginsWrite, tripStartRefusedInOrder⟩

/-! ### The tests that LOAD, MOVE and RELEASE begin with -/

/-- A request whose length, mode and operands are tested before what else its handler looks at. -/
def request (s : State) (m : RxTelegram) (wrong bad : Prop) [Decidable wrong] [Decidable bad] (body : List Byte)
    (handled : State) : State :=
  if wrong then answer s m .badRequest []
  else
    match s.mode.refusal with
    | some r => answer s m r body
    | none => if bad then answer s m .badRequest body else handled

section Request
variable {s : State} {m : RxTelegram} {wrong bad : Prop} [Decidable wrong] [Decidable bad] {body : List Byte}
  {handled : State}

theorem request_of_active (hlength : ¬ wrong) (hmode : s.mode = .active) (hgood : ¬ bad) :
    request s m wrong bad body handled = handled := by
  simp only [request, if_neg hlength, refusal_of_active hmode, if_neg hgood]

/-- The first test that fails decides the REPLY; only the wrong length is answered with an empty body. -/
theorem request_refused {w b : Bool} {tests : List (Bool × Result)} {code : Result} (hw : w = true ↔ wrong)
    (hb : b = true ↔ bad)
    (hcode : firstTrue ((w, .badRequest) :: (s.mode == .starting, .busy) :: (s.mode != .active, .notActive) ::
      (b, .badRequest) :: tests) = some code)
    (hhandled : s.mode = .active → firstTrue tests = some code → handled = answer s m code body) :
    request s m wrong bad body handled = answer s m code (if w then [] else body) := by
  simp only [firstTrue_cons] at hcode
  split at hcode
  next hwrong =>
    obtain rfl := Option.some.inj hcode
    rw [request, if_pos (hw.mp hwrong), if_pos hwrong]
  next hlength =>
  rw [if_neg hlength]
  split at hcode
  next hmode =>
    obtain rfl := Option.some.inj hcode
    simp only [request, if_neg (mt hw.mpr hlength), refusal_of_starting (beq_iff_eq.mp hmode)]
  next hstarting =>
  split at hcode
  next hmode =>
    obtain rfl := Option.some.inj hcode
    simp only [request, if_neg (mt hw.mpr hlength),
      refusal_of_other (mt beq_iff_eq.mpr hstarting) (bne_iff_ne.mp hmode)]
  next hactive =>
  have hmode : s.mode = .active := by simpa using hactive
  split at hcode
  next hbad =>
    obtain rfl := Option.some.inj hcode
    simp only [request, if_neg (mt hw.mpr hlength), refusal_of_active hmode, if_pos (hb.mp hbad)]
  next hgood =>
    rw [request_of_active (mt hw.mpr hlength) hmode (mt hb.mpr hgood), hhandled hmode hcode]

end Request

/-! ### LOAD (R16 to R18) -/

/-- The state in which a LOAD has admitted its record, before its telegrams. -/
def State.loaded (s : State) (m : RxTelegram) (l : Limits) : State :=
  s.admitHeld ⟨loadedRecord s m.payload l, s.domain.clock, .held⟩

/-- The put and the REPLY of an accepted LOAD, in their order (log entry 48). -/
def loadTelegrams (s : State) (m : RxTelegram) (l : Limits) : State :=
  answer (putToBuddy (s.loaded m l) (loadedRecord s m.payload l)) m .ok
    (beBytes 6 (field m.payload 0 6) ++ beBytes 1 (loadedRecord s m.payload l).verdict.rank ++
      beBytes 1 (s.loaded m l).domain.custody.length)

/-- What a LOAD does once its length, its mode and its id have passed. -/
def loadHandled (s : State) (m : RxTelegram) : State :=
  match s.enabledClass (field m.payload 6 1) with
  | none => answer s m .unknownClass (beBytes 6 (field m.payload 0 6))
  | some l =>
    if (s.find (field m.payload 0 6)).isSome then answer s m .duplicate (beBytes 6 (field m.payload 0 6))
    else if Config.custodySlots ≤ s.domain.custody.length then answer s m .tableFull (beBytes 6 (field m.payload 0 6))
    else loadTelegrams s m l

theorem takeLoad_eq (s : State) (m : RxTelegram) : takeLoad m s =
    request s m (m.payload.length ≠ 7 ∧ m.payload.length ≠ 23) (field m.payload 0 6 = 0)
      (beBytes 6 (field m.payload 0 6)) (loadHandled s m) :=
  rfl

theorem enabledClass_eq_none (s : State) (i : Nat) :
    s.enabledClass i = none ↔ (!(s.committed.classes[i]?.any (·.enabled))) = true := by
  unfold State.enabledClass
  cases s.committed.classes[i]? with
  | none => simp
  | some c => cases h : c.enabled <;> simp [h]

theorem enabledClass_of_enabled {s : State} {i : Nat} {l : Limits} (h : s.committed.classes[i]? = some ⟨true, l⟩) :
    s.enabledClass i = some l := by
  simp [State.enabledClass, h]

theorem find_isSome_eq_any (s : State) (id : Nat) :
    (s.find id).isSome = s.domain.custody.any (·.record.id == id) := by
  rw [Bool.eq_iff_iff, find_isSome_iff]
  simp

theorem loadHandled_refused {s : State} {m : RxTelegram} {code : Result}
    (hcode : firstTrue
      [(!(s.committed.classes[field m.payload 6 1]?.any (·.enabled)), .unknownClass),
        (s.domain.custody.any (·.record.id == field m.payload 0 6), .duplicate),
        (decide (48 ≤ s.domain.custody.length), .tableFull)] = some code) :
    loadHandled s m = answer s m code (beBytes 6 (field m.payload 0 6)) := by
  simp only [firstTrue_cons, firstTrue_nil, ← find_isSome_eq_any, decide_eq_true_eq] at hcode
  unfold loadHandled
  split at hcode
  next hclass =>
    obtain rfl := Option.some.inj hcode
    rw [(enabledClass_eq_none _ _).mpr hclass]
  next hclass =>
  obtain ⟨l, hl⟩ := Option.ne_none_iff_exists'.mp (mt (enabledClass_eq_none _ _).mp hclass)
  rw [hl]
  dsimp only
  split at hcode
  next hknown =>
    obtain rfl := Option.some.inj hcode
    rw [if_pos hknown]
  next hnew =>
    obtain ⟨hfull, hfullCode⟩ := Option.ite_none_right_eq_some.mp hcode
    rw [if_neg hnew, ← Option.some.inj hfullCode]
    exact if_pos hfull

theorem loadRefusedInOrder : Clause.LoadRefusedInOrder := by
  intro s m rest code hfront id wrongLength hcode
  refine answeredOnly hfront rfl ?_
  have hlength : wrongLength = true ↔ m.payload.length ≠ 7 ∧ m.payload.length ≠ 23 := by simp [wrongLength]
  rw [takeLoad_eq]
  exact request_refused (s := s.withRx rest) hlength beq_iff_eq hcode fun _ hrest =>
    loadHandled_refused (s := s.withRx rest) hrest

/-- Settles O27: the record as loaded is appended, then its put and its REPLY are offered. -/
theorem loadAdmitsRecord : Obligations.LoadAdmitsRecord := by
  intro s m rest l hfront hmode hlength hid hclass hnew hroom
  have hunknown : ¬ ((s.withRx rest).find (field m.payload 0 6)).isSome = true := by
    rw [find_isSome_iff]
    rintro ⟨h, hmem, heq⟩
    exact hnew h hmem heq
  have hfree : ¬ Config.custodySlots ≤ (s.withRx rest).domain.custody.length := Nat.not_le.mpr hroom
  have hwrong : ¬ (m.payload.length ≠ 7 ∧ m.payload.length ≠ 23) := fun h => hlength.elim h.1 h.2
  have hhandled : loadHandled (s.withRx rest) m = loadTelegrams (s.withRx rest) m l := by
    rw [loadHandled, enabledClass_of_enabled (s := s.withRx rest) hclass]
    simp only [if_neg hunknown, if_neg hfree]
  have htake : takeLoad m (s.withRx rest) = loadTelegrams (s.withRx rest) m l := by
    rw [takeLoad_eq, request_of_active (s := s.withRx rest) hwrong hmode hid, hhandled]
  refine ⟨_, loadedRecord (s.withRx rest) m.payload l,
    congrArg Host.Outcome.next ((taking_front s .load m rest takeLoad hfront).trans htake), ?_, ?_⟩
  · intro carried account
    have hcarried : (m.payload.length == 23) = decide carried := by
      rw [Bool.eq_iff_iff, beq_iff_eq, decide_eq_true_iff]
    unfold loadedRecord
    simp only [hcarried]
    simp only [candidate, warmOver, coldOver, decide_eq_true_eq, Bool.false_eq_true, if_false]
    rfl
  · have hlast : (State.loaded (s.withRx rest) m l).domain.custody.length = s.domain.custody.length + 1 :=
      List.length_append
    have hsends := (putToBuddy_sends (State.loaded (s.withRx rest) m l) (loadedRecord (s.withRx rest) m.payload l)).trans
      (answer_sends _ m .ok (beBytes 6 (field m.payload 0 6) ++
        beBytes 1 (loadedRecord (s.withRx rest) m.payload l).verdict.rank ++
        beBytes 1 (State.loaded (s.withRx rest) m l).domain.custody.length))
    rw [hfront.2.2] at hsends
    rw [← hlast]
    exact hsends

/-! ### MOVE (R91, R92) -/

/-- What a MOVE does once its length, its mode and its operands have passed. -/
def moveHandled (s : State) (m : RxTelegram) : State :=
  match s.find (field m.payload 0 6) with
  | none => answer s m .unknownId (beBytes 6 (field m.payload 0 6))
  | some h =>
    if h.state ≠ .held then answer s m .busy (beBytes 6 (field m.payload 0 6))
    else if s.committed.compartment = some (field m.payload 6 1) then
      answer s m .sameCompartment (beBytes 6 (field m.payload 0 6))
    else if Config.offerSlots ≤ s.offers.length then answer s m .busy (beBytes 6 (field m.payload 0 6))
    else
      match liveAt s (field m.payload 6 1) with
      | [] => answer s m .targetAbsent (beBytes 6 (field m.payload 0 6))
      | [e] => openOffer s h (field m.payload 6 1) e.address m.sender
      | _ => answer s m .targetAmbiguous (beBytes 6 (field m.payload 0 6))

theorem takeMove_eq (s : State) (m : RxTelegram) : takeMove m s =
    request s m (m.payload.length ≠ 7)
      (field m.payload 0 6 = 0 ∨ field m.payload 6 1 = 0 ∨ 15 < field m.payload 6 1)
      (beBytes 6 (field m.payload 0 6)) (moveHandled s m) :=
  rfl

theorem moveHandled_refused {s : State} {m : RxTelegram} {code : Result}
    (hcode : firstTrue
      [((s.find (field m.payload 0 6)).isNone, .unknownId),
        ((s.find (field m.payload 0 6)).any (·.state != .held), .busy),
        (s.committed.compartment == some (field m.payload 6 1), .sameCompartment),
        (decide (2 ≤ s.offers.length), .busy), (decide ((liveAt s (field m.payload 6 1)).length = 0), .targetAbsent),
        (decide (2 ≤ (liveAt s (field m.payload 6 1)).length), .targetAmbiguous)] = some code) :
    moveHandled s m = answer s m code (beBytes 6 (field m.payload 0 6)) := by
  unfold moveHandled
  cases hfind : s.find (field m.payload 0 6) with
  | none =>
    rw [hfind] at hcode
    rw [← Option.some.inj hcode]
  | some h =>
  simp only [hfind, firstTrue_cons, firstTrue_nil, Option.isNone_some, Option.any_some, Bool.false_eq_true, if_false,
    bne_iff_ne, beq_iff_eq, decide_eq_true_eq] at hcode
  dsimp only
  split at hcode
  next hbusy => rw [if_pos hbusy, ← Option.some.inj hcode]
  next hheld =>
  rw [if_neg hheld]
  split at hcode
  next hsame => rw [if_pos hsame, ← Option.some.inj hcode]
  next hother =>
  rw [if_neg hother]
  split at hcode
  next hslots =>
    rw [← Option.some.inj hcode]
    exact if_pos hslots
  next hslot =>
  have hslot' : ¬ Config.offerSlots ≤ s.offers.length := hslot
  rw [if_neg hslot']
  cases hlive : liveAt s (field m.payload 6 1) with
  | nil =>
    rw [hlive] at hcode
    rw [← Option.some.inj hcode]
  | cons e es =>
    cases es with
    | nil =>
      rw [hlive] at hcode
      exact nomatch hcode
    | cons e' es =>
      rw [hlive] at hcode
      simp only [List.length_cons, Nat.add_eq_zero_iff, one_ne_zero, and_false, if_false,
        if_pos (Nat.le_add_left 2 es.length)] at hcode
      rw [← Option.some.inj hcode]

theorem moveRefusedInOrder : Clause.MoveRefusedInOrder := by
  intro s m rest code hfront id k wrongLength live hcode
  refine answeredOnly hfront rfl ?_
  have hlength : wrongLength = true ↔ m.payload.length ≠ 7 := bne_iff_ne
  have hbad : (id == 0 || k == 0 || decide (15 < k)) = true ↔ id = 0 ∨ k = 0 ∨ 15 < k := by simp [or_assoc]
  rw [takeMove_eq]
  exact request_refused (s := s.withRx rest) hlength hbad hcode fun _ hrest =>
    moveHandled_refused (s := s.withRx rest) hrest

/-! ### RELEASE (R155 to R158) -/

/-- The state in which a record is RELEASING, before its certificate is offered. -/
def State.releasing (s : State) (id : Nat) : State := s.updateHolding id (Holding.setState .releasing)

/-- The certificate is offered; refused, its outcome is at once QUEUE_FULL (R158). -/
def issueCertificate (s : State) (m : RxTelegram) (h : Holding) (id : Nat) : State :=
  let offered := send (s.releasing id) (replyTelegram m.sender .release .ok 0 0 (certificateBytes s h 0)) (.certificate id)
  if offered.2 then offered.1 else certificateResolved offered.1 id .queueFull

/-- What a RELEASE does once its length, its mode and its id have passed. -/
def releaseHandled (s : State) (m : RxTelegram) : State :=
  match s.find (field m.payload 0 6) with
  | none => answer s m .unknownId (beBytes 6 (field m.payload 0 6))
  | some h =>
    if h.state ≠ .held then answer s m .busy (beBytes 6 (field m.payload 0 6))
    else issueCertificate s m h (field m.payload 0 6)

theorem takeRelease_eq (s : State) (m : RxTelegram) : takeRelease m s =
    request s m (m.payload.length ≠ 6) (field m.payload 0 6 = 0) (beBytes 6 (field m.payload 0 6)) (releaseHandled s m) :=
  rfl

theorem releaseHandled_refused {s : State} {m : RxTelegram} {code : Result}
    (hcode : firstTrue
      [((s.find (field m.payload 0 6)).isNone, .unknownId),
        ((s.find (field m.payload 0 6)).any (·.state != .held), .busy)] = some code) :
    releaseHandled s m = answer s m code (beBytes 6 (field m.payload 0 6)) := by
  unfold releaseHandled
  cases hfind : s.find (field m.payload 0 6) with
  | none =>
    rw [hfind] at hcode
    rw [← Option.some.inj hcode]
  | some h =>
    simp only [hfind, firstTrue_cons, firstTrue_nil, Option.isNone_some, Option.any_some, Bool.false_eq_true, if_false,
      bne_iff_ne] at hcode
    obtain ⟨hbusy, hcode⟩ := Option.ite_none_right_eq_some.mp hcode
    simp only [if_pos hbusy, ← Option.some.inj hcode]

theorem releaseRefusedInOrder : Clause.ReleaseRefusedInOrder := by
  intro s m rest code hfront id wrongLength hcode
  refine answeredOnly hfront rfl ?_
  have hlength : wrongLength = true ↔ m.payload.length ≠ 6 := bne_iff_ne
  rw [takeRelease_eq]
  exact request_refused (s := s.withRx rest) hlength beq_iff_eq hcode fun _ hrest =>
    releaseHandled_refused (s := s.withRx rest) hrest

/-- Settles O29. -/
theorem requestsRefusedInTableOrder : Obligations.RequestsRefusedInTableOrder :=
  ⟨loadRefusedInOrder, moveRefusedInOrder, releaseRefusedInOrder⟩

/-- With no two ids alike, a HELD record made RELEASING and HELD again is as it was. -/
theorem updateHolding_releasing {s : State} {h : Holding} (hlaw : s.custodyLaw) (hmem : h ∈ s.domain.custody)
    (hheld : h.state = .held) :
    (s.releasing h.record.id).updateHolding h.record.id (Holding.setState .held) = s := by
  have hcustody : ((s.domain.custody.map fun x =>
        if x.record.id = h.record.id then Holding.setState .releasing x else x).map fun x =>
      if x.record.id = h.record.id then Holding.setState .held x else x) = s.domain.custody := by
    rw [List.map_map]
    refine (List.map_congr_left fun x hx => ?_).trans (List.map_id _)
    by_cases hid : x.record.id = h.record.id
    · obtain rfl := eq_of_custody_id hlaw hx hmem hid
      simp [Holding.setState, ← hheld]
    · simp [hid]
  rw [State.releasing, updateHolding_eq, updateHolding_eq]
  dsimp only
  rw [hcustody]

theorem find_releasing {s : State} {h : Holding} (hfind : s.find h.record.id = some h) :
    (s.releasing h.record.id).find h.record.id = some (Holding.setState .releasing h) := by
  rw [State.releasing, find_updateHolding s _ (f := Holding.setState .releasing) fun _ => rfl, hfind]
  rfl

section Release
variable {s : State} {m : RxTelegram} {h : Holding} {id : Nat}

theorem issueCertificate_of_room (hmode : s.mode.queues = true) (hroom : s.bus.queue.length < 8) :
    Sends (s.releasing id) (issueCertificate s m h id)
      [(replyTelegram m.sender .release .ok 0 0 (certificateBytes s h 0), .certificate id)] := by
  have htaken := send_taken_of_room (s := s.releasing id) hmode hroom
  simp only [issueCertificate, htaken, if_true]
  exact send_sends _ _ _

/-- R158: with the queue full the record is HELD again at once. -/
theorem issueCertificate_of_full (hfull : 8 ≤ s.bus.queue.length) (hlaw : s.custodyLaw) (hmem : h ∈ s.domain.custody)
    (hheld : h.state = .held) : issueCertificate s m h h.record.id = s := by
  have hrefused := send_of_full (s := s.releasing h.record.id) hfull
  have hfind := find_releasing (find_of_mem s h hlaw hmem)
  have hresolved : certificateResolved (s.releasing h.record.id) h.record.id .queueFull =
      (s.releasing h.record.id).updateHolding h.record.id (Holding.setState .held) := by
    simp [certificateResolved, hfind, Holding.setState]
  simp only [issueCertificate, hrefused, Bool.false_eq_true, if_false, hresolved]
  exact updateHolding_releasing hlaw hmem hheld

end Release

/-- Settles O30. -/
theorem releaseIssuesCertificate : Obligations.ReleaseIssuesCertificate := by
  intro s m rest h hfront hmode hlength hlaw hmem hid hheld hnonzero
  have hfind : (s.withRx rest).find (field m.payload 0 6) = some h := hid ▸ find_of_mem s h hlaw hmem
  have hhandled : releaseHandled (s.withRx rest) m = issueCertificate (s.withRx rest) m h (field m.payload 0 6) := by
    simp only [releaseHandled, hfind, if_neg (not_not.mpr hheld)]
  have htake : takeRelease m (s.withRx rest) = issueCertificate (s.withRx rest) m h (field m.payload 0 6) := by
    rw [takeRelease_eq, request_of_active (s := s.withRx rest) (not_not.mpr hlength) hmode (hid ▸ hnonzero), hhandled]
  refine ⟨_, congrArg Host.Outcome.next ((taking_front s .release m rest takeRelease hfront).trans htake),
    fun hroom => ?_, fun hfull => ?_⟩
  · have hqueues : (s.withRx rest).mode.queues = true := by simp [hmode, Mode.queues]
    have hissued := issueCertificate_of_room (s := s.withRx rest) (m := m) (h := h) (id := field m.payload 0 6) hqueues hroom
    rw [State.releasing, updateHolding_eq] at hissued
    rw [hid]
    exact hissued
  · rw [← hid]
    exact issueCertificate_of_full (s := s.withRx rest) hfull hlaw hmem hheld

end Sys2Proof.Machine
end

