-- ==== Sys2Proof/Proofs/ConfigSet.lean ====
section
/-!
PROOFS. CONFIG-SET (R165, TABLE 11-2): the length each item asks for, what each item stages and answers, and what is
refused.
-/
namespace Sys2Proof.Machine

/-! ### Fields of a payload given byte by byte -/

@[simp] theorem field_head (b : Byte) (rest : List Byte) : field (b :: rest) 0 1 = b.toNat := by
  simp [field, beNat]

@[simp] theorem field_head_two (a b : Byte) (rest : List Byte) : field (a :: b :: rest) 0 2 = a.toNat * 256 + b.toNat := by
  simp [field, beNat]

@[simp] theorem field_tail (b : Byte) (rest : List Byte) (k n : Nat) : field (b :: rest) (k + 1) n = field rest k n := rfl

theorem clampNat_zero (hi n : Nat) : clampNat 0 hi n = min hi n := Nat.zero_max _

/-! ### A CONFIG-SET that stages its item -/

section Staged
variable {s : State} {m : RxTelegram} {rest : List RxTelegram} {u : Setup} {stored : List Byte}

theorem takeConfigSet_of_staged (hsized : configWellSized m.payload = true) (hmode : s.mode = .idle)
    (hstage : stageItem s.staged m.payload = some (u, stored)) :
    takeConfigSet m s = answer { s with staged := u } m .ok (m.payload.take 1 ++ stored) := by
  simp [takeConfigSet, hsized, hmode, hstage]

/-- A well-sized item with its selectors in range, in IDLE: it is staged, and answered with its value as stored. -/
theorem configSet_stages (hfront : s.front .configSet m rest) (hmode : s.mode = .idle)
    (hsized : configWellSized m.payload = true) (hstage : stageItem s.staged m.payload = some (u, stored)) :
    ∃ t, exec .configSet s = .next t ∧
      Sends { s.withRx rest with staged := u } t
        [replyLetter m.sender .configSet .ok (m.payload.take 1 ++ stored)] := by
  have htake := takeConfigSet_of_staged (s := s.withRx rest) hsized hmode hstage
  refine ⟨_, congrArg Host.Outcome.next ((taking_front s .configSet m rest takeConfigSet hfront).trans htake), ?_⟩
  have hsends := answer_sends { s.withRx rest with staged := u } m .ok (m.payload.take 1 ++ stored)
  rw [hfront.2.2] at hsends
  exact hsends

end Staged

/-! ### What each item stages (TABLE 11-2) -/

section Items
variable {u : Setup} {p : List Byte}

theorem stageItem_compartment (hitem : field p 0 1 = 1) : stageItem u p =
    some ({ u with compartment := some (clampNat 1 15 (field p 1 1)) }, beBytes 1 (clampNat 1 15 (field p 1 1))) := by
  simp only [stageItem, hitem]

theorem stageItem_epoch (hitem : field p 0 1 = 2) : stageItem u p =
    some ({ u with epoch := clampNat 10 600 (field p 1 2) }, beBytes 2 (clampNat 10 600 (field p 1 2))) := by
  simp only [stageItem, hitem]

theorem stageItem_prescale (hitem : field p 0 1 = 3) : stageItem u p =
    some ({ u with prescale := min 7 (field p 1 1) }, beBytes 1 (min 7 (field p 1 1))) := by
  simp only [stageItem, hitem, clampNat_zero]

theorem stageItem_probe {i : Fin 4} (hitem : field p 0 1 = 4) (hi : field p 1 1 = i.val + 1) : stageItem u p =
    some ({ u with
        probes := u.probes.set i
          ⟨(field p 2 1).testBit 0, (field p 2 1).testBit 1, clampNat 1 16 (field p 3 1)⟩ },
      beBytes 1 (i.val + 1) ++ beBytes 1 (bit ((field p 2 1).testBit 0) 1 + bit ((field p 2 1).testBit 1) 2) ++
        beBytes 1 (clampNat 1 16 (field p 3 1))) := by
  have hindex : ∀ i : Fin 4, index4 (i.val + 1) = some i := by decide
  simp only [stageItem, hitem, hi, hindex]

theorem stageItem_door {i : Fin 4} (hitem : field p 0 1 = 5) (hi : field p 1 1 = i.val + 1) : stageItem u p =
    some ({ u with
        localDoors := u.localDoors.set i (if field p 2 1 = 255 then none else some (min 15 (field p 2 1))) },
      beBytes 1 (i.val + 1) ++ beBytes 1 (if field p 2 1 = 255 then 255 else min 15 (field p 2 1))) := by
  have hindex : ∀ i : Fin 4, index4 (i.val + 1) = some i := by decide
  simp only [stageItem, hitem, hi, hindex, clampNat_zero]
  split <;> rfl

theorem stageItem_doorMap (hitem : field p 0 1 = 6) (hcount : field p 1 1 ≤ 8) : stageItem u p =
    some ({ u with doorMap := keepFirst ((p.drop 2).map fun b => min 15 b.toNat) },
      beBytes 1 (keepFirst ((p.drop 2).map fun b => min 15 b.toNat)).length ++
        (keepFirst ((p.drop 2).map fun b => min 15 b.toNat)).flatMap (beBytes 1)) := by
  simp only [stageItem, hitem, if_neg (Nat.not_lt.mpr hcount), clampNat_zero]

theorem stageItem_grace (hitem : field p 0 1 = 7) : stageItem u p =
    some ({ u with grace := min 1800 (field p 1 2) }, beBytes 2 (min 1800 (field p 1 2))) := by
  simp only [stageItem, hitem, clampNat_zero]

theorem stageItem_buddy (hitem : field p 0 1 = 8) : stageItem u p =
    some ({ u with buddy := if field p 1 1 = 0 then none else some (min 15 (field p 1 1)) },
      beBytes 1 (min 15 (field p 1 1))) := by
  have hzero : min 15 (field p 1 1) = 0 ↔ field p 1 1 = 0 := by omega
  simp only [stageItem, hitem, clampNat_zero, hzero]

theorem stageItem_class (hitem : field p 0 1 = 9) (hindex : field p 1 1 ≤ 7) : stageItem u p =
    some ({ u with classes := u.classes.set (field p 1 1) (classOf p) }, classBytes (field p 1 1) (classOf p)) := by
  simp only [stageItem, hitem, if_neg (Nat.not_lt.mpr hindex)]

end Items

/-- Keeping the first of equal doors is gathering them one by one. -/
theorem foldl_gather (l sofar : List Nat) :
    l.foldl (fun sofar d => if d ∈ sofar then sofar else sofar ++ [d]) sofar =
      sofar ++ (keepFirst l).filter (· ∉ sofar) := by
  induction l generalizing sofar with
  | nil => simp [keepFirst]
  | cons x xs ih =>
    rw [List.foldl_cons, ih, keepFirst]
    by_cases hx : x ∈ sofar
    · rw [if_pos hx, List.filter_cons_of_neg (by simpa using hx), List.filter_filter]
      refine congrArg (sofar ++ ·) (List.filter_congr fun y _ => ?_)
      by_cases hy : y ∈ sofar
      · simp [hy]
      · have hne : y ≠ x := fun h => hy (h ▸ hx)
        simp [hy, hne]
    · rw [if_neg hx, List.filter_cons_of_pos (by simpa using hx), List.filter_filter, List.append_assoc]
      refine congrArg (sofar ++ x :: ·) (List.filter_congr fun y _ => ?_)
      simp [Bool.and_comm]

theorem keepFirst_eq_foldl (l : List Nat) :
    keepFirst l = l.foldl (fun sofar d => if d ∈ sofar then sofar else sofar ++ [d]) [] := by
  rw [foldl_gather]
  simp

/-! ### Classes -/

theorem clampTemp_of_inRange {t : Temperature} (h : tempInRange t = true) : clampTemp t = t := by
  obtain ⟨hlow, hhigh⟩ := (tempInRange_iff t).mp h
  have hmin : min Config.tempMax t = t := min_eq_right hhigh
  rw [clampTemp, hmin]
  exact max_eq_right hlow

/-- The marks of a class, of four bits, are read back. -/
theorem classMarks_bits (a b c d : Bool) :
    (bit a 1 + bit b 2 + bit c 4 + bit d 8) % 256 ^ 1 = bit a 1 + bit b 2 + bit c 4 + bit d 8 ∧
    (bit a 1 + bit b 2 + bit c 4 + bit d 8).testBit 0 = a ∧ (bit a 1 + bit b 2 + bit c 4 + bit d 8).testBit 1 = b ∧
    (bit a 1 + bit b 2 + bit c 4 + bit d 8).testBit 2 = c ∧ (bit a 1 + bit b 2 + bit c 4 + bit d 8).testBit 3 = d := by
  revert a b c d
  decide

/-- The low four bits of a number are its four marks. -/
theorem marks_mod_sixteen (n : Nat) :
    bit (n.testBit 0) 1 + bit (n.testBit 1) 2 + bit (n.testBit 2) 4 + bit (n.testBit 3) 8 = n % 16 := by
  have hsmall : ∀ k : Fin 16, bit (k.val.testBit 0) 1 + bit (k.val.testBit 1) 2 + bit (k.val.testBit 2) 4 +
      bit (k.val.testBit 3) 8 = k.val := by decide
  have hbit : ∀ j, j < 4 → (n % 16).testBit j = n.testBit j := fun j hj => by
    rw [show 16 = 2 ^ 4 from rfl, Nat.testBit_mod_two_pow, decide_eq_true hj, Bool.true_and]
  have hlow := hsmall ⟨n % 16, Nat.mod_lt _ (by decide)⟩
  rwa [hbit 0 (by decide), hbit 1 (by decide), hbit 2 (by decide), hbit 3 (by decide)] at hlow

/-- A class with its temperatures in range is read back from its bytes. -/
theorem classOf_classBytes {i : Nat} {c : ClassSetup} (hi : i ≤ 7) (hlimits : limitsInRange c.limits = true)
    (hwarm : c.limits.warmBudget ≤ 4294967295) (hgap : c.limits.gapAllowance ≤ 4294967295)
    (hcold : ∀ x ∈ c.limits.cold, x.budget ≤ 4294967295) :
    field (beBytes 1 9 ++ classBytes i c) 1 1 = i ∧ classOf (beBytes 1 9 ++ classBytes i c) = c := by
  obtain ⟨enabled, tmax, warmBudget, ceiling, cold, floor, gapAllowance⟩ := c
  simp only [limitsInRange, Bool.and_eq_true] at hlimits
  obtain ⟨⟨⟨htmax, hceiling⟩, htmin⟩, hfloor⟩ := hlimits
  obtain ⟨hmarks, henabled, hhasCeiling, hhasCold, hhasFloor⟩ :=
    classMarks_bits enabled ceiling.isSome cold.isSome floor.isSome
  have hfits : ∀ {t : Temperature}, tempInRange t = true → tempFits t := fun h =>
    tempFits_of_range ((tempInRange_iff _).mp h).1 ((tempInRange_iff _).mp h).2
  have hopt : ∀ {x : Option Temperature}, optTempInRange x = true →
      present x.isSome (clampTemp (tempOf (((x.getD 0) % 65536).toNat % 256 ^ 2))) = x := by
    intro x hx
    cases x with
    | none => rfl
    | some t =>
      have ht : tempInRange t = true := hx
      have hread : tempOf ((t % 65536).toNat % 256 ^ 2) = t := tempOf_field (hfits ht)
      simp only [Option.isSome_some, Option.getD_some, hread, clampTemp_of_inRange ht]
      rfl
  have hcoldRead : present cold.isSome (⟨clampTemp (tempOf ((((cold.map (·.tmin)).getD 0) % 65536).toNat % 256 ^ 2)),
      (cold.map (·.budget)).getD 0 % 256 ^ 4⟩ : ColdLimit) = cold := by
    cases cold with
    | none => rfl
    | some x =>
      have ht : tempInRange x.tmin = true := htmin
      have hread : tempOf ((x.tmin % 65536).toNat % 256 ^ 2) = x.tmin := tempOf_field (hfits ht)
      simp only [Option.isSome_some, Option.map_some, Option.getD_some, hread, clampTemp_of_inRange ht,
        word_fits 4 (hcold x rfl)]
      rfl
  unfold classOf tempField classBytes optTempBytes tempBytes
  simp only [List.append_assoc, field_here, field_skip, field_only, Nat.reduceSub, Nat.reduceLeDiff, classMarks, hmarks,
    henabled, hhasCeiling, hhasCold, hhasFloor, word_fits 1 (hi.trans (by decide)), word_fits 4 hwarm, word_fits 4 hgap,
    tempOf_field (hfits htmax), clampTemp_of_inRange htmax, hopt hceiling, hopt hfloor, hcoldRead, and_self]

theorem present_isSome {α : Type} (mark : Bool) (x : α) : (present mark x).isSome = mark := by
  cases mark <;> rfl

/-- Bytes overwritten with 0 spell 0. -/
theorem beBytes_zeroed (n v : Nat) : (beBytes n v).map (fun _ => (0 : Byte)) = beBytes n 0 := by
  induction n with
  | zero => rfl
  | succ n ih =>
    rw [beBytes, beBytes, List.map_cons, ih, Nat.zero_div]
    rfl

/-- A class item's value as stored, from the item as sent: every temperature clamped, and 0 for what is absent. -/
theorem classBytes_classOf (i : Nat) (p : List Byte) :
    classBytes i (classOf p) =
      beBytes 1 i ++ beBytes 1 (field p 2 1 % 16) ++ tempBytes (clampTemp (tempField p 3)) ++
      beBytes 4 (field p 5 4) ++
      (if (field p 2 1).testBit 1 then tempBytes (clampTemp (tempField p 9))
        else (tempBytes (clampTemp (tempField p 9))).map fun _ => 0) ++
      (if (field p 2 1).testBit 2 then tempBytes (clampTemp (tempField p 11))
        else (tempBytes (clampTemp (tempField p 11))).map fun _ => 0) ++
      (if (field p 2 1).testBit 2 then beBytes 4 (field p 13 4) else (beBytes 4 (field p 13 4)).map fun _ => 0) ++
      (if (field p 2 1).testBit 3 then tempBytes (clampTemp (tempField p 17))
        else (tempBytes (clampTemp (tempField p 17))).map fun _ => 0) ++
      beBytes 4 (field p 19 4) := by
  have hopt : ∀ (mark : Bool) (t : Temperature), optTempBytes (present mark t) =
      if mark then tempBytes t else (tempBytes t).map fun _ => 0 := by
    intro mark t
    cases mark with
    | true => rfl
    | false => exact (beBytes_zeroed 2 _).symm
  have htmin : ∀ (mark : Bool) (t : Temperature) (n : Nat),
      optTempBytes ((present mark (⟨t, n⟩ : ColdLimit)).map (·.tmin)) =
        if mark then tempBytes t else (tempBytes t).map fun _ => 0 := by
    intro mark t n
    cases mark with
    | true => rfl
    | false => exact (beBytes_zeroed 2 _).symm
  have hbudget : ∀ (mark : Bool) (t : Temperature) (n : Nat),
      beBytes 4 (((present mark (⟨t, n⟩ : ColdLimit)).map (·.budget)).getD 0) =
        if mark then beBytes 4 n else (beBytes 4 n).map fun _ => 0 := by
    intro mark t n
    cases mark with
    | true => rfl
    | false => exact (beBytes_zeroed 4 _).symm
  have hmarks : classMarks (classOf p) = field p 2 1 % 16 := by
    rw [← marks_mod_sixteen]
    simp only [classMarks, classOf, present_isSome]
  rw [classBytes, hmarks]
  simp only [classOf, hopt, htmin, hbudget]

/-! ### Lengths and refusals -/

/-- The lengths of TABLE 11-2. -/
theorem configWellSized_iff (p : List Byte) : configWellSized p = true ↔
    (field p 0 1, p.length) ∈ ([(1, 2), (2, 3), (3, 2), (4, 4), (5, 3), (7, 3), (8, 2), (9, 23)] : List (Nat × Nat)) ∨
      (field p 0 1 = 6 ∧ p.length = 2 + field p 1 1) := by
  rw [configWellSized, beq_iff_eq]
  unfold configLength
  split
  case h_10 h1 h2 h3 h4 h5 h6 h7 h8 h9 => 
    simp only [List.mem_cons, Prod.mk.injEq, List.not_mem_nil, or_false, reduceCtorEq, false_iff]
    tauto
  all_goals
    rename_i hitem
    simp [hitem, eq_comm]

theorem index4_eq_none {n : Nat} (h : ¬ (1 ≤ n ∧ n ≤ 4)) : index4 n = none := by
  unfold index4
  split
  case h_5 => rfl
  all_goals exact absurd ⟨by decide, by decide⟩ h

theorem stageItem_refused {u : Setup} {p : List Byte}
    (h : ((field p 0 1 = 4 ∨ field p 0 1 = 5) ∧ ¬ (1 ≤ field p 1 1 ∧ field p 1 1 ≤ 4)) ∨
      (field p 0 1 = 6 ∧ 8 < field p 1 1) ∨ (field p 0 1 = 9 ∧ 7 < field p 1 1)) : stageItem u p = none := by
  obtain ⟨hitem | hitem, hselector⟩ | ⟨hitem, hcount⟩ | ⟨hitem, hindex⟩ := h
  · simp only [stageItem, hitem, index4_eq_none hselector]
  · simp only [stageItem, hitem, index4_eq_none hselector]
  · simp only [stageItem, hitem, if_pos hcount]
  · simp only [stageItem, hitem, if_pos hindex]

theorem configSetRefused : Clause.ConfigSetRefused := by
  intro s m rest hfront lengths item sized
  have hsized : configWellSized m.payload = true ↔ sized := configWellSized_iff m.payload
  have hanswered : ∀ r, takeConfigSet m (s.withRx rest) = answer (s.withRx rest) m r [] →
      AnsweredOnly .configSet s rest (replyLetter m.sender .configSet r []) := fun r h => answeredOnly hfront rfl h
  refine ⟨fun hwrong => hanswered _ ?_, fun hright hmode => hanswered _ ?_, fun hright hmode hrange => hanswered _ ?_⟩
  · simp [takeConfigSet, Bool.eq_false_iff.mpr (mt hsized.mp hwrong)]
  · simp [takeConfigSet, hsized.mpr hright, hmode]
  · have hnone : stageItem s.staged m.payload = none := stageItem_refused hrange
    simp [takeConfigSet, hsized.mpr hright, hmode, hnone]

theorem mem_keepFirst {d : Nat} {l : List Nat} (h : d ∈ l) : d ∈ keepFirst l := by
  induction l with
  | nil => exact h
  | cons x xs ih =>
    rw [keepFirst]
    by_cases hd : d = x
    · simp [hd]
    · have htail : d ∈ xs := (List.mem_cons.mp h).resolve_left hd
      simp [ih htail, hd]

theorem classBytes_length (i : Nat) (c : ClassSetup) : (classBytes i c).length = 22 := by
  simp [classBytes, tempBytes_length, optTempBytes_length]

theorem selector_read (i : Fin 4) {b : Byte} {rest : List Byte} :
    field (b :: BitVec.ofNat 8 (i.val + 1) :: rest) 1 1 = i.val + 1 := by
  have hsmall : i.val + 1 < 256 := by omega
  simp [Nat.mod_eq_of_lt hsmall]

theorem configSetStagesItem : Clause.ConfigSetStagesItem := by
  intro s m rest hfront hmode stages
  have hstages : ∀ (p : List Byte) (u : Setup) (stored : List Byte), m.payload = p → configWellSized p = true →
      stageItem s.staged p = some (u, stored) → stages u stored :=
    fun p u stored hp hsized hstage => configSet_stages hfront hmode (hp ▸ hsized) (hp ▸ hstage)
  refine ⟨fun v hp => ?compartment, fun a b hp => ?epoch, fun v hp => ?prescale, fun i marks k hp => ?probe,
    fun i d hp => ?door, fun doors hcount hp => ?doorMap, fun a b hp => ?grace, fun v hp => ?buddy,
    fun i c hi hlimits hwarm hgap hcold hp => ?sentClass, fun hitem hlength hi => ?clampedClass⟩
  case compartment =>
    exact hstages _ _ _ hp (by simp [configWellSized, configLength])
      ((stageItem_compartment (by simp)).trans (by simp [clampNat]))
  case epoch =>
    exact hstages _ _ _ hp (by simp [configWellSized, configLength])
      ((stageItem_epoch (by simp)).trans (by simp [clampNat]))
  case prescale =>
    exact hstages _ _ _ hp (by simp [configWellSized, configLength]) ((stageItem_prescale (by simp)).trans (by simp))
  case grace =>
    exact hstages _ _ _ hp (by simp [configWellSized, configLength]) ((stageItem_grace (by simp)).trans (by simp))
  case buddy =>
    exact hstages _ _ _ hp (by simp [configWellSized, configLength]) ((stageItem_buddy (by simp)).trans (by simp))
  case probe =>
    exact hstages _ _ _ hp (by simp [configWellSized, configLength])
      ((stageItem_probe (by simp) (selector_read i)).trans (by simp [clampNat, bit, BitVec.getLsbD]))
  case door =>
    refine hstages _ _ _ hp (by simp [configWellSized, configLength])
      ((stageItem_door (by simp) (selector_read i)).trans (by simp))
  case doorMap =>
    have hcount256 : doors.length < 256 := Nat.lt_of_le_of_lt hcount (by decide)
    have hread : field (6 :: BitVec.ofNat 8 doors.length :: doors) 1 1 = doors.length := by
      simp [Nat.mod_eq_of_lt hcount256]
    have hkept := keepFirst_eq_foldl (doors.map fun d => min 15 d.toNat)
    refine ⟨hkept ▸ keepFirst_nodup _, fun d => hkept ▸ ⟨keepFirst_subset _ d, mem_keepFirst⟩, ?_⟩
    rw [← hkept]
    refine hstages _ _ _ hp ?_ ((stageItem_doorMap (by simp) (hread.trans_le hcount)).trans (by simp))
    rw [configWellSized_iff, hread]
    exact .inr ⟨by simp, Nat.add_comm doors.length 2⟩
  case sentClass =>
    obtain ⟨hindex, hclass⟩ := classOf_classBytes hi hlimits hwarm hgap hcold
    have hstage := stageItem_class (u := s.staged) (p := beBytes 1 9 ++ classBytes i c) (by simp [field_here])
      (hindex.trans_le hi)
    rw [hindex, hclass] at hstage
    refine hstages _ _ _ hp ?_ hstage
    rw [configWellSized_iff]
    exact .inl (by simp [classBytes_length])
  case clampedClass =>
    have hstage := stageItem_class (u := s.staged) hitem hi
    rw [classBytes_classOf] at hstage
    refine hstages _ _ _ rfl ?_ hstage
    rw [configWellSized_iff, hitem, hlength]
    exact .inl (by simp)

/-- Settles O24. -/
theorem setupItemStagedOrRefused : Obligations.SetupItemStagedOrRefused :=
  ⟨configSetStagesItem, configSetRefused⟩

end Sys2Proof.Machine
end

