-- ==== Sys2Proof/Proofs/Queries.lean ====
section
/-!
PROOFS. The queries (R159 to R161): QUERY-RECORD, LIST and QUERY-STATION are answered and change nothing; the layouts of
the station part with its probe statuses (TABLE 10-4) and of the roster part (TABLE 10-5).
-/
namespace Sys2Proof.Machine

/-! ### Parts of equal length one after another -/

/-- A field within one of several parts of equal length stands at its place in that part. -/
theorem field_flatMap {α : Type} {g : α → List Byte} {w : Nat} (hlength : ∀ x, (g x).length = w) {l : List α} {i : Nat}
    {x : α} (hx : l[i]? = some x) {off n : Nat} (h : off + n ≤ w) :
    field (l.flatMap g) (w * i + off) n = field (g x) off n := by
  induction l generalizing i with
  | nil => exact nomatch hx
  | cons y ys ih =>
    rw [List.flatMap_cons]
    cases i with
    | zero =>
      obtain rfl := Option.some.inj hx
      rw [Nat.mul_zero, Nat.zero_add, field_append_left _ _ _ _ (by rw [hlength]; exact h)]
    | succ i =>
      have hoff : w * (i + 1) + off = (g y).length + (w * i + off) := by rw [hlength]; ring
      rw [hoff, field_shift, ih hx]

/-! ### The station part (TABLE 10-4) -/

/-- The 40 bytes of the station part before its probe statuses. -/
def stationHead (s : State) : List Byte :=
  beBytes 1 1 ++ beBytes 1 s.mode.code ++ beBytes 4 s.tripNumber ++ beBytes 4 s.domain.clock ++
  beBytes 4 s.currentSequence ++ beBytes 1 s.domain.custody.length ++ beBytes 1 s.domain.mirror.length ++
  beBytes 1 s.domain.drops.length ++ beBytes 2 s.domain.discardedDrops ++
  beBytes 1 s.domain.tracker.phase.code ++ beBytes 4 s.domain.tracker.phase.windowStart ++
  beBytes 1 s.domain.restartCount ++ beBytes 1 s.resetCause.code ++
  beBytes 1 (bit s.domain.custodyLost 1 + bit s.domain.restoreIncomplete 2 + bit s.lastSummary.isSome 4) ++
  beBytes 1 s.alertReasons ++
  (beBytes 2 s.bus.counters.sent ++ beBytes 2 s.bus.counters.notAcked ++ beBytes 2 s.bus.counters.lineErrors ++
    beBytes 2 s.bus.counters.arbitrationLosses ++ beBytes 2 s.bus.counters.overruns ++
    beBytes 2 s.bus.counters.replacedBeacons)

/-- The probe status of a channel with its filter. -/
def probeStatus (s : State) (i : Fin 4) : List Byte := probeBytes (s.channels.get i) (s.domain.filters.get i)

theorem stationPart_eq (s : State) :
    stationPart s = stationHead s ++ ([0, 1, 2, 3] : List (Fin 4)).flatMap (probeStatus s) :=
  rfl

theorem stationHead_length (s : State) : (stationHead s).length = 40 := by
  unfold stationHead
  simp only [List.length_append, beBytes_length]

theorem field_station (s : State) (k n : Nat) (h : k + n ≤ 40) : field (stationPart s) k n = field (stationHead s) k n := by
  rw [stationPart_eq, field_append_left _ _ _ _ (by rw [stationHead_length]; exact h)]

/-- The number that a reading's value or line level is sent as. -/
def Status.number : Status → Nat
  | .faultStuck l => levelCode l
  | st => ((st.value?.getD 0) % 65536).toNat

theorem valueBytes_eq (st : Status) : st.valueBytes = beBytes 2 st.number := by
  cases st <;> rfl

theorem probeBytes_eq (c : Channel) (f : Filter) : probeBytes c f =
    beBytes 1 c.state.code ++ (beBytes 1 ((c.reading.map (·.status.code)).getD 0) ++
    (beBytes 2 ((c.reading.map (·.status.number)).getD 0) ++ (beBytes 4 ((c.reading.map (·.time)).getD 0) ++
    (beBytes 1 (bit (c.reading.any (·.fresh)) 1 + bit f.used 2 + bit c.last.isSome 4 + bit f.seeded 8) ++
    (beBytes 2 ((c.last.map (·.period)).getD 0) ++ (beBytes 2 ((c.last.map (·.high)).getD 0) ++
    (beBytes 2 f.missed ++ beBytes 2 (f.value % 65536).toNat))))))) := by
  have hvalue : (c.reading.map (·.status.valueBytes)).getD (beBytes 2 0) =
      beBytes 2 ((c.reading.map (·.status.number)).getD 0) := by
    cases c.reading with
    | none => rfl
    | some r => exact valueBytes_eq r.status
  rw [probeBytes, hvalue, tempBytes]
  simp only [List.append_assoc]

theorem probeStatus_length (s : State) (i : Fin 4) : (probeStatus s i).length = 17 := by
  rw [probeStatus, probeBytes_eq]
  simp only [List.length_append, beBytes_length]

/-- A field of a probe status stands at its place from byte 40 + 17 i on. -/
theorem field_probe (s : State) (i : Fin 4) (off n : Nat) (h : off + n ≤ 17) :
    field (stationPart s) (40 + 17 * i.val + off) n = field (probeStatus s i) off n := by
  have hi : ∀ i : Fin 4, ([0, 1, 2, 3] : List (Fin 4))[i.val]? = some i := by decide
  rw [stationPart_eq, ← stationHead_length s, Nat.add_assoc, field_shift,
    field_flatMap (probeStatus_length s) (hi i) h]

theorem stationPart_length (s : State) : (stationPart s).length = 108 := by
  rw [stationPart_eq, List.length_append, stationHead_length]
  simp [probeStatus_length]

theorem modeCode_lt (m : Mode) : m.code < 8 := by
  cases m <;> decide

theorem stationPartLaidOut : Clause.StationPartLaidOut := by
  intro s read
  obtain ⟨hbits, hlost, hincomplete, hsummary, -⟩ :=
    threeBits s.domain.custodyLost s.domain.restoreIncomplete s.lastSummary.isSome
  have hmod : (bit s.domain.custodyLost 1 + bit s.domain.restoreIncomplete 2 + bit s.lastSummary.isSome 4) % 256 ^ 1 =
      bit s.domain.custodyLost 1 + bit s.domain.restoreIncomplete 2 + bit s.lastSummary.isSome 4 :=
    word_fits 1 (by omega)
  have hcause : ∀ c : ResetCause, c.code % 256 ^ 1 =
      (match c with
        | .supplyWarm => 1
        | .resetPin => 2
        | .supplyCold => 3
        | .retentionFault => 4) := by
    intro c
    cases c <;> rfl
  have hread : ∀ k n, k + n ≤ 40 → read k n = field (stationHead s) k n := field_station s
  rw [hread 2 4 (by decide), hread 6 4 (by decide), hread 10 4 (by decide), hread 14 1 (by decide),
    hread 15 1 (by decide), hread 16 1 (by decide), hread 17 2 (by decide), hread 19 1 (by decide),
    hread 20 4 (by decide), hread 24 1 (by decide), hread 25 1 (by decide), hread 26 1 (by decide),
    hread 28 2 (by decide), hread 30 2 (by decide), hread 32 2 (by decide), hread 34 2 (by decide),
    hread 36 2 (by decide), hread 38 2 (by decide)]
  unfold stationHead
  simp only [List.append_assoc, field_skip, field_here, field_only, Nat.reduceSub, Nat.reduceLeDiff, hmod]
  refine ⟨rfl, rfl, rfl, rfl, rfl, rfl, rfl, fun hclosed => ?_, fun w hgrace => ?_, fun hoverdue => ?_, rfl, hcause _, hbits,
    hlost, hincomplete, hsummary, rfl, rfl, rfl, rfl, rfl, rfl⟩
  · rw [hclosed]
    exact ⟨rfl, rfl⟩
  · rw [hgrace]
    exact ⟨rfl, rfl⟩
  · rw [hoverdue]
    exact ⟨rfl, rfl⟩

/-! ### The probe statuses (R34) -/

theorem probeStatusesLaidOut : Clause.ProbeStatusesLaidOut := by
  intro s i read value c f
  obtain ⟨hbits, hfresh, hused, hlast, hseeded⟩ := fourBits (c.reading.any (·.fresh)) f.used c.last.isSome f.seeded
  have hmod : (bit (c.reading.any (·.fresh)) 1 + bit f.used 2 + bit c.last.isSome 4 + bit f.seeded 8) % 256 ^ 1 =
      bit (c.reading.any (·.fresh)) 1 + bit f.used 2 + bit c.last.isSome 4 + bit f.seeded 8 :=
    word_fits 1 (by omega)
  have hread : ∀ off n, off + n ≤ 17 → read off n = field (probeBytes c f) off n := field_probe s i
  have hvalue : ∀ off, off + 2 ≤ 17 → value off = tempOf (field (probeBytes c f) off 2) := fun off h =>
    congrArg tempOf (field_probe s i off 2 h)
  rw [hread 0 1 (by decide), hread 1 1 (by decide), hread 2 2 (by decide), hread 4 4 (by decide), hread 8 1 (by decide),
    hread 9 2 (by decide), hread 11 2 (by decide), hread 13 2 (by decide), hvalue 2 (by decide), hvalue 15 (by decide),
    probeBytes_eq]
  simp only [field_skip, field_here, field_only, Nat.reduceSub, Nat.reduceLeDiff, hmod]
  have hstate : c.state.code % 256 ^ 1 = (match c.state with | .off => 0 | .arming => 1 | .measuring => 2) := by
    cases c.state <;> rfl
  refine ⟨hstate, fun hnone => ?_, fun r hr => ?_, hbits, hfresh, hused, hlast, hseeded, fun hnone => ?_,
    fun x hx => ?_, rfl, fun hlow hhigh => tempOf_field (tempFits_of_range hlow hhigh)⟩
  · rw [hnone]
    exact ⟨rfl, rfl, rfl⟩
  · rw [hr]
    refine ⟨rfl, fun v hv => ⟨?_, fun hlow hhigh => ?_⟩, fun hst => ?_, fun hst => ?_, fun hst => ?_, fun hst => ?_,
      fun hst => ?_, fun hst => ?_, fun hst => ?_⟩
    · simp [hv, Status.code]
    · simp only [Option.map_some, Option.getD_some, hv]
      exact tempOf_field (tempFits_of_range hlow hhigh)
    all_goals
      simp only [Option.map_some, Option.getD_some, hst]
      decide
  · rw [hnone]
    exact ⟨rfl, rfl⟩
  · rw [hx]
    exact ⟨rfl, rfl⟩

/-! ### The roster part (TABLE 10-5) -/

theorem rosterEntryBytes_length (e : RosterEntry) : (rosterEntryBytes e).length = 11 := by
  simp [rosterEntryBytes]

/-- A field of a roster entry stands at its place from byte 1 + 11 i on. -/
theorem field_roster (s : State) {i : Nat} {e : RosterEntry} (he : (s.roster.filter (·.address ≠ s.address))[i]? = some e)
    (off n : Nat) (h : off + n ≤ 11) :
    field (rosterPart s) (1 + 11 * i + off) n = field (rosterEntryBytes e) off n := by
  have hshift := field_shift (beBytes 1 2) ((s.roster.filter (·.address ≠ s.address)).flatMap rosterEntryBytes)
    (11 * i + off) n
  rw [beBytes_length] at hshift
  rw [rosterPart, Nat.add_assoc, hshift, field_flatMap rosterEntryBytes_length he h]

theorem rosterPart_length (s : State) :
    (rosterPart s).length = 1 + 11 * (s.roster.filter (·.address ≠ s.address)).length := by
  rw [rosterPart, List.length_append, beBytes_length, List.length_flatMap]
  simp [rosterEntryBytes_length, Nat.mul_comm]

theorem rosterPartLaidOut : Clause.RosterPartLaidOut := by
  intro s i e he read
  have hread : ∀ off n, off + n ≤ 11 → read off n = field (rosterEntryBytes e) off n := field_roster s he
  rw [hread 0 1 (by decide), hread 1 1 (by decide), hread 2 1 (by decide), hread 3 2 (by decide), hread 5 4 (by decide),
    hread 9 1 (by decide), hread 10 1 (by decide), rosterEntryBytes]
  simp only [List.append_assoc, field_skip, field_here, field_only, Nat.reduceSub, Nat.reduceLeDiff]
  have hstate : e.state.code % 256 ^ 1 =
      (match e.state with | .unheard => 0 | .live => 1 | .holding => 2 | .silent => 3) := by
    cases e.state <;> rfl
  refine ⟨rfl, hstate, fun hnone => ?_, fun r hr => ?_⟩
  · rw [hnone]
    exact ⟨rfl, rfl, rfl, rfl, rfl⟩
  · rw [hr]
    exact ⟨rfl, rfl, rfl, rfl, rfl⟩

/-! ### The answers -/

theorem queriesAnswered : Clause.QueriesAnswered := by
  intro s m rest
  refine ⟨fun hfront => ?record, fun hfront => ?list, fun hfront => ?station⟩
  case record =>
    intro id
    have hanswered : ∀ r b, takeQueryRecord m (s.withRx rest) = answer (s.withRx rest) m r b →
        AnsweredOnly .queryRecord s rest (replyLetter m.sender .queryRecord r b) := fun r b h => answeredOnly hfront rfl h
    refine ⟨fun hbad => hanswered _ _ ?_, fun hlength hid hnew => hanswered _ _ ?_,
      fun h hlength hid hfind => hanswered _ _ ?_⟩
    · have hid : field m.payload 0 6 = id := rfl
      obtain hlength | hzero := hbad
      · simp [takeQueryRecord, hlength]
      · simp [takeQueryRecord, hid, hzero]
    · have hid' : ¬ field m.payload 0 6 = 0 := hid
      have hnone : (s.withRx rest).find (field m.payload 0 6) = none := by
        simpa [State.find, List.find?_eq_none] using hnew
      simp only [takeQueryRecord, hlength, ne_eq, not_true_eq_false, if_false, hid', hnone]
      rfl
    · have hid' : ¬ field m.payload 0 6 = 0 := hid
      have hfind' : (s.withRx rest).find (field m.payload 0 6) = some h := hfind
      simp only [takeQueryRecord, hlength, ne_eq, not_true_eq_false, if_false, hid', hfind']
      rfl
  case list =>
    have hanswered : ∀ r b, takeList m (s.withRx rest) = answer (s.withRx rest) m r b →
        AnsweredOnly .list s rest (replyLetter m.sender .list r b) := fun r b h => answeredOnly hfront rfl h
    refine ⟨fun hlength => hanswered _ _ (if_pos hlength), fun start hpayload => hanswered _ _ ?_⟩
    have hstart : field m.payload 0 1 = start.toNat := by simp [hpayload]
    have hbyte : beBytes 1 start.toNat = [start] := by simp [beBytes]
    have hlength : ¬ m.payload.length ≠ 1 := by simp [hpayload]
    simp only [takeList, if_neg hlength, hstart, hbyte]
    rfl
  case station =>
    refine ⟨fun hlength => answeredOnly hfront rfl (if_pos hlength), fun hempty => ?_⟩
    have htake : takeQueryStation m (s.withRx rest) =
        answer (answer (s.withRx rest) m .ok (stationPart s)) m .ok (rosterPart s) := if_neg (not_not.mpr hempty)
    have hsends := (answer_sends (s.withRx rest) m .ok (stationPart s)).trans (answer_sends _ m .ok (rosterPart s))
    rw [hfront.2.2] at hsends
    have hread : ∀ k n, k + n ≤ 40 → field (stationPart s) k n = field (stationHead s) k n := field_station s
    obtain ⟨halerts, -⟩ := fourBits s.alertRecord s.alertProbe s.alertBuddy s.alertCustodyLost
    have halerts' : s.alertReasons < 16 := halerts
    have hmode := modeCode_lt s.mode
    refine ⟨_, congrArg Host.Outcome.next
      ((taking_front s .queryStation m rest takeQueryStation hfront).trans htake), hsends, stationPart_length s, ?_, ?_,
      ?_, fun hclock => ?_, fun hcount => ?_, fun hcount => ?_, ?_, rosterPart_length s⟩
    · rw [hread 0 1 (by decide)]
      unfold stationHead
      simp only [List.append_assoc, field_here]
      rfl
    · rw [rosterPart, field_here]
      rfl
    · rw [hread 1 1 (by decide)]
      unfold stationHead
      simp only [List.append_assoc, field_skip, field_here, Nat.reduceSub, Nat.reduceLeDiff, word_fits 1 (hmode.le.trans (by decide))]
    · rw [hread 6 4 (by decide)]
      unfold stationHead
      simp only [List.append_assoc, field_skip, field_here, Nat.reduceSub, Nat.reduceLeDiff, word_fits 4 hclock]
    · rw [hread 14 1 (by decide)]
      unfold stationHead
      simp only [List.append_assoc, field_skip, field_here, Nat.reduceSub, Nat.reduceLeDiff, word_fits 1 (hcount.trans (by decide))]
    · rw [hread 15 1 (by decide)]
      unfold stationHead
      simp only [List.append_assoc, field_skip, field_here, Nat.reduceSub, Nat.reduceLeDiff, word_fits 1 (hcount.trans (by decide))]
    · rw [hread 27 1 (by decide)]
      unfold stationHead
      simp only [List.append_assoc, field_skip, field_here, Nat.reduceSub, Nat.reduceLeDiff, word_fits 1 (halerts'.le.trans (by decide))]

/-- Settles O31. -/
theorem queriesAnswerAndChangeNothing : Obligations.QueriesAnswerAndChangeNothing :=
  ⟨queriesAnswered, stationPartLaidOut, probeStatusesLaidOut, rosterPartLaidOut⟩

end Sys2Proof.Machine
end

