-- ==== Sys2Proof/Proofs/BeaconsTaken.lean ====
section
/-!
PROOFS. A BEACON taken from the receive buffer (R63, R127, R129, R133, R142, R153): recorded with its three uses, adopted
in LISTENING, or passed over.
-/
namespace Sys2Proof.Machine

/-- A telegram at the front of the buffer is dealt with by its command. -/
theorem exec_taken {c : Instr} {s : State} {k : Kind} {m : RxTelegram} {rest : List RxTelegram}
    {deal : RxTelegram → State → State} (hfront : s.front k m rest) (hexec : exec c s = .next (taking k s deal)) :
    exec c s = .next (deal m (s.withRx rest)) := by
  rw [hexec, taking_front s k m rest deal hfront]

/-! ### The sightings of a BEACON -/

/-- What sightings leave of a record: all but its openings. -/
theorem sightAll_custody {α : Type} {g : Holding → α} (hg : ∀ d h, g (addOpenings d h) = g h) (s : State) (source : Nat)
    (ds : List DoorReport) : (sightAll s source ds).domain.custody.map g = s.domain.custody.map g := by
  induction ds generalizing s with
  | nil => rfl
  | cons d ds ih =>
    have hone : (sight s d.door d.state d.count source).domain.custody.map g = s.domain.custody.map g := by
      obtain hsame | ⟨tracker, n, hsight⟩ := sight_cases s d.door d.state d.count source
      · rw [hsame]
      · rw [hsight]
        exact (List.map_map ..).trans (List.map_congr_left fun h _ => hg n h)
    exact (ih _).trans hone

theorem addOpenings_unmirrored (d : Nat) (h : Holding) : (addOpenings d h).record.unmirrored = h.record.unmirrored := by
  unfold addOpenings
  split <;> rfl

/-- A record without its openings and its UNMIRRORED mark. -/
def Holding.bare (h : Holding) : Holding := { h with record := { h.record with openings := 0, unmirrored := false } }

theorem addOpenings_bare (d : Nat) (h : Holding) : (addOpenings d h).bare = h.bare := by
  unfold addOpenings
  split
  next hheld => simp [Holding.bare]
  · rfl

/-! ### The restart test (R132, R133) -/

theorem coldBuddy_iff (b : Beacon) (e : RosterEntry) : coldBuddy b e = true ↔
    (b.resetCause = 3 ∨ b.resetCause = 4) ∧
      (e.report = none ∨ (∃ r, e.report = some r ∧ r.restartCount ≠ b.restartCount) ∨
        (e.report ≠ none ∧ (e.state = .silent ∨ e.state = .holding))) := by
  unfold coldBuddy isColdCode
  cases e.report with
  | none => simp
  | some r => simp [or_assoc]

/-- A BEACON that shows a cold start of the buddy (R133). -/
def coldSeen (s : State) (b : Beacon) (sender : Nat) : Bool :=
  s.committed.buddy == some sender && (s.peer? sender).any (coldBuddy b)

theorem coldSeen_iff (s : State) (b : Beacon) (sender : Nat) : coldSeen s b sender = true ↔
    s.committed.buddy = some sender ∧ (b.resetCause = 3 ∨ b.resetCause = 4) ∧
      ∃ e, s.peer? sender = some e ∧
        (e.report = none ∨ (∃ r, e.report = some r ∧ r.restartCount ≠ b.restartCount) ∨
          (e.report ≠ none ∧ (e.state = .silent ∨ e.state = .holding))) := by
  rw [coldSeen, Bool.and_eq_true, beq_iff_eq, Option.any_eq_true]
  simp only [coldBuddy_iff]
  refine and_congr_right fun _ => ?_
  exact ⟨fun ⟨e, he, hcause, h⟩ => ⟨hcause, e, he, h⟩, fun ⟨hcause, e, he, h⟩ => ⟨e, he, hcause, h⟩⟩

/-! ### The uses of a BEACON (R127) -/

/-- The time of a breach at the close of an epoch, where it fits 32 bits (log entry 4). -/
theorem epochEnd_eq (n e : Nat) :
    (if (n + 1) * e ≤ 4294967295 then (n + 1) * e else epochEnd n e) = epochEnd n e := by
  unfold epochEnd writtenTime
  split
  next hfits => exact (if_pos hfits).symm
  next hbeyond => rfl

/-- R142: what a BEACON's sequence makes of a mirror record that is due for `next`. -/
theorem stepMirror_of_next (b : Beacon) {x : MirrorRecord} {next : Nat}
    (hnext : (x.seq = none ∧ next = 0) ∨ ∃ q, x.seq = some q ∧ next = q + 1) : stepMirror b x =
    if b.sequence < next then x
    else
      { x with
        seq := some b.sequence
        record :=
          charge { x.record with gap := min (x.record.gap + (b.sequence - next) * b.epoch) 4294967295 } b.temps b.grace
            b.epoch (epochEnd b.sequence b.epoch) } := by
  unfold stepMirror
  obtain ⟨hseq, rfl⟩ | ⟨q, hseq, rfl⟩ := hnext
  · rw [hseq]
    rfl
  · rw [hseq]
    rfl

/-- The table that the sightings of a BEACON begin from. -/
def beaconStart (s : State) (b : Beacon) (sender : Nat) : List Holding :=
  if coldSeen s b sender then s.domain.custody.map fun h => { h with record := { h.record with unmirrored := true } }
  else s.domain.custody

/-- The state in which the sightings of a BEACON begin: its entry is written, and the restart test is made. -/
def State.recorded (s : State) (b : Beacon) (sender : Nat) : State :=
  { s with
    roster := s.roster.map fun e => if e.address = sender then recordBeacon b s.domain.clock e else e
    domain := { s.domain with custody := beaconStart s b sender } }

theorem useBeacon_eq (s : State) (b : Beacon) (sender : Nat) : useBeacon b sender s =
    (sightAll (s.recorded b sender) sender b.doors).withMirror
      ((sightAll (s.recorded b sender) sender b.doors).domain.mirror.map fun m =>
        if m.owner = sender then stepMirror b m else m) := by
  have hstart : (if coldSeen s b sender then (s.updatePeer sender (recordBeacon b s.domain.clock)).unmirrorAll
      else s.updatePeer sender (recordBeacon b s.domain.clock)) = s.recorded b sender := by
    rw [updatePeer_eq, State.recorded, beaconStart]
    split <;> rfl
  rw [← hstart]
  rfl

theorem takeBeacon_of_use {s : State} {m : RxTelegram} {b : Beacon} (hb : beaconOf m.payload = some b)
    (hsender : m.sender ≠ s.address) (htrip : s.store.tripId = some b.tripId)
    (hmode : s.mode = .active ∨ s.mode = .holdPending ∨ s.mode = .ending) :
    takeBeacon m s = useBeacon b m.sender s := by
  have htakes : s.mode.takesPeers = true := (takesPeers_iff s.mode).mpr hmode
  have hnot : s.mode ≠ .rejoining := ne_rejoining_of_takesPeers htakes
  simp [takeBeacon, hb, hsender, htrip, hnot, htakes]

/-- Settles O32: the sightings begin from the table as the restart test leaves it. -/
theorem beaconRecorded : Obligations.BeaconRecorded := by
  intro s m rest b hfront hb hsender htrip hmode
  have htake := takeBeacon_of_use (s := s.withRx rest) hb hsender htrip hmode
  obtain ⟨tracker, custody, hsights, hsightings⟩ :=
    sightAll_sightings ((s.withRx rest).recorded b m.sender) m.sender b.doors
  have hunmirrored := sightAll_custody (g := fun h => h.record.unmirrored) addOpenings_unmirrored ((s.withRx rest).recorded b m.sender) m.sender b.doors
  have hbare := sightAll_custody addOpenings_bare ((s.withRx rest).recorded b m.sender) m.sender b.doors
  have hcold : coldSeen (s.withRx rest) b m.sender = true ↔ _ := coldSeen_iff (s.withRx rest) b m.sender
  have hopened : b.doors = [] → tracker = s.domain.tracker ∧ custody = beaconStart (s.withRx rest) b m.sender := by
    intro hnil
    rw [hnil] at hsightings
    exact Prod.mk.inj hsightings
  rw [useBeacon_eq] at htake
  rw [hsights] at htake hunmirrored hbare
  have hstartBare : (beaconStart (s.withRx rest) b m.sender).map Holding.bare = s.domain.custody.map Holding.bare := by
    unfold beaconStart
    split
    · exact (List.map_map ..).trans (List.map_congr_left fun h _ => rfl)
    · rfl
  have hstartOpenings : (beaconStart (s.withRx rest) b m.sender).map (·.record.openings) =
      s.domain.custody.map (·.record.openings) := by
    unfold beaconStart
    split
    · exact (List.map_map ..).trans (List.map_congr_left fun h _ => rfl)
    · rfl
  refine ⟨_, (exec_taken hfront rfl).trans (congrArg _ htake), rfl, rfl, ?mirror,
    ⟨fun hc => ?allMarked, fun hc => ?noneMarked, beaconStart (s.withRx rest) b m.sender, fun hc => ?startCold,
      fun hc => ?startWarm, hsightings⟩, hbare.trans hstartBare, fun hnil => ?noDoors⟩
  case mirror =>
    refine List.map_congr_left fun x _ => ?_
    split
    · cases hseq : x.seq with
      | none =>
        dsimp only
        rw [epochEnd_eq]
        exact stepMirror_of_next b (.inl ⟨hseq, rfl⟩)
      | some q =>
        dsimp only
        rw [epochEnd_eq]
        exact stepMirror_of_next b (.inr ⟨q, hseq, rfl⟩)
    · rfl
  case allMarked =>
    have hmarked : ∀ x ∈ custody.map (·.record.unmirrored), x = true := by
      rw [hunmirrored]
      show ∀ x ∈ (beaconStart (s.withRx rest) b m.sender).map (·.record.unmirrored), x = true
      rw [beaconStart, if_pos (hcold.mpr hc), List.map_map]
      intro x hx
      obtain ⟨h, _, rfl⟩ := List.mem_map.mp hx
      rfl
    exact fun h hh => hmarked _ (List.mem_map_of_mem hh)
  case noneMarked =>
    refine hunmirrored.trans ?_
    show (beaconStart (s.withRx rest) b m.sender).map (·.record.unmirrored) = _
    rw [beaconStart, if_neg (mt hcold.mp hc)]
    rfl
  case startCold => exact if_pos (hcold.mpr hc)
  case startWarm => exact if_neg (mt hcold.mp hc)
  case noDoors =>
    obtain ⟨htracker, hcustody⟩ := hopened hnil
    exact ⟨htracker, (congrArg _ hcustody).trans hstartOpenings⟩

/-! ### A BEACON adopted in LISTENING (R153, R154) -/

theorem takeBeacon_of_listening {s : State} {m : RxTelegram} {b : Beacon} (hb : beaconOf m.payload = some b)
    (hsender : m.sender ≠ s.address) (htrip : s.store.tripId = some b.tripId) (hmode : s.mode = .rejoining)
    (hphase : s.rejoin = .listening) : takeBeacon m s = adoptBeacon b s := by
  simp [takeBeacon, hb, hsender, htrip, hmode, hphase]

theorem beaconAdoptedInListening : Clause.BeaconAdoptedInListening := by
  intro s m rest b hfront hb hsender htrip hmode hphase hsupply hepoch
  have htake := takeBeacon_of_listening (s := s.withRx rest) hb hsender htrip hmode hphase
  refine ⟨_, (exec_taken hfront rfl).trans (congrArg _ htake), ?_⟩
  exact becomeActive_startBlocks
    { s.withRx rest with domain := { s.domain with clock := b.clock, custodyLost := true, tripId := s.store.tripId } }
    hsupply hepoch

/-! ### A BEACON without use (R127) -/

theorem mem_of_allSome {α : Type} {l : List (Option α)} {xs : List α} (h : allSome l = some xs) : ∀ x ∈ l, x ≠ none := by
  induction l generalizing xs with
  | nil => exact fun _ h => nomatch h
  | cons x l ih =>
    cases x with
    | none => exact nomatch h
    | some y =>
      obtain ⟨ys, hys, _⟩ := Option.map_eq_some_iff.mp h
      intro z hz
      obtain rfl | hmem := List.mem_cons.mp hz
      · exact Option.some_ne_none y
      · exact ih hys z hmem

/-- A door report has a state byte of 0 or 1. -/
theorem doorReportAt_eq_none {p : List Byte} {off : Nat} (h : 1 < field p (off + 1) 1) : doorReportAt p off = none := by
  unfold doorReportAt
  split
  next hzero => omega
  next hone => omega
  · rfl

/-- What the fields of a BEACON in form are (R127). -/
theorem beaconOf_form {p : List Byte} {b : Beacon} (h : beaconOf p = some b) :
    p.length = 26 + 4 * field p 25 1 ∧ field p 25 1 ≤ 4 ∧ 1 ≤ field p 8 1 ∧ field p 8 1 ≤ 15 ∧ 10 ≤ field p 9 2 ∧
    field p 9 2 ≤ 600 ∧
    ((field p 19 1).testBit 7 = true →
      -500 ≤ tempField p 17 ∧ tempField p 17 ≤ tempField p 15 ∧ tempField p 15 ≤ 700) ∧
    (∀ i, i < field p 25 1 → field p (27 + 4 * i) 1 ≤ 1) ∧ b.tripId = field p 0 4 := by
  obtain ⟨doors, hdoors, rfl, hlength, hcompartment, hepoch, htemps⟩ := (beaconOf_eq_some p b).mp h
  have hcompartment' : ¬ (field p 8 1 = 0 ∨ 15 < field p 8 1) := hcompartment
  have hepoch' : ¬ (field p 9 2 < 10 ∨ 600 < field p 9 2) := hepoch
  refine ⟨by omega, by omega, by omega, by omega, by omega, by omega, fun hmark => ?_, fun i hi => ?_, rfl⟩
  · have hpresent : (carriedBeacon p doors).temps = some ⟨tempField p 15, tempField p 17⟩ := by
      simp [carriedBeacon, present, hmark]
    rw [hpresent, Option.all_some, Bool.and_eq_true, Bool.and_eq_true, tempInRange_iff, tempInRange_iff,
      decide_eq_true_iff] at htemps
    obtain ⟨⟨⟨-, hhigh⟩, hlow, -⟩, horder⟩ := htemps
    exact ⟨hlow, horder, hhigh⟩
  · by_contra hstate
    have hmem : doorReportAt p (26 + 4 * i) ∈ (List.range (field p 25 1)).map fun i => doorReportAt p (26 + 4 * i) :=
      List.mem_map.mpr ⟨i, List.mem_range.mpr hi, rfl⟩
    have hplace : 26 + 4 * i + 1 = 27 + 4 * i := by omega
    exact mem_of_allSome hdoors _ hmem (doorReportAt_eq_none (by rw [hplace]; omega))

theorem beaconIgnored : Clause.BeaconIgnored := by
  intro s m rest hfront hground
  rw [exec_taken (deal := takeBeacon) hfront rfl]
  refine congrArg Host.Outcome.next ?_
  unfold takeBeacon
  cases hb : beaconOf m.payload with
  | none => rfl
  | some b =>
    obtain ⟨hlength, hcount, hlow, hhigh, hshort, hlong, htemps, hdoors, htrip⟩ := beaconOf_form hb
    dsimp only
    split
    next => rfl
    next huse =>
    rw [not_or, not_not, htrip] at huse
    obtain ⟨hsender, hown⟩ := huse
    obtain h | h | h | h | h | h | ⟨hmark, h⟩ | ⟨i, hi, h⟩ | h | h | h | h | h | ⟨hmode, hphase⟩ := hground
    · exact absurd hlength h
    · omega
    · omega
    · omega
    · omega
    · omega
    · exact absurd (htemps hmark) h
    · exact absurd (hdoors i hi) (Nat.not_le.mpr h)
    · exact absurd h hsender
    · exact absurd hown h
    · simp [h, Mode.takesPeers]
    · simp [h, Mode.takesPeers]
    · simp [h, Mode.takesPeers]
    · simp [hmode, hphase]

end Sys2Proof.Machine
end

