-- ==== Sys2Proof/Proofs/PeerTelegrams.lean ====
section
/-!
PROOFS. Telegrams of peers taken from the receive buffer: ACCEPT and DECLINE at the owner (R102, R103), the edits of the
Mirror Table (R138, R141, R146, R147), and the restore answers (R150 to R154).
-/
namespace Sys2Proof.Machine

/-! ### ACCEPT and DECLINE at the owner (R102, R103) -/

/-- With no two offers of one id, a test that only this offer's id passes finds it. -/
theorem find?_offer {l : List Offer} {p : Offer → Bool} {o : Offer} (hmem : o ∈ l) (hnodup : (l.map (·.id)).Nodup)
    (hids : ∀ x, p x = true → x.id = o.id) (hpasses : p o = true) : l.find? p = some o := by
  obtain ⟨x, hfind⟩ := Option.isSome_iff_exists.mp (List.find?_isSome.mpr ⟨o, hmem, hpasses⟩)
  have hsame : x = o :=
    List.inj_on_of_nodup_map hnodup (List.mem_of_find?_eq_some hfind) hmem (hids x (List.find?_some hfind))
  rw [hfind, hsame]

/-- The answered offer of an answer is found. -/
theorem answeredOffer_of_mem {s : State} {o : Offer} (hmem : o ∈ s.offers) (hnodup : (s.offers.map (·.id)).Nodup)
    (hphase : o.phase = .answered) : s.answeredOffer? o.id o.target = some o := by
  refine find?_offer hmem hnodup (fun x hx => ?_) (by simp [hphase])
  simp only [Bool.and_eq_true, beq_iff_eq] at hx
  exact hx.1.1

theorem answeredOffer_eq_none {s : State} {id sender : Nat}
    (h : ∀ o ∈ s.offers, ¬ (o.id = id ∧ o.target = sender ∧ o.phase = .answered)) :
    s.answeredOffer? id sender = none := by
  rw [State.answeredOffer?, List.find?_eq_none]
  intro o ho
  simpa [and_assoc] using h o ho

/-- The state in which an offer is complete and its record has left, before the drop and the REPLY. -/
def State.completed (s : State) (id : Nat) : State := (s.withOffers (s.offers.filter (·.id ≠ id))).remove id

/-- The REPLY MOVE_DONE of an offer. -/
def moveDone (o : Offer) : Letter :=
  replyLetter o.requester .move .moveDone (beBytes 6 o.id ++ beBytes 1 o.target ++ beBytes 1 o.compartment)

theorem takeAccept_of_answered {s : State} {m : RxTelegram} {o : Offer} (hlength : m.payload.length = 6)
    (hfind : s.answeredOffer? (field m.payload 0 6) m.sender = some o) (hid : o.id = field m.payload 0 6) :
    takeAccept m s = sendPlain (dropAtBuddy (s.completed o.id) o.id) (moveDone o).1 := by
  rw [← hid] at hfind
  simp only [takeAccept, hlength, ← hid, ne_eq, not_true_eq_false, if_false, hfind]
  rfl

theorem takeDecline_of_answered {s : State} {m : RxTelegram} {o : Offer} (hlength : m.payload.length = 7)
    (hfind : s.answeredOffer? (field m.payload 0 6) m.sender = some o) (hid : o.id = field m.payload 0 6) :
    takeDecline m s = answerMoveFailed (closeOffer s o.id) o subDeclined (field m.payload 6 1) := by
  rw [← hid] at hfind
  simp only [takeDecline, hlength, ← hid, ne_eq, not_true_eq_false, if_false, hfind]

/-- A completed offer takes its slot, its record and nothing else but marks in the queue. -/
theorem completed_eq (s : State) (id : Nat) :
    s.completed id =
      { s with
        offers := s.offers.filter (·.id ≠ id)
        bus := { s.bus with queue := (s.completed id).bus.queue }
        domain := { s.domain with custody := s.domain.custody.filter (·.record.id ≠ id) } } := by
  have hcustody : s.domain.custody.filter (fun h => !(h.record.id == id)) = s.domain.custody.filter (·.record.id ≠ id) :=
    List.filter_congr fun x _ => (decide_not (p := x.record.id = id)).symm
  rw [← hcustody]
  rfl

/-- Its queue is the one in which the record's stay has ended. -/
theorem completed_queue {s : State} {id : Nat} (hknown : ∃ h ∈ s.domain.custody, h.record.id = id) :
    (s.completed id).bus.queue = (s.stayEnded id).bus.queue := by
  exact congrArg (·.bus.queue) (remove_eq (s.withOffers (s.offers.filter (·.id ≠ id))) id hknown)

/-- Removing a record changes no telegram of the queue, whatever it marks. -/
theorem completed_outbox (s : State) (id : Nat) : (s.completed id).outbox.map (·.1) = s.outbox.map (·.1) := by
  rw [outbox_telegrams, outbox_telegrams]
  refine (List.map_map ..).trans (List.map_congr_left fun e _ => ?_)
  exact (markLeft_telegram _ e).1

/-- Letters are queued by how many telegrams wait, not by whose they are. -/
theorem boxAfter_telegrams {s t : State} (hmode : t.mode = s.mode) (hbox : t.outbox.map (·.1) = s.outbox.map (·.1))
    (xs : List Letter) : (t.boxAfter xs).map (·.1) = (s.boxAfter xs).map (·.1) := by
  have hposts : ∀ a b : List Letter, a.map (·.1) = b.map (·.1) → (xs.foldl post a).map (·.1) = (xs.foldl post b).map (·.1) := by
    induction xs with
    | nil => exact fun _ _ h => h
    | cons x xs ih =>
      intro a b h
      refine ih _ _ ?_
      have hlength : a.length = b.length := by simpa using congrArg List.length h
      unfold post
      rw [hlength]
      split
      · simp [h]
      · exact h
  unfold State.boxAfter
  rw [hmode]
  split
  · exact hposts _ _ hbox
  · exact hbox

/-- The drop of a record that has left is placed when a buddy is configured. -/
def dropsPlaced (s : State) (id : Nat) : State := if s.committed.buddy = none then s else placeDrop s id

theorem dropsPlaced_eq (s : State) (id : Nat) : dropsPlaced s id =
    { s with
      domain :=
        { s.domain with
          drops := if s.committed.buddy = none then s.domain.drops else dropListWith s.domain.drops id
          discardedDrops :=
            if s.committed.buddy = none ∨ id ∈ s.domain.drops ∨ s.domain.drops.length < 8 then s.domain.discardedDrops
            else min (s.domain.discardedDrops + 1) 65535 } } := by
  unfold dropsPlaced
  by_cases hbuddy : s.committed.buddy = none
  · simp only [hbuddy, if_true, true_or]
  · simp only [hbuddy, if_false, false_or]
    exact placeDrop_eq s id

theorem boxAfter_congr {s t : State} (hmode : t.mode = s.mode) (hbox : t.outbox = s.outbox) (xs : List Letter) :
    t.boxAfter xs = s.boxAfter xs := by
  unfold State.boxAfter
  rw [hmode, hbox]

theorem boxAfter_dropsPlaced (s : State) (id : Nat) (xs : List Letter) : (dropsPlaced s id).boxAfter xs = s.boxAfter xs := by
  rw [dropsPlaced_eq]
  rfl

/-- What a completed offer whose drop and REPLY were sent leaves as it was. -/
theorem completion_frame {s t : State} {id : Nat} {xs : List Letter} (h : Sends (dropsPlaced (s.completed id) id) t xs) :
    t = { s with
          offers := s.offers.filter (·.id ≠ id)
          freeCount := t.freeCount
          bus := { s.bus with queue := t.bus.queue, line := t.bus.line }
          domain :=
            { s.domain with
              custody := s.domain.custody.filter (·.record.id ≠ id)
              drops := if s.committed.buddy = none then s.domain.drops else dropListWith s.domain.drops id
              discardedDrops :=
                if s.committed.buddy = none ∨ id ∈ s.domain.drops ∨ s.domain.drops.length < 8 then
                  s.domain.discardedDrops
                else min (s.domain.discardedDrops + 1) 65535 } } := by
  refine h.1.trans ?_
  rw [dropsPlaced_eq, completed_eq]
  rfl

/-- Settles O34: the answered offer is found, and its REPLY follows the drop of the record that left. -/
theorem answersCompleteOrCloseOffers : Obligations.AnswersCompleteOrCloseOffers := by
  intro s m rest o hmem hnodup hid htarget hphase
  have hfind : (s.withRx rest).answeredOffer? (field m.payload 0 6) m.sender = some o :=
    hid ▸ htarget ▸ answeredOffer_of_mem hmem hnodup hphase
  refine ⟨fun hfront hlength => ?_, fun hfront hlength => ?_⟩
  · have htake := takeAccept_of_answered (s := s.withRx rest) hlength hfind hid
    have hsends : Sends (dropsPlaced ((s.withRx rest).completed o.id) o.id)
        (sendPlain (dropAtBuddy ((s.withRx rest).completed o.id) o.id) (moveDone o).1) (s.dropLetters o.id ++ [moveDone o]) :=
      (dropAtBuddy_sends _ o.id).trans (sendPlain_sends _ _)
    refine ⟨_, (exec_taken hfront rfl).trans (congrArg _ htake), completion_frame hsends, ?_, fun hknown => ?_⟩
    · rw [hsends.2, boxAfter_dropsPlaced]
      exact boxAfter_telegrams (s := s) (t := (s.withRx rest).completed o.id) rfl (completed_outbox (s.withRx rest) o.id)
        (s.dropLetters o.id ++ [moveDone o])
    · rw [hsends.2, boxAfter_dropsPlaced]
      have hqueue : ((s.withRx rest).completed o.id).bus.queue = (s.stayEnded o.id).bus.queue := completed_queue hknown
      exact boxAfter_congr (s := s.stayEnded o.id) (t := (s.withRx rest).completed o.id) rfl
        (congrArg (List.map TxEntry.letter) hqueue) (s.dropLetters o.id ++ [moveDone o])
  · have htake := takeDecline_of_answered (s := s.withRx rest) hlength hfind hid
    refine ⟨_, (exec_taken hfront rfl).trans (congrArg _ htake), ?_⟩
    have hsends := answerMoveFailed_sends (closeOffer (s.withRx rest) o.id) o subDeclined (field m.payload 6 1)
    rw [closeOffer_eq] at hsends ⊢
    exact hsends

/-- An ACCEPT of another length, or of no answered offer, has no use. -/
theorem takeAccept_of_stray {s : State} {m : RxTelegram}
    (h : m.payload.length ≠ 6 ∨
      ∀ o ∈ s.offers, ¬ (o.id = field m.payload 0 6 ∧ o.target = m.sender ∧ o.phase = .answered)) :
    takeAccept m s = s := by
  by_cases hlength : m.payload.length = 6
  · simp only [takeAccept, hlength, ne_eq, not_true_eq_false, if_false,
      answeredOffer_eq_none (h.resolve_left (not_not_intro hlength))]
  · simp only [takeAccept, ne_eq, hlength, not_false_eq_true, if_true]

theorem takeDecline_of_stray {s : State} {m : RxTelegram}
    (h : m.payload.length ≠ 7 ∨
      ∀ o ∈ s.offers, ¬ (o.id = field m.payload 0 6 ∧ o.target = m.sender ∧ o.phase = .answered)) :
    takeDecline m s = s := by
  by_cases hlength : m.payload.length = 7
  · simp only [takeDecline, hlength, ne_eq, not_true_eq_false, if_false,
      answeredOffer_eq_none (h.resolve_left (not_not_intro hlength))]
  · simp only [takeDecline, ne_eq, hlength, not_false_eq_true, if_true]

theorem strayAnswersDiscarded : Clause.StrayAnswersDiscarded := fun s _ rest =>
  ⟨fun hfront hstray =>
    (exec_taken hfront rfl).trans (congrArg _ (takeAccept_of_stray (s := s.withRx rest) hstray)),
   fun hfront hstray =>
    (exec_taken hfront rfl).trans (congrArg _ (takeDecline_of_stray (s := s.withRx rest) hstray))⟩

/-! ### The edits of the Mirror Table (R138, R141, R146, R147) -/

theorem discardMirrorByTable : Clause.DiscardMirrorByTable := by
  intro s m rest hfront owner id named body reply
  have hanswered : ∀ {r b}, takeDiscardMirror m (s.withRx rest) = answer (s.withRx rest) m r b →
      AnsweredOnly .discardMirror s rest (reply r b) := answeredOnly hfront rfl
  have hnone : s.domain.mirror.any named = false ↔ (s.domain.mirror.filter named).length = 0 := by
    rw [List.length_eq_zero_iff, List.filter_eq_nil_iff, List.any_eq_false]
  refine ⟨fun hlength => hanswered ?_, fun hlength howner => hanswered ?_,
    fun hlength hlow hhigh hid hany => hanswered ?_, fun hlength hlow hhigh hany => ?_⟩
  · rw [takeDiscardMirror, if_pos hlength]
  · rw [takeDiscardMirror, if_neg (not_not_intro hlength), if_pos howner]
  · have howner : ¬ (owner = 0 ∨ 15 < owner) := by omega
    rw [takeDiscardMirror, if_neg (not_not_intro hlength), if_neg howner, if_pos ⟨hid, hnone.mp hany⟩]
  · have howner : ¬ (owner = 0 ∨ 15 < owner) := by omega
    have hfound : ¬ (id ≠ 0 ∧ (s.domain.mirror.filter named).length = 0) := fun ⟨hid, hzero⟩ =>
      absurd (hnone.mpr hzero) (by rw [hany.resolve_left hid]; decide)
    have htake : takeDiscardMirror m (s.withRx rest) =
        answer ((s.withRx rest).withMirror (s.domain.mirror.filter fun x => !named x)) m .ok
          (body (s.domain.mirror.filter named).length) := by
      rw [takeDiscardMirror, if_neg (not_not_intro hlength), if_neg howner]
      exact if_neg hfound
    have hcount : s.domain.mirror.length - (s.domain.mirror.filter fun x => !named x).length =
        (s.domain.mirror.filter named).length := by
      rw [List.length_eq_length_filter_add named, Nat.add_sub_cancel_right]
    refine ⟨_, (exec_taken hfront rfl).trans (congrArg _ htake), ?_⟩
    have hkind : m.kind = .discardMirror := hfront.2.2
    have hsends := answer_sends ((s.withRx rest).withMirror (s.domain.mirror.filter fun x => !named x)) m .ok
      (body (s.domain.mirror.filter named).length)
    rw [hkind, ← hcount] at hsends
    rw [← hcount]
    exact hsends

/-- Two mirror records share owner and id exactly when they share their key. -/
theorem same_key (x y : MirrorRecord) : (x.owner == y.owner && x.record.id == y.record.id) = decide (x.key = y.key) := by
  rw [Bool.eq_iff_iff]
  simp [MirrorRecord.key]

theorem storeMirror_of_present {l : List MirrorRecord} {x : MirrorRecord} (h : ∃ y ∈ l, y.key = x.key) :
    storeMirror l x = l.map fun y => if y.key = x.key then x else y := by
  have hany : l.any (fun y => decide (y.key = x.key)) = true := by simpa using h
  simp only [storeMirror, same_key, hany, if_true, updateWhere, decide_eq_true_eq]

theorem storeMirror_of_absent {l : List MirrorRecord} {x : MirrorRecord} (h : ∀ y ∈ l, y.key ≠ x.key)
    (hroom : l.length < 48) : storeMirror l x = l ++ [x] := by
  have hany : l.any (fun y => decide (y.key = x.key)) = false := by simpa using h
  simp only [storeMirror, same_key, hany, Bool.false_eq_true, if_false]
  exact if_neg (Nat.not_le.mpr hroom)

theorem storesMirrors_iff (m : Mode) : m.storesMirrors = true ↔ m = .active ∨ m = .holdPending ∨ m = .hold := by
  cases m <;> simp [Mode.storesMirrors]

theorem takeMirrorPut_of_use {s : State} {m : RxTelegram} (hlength : m.payload.length = 130)
    (hcheck : recordCheck (recordAt m.payload 4) = true) (hmode : s.mode = .active ∨ s.mode = .holdPending ∨ s.mode = .hold) :
    takeMirrorPut m s = s.withMirror (storeMirror s.domain.mirror
      ⟨m.sender, if field m.payload 0 4 = 4294967295 then none else some (field m.payload 0 4), recordAt m.payload 4⟩) := by
  rw [takeMirrorPut, if_pos ⟨hlength, hcheck, (storesMirrors_iff _).mpr hmode⟩]
  rfl

theorem takeMirrorPut_of_none {s : State} {m : RxTelegram}
    (h : m.payload.length ≠ 130 ∨ recordCheck (recordAt m.payload 4) = false ∨ s.mode = .ending ∨ s.mode = .idle ∨
      s.mode = .starting ∨ s.mode = .rejoining) : takeMirrorPut m s = s := by
  refine if_neg ?_
  rintro ⟨hlength, hcheck, hmode⟩
  obtain h | h | hother := h
  · exact h hlength
  · simp [h] at hcheck
  · obtain h | h | h | h := hother <;> simp [h, Mode.storesMirrors] at hmode

theorem takeMirrorDrop_of_length {s : State} {m : RxTelegram} (hlength : m.payload.length = 6) :
    takeMirrorDrop m s = s.withMirror (s.domain.mirror.filter fun y => y.key ≠ (m.sender, field m.payload 0 6)) := by
  rw [takeMirrorDrop, if_neg (not_not_intro hlength)]
  refine congrArg s.withMirror (List.filter_congr fun y _ => ?_)
  rw [Bool.eq_iff_iff]
  simp [MirrorRecord.key]

theorem mirrorPutAndDropAtBuddy : Clause.MirrorPutAndDropAtBuddy := by
  intro s m rest
  refine ⟨fun hfront hlength hcheck hmode => ?_, fun hfront hnone => ?_, fun hfront hlength => ?_,
    fun hfront hlength => ?_⟩
  · intro q x
    have hput := (exec_taken (c := .mirrorPut) hfront rfl).trans
      (congrArg _ (takeMirrorPut_of_use (s := s.withRx rest) hlength hcheck hmode))
    refine ⟨fun hpresent => ?_, fun habsent hroom => ?_⟩
    · exact hput.trans (congrArg (fun l => Host.Outcome.next ((s.withRx rest).withMirror l)) (storeMirror_of_present hpresent))
    · exact hput.trans
        (congrArg (fun l => Host.Outcome.next ((s.withRx rest).withMirror l)) (storeMirror_of_absent habsent hroom))
  · exact (exec_taken hfront rfl).trans (congrArg _ (takeMirrorPut_of_none (s := s.withRx rest) hnone))
  · exact (exec_taken hfront rfl).trans (congrArg _ (takeMirrorDrop_of_length (s := s.withRx rest) hlength))
  · exact (exec_taken hfront rfl).trans (congrArg _ (if_pos (c := m.payload.length ≠ 6) hlength))

/-- Settles O35. -/
theorem mirrorTableEdits : Obligations.MirrorTableEdits := ⟨discardMirrorByTable, mirrorPutAndDropAtBuddy⟩

/-! ### The restore answers at the rejoining owner (R150 to R154) -/

theorem takeRestoreRecord_of_receiving {s : State} {m : RxTelegram} {d n : Nat} (hphase : s.rejoin = .receiving d n)
    (hlength : m.payload.length = 130) (hcheck : recordCheck (recordAt m.payload 4) = true) (hmode : s.mode = .rejoining) :
    takeRestoreRecord m s =
      if (s.find (recordAt m.payload 4).id).isSome ∨ Config.custodySlots ≤ s.domain.custody.length then setIncomplete s
      else s.admitHeld
        ⟨restoredRecord s (seqOf (field m.payload 0 4)) (recordAt m.payload 4), s.domain.clock, .held⟩ := by
  simp only [takeRestoreRecord, hphase]
  exact if_pos ⟨hlength, hcheck, hmode⟩

/-- There is no room for a restored record when its id is known or the table is full. -/
theorem noRestoreRoom_iff (s : State) (id : Nat) :
    (s.find id).isSome ∨ Config.custodySlots ≤ s.domain.custody.length ↔
      ¬ ((∀ h ∈ s.domain.custody, h.record.id ≠ id) ∧ s.domain.custody.length < 48) := by
  rw [find_isSome_iff, not_and_or, not_lt]
  simp only [Config.custodySlots, not_forall, not_not, exists_prop]

/-- A restored record differs from the copy in its gap, its legs and its marks. -/
theorem restoredRecord_frame (s : State) (q : Option Nat) (r : Record) :
    restoredRecord s q r =
      { r with
        gap := min (r.gap + (s.domain.clock - closeOf q s.committed.epoch)) 4294967295
        legs := (restoredRecord s q r).legs, elided := (restoredRecord s q r).elided
        restored := true, unmirrored := true } := by
  rw [restoredRecord, addLeg_frame]
  rfl

/-- The close of the epoch a copy was last stepped for, as the four bytes carry its sequence. -/
theorem closeOf_seqOf {q e close : Nat} (hrange : q ≤ 4294967295) (hnone : q = 4294967295 → close = 0)
    (hsome : q < 4294967295 → (q + 1) * e ≤ 4294967295 ∧ close = (q + 1) * e) :
    closeOf (seqOf q) e = close ∧ writtenTime close = close := by
  by_cases hq : q = 4294967295
  · rw [hnone hq, hq]
    exact ⟨rfl, rfl⟩
  · obtain ⟨hfits, hclose⟩ := hsome (by omega)
    rw [show seqOf q = some q from if_neg hq, hclose]
    exact ⟨rfl, if_pos hfits⟩

/-- The legs of a restored record: the own leg last, behind the copy's with the open one closed (R152). -/
theorem restoredRecord_legs {s : State} {q : Option Nat} {r : Record} {close : Nat} (hclose : closeOf q s.committed.epoch = close)
    (hfits : writtenTime close = close) :
    let x := restoredRecord s q r
    x.legs.getLast? = some ⟨s.compartment, s.address, s.domain.clock, none, true⟩ ∧
    (r.legs.length < 6 → x.legs.length = r.legs.length + 1 ∧ x.elided = r.elided ∧
      x.legs.take r.legs.length = closeLast r.legs close) ∧
    (r.legs.length = 6 → x.legs.length = 6 ∧ x.elided = min (r.elided + 1) 255 ∧
      x.legs.take 5 = (closeLast r.legs close).eraseIdx 1) := by
  have hx : restoredRecord s q r =
      { addLeg r close ⟨s.compartment, s.address, s.domain.clock, none, true⟩ with
        gap := (restoredRecord s q r).gap, restored := true, unmirrored := true } := by
    rw [restoredRecord, hclose, hfits]
  rw [hx]
  refine ⟨addLeg_getLast? .., fun hroom => ?_, fun hsix => ?_⟩
  · rw [addLeg_of_room close _ hroom]
    have hlength : (closeLast r.legs close).length = r.legs.length := closeLast_length ..
    exact ⟨by simp [hlength], rfl, by simp [← hlength]⟩
  · rw [addLeg_of_six close _ hsix]
    have hlength : ((closeLast r.legs close).eraseIdx 1).length = 5 := eraseIdx_closeLast_length_of_six close hsix
    exact ⟨by simp [hlength], rfl, by simp [← hlength]⟩

/-- An admitted restored record stands last, and its id is withdrawn from the Drop List (R152, R144). -/
theorem admitHeld_restored (s : State) (q : Option Nat) (r : Record) :
    s.admitHeld ⟨restoredRecord s q r, s.domain.clock, .held⟩ =
      { s with
        domain :=
          { s.domain with
            custody := s.domain.custody ++ [⟨restoredRecord s q r, s.domain.clock, .held⟩]
            drops := s.domain.drops.filter (· ≠ r.id) } } := by
  have hid : (restoredRecord s q r).id = r.id := congrArg (·.id) (restoredRecord_frame s q r)
  rw [admitHeld_eq, hid]

/-- What RESTORE-END leaves of the domain: the flag is set when fewer records were counted than announced. -/
theorem takeRestoreEnd_of_receiving {s : State} {m : RxTelegram} {d n : Nat} (hphase : s.rejoin = .receiving d n)
    (hlength : m.payload.length = 1) (hmode : s.mode = .rejoining) :
    takeRestoreEnd m s = becomeActive (startBlocks
      { s with
        domain :=
          { s.domain with
            tripId := s.store.tripId
            restoreIncomplete := s.domain.restoreIncomplete || decide (field m.payload 0 1 < n) } }) := by
  have htake : takeRestoreEnd m s = rejoinActive (if field m.payload 0 1 < n then setIncomplete s else s) := by
    simp only [takeRestoreEnd, hphase]
    exact if_pos ⟨hlength, hmode⟩
  rw [htake, rejoinActive]
  by_cases hfewer : field m.payload 0 1 < n
  · rw [if_pos hfewer, show (s.domain.restoreIncomplete || decide (field m.payload 0 1 < n)) = true by simp [hfewer]]
    rfl
  · rw [if_neg hfewer,
      show (s.domain.restoreIncomplete || decide (field m.payload 0 1 < n)) = s.domain.restoreIncomplete by simp [hfewer]]

/-- Settles O36: each restore answer by its phase. -/
theorem restoreAnswersTaken : Obligations.RestoreAnswersTaken := by
  intro s m rest hmode
  refine ⟨fun hfront hlength hphase htrip => ?_, fun d n hphase => ⟨fun hfront hlength hcheck => ?_,
    fun hfront hlength hsupply hepoch => ?_⟩⟩
  · exact (exec_taken hfront rfl).trans (congrArg _ (if_pos (c := m.payload.length = 9 ∧ (s.withRx rest).mode = .rejoining ∧
      (s.withRx rest).rejoin = .asking ∧ (s.withRx rest).store.tripId = some (field m.payload 0 4))
      ⟨hlength, hmode, hphase, htrip⟩))
  · intro r q room
    have htake := (exec_taken (c := .restoreRecord) hfront rfl).trans
      (congrArg _ (takeRestoreRecord_of_receiving (s := s.withRx rest) hphase hlength hcheck hmode))
    have hadmits (hroom : room) := htake.trans (congrArg _
      ((if_neg fun h => (noRestoreRoom_iff (s.withRx rest) r.id).mp h hroom).trans
        (admitHeld_restored (s.withRx rest) (seqOf q) r)))
    refine ⟨fun hnone => ?_, fun hroom close hlast hstepped => ?_, fun hroom hstepped hbeyond => ?_⟩
    · exact htake.trans (congrArg _ (if_pos ((noRestoreRoom_iff (s.withRx rest) r.id).mpr hnone)))
    · have hrange : q ≤ 4294967295 := Nat.le_of_lt_succ (field_lt m.payload 0 4)
      obtain ⟨hclose, hfits⟩ := closeOf_seqOf hrange hlast hstepped
      refine ⟨restoredRecord (s.withRx rest) (seqOf q) r, hadmits hroom, ?_,
        restoredRecord_legs (s := s.withRx rest) hclose hfits⟩
      exact hclose ▸ restoredRecord_frame (s.withRx rest) (seqOf q) r
    · have hclose : closeOf (seqOf q) s.committed.epoch = (q + 1) * s.committed.epoch := by
        rw [show seqOf q = some q from if_neg (Nat.ne_of_lt hstepped)]
        rfl
      refine ⟨restoredRecord (s.withRx rest) (seqOf q) r, hadmits hroom, ?_⟩
      exact hclose ▸ restoredRecord_frame (s.withRx rest) (seqOf q) r
  · refine ⟨_, (exec_taken hfront rfl).trans (congrArg _
      (takeRestoreEnd_of_receiving (s := s.withRx rest) hphase hlength hmode)), ?_⟩
    exact becomeActive_startBlocks _ hsupply hepoch

/-- Outside RECEIVING the records and the end of a restore have no use. -/
theorem takeRestoreRecord_of_stray {s : State} {m : RxTelegram}
    (h : m.payload.length ≠ 130 ∨ recordCheck (recordAt m.payload 4) = false ∨ s.mode ≠ .rejoining ∨
      ∀ d n, s.rejoin ≠ .receiving d n) : takeRestoreRecord m s = s := by
  unfold takeRestoreRecord
  split
  case h_1 d n hphase =>
    refine if_neg ?_
    rintro ⟨hlength, hcheck, hmode⟩
    obtain h | h | h | h := h
    · exact h hlength
    · simp [h] at hcheck
    · exact h hmode
    · exact h d n hphase
  case h_2 => rfl

theorem takeRestoreEnd_of_stray {s : State} {m : RxTelegram}
    (h : m.payload.length ≠ 1 ∨ s.mode ≠ .rejoining ∨ ∀ d n, s.rejoin ≠ .receiving d n) : takeRestoreEnd m s = s := by
  unfold takeRestoreEnd
  split
  case h_1 d n hphase =>
    refine if_neg ?_
    rintro ⟨hlength, hmode⟩
    obtain h | h | h := h
    · exact h hlength
    · exact h hmode
    · exact h d n hphase
  case h_2 => rfl

theorem strayRestoreAnswersDiscarded : Clause.StrayRestoreAnswersDiscarded := by
  intro s m rest
  refine ⟨fun hfront hstray => ?_, fun hfront hstray => ?_, fun hfront hstray => ?_⟩
  · refine (exec_taken (c := .restoreBegin) hfront rfl).trans (congrArg Host.Outcome.next (if_neg ?_))
    rintro ⟨hlength, hmode, hphase, htrip⟩
    obtain h | h | h | h := hstray
    · exact h hlength
    · exact h hmode
    · exact h hphase
    · exact h htrip
  · exact (exec_taken hfront rfl).trans (congrArg _ (takeRestoreRecord_of_stray (s := s.withRx rest) hstray))
  · exact (exec_taken hfront rfl).trans (congrArg _ (takeRestoreEnd_of_stray (s := s.withRx rest) hstray))

/-- Settles O37. -/
theorem uselessTelegramsDiscarded : Obligations.UselessTelegramsDiscarded :=
  ⟨beaconIgnored, strayAnswersDiscarded, strayRestoreAnswersDiscarded⟩

end Sys2Proof.Machine
end

