-- ==== Sys2Proof/Proofs/SendOutcomes.lean ====
section
/-!
PROOFS. The ends of a telegram in transmission: a line error (R112), a plain outcome (R121, R124), and what the
originators of OFFER, certificate, MIRROR-PUT and MIRROR-DROP do with theirs (R95, R139, R145, R158).
-/
namespace Sys2Proof.Machine

/-! ### What each originator does with an outcome (TABLE 7-4) -/

/-- A change of the record that is removed does not show in what is left. -/
theorem remove_updateHolding (s : State) (id : Nat) {f : Holding → Holding} (hid : ∀ x, (f x).record.id = x.record.id) :
    (s.updateHolding id f).remove id = s.remove id := by
  have hids (x : Holding) : (if x.record.id = id then f x else x).record.id = x.record.id := by
    split
    · exact hid x
    · rfl
  rw [updateHolding_eq, State.remove, removeWhere_eq, State.remove, removeWhere_eq]
  dsimp only
  simp only [List.filter_map, List.map_map, Function.comp_def, hids]
  have hrest : (s.domain.custody.filter fun x => !(x.record.id == id)).map
      (fun x => if x.record.id = id then f x else x) = s.domain.custody.filter fun x => !(x.record.id == id) := by
    refine (List.map_congr_left fun x hx => ?_).trans (List.map_id _)
    have hother : x.record.id ≠ id := by simpa using (List.mem_filter.mp hx).2
    exact if_neg hother
  rw [hrest]

section Originators
variable {s : State}

theorem find?_sending {o : Offer} (hmem : o ∈ s.offers) (hnodup : (s.offers.map (·.id)).Nodup)
    (hphase : o.phase = .sending) :
    s.offers.find? (fun x => x.id == o.id && x.phase == .sending) = some o := by
  refine find?_offer hmem hnodup (fun x hx => ?_) (by simp [hphase])
  simp only [Bool.and_eq_true, beq_iff_eq] at hx
  exact hx.1

theorem offerResolved_of_acked {o : Offer} (hmem : o ∈ s.offers) (hnodup : (s.offers.map (·.id)).Nodup)
    (hphase : o.phase = .sending) :
    offerResolved s o.id .acked =
      { s with
        offers := s.offers.map fun x =>
          if x.id = o.id then { x with phase := .awaiting (s.domain.clock + 10) } else x } := by
  simp only [offerResolved, find?_sending hmem hnodup hphase, if_true, updateWhere, beq_iff_eq]
  rfl

/-- An OFFER not acknowledged closes its offer with MOVE_FAILED (R95). -/
theorem offerResolved_of_not_acked {o : Offer} {oc : SendOutcome} (hmem : o ∈ s.offers)
    (hnodup : (s.offers.map (·.id)).Nodup) (hphase : o.phase = .sending) (hoc : oc ≠ .acked) :
    Sends
      { s with
        offers := s.offers.filter (·.id ≠ o.id)
        domain :=
          { s.domain with
            custody := s.domain.custody.map fun h =>
              if h.record.id = o.id ∧ h.state = .offered then { h with state := .held } else h } }
      (offerResolved s o.id oc) [failLetter o.requester 1 0 o.id] := by
  simp only [offerResolved, find?_sending hmem hnodup hphase, if_neg hoc]
  rw [← closeOffer_eq]
  exact answerMoveFailed_sends _ o subUndelivered 0

/-- A put whose record stays clears UNMIRRORED when acknowledged (R139). -/
theorem putResolved_of_acked (s : State) (id : Nat) :
    putResolved s id true .acked =
      { s with
        domain :=
          { s.domain with
            custody := s.domain.custody.map fun h =>
              if h.record.id = id then { h with record := { h.record with unmirrored := false } } else h } } :=
  updateHolding_eq ..

theorem putResolved_of_left (s : State) (id : Nat) (oc : SendOutcome) : putResolved s id false oc = s :=
  if_neg fun ⟨_, hstaying⟩ => absurd hstaying (by decide)

theorem putResolved_of_not_acked (s : State) (id : Nat) (staying : Bool) {oc : SendOutcome} (hoc : oc ≠ .acked) :
    putResolved s id staying oc = s :=
  if_neg fun h => hoc h.1

/-- An acknowledged drop leaves the Drop List (R145). -/
theorem dropResolved_of_acked (s : State) (id : Nat) :
    dropResolved s id .acked =
      { s with
        domain :=
          { s.domain with
            custody := s.domain.custody.map fun h =>
              if h.record.id = id then { h with record := { h.record with unmirrored := true } } else h
            drops := s.domain.drops.filter (· ≠ id) } } :=
  updateHolding_eq ..

theorem dropResolved_of_not_acked (s : State) (id : Nat) {oc : SendOutcome} (hoc : oc ≠ .acked) :
    dropResolved s id oc = s :=
  if_neg hoc

/-- A session ends with its last telegram, or with one not acknowledged (R149). -/
theorem sessionResolved_of_over {asker : Nat} {last : Bool} {oc : SendOutcome} (hopen : ∃ x ∈ s.sessions, x.asker = asker)
    (hover : last = true ∨ oc ≠ .acked) : sessionResolved s asker last true oc = endSession s asker := by
  have hfound : (s.sessions.find? (·.asker == asker)).isSome := by simpa using hopen
  obtain ⟨x, hfind⟩ := Option.isSome_iff_exists.mp hfound
  simp only [sessionResolved, if_true, hfind, if_pos hover]

variable {h : Holding} (hlaw : s.custodyLaw) (hmem : h ∈ s.domain.custody) (hstate : h.state = .releasing)
include hlaw hmem hstate

/-- The exit time written on a record that leaves does not show in what is left (R158). -/
theorem certificateResolved_of_acked :
    certificateResolved s h.record.id .acked = dropAtBuddy (s.remove h.record.id) h.record.id := by
  have hfind : s.find h.record.id = some h := find_of_mem s h hlaw hmem
  simp only [certificateResolved, hfind, hstate, if_true]
  exact congrArg (dropAtBuddy · h.record.id) (remove_updateHolding s h.record.id fun _ => rfl)

theorem certificateResolved_of_not_acked {oc : SendOutcome} (hoc : oc ≠ .acked) :
    certificateResolved s h.record.id oc =
      { s with
        domain :=
          { s.domain with
            custody := s.domain.custody.map fun x =>
              if x.record.id = h.record.id then { x with state := .held } else x } } := by
  have hfind : s.find h.record.id = some h := find_of_mem s h hlaw hmem
  simp only [certificateResolved, hfind, hstate, if_true, if_neg hoc]
  exact updateHolding_eq s _ _

end Originators

/-! ### Line errors (R112) -/

/-- The counters after a line error (R124). -/
def Counters.lineErrorMet (c : Counters) : Counters := { c with lineErrors := min (c.lineErrors + 1) 65535 }

section LineErrors
variable {s : State} {before after : List TxEntry} {e : TxEntry} (hsends : s.sends before e after)
include hsends

/-- A line error reaches the originator of the telegram it ended. -/
theorem exec_lineError_of_originator (hkind : e.telegram.kind ≠ .beacon) (horigin : e.origin ≠ .hold) :
    exec .lineError s =
      .next (resolve (s.sent (before ++ after) s.bus.counters.lineErrorMet) e.origin .lineError) := by
  have hmet : lineErrorMet s = resolve (endSending s e .lineError) e.origin .lineError := by
    simp only [lineErrorMet, sending?_sends s before after e hsends]
    exact if_neg horigin
  rw [endSending_sends s before after e .lineError hsends hkind] at hmet
  exact congrArg Host.Outcome.next ((if_pos hsends.1).trans hmet)

theorem exec_lineError_of_hold (hkind : e.telegram.kind ≠ .beacon) (horigin : e.origin = .hold)
    (hmode : s.mode = .holdPending) :
    exec .lineError s = .next (enterHold (s.sent (before ++ after) s.bus.counters.lineErrorMet)) := by
  have hmet : lineErrorMet s = enterHold (endSending s e .lineError) := by
    simp only [lineErrorMet, sending?_sends s before after e hsends, if_pos horigin]
    exact if_pos hmode
  rw [endSending_sends s before after e .lineError hsends hkind] at hmet
  exact congrArg Host.Outcome.next ((if_pos hsends.1).trans hmet)

/-- The place of a BEACON lost to a line error goes to a held one (R120). -/
theorem exec_lineError_of_beacon (horigin : e.origin = .plain) : exec .lineError s = .next (endSending s e .lineError) := by
  have hmet : lineErrorMet s = endSending s e .lineError := by
    simp only [lineErrorMet, sending?_sends s before after e hsends, horigin]
    rfl
  exact congrArg Host.Outcome.next ((if_pos hsends.1).trans hmet)

end LineErrors

/-- The held BEACON, if any, stands in the place of the one that ended. -/
theorem endSending_of_beacon {s : State} {before after : List TxEntry} {e : TxEntry} (oc : SendOutcome)
    (hsends : s.sends before e after) (hkind : e.telegram.kind = .beacon) :
    (s.bus.beaconHold = none → endSending s e oc = s.sent (before ++ after) (s.bus.counters.count oc)) ∧
    ∀ b, s.bus.beaconHold = some b →
      endSending s e oc =
        { s.sent (before ++ ⟨b, .plain, false, false⟩ :: after) (s.bus.counters.count oc) with
          bus := { (s.sent (before ++ ⟨b, .plain, false, false⟩ :: after) (s.bus.counters.count oc)).bus with
                   beaconHold := none } } := by
  refine ⟨fun hhold => ?_, fun b hhold => ?_⟩
  · rw [endSending_beacon s before after e oc hsends hkind, State.sent]
    simp [hhold]
  · rw [endSending_beacon s before after e oc hsends hkind, hhold]
    simp [State.sent]

theorem lineErrorEndsTelegram : Clause.LineErrorEndsTelegram := by
  intro s before e after hsends hkind
  refine ⟨⟨fun horigin => ?_, fun _ horigin => ?_, fun horigin hmode => ?_⟩,
    fun s before e after hsends hkind horigin => ⟨fun hhold => ?_, fun b hhold => ?_⟩⟩
  · have hexec := exec_lineError_of_originator hsends hkind (by rw [horigin]; simp)
    rw [horigin] at hexec
    exact hexec
  · exact exec_lineError_of_originator hsends hkind horigin
  · exact exec_lineError_of_hold hsends hkind horigin hmode
  · exact (exec_lineError_of_beacon hsends horigin).trans
      (congrArg _ ((endSending_of_beacon .lineError hsends hkind).1 hhold))
  · exact (exec_lineError_of_beacon hsends horigin).trans
      (congrArg _ ((endSending_of_beacon .lineError hsends hkind).2 b hhold))

/-! ### The entry to HOLD (R121, R122, R170) -/

/-- The state in which every telegram is flushed and the bus is off, before a risen supply is met. -/
def holdFlushed (s : State) : State :=
  flushAll ((((s.withMode .hold).withQueue []).withBeaconHold none).withLine .ignoring) s.bus.queue

/-- HOLD begins, or with the supply above the release level ACTIVE again. -/
theorem enterHold_eq (s : State) : enterHold s = if 8600 < s.supplyMv then leaveHold (holdFlushed s) else holdFlushed s := by
  have hsupply : (holdFlushed s).supplyMv = s.supplyMv := (flushAll_untouched _ s.bus.queue).2.2.2.2.1
  rw [← hsupply]
  rfl

/-- A flushed recorder is in HOLD with an empty queue; custody and offers are as the flush leaves them. -/
theorem holdFlushed_facts {s : State} (hlaw : s.custodyLaw) :
    (holdFlushed s).domain.custody = flushedCustody s.offers (s.bus.queue.map (·.origin)) s.domain.custody ∧
    (holdFlushed s).mode = .hold ∧ (holdFlushed s).bus.queue = [] ∧ (holdFlushed s).bus.beaconHold = none := by
  obtain ⟨hcustody, _, hmode, hqueue⟩ := flushAll_flushed s.bus.queue
    ((((s.withMode .hold).withQueue []).withBeaconHold none).withLine .ignoring) hlaw (.inl rfl)
  have huntouched := flushAll_untouched ((((s.withMode .hold).withQueue []).withBeaconHold none).withLine .ignoring) s.bus.queue
  obtain ⟨_, _, _, _, _, _, _, _, _, _, _, _, _, _, _, _, hhold, _⟩ := huntouched
  exact ⟨hcustody, hmode, hqueue rfl, hhold⟩

/-- Leaving HOLD changes the mode, the line, the UNMIRRORED flags and the roster, and nothing else (R170). -/
theorem leaveHold_eq (s : State) :
    leaveHold s =
      { s with
        mode := .active
        roster := (leaveHold s).roster
        bus := { s.bus with line := .ignoring }
        domain :=
          { s.domain with
            custody := s.domain.custody.map fun h => { h with record := { h.record with unmirrored := true } } } } := by
  rw [leaveHold, buddyDeadline_eq]
  rfl

/-- HOLD, or ACTIVE with a risen supply: the queue and the hold are empty either way. -/
theorem enterHold_facts {s : State} (hlaw : s.custodyLaw) :
    (enterHold s).bus.queue = [] ∧ (enterHold s).bus.beaconHold = none ∧
    (s.supplyMv ≤ 8600 → (enterHold s).mode = .hold) ∧
    (8600 < s.supplyMv → (enterHold s).mode = .active ∧ ∀ h ∈ (enterHold s).domain.custody, h.record.unmirrored = true) := by
  obtain ⟨_, hmode, hqueue, hhold⟩ := holdFlushed_facts hlaw
  rw [enterHold_eq]
  by_cases hsupply : 8600 < s.supplyMv
  · rw [if_pos hsupply, leaveHold_eq]
    refine ⟨hqueue, hhold, fun h => absurd hsupply (Nat.not_lt.mpr h), fun _ => ⟨rfl, fun h hh => ?_⟩⟩
    obtain ⟨_, _, rfl⟩ := List.mem_map.mp hh
    rfl
  · rw [if_neg hsupply]
    exact ⟨hqueue, hhold, fun _ => hmode, fun h => absurd h hsupply⟩

/-! ### Line errors at their originators -/

theorem originatorsMeetLineError : Clause.OriginatorsMeetLineError := by
  intro s before e after hsends hkind hlaw left
  have hmet {o : Origin} (horigin : e.origin = o) (hhold : o ≠ .hold) :
      exec .lineError s = .next (resolve left o .lineError) :=
    horigin ▸ exec_lineError_of_originator hsends hkind (horigin ▸ hhold)
  refine ⟨fun o horigin hmem hnodup hphase => ?offer, fun h receipt sender horigin hmem hstate => ?accept,
    fun h horigin hmem hstate => ?certificate, fun id staying horigin => ?put, fun id horigin => ?drop,
    fun horigin hmode hphase => ?ask, fun x last horigin hmem => ?session, fun a last horigin => ?ended,
    fun horigin hmode => ?hold⟩
  case offer =>
    exact ⟨_, hmet horigin (by simp), offerResolved_of_not_acked (s := left) hmem hnodup hphase (by decide)⟩
  case accept =>
    have hremoves := acceptResolved_of_not_acked (s := left) (oc := .lineError) (find_of_mem left h hlaw hmem) hstate
      (by decide)
    rw [remove_eq left _ ⟨h, hmem, rfl⟩] at hremoves
    exact (hmet horigin (by simp)).trans (congrArg _ hremoves)
  case certificate =>
    exact (hmet horigin (by simp)).trans
      (congrArg _ (certificateResolved_of_not_acked (s := left) hlaw hmem hstate (by decide)))
  case put => exact (hmet horigin (by simp)).trans (congrArg _ (putResolved_of_not_acked left id staying (by decide)))
  case drop => exact (hmet horigin (by simp)).trans (congrArg _ (dropResolved_of_not_acked left id (by decide)))
  case ask => exact (hmet horigin (by simp)).trans (congrArg _ (if_pos ⟨hmode, hphase, by decide⟩))
  case session =>
    exact (hmet horigin (by simp)).trans
      (congrArg _ (sessionResolved_of_over (s := left) ⟨x, hmem, rfl⟩ (.inr (by decide))))
  case ended => exact hmet horigin (by simp)
  case hold =>
    obtain ⟨hqueue, hheld, hlow, hhigh⟩ := enterHold_facts (s := left) hlaw
    exact ⟨_, exec_lineError_of_hold hsends hkind horigin hmode, hqueue, hheld, hlow, hhigh⟩

/-! ### Acknowledge slots of an own telegram (R113, R121) -/

/-- The outcome of a slot of a telegram that is not spoiled. -/
def slotOutcomeOf (acked : Bool) : SendOutcome := if acked then .acked else .notAcked

theorem slotOutcome_of_whole {e : TxEntry} (hwhole : e.spoiled = false) (acked : Bool) :
    slotOutcome e acked = slotOutcomeOf acked := by
  simp [slotOutcome, slotOutcomeOf, hwhole]

theorem count_slotOutcomeOf (c : Counters) (acked : Bool) : c.count (slotOutcomeOf acked) = c.slot acked := by
  cases acked <;> rfl

section Slots
variable {s : State} {before after : List TxEntry} {e : TxEntry} (hsends : s.sends before e after)
  (hwhole : e.spoiled = false)
include hsends hwhole

/-- The outcome of a telegram that is neither a BEACON nor spoiled reaches its originator. -/
theorem outcomeFor_of_whole {mine : Origin → Bool} (acked : Bool) (handle : State → Origin → SendOutcome → State)
    (hmine : mine e.origin = true) (hkind : e.telegram.kind ≠ .beacon) :
    outcomeFor s mine acked handle =
      handle (s.sent (before ++ after) (s.bus.counters.slot acked)) e.origin (slotOutcomeOf acked) := by
  rw [outcomeFor_sends s before after e mine acked handle hsends hmine hkind, slotOutcome_of_whole hwhole,
    count_slotOutcomeOf]

theorem exec_telegramOutcome_of_plain (acked : Bool) (horigin : e.origin = .plain) :
    exec (.telegramOutcome acked) s = .next (endSending s e (slotOutcomeOf acked)) := by
  rw [← slotOutcome_of_whole hwhole acked]
  refine congrArg Host.Outcome.next ((if_pos hsends.1).trans ?_)
  simp only [sending?_sends s before after e hsends, horigin]
  rfl

end Slots

theorem plainOutcomeOnlyCounts : Clause.PlainOutcomeOnlyCounts := by
  intro s before e after acked hsends horigin hwhole c
  have hexec := exec_telegramOutcome_of_plain hsends hwhole acked horigin
  have hbeacon := endSending_of_beacon (slotOutcomeOf acked) hsends
  rw [count_slotOutcomeOf] at hbeacon
  refine ⟨fun hkind => ?_, fun hkind hhold => hexec.trans (congrArg _ ((hbeacon hkind).1 hhold)),
    fun b hkind hhold => hexec.trans (congrArg _ ((hbeacon hkind).2 b hhold))⟩
  rw [hexec, endSending_sends s before after e _ hsends hkind, count_slotOutcomeOf]

/-- Settles O42: a line error reaches the originator, and a plain outcome reaches nobody. -/
theorem sendEndsInItsOutcome : Obligations.SendEndsInItsOutcome :=
  ⟨lineErrorEndsTelegram, originatorsMeetLineError, plainOutcomeOnlyCounts⟩

/-! ### OFFER, certificate, MIRROR-PUT and MIRROR-DROP -/

/-- Settles O43: the offer is found by its id, for its outcome and for its deadline. -/
theorem offerAwaitsOrCloses : Obligations.OfferAwaitsOrCloses := by
  intro s o hmem hnodup closed
  refine ⟨fun before e after hsends horigin hkind hwhole hphase => ⟨?acked, ?lost⟩, fun d hrunning hphase hdue => ?due,
    fun hphase => ?waiting⟩
  case acked =>
    have houtcome := outcomeFor_of_whole hsends hwhole (mine := Origin.isOffer) true resolve (by rw [horigin]; rfl)
      (by rw [hkind]; decide)
    rw [horigin] at houtcome
    exact congrArg Host.Outcome.next (houtcome.trans
      (offerResolved_of_acked (s := s.sent (before ++ after) (s.bus.counters.slot true)) hmem hnodup hphase))
  case lost =>
    have houtcome := outcomeFor_of_whole hsends hwhole (mine := Origin.isOffer) false resolve (by rw [horigin]; rfl)
      (by rw [hkind]; decide)
    rw [horigin] at houtcome
    exact ⟨_, congrArg Host.Outcome.next houtcome,
      offerResolved_of_not_acked (s := s.sent (before ++ after) (s.bus.counters.slot false)) hmem hnodup hphase (by decide)⟩
  case due =>
    have hfind : s.offers.find? (fun x => x.id == o.id && x.timedOut s.domain.clock) = some o := by
      refine find?_offer hmem hnodup (fun x hx => ?_) ?_
      · simp only [Bool.and_eq_true, beq_iff_eq] at hx
        exact hx.1
      · rw [beq_self_eq_true, Bool.true_and, timedOut_iff]
        exact ⟨d, hphase, hdue⟩
    refine ⟨answerMoveFailed (closeOffer s o.id) o subNoAnswer 0, congrArg Host.Outcome.next ?_, ?_⟩
    · rw [if_pos hrunning, hfind]
    · have hsends := answerMoveFailed_sends (closeOffer s o.id) o subNoAnswer 0
      rw [closeOffer_eq] at hsends ⊢
      exact hsends
  case waiting =>
    have hnone : s.offers.find? (fun x => x.id == o.id && x.timedOut s.domain.clock) = none := by
      rw [List.find?_eq_none]
      intro x hx htest
      obtain ⟨hid, hdue⟩ := (Bool.and_eq_true _ _).mp htest
      obtain rfl : x = o := List.inj_on_of_nodup_map hnodup hx hmem (beq_iff_eq.mp hid)
      obtain ⟨d, hawaiting, hle⟩ := (timedOut_iff _ _).mp hdue
      obtain h | h | ⟨d', h, hlt⟩ := hphase
      · rw [h] at hawaiting; cases hawaiting
      · rw [h] at hawaiting; cases hawaiting
      · rw [h] at hawaiting
        cases hawaiting
        omega
    refine congrArg Host.Outcome.next ?_
    rw [hnone]
    exact ite_self s

/-- What a release whose drop was sent leaves as it was (R144, R158). -/
theorem release_frame {s t : State} {id : Nat} {xs : List Letter} (hpresent : ∃ x ∈ s.domain.custody, x.record.id = id)
    (h : Sends (dropsPlaced (s.remove id) id) t xs) :
    t = { s with
          freeCount := t.freeCount
          bus := { s.bus with queue := t.bus.queue, line := t.bus.line }
          domain :=
            { s.domain with
              custody := s.domain.custody.filter (·.record.id ≠ id)
              drops := if s.committed.buddy = none then s.domain.drops else dropListWith s.domain.drops id
              discardedDrops :=
                if s.committed.buddy = none ∨ id ∈ s.domain.drops ∨ s.domain.drops.length < 8 then
                  s.domain.discardedDrops
                else min (s.domain.discardedDrops + 1) 65535 } } := by
  refine h.1.trans ?_
  rw [dropsPlaced_eq, remove_eq _ _ hpresent]
  rfl

/-- The queue behind which the drop of a released record is offered. -/
theorem boxAfter_remove {s : State} {id : Nat} (hpresent : ∃ x ∈ s.domain.custody, x.record.id = id) (xs : List Letter) :
    (dropsPlaced (s.remove id) id).boxAfter xs = (s.stayEnded id).boxAfter xs := by
  rw [boxAfter_dropsPlaced, remove_eq _ _ hpresent]
  rfl

theorem stayEnded_telegrams (s : State) (id : Nat) : (s.stayEnded id).outbox.map (·.1) = s.outbox.map (·.1) := by
  rw [outbox_telegrams, outbox_telegrams]
  exact map_endStay_telegram id s.bus.queue

/-- Settles O45: acknowledged, the record leaves and its drop follows; otherwise it is HELD again. -/
theorem certificateOutcomeSettlesRelease : Obligations.CertificateOutcomeSettlesRelease := by
  intro s before e after h hsends horigin hkind hwhole hlaw hmem hstate
  have houtcome (acked : Bool) := outcomeFor_of_whole hsends hwhole (mine := Origin.isCertificate) acked resolve
    (by rw [horigin]; rfl) (by rw [hkind]; decide)
  simp only [horigin] at houtcome
  have hpresent : ∃ x ∈ s.domain.custody, x.record.id = h.record.id := ⟨h, hmem, rfl⟩
  refine ⟨?released, congrArg Host.Outcome.next ((houtcome false).trans
    (certificateResolved_of_not_acked (s := s.sent (before ++ after) (s.bus.counters.slot false)) hlaw hmem hstate
      (by decide)))⟩
  case released =>
    have hresolved := (houtcome true).trans
      (certificateResolved_of_acked (s := s.sent (before ++ after) (s.bus.counters.slot true)) hlaw hmem hstate)
    have hsent : Sends (dropsPlaced ((s.sent (before ++ after) (s.bus.counters.slot true)).remove h.record.id) h.record.id)
        (dropAtBuddy ((s.sent (before ++ after) (s.bus.counters.slot true)).remove h.record.id) h.record.id)
        (s.dropLetters h.record.id) := dropAtBuddy_sends ..
    have hbox := hsent.2.trans (boxAfter_remove (s := s.sent (before ++ after) (s.bus.counters.slot true)) hpresent _)
    exact ⟨_, congrArg Host.Outcome.next hresolved,
      release_frame (s := s.sent (before ++ after) (s.bus.counters.slot true)) hpresent hsent,
      (congrArg (List.map (·.1)) hbox).trans (boxAfter_telegrams (s := s.sent (before ++ after) s.bus.counters)
        (t := (s.sent (before ++ after) s.bus.counters).stayEnded h.record.id) rfl
        (stayEnded_telegrams (s.sent (before ++ after) s.bus.counters) h.record.id) _),
      hbox⟩

/-- Settles O46: each outcome acts only when acknowledged, and a put only on a record that stayed. -/
theorem mirrorOutcomesKeepFlagsAndDrops : Obligations.MirrorOutcomesKeepFlagsAndDrops := by
  intro s before e after id acked hsends hkind hwhole left flagged
  have houtcome {mine : Origin → Bool} {o : Origin} (horigin : e.origin = o) (hmine : mine o = true) :
      outcomeFor s mine acked resolve = resolve left o (slotOutcomeOf acked) :=
    horigin ▸ outcomeFor_of_whole hsends hwhole acked resolve (horigin ▸ hmine) hkind
  refine ⟨fun staying horigin => ?_, fun horigin => ?_⟩
  · refine congrArg Host.Outcome.next ((houtcome horigin rfl).trans ?_)
    cases acked with
    | false => exact putResolved_of_not_acked left id staying (by decide)
    | true =>
      cases staying with
      | false => exact putResolved_of_left left id .acked
      | true => exact putResolved_of_acked left id
  · refine congrArg Host.Outcome.next ((houtcome horigin rfl).trans ?_)
    cases acked with
    | false => exact dropResolved_of_not_acked left id (by decide)
    | true => exact dropResolved_of_acked left id

end Sys2Proof.Machine
end

