-- ==== Sys2Proof/Proofs/HoldAndRejoining.lean ====
section
/-!
PROOFS. The end of HOLD_PENDING (R122, R169, R170) and the ends of the phases of REJOINING (R150, R151, R153, R154).
-/
namespace Sys2Proof.Machine

/-! ### The end of HOLD_PENDING -/

/-- A record after the flush of the telegrams of these originators, with the flag a risen supply sets (R19, R121, R170). -/
def Holding.flushedBy (flushed : Origin → Bool) (offers : List Offer) (supplyMv : Nat) (h : Holding) : Holding :=
  { h with
    state :=
      if (h.state = .releasing ∧ flushed (.certificate h.record.id)) ∨
         (h.state = .offered ∧ flushed (.offer h.record.id) ∧
           ∃ o ∈ offers, o.id = h.record.id ∧ o.phase = .sending) then .held
      else h.state
    record := if 8600 < supplyMv then { h.record with unmirrored := true } else h.record }

/-- What the end of HOLD_PENDING keeps, and the mode and the Custody Table it leaves. -/
def HoldEnds (flushed : Origin → Bool) (s t : State) : Prop :=
  t.bus.queue = [] ∧ t.bus.beaconHold = none ∧ t.bus.rx = s.bus.rx ∧
  t.domain.mirror = s.domain.mirror ∧ t.domain.drops = s.domain.drops ∧ t.domain.clock = s.domain.clock ∧
  t.domain.tracker = s.domain.tracker ∧ t.domain.filters = s.domain.filters ∧ t.channels = s.channels ∧
  t.inputs = s.inputs ∧ t.store = s.store ∧ t.nextExpiry = s.nextExpiry ∧ t.lastSummary = s.lastSummary ∧
  (s.supplyMv ≤ 8600 → t.mode = .hold ∧ t.roster = s.roster) ∧
  (8600 < s.supplyMv → t.mode = .active ∧ ∀ h ∈ t.domain.custody, h.record.unmirrored = true) ∧
  t.domain.custody =
    (s.domain.custody.filter fun h => !(h.state.isArriving && flushed (.accept h.record.id))).map
      (Holding.flushedBy flushed s.offers s.supplyMv)

/-- Whether a telegram of an originator is in the queue. -/
def queued (q : List TxEntry) (o : Origin) : Bool := q.any (·.origin == o)

theorem queued_iff (q : List TxEntry) (o : Origin) : queued q o = true ↔ o ∈ q.map (·.origin) := by
  simp [queued]

/-- The flushed Custody Table without a risen supply. -/
theorem flushedCustody_eq (offers : List Offer) (q : List TxEntry) (l : List Holding) {supplyMv : Nat}
    (hlow : ¬ 8600 < supplyMv) :
    flushedCustody offers (q.map (·.origin)) l =
      (l.filter fun h => !(h.state.isArriving && queued q (.accept h.record.id))).map
        (Holding.flushedBy (queued q) offers supplyMv) := by
  have hqueued (o : Origin) : decide (o ∈ q.map (·.origin)) = queued q o := by
    rw [Bool.eq_iff_iff, decide_eq_true_eq, queued_iff]
  unfold flushedCustody flushedAway flushedState Holding.flushedBy
  simp only [hqueued, queued_iff, if_neg hlow]

/-- The same, with every record UNMIRRORED by a risen supply. -/
theorem flushedCustody_unmirrored (offers : List Offer) (q : List TxEntry) (l : List Holding) {supplyMv : Nat}
    (hhigh : 8600 < supplyMv) :
    (flushedCustody offers (q.map (·.origin)) l).map
        (fun h => { h with record := { h.record with unmirrored := true } }) =
      (l.filter fun h => !(h.state.isArriving && queued q (.accept h.record.id))).map
        (Holding.flushedBy (queued q) offers supplyMv) := by
  rw [flushedCustody_eq offers q l (supplyMv := 0) (by decide), List.map_map]
  refine List.map_congr_left fun h _ => ?_
  simp only [Holding.flushedBy, Function.comp, if_pos hhigh]
  rfl

theorem holdEnds_enterHold {s : State} (hlaw : s.custodyLaw) : HoldEnds (queued s.bus.queue) s (enterHold s) := by
  obtain ⟨hcustody, hmode, hqueue, hhold⟩ := holdFlushed_facts hlaw
  have hdrops : (holdFlushed s).domain.drops = s.domain.drops := flushAll_drops s.bus.queue _
  obtain ⟨_, _, _, _, _, _, _, hstore, _, hchannels, hinputs, hnext, hsummary, hroster, hrx, _, _, hclock, _, hmirror,
    hfilters, htracker, _⟩ := flushAll_untouched ((((s.withMode .hold).withQueue []).withBeaconHold none).withLine .ignoring)
      s.bus.queue
  by_cases hsupply : 8600 < s.supplyMv
  · have hactive : (enterHold s).mode = .active ∧ ∀ h ∈ (enterHold s).domain.custody, h.record.unmirrored = true :=
      (enterHold_facts hlaw).2.2.2 hsupply
    have hends : enterHold s = leaveHold (holdFlushed s) := (enterHold_eq s).trans (if_pos hsupply)
    rw [hends, leaveHold_eq] at hactive ⊢
    refine ⟨hqueue, hhold, hrx, hmirror, hdrops, hclock, htracker, hfilters, hchannels, hinputs, hstore, hnext, hsummary,
      fun hlow => absurd hsupply (Nat.not_lt.mpr hlow), fun _ => hactive, ?_⟩
    exact (congrArg _ hcustody).trans (flushedCustody_unmirrored _ _ _ hsupply)
  · have hends : enterHold s = holdFlushed s := (enterHold_eq s).trans (if_neg hsupply)
    rw [hends]
    exact ⟨hqueue, hhold, hrx, hmirror, hdrops, hclock, htracker, hfilters, hchannels, hinputs, hstore, hnext, hsummary,
      fun _ => ⟨hmode, hroster⟩, fun hhigh => absurd hhigh hsupply, hcustody.trans (flushedCustody_eq _ _ _ hsupply)⟩

/-- The custody that a flush leaves depends on the telegrams that carry a record only. -/
theorem HoldEnds.congr {f g : Origin → Bool} {s t : State} (h : HoldEnds f s t) (hfg : ∀ o, o ≠ .hold → f o = g o) :
    HoldEnds g s t := by
  have haccept (id : Nat) : f (.accept id) = g (.accept id) := hfg _ (by simp)
  have hoffer (id : Nat) : f (.offer id) = g (.offer id) := hfg _ (by simp)
  have hcertificate (id : Nat) : f (.certificate id) = g (.certificate id) := hfg _ (by simp)
  have hby : Holding.flushedBy f s.offers s.supplyMv = Holding.flushedBy g s.offers s.supplyMv := by
    funext x
    simp only [Holding.flushedBy, hoffer, hcertificate]
  unfold HoldEnds at h ⊢
  simpa only [haccept, hby] using h

/-- Settles O47: the second of HOLD_PENDING and the outcome of the HOLD telegram both enter HOLD. -/
theorem holdPendingEndsInHold : Obligations.HoldPendingEndsInHold := by
  intro s c hrunning hmode hlaw hends
  suffices h : ∃ t, exec c s = .next t ∧ HoldEnds (queued s.bus.queue) s t by
    obtain ⟨t, hexec, hend⟩ := h
    exact ⟨t, hexec, hend⟩
  obtain rfl | ⟨⟨acked, rfl⟩, before, e, after, hsends, horigin, hkind, hwhole⟩ := hends
  · exact ⟨enterHold s, congrArg Host.Outcome.next (if_pos (by simp [hrunning, hmode])), holdEnds_enterHold hlaw⟩
  · have houtcome := outcomeFor_of_whole hsends hwhole (mine := (· == .hold)) acked
      (fun s1 _ _ => if s1.mode = .holdPending then enterHold s1 else s1) (by simp [horigin]) (by rw [hkind]; decide)
    have hqueue : ∀ o, o ≠ .hold → queued (before ++ after) o = queued s.bus.queue o := by
      intro o ho
      have hother : (e.origin == o) = false := by simp [horigin, Ne.symm ho]
      simp [queued, hsends.2.1, hother]
    refine ⟨_, congrArg Host.Outcome.next (houtcome.trans (if_pos hmode)), ?_⟩
    exact (holdEnds_enterHold (s := s.sent (before ++ after) (s.bus.counters.slot acked)) hlaw).congr hqueue

/-! ### The phases of REJOINING -/

theorem askResolved_of_acked (s : State) : askResolved s .acked = s :=
  if_neg fun h => h.2.2 rfl

theorem rejoiningPhasesEnd : Clause.RejoiningPhasesEnd := by
  intro s hrunning hmode
  refine ⟨fun before e after hsends horigin hkind hwhole hphase => ?ask, fun hphase => ?asking,
    fun d n hphase hsupply hepoch => ⟨fun hdue => ?deadline, fun hearly => ?early⟩, fun hphase => ?listening⟩
  case ask =>
    have houtcome (acked : Bool) := outcomeFor_of_whole hsends hwhole (mine := (· == .restoreAsk)) acked resolve
      (by simp [horigin]) (by rw [hkind]; decide)
    simp only [horigin] at houtcome
    refine ⟨congrArg Host.Outcome.next ((houtcome true).trans (askResolved_of_acked _)),
      congrArg Host.Outcome.next ((houtcome false).trans ?_)⟩
    exact if_pos ⟨hmode, hphase, by decide⟩
  case asking =>
    refine congrArg Host.Outcome.next (if_congr ?_ rfl rfl)
    simp [askingOver_iff, hrunning, hmode, hphase]
  case deadline =>
    have hover : s.receivingOver = true := (receivingOver_iff s).mpr ⟨hrunning, hmode, d, n, hphase, hdue⟩
    exact ⟨_, congrArg Host.Outcome.next (if_pos hover), becomeActive_startBlocks _ hsupply hepoch⟩
  case early =>
    refine congrArg Host.Outcome.next (if_neg fun hover => ?_)
    obtain ⟨_, _, d', n', hphase', hle⟩ := (receivingOver_iff s).mp hover
    obtain ⟨rfl, rfl⟩ := RejoinPhase.receiving.inj (hphase.symm.trans hphase')
    omega
  case listening =>
    refine congrArg Host.Outcome.next (if_congr ?_ rfl rfl)
    simp [listeningOver_iff, hrunning, hmode, hphase]

/-- Settles O48. -/
theorem rejoiningEndsByPhase : Obligations.RejoiningEndsByPhase := ⟨beaconAdoptedInListening, rejoiningPhasesEnd⟩

end Sys2Proof.Machine
end

