-- ==== Sys2Proof/Proofs/SessionsAndSightings.lean ====
section
/-!
PROOFS. Restore sessions at the buddy (R148, R149), DOOR notices and the end of the grace window (R63 to R66).
-/
namespace Sys2Proof.Machine

/-! ### The place a telegram takes in the queue (R118, R119) -/

theorem queues_of_bus {m : Mode} (hhold : m ≠ .hold) (hunstrapped : m ≠ .unstrapped) : m.queues = true := by
  cases m <;> simp_all [Mode.queues]

/-- A telegram taken stands last, and is begun at once only behind an empty queue. -/
theorem send_queue_of_room {s : State} (hmode : s.mode.queues = true) (hroom : s.bus.queue.length < 8) (t : TxTelegram)
    (o : Origin) :
    ∃ sending, (sending = true → s.bus.queue = []) ∧
      (send s t o).1.bus.queue = s.bus.queue ++ [⟨t, o, sending, false⟩] := by
  have hsend : (send s t o).1 = beginAtOnce (s.withQueue (s.bus.queue ++ [⟨t, o, false, false⟩])) := by
    have hpost : (s.mode.queues && decide (s.bus.queue.length < Config.queueSlots)) = true := by
      rw [hmode, Bool.true_and, decide_eq_true_eq]
      exact hroom
    rw [send, if_pos hpost]
  rw [hsend]
  by_cases hempty : s.bus.queue = []
  · unfold beginAtOnce
    dsimp only
    split
    · split
      · exact ⟨false, fun _ => hempty, rfl⟩
      · refine ⟨true, fun _ => hempty, ?_⟩
        have hcls : t.kind.cls ≤ 4 := (kind_cls_le t.kind).trans (by decide)
        simp [beginNext, markNext, markFirst, lowestClass, hempty, TxEntry.cls, hcls]
    · exact ⟨false, fun _ => hempty, rfl⟩
  · have hlength : ¬ (s.bus.queue ++ [(⟨t, o, false, false⟩ : TxEntry)]).length = 1 := by simpa using hempty
    exact ⟨false, fun h => absurd h (by decide), congrArg (fun u : State => u.bus.queue) (if_neg fun h => hlength h.2)⟩

/-! ### A session opens (R148) -/

/-- The keys of an asker's mirror records, in table order. -/
def askedKeys (s : State) (asker : Nat) : List Nat := (s.domain.mirror.filter (·.owner == asker)).map (·.record.id)

/-- The state in which the session has its slot, before its RESTORE-BEGIN. -/
def sessionOpened (s : State) (asker : Nat) : State :=
  (s.withSessions (placeSession s.sessions ⟨asker, askedKeys s asker, 0, 0⟩)).withQueue
    (s.bus.queue.map (markEnded (· == asker)))

/-- The RESTORE-BEGIN of a session. -/
def restoreBegin (s : State) (asker : Nat) : TxTelegram :=
  ⟨asker, .restoreBegin, beBytes 4 s.tripNumber ++ beBytes 4 s.domain.clock ++ beBytes 1 (askedKeys s asker).length⟩

theorem openSession_of_room {s : State} (asker : Nat) (hmode : s.mode.queues = true) (hroom : s.bus.queue.length < 8) :
    openSession s asker = (send (sessionOpened s asker) (restoreBegin s asker) (.session asker false true)).1 := by
  have hqueue : (sessionOpened s asker).bus.queue.length < 8 := by simpa [sessionOpened] using hroom
  exact if_pos (send_taken_of_room (s := sessionOpened s asker) hmode hqueue (restoreBegin s asker)
    (.session asker false true))

/-- A session takes its asker's slot, or a free one. -/
theorem placeSession_eq (l : List Session) (x : Session) :
    placeSession l x =
      if l.any (·.asker == x.asker) then l.map fun y => if y.asker = x.asker then x else y else l ++ [x] := by
  simp only [placeSession, updateWhere, beq_iff_eq]

theorem restoreAskOpensSession : Clause.RestoreAskOpensSession := by
  intro s m rest hfront room keys
  have hrooms : (s.sessions.any (·.asker == m.sender)) = true ∨ s.sessions.length < Config.sessionSlots ↔ room :=
    or_congr (by simp) .rfl
  refine ⟨fun hlength hmode htrip hroom hqueue => ?_, fun hstray => ?_⟩
  · have hqueues : (s.withRx rest).mode.queues = true := by simp [hmode, Mode.queues]
    have htake : takeRestoreAsk m (s.withRx rest) = openSession (s.withRx rest) m.sender :=
      if_pos ⟨hlength, hmode, htrip, hrooms.mpr hroom⟩
    rw [openSession_of_room m.sender hqueues hqueue] at htake
    have hnumber : s.tripNumber = field m.payload 0 4 := by rw [State.tripNumber, htrip]; rfl
    have hsends := send_sends (sessionOpened (s.withRx rest) m.sender) (restoreBegin (s.withRx rest) m.sender)
      (.session m.sender false true)
    obtain ⟨sending, hempty, hplace⟩ := send_queue_of_room (s := sessionOpened (s.withRx rest) m.sender) hqueues
      (by simpa [sessionOpened] using hqueue) (restoreBegin (s.withRx rest) m.sender) (.session m.sender false true)
    obtain ⟨_, _, _, _, _, _, _, _, hsessions, _⟩ := hsends.fields
    refine ⟨_, (exec_taken hfront rfl).trans (congrArg _ htake), ?_, ?_, ?_⟩
    · refine hsends.1.trans ?_
      rw [hsessions]
      rfl
    · exact hsessions.trans (placeSession_eq ..)
    · intro begin' ended
      have hended : s.bus.queue.map (markEnded (· == m.sender)) = s.bus.queue.map ended := by
        refine List.map_congr_left fun x _ => ?_
        obtain ⟨telegram, origin, sending, spoiled⟩ := x
        cases origin with
        | session asker last current => exact if_congr beq_iff_eq rfl rfl
        | _ => rfl
      have hbegin : restoreBegin (s.withRx rest) m.sender = begin' := by
        show (⟨_, _, beBytes 4 s.tripNumber ++ _ ++ _⟩ : TxTelegram) = _
        rw [hnumber]
        rfl
      refine ⟨sending, fun h => ?_, ?_⟩
      · exact List.map_eq_nil_iff.mp (hempty h)
      · rw [hplace, hbegin, ← hended]
        rfl
  · refine (exec_taken hfront rfl).trans (congrArg Host.Outcome.next (if_neg ?_))
    rintro ⟨hlength, hmode, htrip, hroom⟩
    obtain h | h | h | h := hstray
    · exact h hlength
    · exact h hmode
    · exact h htrip
    · exact h (hrooms.mp hroom)

/-! ### A session goes on (R149) -/

/-- Changing the sessions afterwards does not change what was sent. -/
theorem Sends.withSessions {s t : State} {xs : List Letter} (h : Sends s t xs) (l : List Session) :
    Sends (s.withSessions l) (t.withSessions l) xs :=
  ⟨congrArg (·.withSessions l) h.1, h.2⟩

/-- The state of a session after its telegram was sent. -/
def sessionSends (s : State) (x : Session) (t : TxTelegram) (last : Bool) (f : Session → Session) : State :=
  (send s t (.session x.asker last true)).1.withSessions (s.sessions.map fun y => if y.asker = x.asker then f y else y)

theorem sessionSends_sends (s : State) (x : Session) (t : TxTelegram) (last : Bool) (f : Session → Session) :
    Sends { s with sessions := s.sessions.map fun y => if y.asker = x.asker then f y else y }
      (sessionSends s x t last f) [(t, .session x.asker last true)] :=
  (send_sends s t _).withSessions _

section Goes
variable {s : State} {x : Session} (hmode : s.mode.queues = true) (hroom : s.bus.queue.length < 8)
include hmode hroom

/-- With room in the queue a session's telegram is taken and its place moves on. -/
theorem sessionTelegram_of_room (t : TxTelegram) (last : Bool) (f : Session → Session) :
    (let sent := send s t (.session x.asker last true)
     let s2 := sent.1.withSessions (updateWhere (·.asker == x.asker) f sent.1.sessions)
     if sent.2 then s2 else endSession s2 x.asker) = sessionSends s x t last f := by
  have htaken := send_taken_of_room hmode hroom t (.session x.asker last true)
  obtain ⟨_, _, _, _, _, _, _, _, hsessions, _⟩ := (send_sends s t (.session x.asker last true)).fields
  simp only [htaken, if_true, hsessions, updateWhere, beq_iff_eq]
  rfl

theorem sessionNext_of_none (hrest : restKeys s x = []) :
    sessionNext s x =
      sessionSends s x ⟨x.asker, .restoreEnd, beBytes 1 x.sent⟩ true fun y => { y with position := x.keys.length } := by
  unfold sessionNext
  split
  case h_1 => exact sessionTelegram_of_room hmode hroom _ true _
  case h_2 hkey => exact absurd (hrest.symm.trans hkey) (by simp)

theorem sessionNext_of_key {id : Nat} {more : List Nat} {y : MirrorRecord} (hrest : restKeys s x = id :: more)
    (hfind : s.domain.mirror.find? (fun m => m.owner == x.asker && m.record.id == id) = some y) :
    sessionNext s x =
      sessionSends s x ⟨x.asker, .restoreRecord, seqBytes y.seq ++ recordBytes y.record⟩ false fun z =>
        { z with position := x.keys.length - more.length, sent := x.sent + 1 } := by
  unfold sessionNext
  split
  case h_1 hnone => exact absurd (hrest.symm.trans hnone) (by simp)
  case h_2 id' more' hkey =>
    obtain ⟨rfl, rfl⟩ := List.cons.inj (hrest.symm.trans hkey)
    split
    case h_1 hmissing => exact absurd (hfind.symm.trans hmissing) (by simp)
    case h_2 m hfound =>
      obtain rfl := Option.some.inj (hfind.symm.trans hfound)
      exact sessionTelegram_of_room hmode hroom _ false _

end Goes

theorem sessionResolved_of_acked {s : State} {x : Session} (hmem : x ∈ s.sessions)
    (hnodup : (s.sessions.map (·.asker)).Nodup) : sessionResolved s x.asker false true .acked = sessionNext s x := by
  obtain ⟨y, hfind⟩ := Option.isSome_iff_exists.mp
    (List.find?_isSome (p := fun y : Session => y.asker == x.asker).mpr ⟨x, hmem, beq_self_eq_true _⟩)
  have hsame : y = x :=
    List.inj_on_of_nodup_map hnodup (List.mem_of_find?_eq_some hfind) hmem (by simpa using List.find?_some hfind)
  simp only [sessionResolved, if_true, hfind, hsame]
  exact if_neg (by simp)

theorem sessionSendsOneAtATime : Clause.SessionSendsOneAtATime := by
  intro s before e after x last acked hsends horigin hkind hwhole hmem hnodup hhold hunstrapped hqueue left
    stands remaining
  have houtcome := outcomeFor_of_whole hsends hwhole (mine := Origin.isSession) acked resolve (by rw [horigin]; rfl) hkind
  rw [horigin] at houtcome
  have hroom : left.bus.queue.length < 8 := by
    have hlength : s.bus.queue.length = (before ++ after).length + 1 := by rw [hsends.2.1]; simp [Nat.add_assoc]
    show (before ++ after).length < 8
    omega
  have hmode : left.mode.queues = true := queues_of_bus hhold hunstrapped
  refine ⟨fun hover => ?_, fun hacked hlast hrest => ?_, fun id more y hacked hlast hrest hfind => ?_⟩
  · refine congrArg Host.Outcome.next (houtcome.trans (sessionResolved_of_over (s := left) ⟨x, hmem, rfl⟩ ?_))
    obtain rfl | rfl := hover
    · exact .inr (by decide)
    · exact .inl rfl
  · subst hacked hlast
    exact ⟨_, congrArg Host.Outcome.next (houtcome.trans ((sessionResolved_of_acked (s := left) hmem hnodup).trans
      (sessionNext_of_none hmode hroom hrest))), sessionSends_sends left x _ _ _⟩
  · subst hacked hlast
    exact ⟨_, congrArg Host.Outcome.next (houtcome.trans ((sessionResolved_of_acked (s := left) hmem hnodup).trans
      (sessionNext_of_key hmode hroom hrest hfind))), sessionSends_sends left x _ _ _⟩

/-- Settles O49: what opens a session, and how it goes on. -/
theorem restoreSessionsServed : Obligations.RestoreSessionsServed := ⟨restoreAskOpensSession, sessionSendsOneAtATime⟩

/-! ### DOOR notices (R63 to R65, R116) -/

theorem takeDoor_of_report {s : State} {m : RxTelegram} {d : DoorReport} (hlength : m.payload.length = 4)
    (hreport : doorReportAt m.payload 0 = some d) (hmode : s.mode = .active ∨ s.mode = .holdPending ∨ s.mode = .ending) :
    takeDoor m s = sight s d.door d.state d.count m.sender := by
  simp only [takeDoor, hlength, ne_eq, not_true_eq_false, if_false, hreport]
  exact if_pos ((takesPeers_iff s.mode).mpr hmode)

theorem takeDoor_of_useless {s : State} {m : RxTelegram}
    (h : m.payload.length ≠ 4 ∨ 1 < field m.payload 1 1 ∨ ¬ (s.mode = .active ∨ s.mode = .holdPending ∨ s.mode = .ending)) :
    takeDoor m s = s := by
  unfold takeDoor
  split
  case isTrue => rfl
  case isFalse hlength =>
    split
    case h_1 => rfl
    case h_2 d hreport =>
      obtain h | h | h := h
      · exact absurd h hlength
      · rw [doorReportAt_eq_none h] at hreport
        cases hreport
      · exact if_neg (mt (takesPeers_iff s.mode).mp h)

theorem doorNoticeIsASighting : Clause.DoorNoticeIsASighting := by
  intro s m rest door count state hfront hmode hdoor hcount hpayload
  have hreport : doorReportAt m.payload 0 = some ⟨door, state, count⟩ := by
    rw [hpayload, ← List.append_nil (_ ++ _)]
    exact doorReportAt_bytes (d := ⟨door, state, count⟩) hdoor hcount []
  have hlength : m.payload.length = 4 := by rw [hpayload]; simp [beBytes_length]
  have hexec := (exec_taken (c := .door) hfront rfl).trans
    (congrArg _ (takeDoor_of_report (s := s.withRx rest) hlength hreport hmode))
  obtain ⟨tracker, custody, hsight, hunknown, hknown⟩ := sight_sighting (s.withRx rest) ⟨door, state, count⟩ m.sender
  rw [hsight] at hexec
  refine ⟨fun hmissing => ?_, fun e hfind => ?_⟩
  · obtain ⟨rfl, rfl⟩ := Prod.mk.inj (hunknown hmissing)
    exact hexec
  · obtain ⟨first, n, phase, hfirst, hsame, hclosed, hgrace, hoverdue, heq⟩ := hknown e hfind
    obtain ⟨rfl, rfl⟩ := Prod.mk.inj heq
    exact ⟨first, n, phase, hfirst, hsame, hclosed, hgrace, hoverdue, hexec⟩

theorem uselessDoorNoticeDiscarded : Clause.UselessDoorNoticeDiscarded := fun s _ rest hfront huseless =>
  (exec_taken hfront rfl).trans (congrArg _ (takeDoor_of_useless (s := s.withRx rest) huseless))

/-! ### The end of the window (R66) -/

theorem any_knownOpen_iff (l : List DoorEntry) :
    l.any DoorEntry.knownOpen = true ↔ ∃ e ∈ l, ∃ k, e.known = some k ∧ k.state = .opened := by
  simp [DoorEntry.knownOpen, Option.any_eq_true]

theorem windowEnded_of_open {t : Tracker} (h : ∃ e ∈ t.doors, ∃ k, e.known = some k ∧ k.state = .opened) :
    t.windowEnded = ⟨.overdue, t.doors⟩ := by
  rw [Tracker.windowEnded, if_pos ((any_knownOpen_iff _).mpr h)]

theorem windowEnded_of_not_open {t : Tracker} (h : ¬ ∃ e ∈ t.doors, ∃ k, e.known = some k ∧ k.state = .opened) :
    t.windowEnded = ⟨.closed, t.doors⟩ := by
  rw [Tracker.windowEnded, if_neg (mt (any_knownOpen_iff _).mp h)]

theorem windowExpiryEndsGrace : Clause.WindowExpiryEndsGrace := by
  intro s w hrunning hruns hphase
  refine ⟨fun hover => ?_, fun hearly => ?_⟩
  · have hdue : s.windowDue = true := (windowDue_iff s).mpr ⟨hrunning, hruns, w, hphase, hover⟩
    have hexec : exec .windowExpiry s = .next (s.withTracker s.domain.tracker.windowEnded) :=
      congrArg Host.Outcome.next (if_pos hdue)
    refine ⟨fun hopen => hexec.trans ?_, fun hclosed => hexec.trans ?_⟩
    · rw [windowEnded_of_open hopen]
      rfl
    · rw [windowEnded_of_not_open hclosed]
      rfl
  · refine congrArg Host.Outcome.next (if_neg fun hdue => ?_)
    obtain ⟨_, _, w', hphase', hle⟩ := (windowDue_iff s).mp hdue
    obtain rfl := TrackerPhase.grace.inj (hphase.symm.trans hphase')
    omega

/-- Settles O50. -/
theorem sightingsAndWindowExpiry : Obligations.SightingsAndWindowExpiry :=
  ⟨doorNoticeIsASighting, uselessDoorNoticeDiscarded, windowExpiryEndsGrace⟩

end Sys2Proof.Machine
end

