-- ==== Sys2Proof/Proofs/DoorsAndWrites.lean ====
section
/-!
PROOFS. The debounced door inputs and what an accepted state brings (R56 to R60), and the ends of Setup Store writes
(R153, R167, R168).
-/
namespace Sys2Proof.Machine

/-! ### The line of an input (R56, R57) -/

theorem doorLineFollowed : Clause.DoorLineFollowed := by
  intro s i level hline d becomes
  have hexec (d' : DoorInput) (h : d.lineTo level = d') : becomes d' := by
    rw [← h]
    exact rfl
  refine ⟨fun hstopped => hexec _ ?_, fun hrunning haccepted => hexec _ ?_, fun hrunning haccepted => hexec _ ?_⟩
  · rw [DoorInput.lineTo, if_neg hline, hstopped]
    rfl
  · rw [DoorInput.lineTo, if_neg hline, if_pos hrunning, haccepted, beq_self_eq_true]
    rfl
  · have hother : (d.accepted == some (doorStateOf level)) = false := by simpa using haccepted
    rw [DoorInput.lineTo, if_neg hline, if_pos hrunning, hother]
    rfl

/-! ### An accepted state (R57 to R60) -/

/-- The report of an own input as a sighting in the modes of R63, and none in the others (R59). -/
def sightedLocally (s : State) (r : DoorReport) : State :=
  if s.mode.runsEpochs then sight s r.door r.state r.count s.address else s

/-- What the sighting changes: the tracker and the Custody Table, by R64 and R65. -/
theorem sightedLocally_eq (s : State) (r : DoorReport) :
    ∃ tracker custody,
      sightedLocally s r = { s with domain := { s.domain with tracker := tracker, custody := custody } } ∧
      (s.mode.runsEpochs = true → Sighting s.committed.grace s.domain.clock s.address r
        (s.domain.tracker, s.domain.custody) (tracker, custody)) ∧
      (s.mode.runsEpochs = false → tracker = s.domain.tracker ∧ custody = s.domain.custody) := by
  by_cases hruns : s.mode.runsEpochs = true
  · obtain ⟨tracker, custody, hsight, hsighting⟩ := sight_sighting s r s.address
    exact ⟨tracker, custody, (if_pos hruns).trans hsight, fun _ => hsighting, fun h => absurd hruns (by simp [h])⟩
  · exact ⟨s.domain.tracker, s.domain.custody, if_neg hruns, fun h => absurd h hruns, fun _ => ⟨rfl, rfl⟩⟩

/-- The DOOR notice of a report. -/
def doorNotice (r : DoorReport) : TxTelegram := ⟨0, .door, doorReportBytes r⟩

theorem announce_of_report {s : State} {i : Fin 4} {r : DoorReport} (hreport : doorReport s i = some r) :
    announce s i =
      if s.mode = .active then sendPlain (sightedLocally s r) (doorNotice r) else sightedLocally s r := by
  have hmode : (sightedLocally s r).mode = s.mode := by
    obtain ⟨_, _, hsight, _⟩ := sightedLocally_eq s r
    rw [hsight]
  rw [← hmode]
  unfold announce
  split
  case h_1 hnone => exact absurd (hreport.symm.trans hnone) (by simp)
  case h_2 r' hfound =>
    obtain rfl := Option.some.inj (hreport.symm.trans hfound)
    rfl

/-- A sighting of a known door leaves its entry with the report seen. -/
theorem Sighting.known {grace clock source : Nat} {d : DoorReport} {a b : Sights} (h : Sighting grace clock source d a b)
    (hmapped : ∃ e ∈ a.1.doors, e.door = d.door) :
    ∀ e ∈ b.1.doors, e.door = d.door → e.known = some ⟨d.state, d.count, source⟩ := by
  have hfound : (a.1.doors.find? (·.door == d.door)).isSome := by simpa using hmapped
  obtain ⟨e, hfind⟩ := Option.isSome_iff_exists.mp hfound
  obtain ⟨_, _, _, _, _, _, _, _, heq⟩ := h.2 e hfind
  intro x hx hdoor
  rw [heq] at hx
  obtain ⟨y, hy, rfl⟩ := List.mem_map.mp hx
  by_cases hsame : y.door = d.door
  · rw [if_pos hsame]
  · rw [if_neg hsame] at hdoor
    exact absurd hdoor hsame

theorem doorReport_eq {s : State} {i : Fin 4} {door : Nat} {a : DoorState} (hmapped : s.committed.doorOf i = some door)
    (haccepted : (s.inputs.get i).accepted = some a) :
    doorReport s i = some ⟨door, a, (s.inputs.get i).count⟩ := by
  simp only [doorReport, hmapped, haccepted]

/-- The input's report once its level is accepted. -/
theorem doorReport_settled {s : State} {i : Fin 4} {door : Nat} (hmapped : s.committed.doorOf i = some door) :
    doorReport { s with inputs := s.inputs.set i (s.inputs.get i).settle } i =
      some ⟨door, doorStateOf (s.inputs.get i).line, (s.inputs.get i).settle.count⟩ := by
  have hget : (s.inputs.set i (s.inputs.get i).settle).get i = (s.inputs.get i).settle := by simp
  refine (doorReport_eq (s := { s with inputs := s.inputs.set i (s.inputs.get i).settle }) hmapped (congrArg (·.accepted) hget)).trans ?_
  exact congrArg (fun d : DoorInput => some (⟨door, doorStateOf (s.inputs.get i).line, d.count⟩ : DoorReport)) hget

/-- An input that settles: its accepted state is announced. -/
theorem exec_settles {s : State} {i : Fin 4} {c : Instr} (hrunning : s.running = true)
    (hinput : (s.inputs.get i).running = true) (hsettling : (s.inputs.get i).settling = true)
    (hcommand : c = .initialAcceptance i ∧ (s.inputs.get i).accepted = none ∨
      c = .acceptedChange i ∧ ∃ a, (s.inputs.get i).accepted = some a ∧ a ≠ doorStateOf (s.inputs.get i).line) :
    exec c s = .next (settleInput s i) ∧
      (s.inputs.get i).settle.count =
        (if (s.inputs.get i).accepted = some .closed then ((s.inputs.get i).count + 1) % 65536
         else (s.inputs.get i).count) := by
  obtain ⟨rfl, haccepted⟩ | ⟨rfl, a, haccepted, hchange⟩ := hcommand
  · exact ⟨congrArg Host.Outcome.next (if_pos (by simp [hrunning, hinput, hsettling, haccepted])),
      by simp [DoorInput.settle, haccepted]⟩
  · refine ⟨congrArg Host.Outcome.next (if_pos (by simp [hrunning, hinput, hsettling, haccepted, hchange])), ?_⟩
    have hopened : a = .closed → doorStateOf (s.inputs.get i).line = .opened := by
      rintro rfl
      cases hline : doorStateOf (s.inputs.get i).line with
      | closed => exact absurd hline.symm hchange
      | opened => rfl
    rw [DoorInput.settle, haccepted]
    refine if_congr ⟨fun h => h.1, fun h => ⟨h, hopened (Option.some.inj h)⟩⟩ rfl rfl

/-- Announcing leaves the sighting's state, but for the DOOR notice in ACTIVE. -/
theorem announce_sends {s : State} {i : Fin 4} {r : DoorReport} (hreport : doorReport s i = some r) :
    announce s i = (sightedLocally s r).transmitOf (announce s i) ∧
    (s.mode = .active → (announce s i).outbox = (sightedLocally s r).boxAfter [(doorNotice r, .plain)]) ∧
    (s.mode ≠ .active → (announce s i).bus = (sightedLocally s r).bus) := by
  rw [announce_of_report hreport]
  by_cases hmode : s.mode = .active
  · have hsends := sendPlain_sends (sightedLocally s r) (doorNotice r)
    rw [if_pos hmode]
    exact ⟨hsends.1, fun _ => hsends.2, fun h => absurd hmode h⟩
  · rw [if_neg hmode]
    exact ⟨rfl, fun h => absurd h hmode, fun _ => rfl⟩

theorem heldLevelAccepted : Clause.HeldLevelAccepted := by
  intro s i door c hrunning hinput hsettling hmapped hcommand
  obtain ⟨hexec, hcount⟩ := exec_settles hrunning hinput hsettling hcommand
  obtain ⟨hframe, hactive, hother⟩ := announce_sends (doorReport_settled (s := s) (i := i) hmapped)
  obtain ⟨tracker, custody, hsight, hsighting, hquiet⟩ :=
    sightedLocally_eq { s with inputs := s.inputs.set i (s.inputs.get i).settle }
      ⟨door, doorStateOf (s.inputs.get i).line, (s.inputs.get i).settle.count⟩
  rw [hsight] at hframe hactive hother
  change exec c s = .next (announce { s with inputs := s.inputs.set i (s.inputs.get i).settle } i) at hexec
  generalize announce { s with inputs := s.inputs.set i (s.inputs.get i).settle } i = t at *
  have hinputs : t.inputs = s.inputs.set i (s.inputs.get i).settle := by rw [hframe]; rfl
  have hdomain : t.domain = { s.domain with tracker := tracker, custody := custody } := by rw [hframe]; rfl
  have hbare : tracker = s.domain.tracker ∧ custody = s.domain.custody → t.domain = s.domain := by
    rintro ⟨rfl, rfl⟩
    exact hdomain
  have htracker : t.domain.tracker = tracker := by rw [hdomain]
  have hcustody : t.domain.custody = custody := by rw [hdomain]
  refine ⟨t, (s.inputs.get i).settle, hexec, hinputs, rfl, hinput, rfl, rfl, hcount, ?frame, hactive, hother,
    fun hmissing => ?unmapped, fun hruns hknown => ?known, fun hruns => ?sighting, fun hstill => hbare (hquiet hstill)⟩
  case frame =>
    rw [htracker, hcustody, hinputs]
    exact hframe
  case unmapped =>
    by_cases hruns : s.mode.runsEpochs = true
    · exact hbare (Prod.mk.inj ((hsighting hruns).1 hmissing))
    · exact hbare (hquiet (by simpa using hruns))
  case known =>
    rw [htracker]
    exact (hsighting hruns).known hknown
  case sighting =>
    rw [htracker, hcustody]
    exact hsighting hruns

/-- Settles O53: the line's level, and what is done with one that was held. -/
theorem doorInputsDebounced : Obligations.DoorInputsDebounced := ⟨doorLineFollowed, heldLevelAccepted⟩

/-! ### The end of a TRIP-START write (R167) -/

theorem tripStartEnds_of_write {s : State} {w : StoreWrite} {requester disabled : Nat} (hwrite : s.storeWrite = some w)
    (hjob : w.job = .tripStart requester disabled) (completed : Bool) :
    tripStartEnds completed s =
      if completed then
        tripStartReply (becomeActive (startBlocks (tripStarted s w))) requester .ok (w.tripId.getD 0) (beBytes 1 disabled)
      else
        tripStartReply { s with mode := .idle, storeWrite := none } requester .setupWriteFailed (w.tripId.getD 0) [] := by
  simp only [tripStartEnds, hwrite, hjob]

/-- Clearing the tables changes no telegram of the queue. -/
theorem tripStarted_telegrams (s : State) (w : StoreWrite) :
    (tripStarted s w).bus.queue.map (·.telegram) = s.bus.queue.map (·.telegram) := by
  refine (List.map_map ..).trans (List.map_congr_left fun e _ => ?_)
  exact (markLeft_telegram _ e).1

/-- Settles O54: the write commits the trip and the recorder becomes ACTIVE, or stands in IDLE as before. -/
theorem tripStartWriteEnds : Obligations.TripStartWriteEnds := by
  intro s w requester disabled hrunning hmode hwrite hjob
  have hexec (completed : Bool) : exec (.tripStartWriteEnd completed) s = .next (tripStartEnds completed s) :=
    congrArg Host.Outcome.next (if_pos (by simp [hrunning, hmode]))
  simp only [tripStartEnds_of_write hwrite hjob] at hexec
  refine ⟨fun hsupply hepoch => ?completed, ⟨_, hexec false, ?failed⟩⟩
  case completed =>
    have hactivates : Activates (tripStarted s w) (becomeActive (startBlocks (tripStarted s w))) :=
      becomeActive_startBlocks _ hsupply hepoch
    have hqueue : (becomeActive (startBlocks (tripStarted s w))).bus.queue = (tripStarted s w).bus.queue :=
      congrArg (·.bus.queue) hactivates.1
    refine ⟨_, becomeActive (startBlocks (tripStarted s w)), hexec true, ?_, ?_, sendPlain_sends _ _⟩
    · rw [hqueue]
      exact hactivates
    · rw [hqueue]
      exact tripStarted_telegrams s w
  case failed =>
    have hsends := sendPlain_sends { s with mode := .idle, storeWrite := none }
      (replyTelegram requester .tripStart .setupWriteFailed 0 0 (beBytes 4 (w.tripId.getD 0) ++ []))
    rw [List.append_nil] at hsends
    simp only [Bool.false_eq_true, if_false, tripStartReply, List.append_nil]
    exact hsends

/-! ### The ends of the writes of TRIP-END and of REJOINING (R153, R168) -/

/-- The inputs of a recorder whose trip is over are stopped. -/
theorem tripOver_inputs (s : State) (i : Fin 4) :
    (tripOver s).inputs.get i = ⟨(s.inputs.get i).line, false, none, 0, false⟩ :=
  Four.get_build _ i

theorem tripOver_eq (s : State) :
    tripOver s =
      { s with
        mode := .idle, channels := Four.all Channel.stopped, inputs := (tripOver s).inputs
        domain := { s.domain with counting := false, tracker := Tracker.cleared s.store.setup.doorMap } } := rfl

theorem tripEndEnds_of_write {s : State} {w : StoreWrite} {requester : Nat} (hwrite : s.storeWrite = some w)
    (hjob : w.job = .tripEnd requester) (completed : Bool) :
    tripEndEnds completed s =
      if completed then
        sendPlain (tripOver { s with store := Store.written w, storeWrite := none })
          (replyTelegram requester .tripEnd .ok 0 0 [])
      else
        sendPlain (becomeActive { s with storeWrite := none })
          (replyTelegram requester .tripEnd .setupWriteFailed 0 0 []) := by
  simp only [tripEndEnds, hwrite, hjob]

/-- Settles O55: either end of a write leads to IDLE with the trip over, or back to ACTIVE. -/
theorem tripEndAndRejoinWritesEnd : Obligations.TripEndAndRejoinWritesEnd := by
  intro s w hrunning hwrite ended
  have hended (store : Store) : ended store s (tripOver { s with store := store, storeWrite := none }) :=
    ⟨tripOver_eq _, tripOver_inputs _⟩
  refine ⟨fun requester hmode hjob => ?tripEnd, fun hmode hphase => ?rejoin⟩
  case tripEnd =>
    have hexec (completed : Bool) : exec (.tripEndWriteEnd completed) s = .next (tripEndEnds completed s) :=
      congrArg Host.Outcome.next (if_pos (by simp [hrunning, hmode]))
    simp only [tripEndEnds_of_write hwrite hjob] at hexec
    refine ⟨⟨_, _, hexec true, hended _, sendPlain_sends _ _⟩, fun hsupply => ?_⟩
    have hactive := becomeActive_supplied { s with storeWrite := none } hsupply
    refine ⟨_, _, hexec false, ?_, ?_, sendPlain_sends _ _⟩ <;> rw [hactive] <;> rfl
  case rejoin =>
    have hends : (s.running && s.mode == .rejoining && s.rejoin == .ending) = true := by simp [hrunning, hmode, hphase]
    have hexec (completed : Bool) : exec (.rejoinEndWriteEnd completed) s =
        .next (tripOver { s with store := if completed then Store.written w else s.store, storeWrite := none }) := by
      refine congrArg Host.Outcome.next ((if_pos hends).trans ?_)
      rw [hwrite]
    exact ⟨⟨_, hexec true, hended _⟩, _, hexec false, hended _⟩

end Sys2Proof.Machine
end

