-- ==== Sys2Proof/Proofs/Starts.lean ====
section
/-!
PROOFS. A start (R164, R171, R172): the warm one that settles the table and resumes the trip (R20, R71), the cold one that
clears the domain and rejoins (R21, R150), and those that wait.
-/
namespace Sys2Proof.Machine

/-! ### What a start leaves of the volatile state -/

/-- The state at the test of the domain: volatile blocks fresh, straps and supply read. -/
def atTest (s : State) (straps : BitVec 4) (mv : Nat) (staged : Setup) : State :=
  restartVolatile { s with supplyMv := mv, address := straps.toNat } staged

/-- The inputs are stopped there, with the levels of their lines. -/
theorem atTest_line (s : State) (straps : BitVec 4) (mv : Nat) (staged : Setup) (i : Fin 4) :
    ((atTest s straps mv staged).inputs.get i).line = (s.inputs.get i).line := by
  show ((Four.build fun i => (s.inputs.get i).stop).get i).line = _
  rw [Four.get_build]
  rfl

theorem exec_start_unstrapped {s : State} (domainGood storeGood : Bool) (mv : Nat) (hstopped : s.running = false) :
    exec (.start 0 domainGood storeGood mv) s =
      .next { atTest s 0 mv (if storeGood && s.store.checkGood then s.store.setup else Setup.default) with
        mode := .unstrapped } :=
  congrArg Host.Outcome.next ((if_neg (by simp [hstopped])).trans (if_pos rfl))

theorem exec_start_strapped {s : State} {straps : BitVec 4} (domainGood storeGood : Bool) (mv : Nat)
    (hstopped : s.running = false) (hstraps : straps ≠ 0) :
    exec (.start straps domainGood storeGood mv) s =
      .next (proceed
        { atTest s straps mv (if storeGood && s.store.checkGood then s.store.setup else Setup.default) with
          resetCause := startCause s domainGood }
        (s.cellFell || !domainGood) (storeGood && s.store.checkGood)) :=
  congrArg Host.Outcome.next ((if_neg (by simp [hstopped])).trans (if_neg hstraps))

/-! ### A warm start in the running trip (R20, R71, R172) -/

/-- Blocks that start anew ask of the inputs before them only their lines, and of the channels nothing. -/
theorem Activates.of_restarted {base base' t : State} (h : Activates base t)
    (hbase : base = { base' with inputs := base.inputs, channels := base.channels, lastSummary := base.lastSummary })
    (hlines : ∀ i, (base.inputs.get i).line = (base'.inputs.get i).line) : Activates base' t := by
  obtain ⟨hframe, hmultiple, hafter, hnext, hchannels, hinputs, hroster⟩ := h
  rw [hbase] at hframe hmultiple hafter hnext hchannels hroster
  refine ⟨hframe, hmultiple, hafter, hnext, hchannels, fun i => ?_, hroster⟩
  rw [hinputs i, hlines i, hbase]
  rfl

/-- The table settled at a warm start: ARRIVING records go, the others are HELD and charged the stop (R20). -/
theorem settleCustody_eq (clock : Nat) (l : List Holding) :
    settleCustody clock l =
      (l.filter fun h => !h.state.isArriving).map fun h =>
        ⟨{ h.record with gap := min (h.record.gap + (clock - h.accountedTo)) 4294967295 }, clock, .held⟩ := by
  rw [settleCustody, List.map_map]
  rfl

/-- The same with the filter written out. -/
theorem settled_custody (clock : Nat) (l : List Holding) :
    settleCustody clock l =
      (l.filter fun h => match h.state with
        | .arriving _ _ => false
        | _ => true).map fun h =>
        ⟨{ h.record with gap := min (h.record.gap + (clock - h.accountedTo)) 4294967295 }, clock, .held⟩ := by
  rw [settleCustody_eq]
  refine congrArg (List.map _) (List.filter_congr fun h _ => ?_)
  cases h.state <;> rfl

/-- The doors and the window of a settled tracker (R71). -/
theorem settled_window (t : Tracker) (grace clock address : Nat) :
    (t.settled grace clock address).doors = t.doors.map (fun e =>
      if ∃ k, e.known = some k ∧ k.source = address then { e with known := none } else e) ∧
    (∀ w, t.phase = .grace w →
      (clock < w + grace → (t.settled grace clock address).phase = .grace w) ∧
      (w + grace ≤ clock →
        (t.settled grace clock address).phase = if t.doors.any DoorEntry.knownOpen then .overdue else .closed)) ∧
    ((∀ w, t.phase ≠ .grace w) → (t.settled grace clock address).phase = t.phase) := by
  have hdoors : ∀ t1 : Tracker, t1.doors = t.doors → (t1.doors.map fun e =>
      if e.known.any fun k => k.source == address then { e with known := none } else e) =
      t.doors.map (fun e => if ∃ k, e.known = some k ∧ k.source = address then { e with known := none } else e) := by
    intro t1 h
    rw [h]
    refine List.map_congr_left fun e _ => if_congr ?_ rfl rfl
    simp [Option.any_eq_true]
  obtain ⟨phase, doors⟩ := t
  cases phase with
  | grace w =>
    by_cases hover : w + grace ≤ clock
    · have hsettled : Tracker.settled ⟨.grace w, doors⟩ grace clock address =
          { (⟨.grace w, doors⟩ : Tracker).windowEnded with
            doors := doors.map fun e =>
              if e.known.any fun k => k.source == address then { e with known := none } else e } := by
        simp only [Tracker.settled, if_pos hover]
        rfl
      rw [hsettled]
      refine ⟨hdoors ⟨.grace w, doors⟩ rfl, fun v hv => ?_, fun h => absurd rfl (h w)⟩
      obtain rfl := TrackerPhase.grace.inj hv
      exact ⟨fun hlt => absurd hover (Nat.not_le.mpr hlt), fun _ => rfl⟩
    · have hsettled : (Tracker.settled ⟨.grace w, doors⟩ grace clock address).phase = .grace w := by
        simp only [Tracker.settled, if_neg hover]
      have hkept : (Tracker.settled ⟨.grace w, doors⟩ grace clock address).doors = doors.map fun e =>
          if e.known.any fun k => k.source == address then { e with known := none } else e := by
        simp only [Tracker.settled, if_neg hover]
      refine ⟨hkept.trans (hdoors ⟨.grace w, doors⟩ rfl), fun v hv => ?_, fun h => absurd rfl (h w)⟩
      obtain rfl := TrackerPhase.grace.inj hv
      exact ⟨fun _ => hsettled, fun hle => absurd hle hover⟩
  | closed => exact ⟨hdoors _ rfl, fun w h => (nomatch h), fun _ => rfl⟩
  | overdue => exact ⟨hdoors _ rfl, fun w h => (nomatch h), fun _ => rfl⟩

/-- The state from which a warm start in the running trip becomes ACTIVE. -/
def warmBase (s : State) : State :=
  { s with
    domain :=
      { s.domain with
        restartCount := (s.domain.restartCount + 1) % 256
        custody := settleCustody s.domain.clock s.domain.custody
        tracker := s.domain.tracker.settled s.committed.grace s.domain.clock s.address } }

theorem proceed_of_warm {s : State} (hrunning : s.store.tripState = .running) (htrip : s.domain.tripId = s.store.tripId) :
    proceed s false true = becomeActive (startBlocks (warmBase s)) := by
  refine (if_pos hrunning).trans ?_
  exact if_pos htrip

/-- Settles O57: the settled state starts its blocks and becomes ACTIVE. -/
theorem warmStartSettlesAndResumes : Obligations.WarmStartSettlesAndResumes := by
  intro s straps mv hstopped hstraps hcell hstore hrunning htrip hsupply hepoch
  have hexec := exec_start_strapped true true mv hstopped hstraps
  rw [hcell, hstore, Bool.not_true, Bool.or_false, Bool.and_true, if_pos rfl,
    proceed_of_warm (by exact hrunning) (by exact htrip)] at hexec
  have hactivates := becomeActive_startBlocks
    (warmBase { atTest s straps mv s.store.setup with resetCause := startCause s true }) hsupply hepoch
  obtain ⟨hdoors, hgrace, hother⟩ :=
    settled_window s.domain.tracker s.store.setup.grace s.domain.clock straps.toNat
  have hbus : (becomeActive (startBlocks
      (warmBase { atTest s straps mv s.store.setup with resetCause := startCause s true }))).bus = Bus.restarted :=
    congrArg (·.bus) hactivates.1
  have hcause : startCause s true = if s.stopCause = .resetPin then .resetPin else .supplyWarm := by
    cases hcause : s.stopCause <;> simp [startCause, hcell, hcause]
  generalize htarget : becomeActive (startBlocks
    (warmBase { atTest s straps mv s.store.setup with resetCause := startCause s true })) = t at *
  refine ⟨t, _, _, hexec, ?fresh, by rw [hbus]; rfl, by rw [hbus]; rfl, ?active, hdoors, hgrace, hother⟩
  case fresh =>
    rw [hactivates.1]
    exact ⟨rfl, rfl, rfl, rfl, rfl, rfl, rfl, rfl⟩
  case active =>
    refine hactivates.of_restarted ?_ (atTest_line s straps mv s.store.setup)
    rw [hbus, ← hcause, warmBase, settled_custody]
    rfl

/-! ### A start that clears the domain (R21, R150, R171) -/

/-- The domain is cleared, and a running trip is rejoined. -/
def coldStarted (s : State) : State :=
  if s.store.tripState = .running then enterRejoining (clearDomain s) else { clearDomain s with mode := .idle }

/-- A domain that was lost, bad or another trip's is cleared, with the cause the test gives. -/
theorem exec_start_cold {s : State} {straps : BitVec 4} {good : Bool} (mv : Nat) (hstopped : s.running = false)
    (hstraps : straps ≠ 0) (hstore : s.store.checkGood = true)
    (hcleared : (s.cellFell = true ∨ good = false) ∨
      ¬ (s.cellFell = true ∨ good = false) ∧ s.store.tripState = .running ∧ s.domain.tripId ≠ s.store.tripId) :
    ∃ cause, (s.cellFell = true → cause = .supplyCold) ∧ (s.cellFell = false → cause = .retentionFault) ∧
      exec (.start straps good true mv) s =
        .next (coldStarted { atTest s straps mv s.store.setup with resetCause := cause }) := by
  have hexec := exec_start_strapped good true mv hstopped hstraps
  rw [hstore, Bool.and_true, if_pos rfl] at hexec
  by_cases hcold : s.cellFell = true ∨ good = false
  · have htest : (s.cellFell || !good) = true := by simpa using hcold
    rw [htest] at hexec
    refine ⟨startCause s good, fun hfell => if_pos hfell, fun hkept => ?_, hexec⟩
    have hbad : good = false := hcold.resolve_left (by simp [hkept])
    simp [startCause, hkept, hbad]
  · obtain ⟨_, hrunning, htrip⟩ := hcleared.resolve_left hcold
    have htest : (s.cellFell || !good) = false := by simpa using hcold
    rw [htest] at hexec
    refine ⟨.retentionFault, fun hfell => absurd (.inl hfell) hcold, fun _ => rfl, hexec.trans (congrArg _ ?_)⟩
    exact (if_pos hrunning).trans ((if_neg htrip).trans (if_pos hrunning).symm)

theorem enterRejoining_of_alone {s : State} (hbuddy : s.committed.buddy = none) :
    enterRejoining s =
      { s with mode := .rejoining, rejoin := .listening, domain := { s.domain with counting := true } } := by
  have hnone : ({ s with mode := .rejoining, domain := { s.domain with counting := true } } : State).committed.buddy = none :=
    hbuddy
  simp only [enterRejoining, hnone]
  rfl

/-- On a bus just restarted a telegram waits for an idle line. -/
theorem send_of_restarted {s : State} (hbus : s.bus = Bus.restarted) (hmode : s.mode.queues = true) (t : TxTelegram)
    (o : Origin) : send s t o = ({ s with bus := { s.bus with queue := [⟨t, o, false, false⟩] } }, true) := by
  have hqueue : s.bus.queue = [] := by rw [hbus]; rfl
  have hline : s.bus.line ≠ .idle := by rw [hbus]; simp [Bus.restarted]
  have htaken : (s.mode.queues && decide (s.bus.queue.length < Config.queueSlots)) = true := by rw [hmode, hqueue]; rfl
  rw [send, if_pos htaken, hqueue, List.nil_append]
  exact congrArg (·, true) (if_neg fun h => hline h.1)

/-- On a bus just restarted the RESTORE-ASK waits for an idle line. -/
theorem enterRejoining_of_buddy {s : State} {b : Nat} (hbuddy : s.committed.buddy = some b) (hbus : s.bus = Bus.restarted) :
    enterRejoining s =
      { s with
        mode := .rejoining, rejoin := .asking, domain := { s.domain with counting := true }
        bus := { s.bus with queue := [⟨⟨b, .restoreAsk, beBytes 4 s.tripNumber⟩, .restoreAsk, false, false⟩] } } := by
  have hsome : ({ s with mode := .rejoining, domain := { s.domain with counting := true } } : State).committed.buddy =
      some b := hbuddy
  have hsends := send_of_restarted
    (s := ({ s with mode := .rejoining, domain := { s.domain with counting := true } } : State).withRejoin .asking) hbus rfl
    ⟨b, .restoreAsk, beBytes 4 s.tripNumber⟩ .restoreAsk
  simp only [enterRejoining, hsome]
  exact if_pos (congrArg Prod.snd hsends) |>.trans (congrArg Prod.fst hsends)

theorem coldStartClearsAndRejoins : Clause.ColdStartClearsAndRejoins := by
  intro s straps good mv hstopped hstraps hstore cold other hcleared
  obtain ⟨cause, hfell, hkept, hexec⟩ := exec_start_cold mv hstopped hstraps hstore hcleared
  refine ⟨_, hexec, ?_⟩
  by_cases hrunning : s.store.tripState = .running
  · have hrejoins : coldStarted { atTest s straps mv s.store.setup with resetCause := cause } =
        enterRejoining (clearDomain { atTest s straps mv s.store.setup with resetCause := cause }) := if_pos hrunning
    rw [hrejoins, decide_eq_true hrunning]
    cases hbuddy : s.committed.buddy with
    | none =>
      rw [enterRejoining_of_alone (s := clearDomain { atTest s straps mv s.store.setup with resetCause := cause }) hbuddy]
      exact ⟨⟨rfl, rfl, rfl, rfl, rfl, rfl, rfl, rfl⟩, rfl, rfl, rfl, rfl, rfl, rfl, rfl, hfell, hkept, rfl,
        fun h => absurd hrunning h, fun _ => ⟨rfl, fun _ => ⟨rfl, rfl⟩, fun _ h => nomatch h⟩⟩
    | some b =>
      rw [enterRejoining_of_buddy (s := clearDomain { atTest s straps mv s.store.setup with resetCause := cause }) hbuddy rfl]
      refine ⟨⟨rfl, rfl, rfl, rfl, rfl, rfl, rfl, rfl⟩, rfl, rfl, rfl, rfl, rfl, rfl, rfl, hfell, hkept, rfl,
        fun h => absurd hrunning h, fun _ => ⟨rfl, fun h => (nomatch h), fun b' h => ?_⟩⟩
      obtain rfl := Option.some.inj h
      exact ⟨rfl, rfl⟩
  · have hidles : coldStarted { atTest s straps mv s.store.setup with resetCause := cause } =
        { clearDomain { atTest s straps mv s.store.setup with resetCause := cause } with mode := .idle } := if_neg hrunning
    rw [hidles, decide_eq_false hrunning]
    exact ⟨⟨rfl, rfl, rfl, rfl, rfl, rfl, rfl, rfl⟩, rfl, rfl, rfl, rfl, rfl, rfl, rfl, hfell, hkept, rfl,
      fun _ => ⟨rfl, rfl⟩, fun h => absurd h hrunning⟩

/-! ### The starts that wait (R164, R165, R172) -/

theorem otherStartsWait : Clause.OtherStartsWait := by
  intro s straps domainGood storeGood mv hstopped
  refine ⟨fun hstraps => ?unstrapped, fun hstraps hbad => ?badStore, fun hstraps hgood hstore hcell hdomain htrip => ?idle⟩
  case unstrapped =>
    rw [hstraps]
    exact ⟨_, exec_start_unstrapped domainGood storeGood mv hstopped, rfl, ⟨rfl, rfl, rfl, rfl, rfl, rfl, rfl, rfl⟩, rfl,
      rfl, rfl, rfl, rfl⟩
  case badStore =>
    have hexec := exec_start_strapped domainGood storeGood mv hstopped hstraps
    have hnotGood : (storeGood && s.store.checkGood) = false := by
      obtain h | h := hbad <;> simp [h]
    rw [hnotGood] at hexec
    exact ⟨_, hexec, rfl, ⟨rfl, rfl, rfl, rfl, rfl, rfl, rfl, rfl⟩, rfl, rfl, rfl, _, rfl⟩
  case idle =>
    subst hdomain hgood
    have hexec := exec_start_strapped true true mv hstopped hstraps
    rw [hcell, hstore, Bool.not_true, Bool.or_false, Bool.and_true, if_pos rfl] at hexec
    have hwaits : proceed { atTest s straps mv s.store.setup with resetCause := startCause s true } false true =
        warmIdle (raiseRestartCount { atTest s straps mv s.store.setup with resetCause := startCause s true }) :=
      if_neg htrip
    exact ⟨_, hexec.trans (congrArg _ hwaits), rfl, ⟨rfl, rfl, rfl, rfl, rfl, rfl, rfl, rfl⟩, rfl, rfl,
      rfl, rfl⟩

/-- Settles O58: the test of store and domain decides between a cleared domain and one as found. -/
theorem coldAndIdleStarts : Obligations.ColdAndIdleStarts := ⟨coldStartClearsAndRejoins, otherStartsWait⟩

end Sys2Proof.Machine
end

