-- ==== Sys2Proof/Proofs/SupplyLevels.lean ====
section
/-!
PROOFS. The levels of the supply (R169, R170): the entry to HOLD_PENDING with what it closes, removes and flushes (R105,
R106, R122), the return from HOLD, and a supply that has sagged when ACTIVE begins (R172).
-/
namespace Sys2Proof.Machine

/-! ### Flushing with no offer, no session and no arrival open (R121) -/

/-- Nothing but a certificate in the queue is then acted on when flushed. -/
structure Quiet (s : State) : Prop where
  custody : s.custodyLaw
  mode : s.mode = .active
  offers : s.offers = []
  sessions : s.sessions = []
  arrived : ∀ h ∈ s.domain.custody, h.state.isArriving = false

section Flush
variable {s : State} (hs : Quiet s)
include hs

/-- A flushed telegram then touches the Custody Table only. -/
theorem Quiet.resolve (o : Origin) :
    resolve s o .flushed = s.withCustody (flushedCustody [] [o] s.domain.custody) := by
  have hcustody := (resolve_flushed s o hs.custody (.inr hs.offers)).1
  rw [hs.offers] at hcustody
  suffices h : ∃ l, Machine.resolve s o .flushed = s.withCustody l by
    obtain ⟨l, hl⟩ := h
    rw [hl] at hcustody ⊢
    exact congrArg s.withCustody hcustody
  have hsame : s = s.withCustody s.domain.custody := rfl
  cases o with
  | plain => exact ⟨_, hsame⟩
  | hold => exact ⟨_, hsame⟩
  | mirrorPut id staying => exact ⟨_, (putResolved_of_not_acked s id staying (by decide)).trans hsame⟩
  | mirrorDrop id => exact ⟨_, (dropResolved_of_not_acked s id (by decide)).trans hsame⟩
  | restoreAsk =>
    refine ⟨_, Eq.trans (if_neg fun h => ?_) hsame⟩
    exact absurd (hs.mode.symm.trans h.1) (by decide)
  | offer id =>
    refine ⟨_, Eq.trans ?_ hsame⟩
    simp [Machine.resolve, offerResolved, hs.offers]
  | accept id =>
    refine ⟨_, Eq.trans ?_ hsame⟩
    simp only [Machine.resolve, acceptResolved]
    split
    case h_1 => rfl
    case h_2 h hfind =>
      have harrived := hs.arrived h (List.mem_of_find?_eq_some hfind)
      cases hstate : h.state with
      | arriving receipt sender => simp [hstate, RecordState.isArriving] at harrived
      | _ => rfl
  | certificate id =>
    simp only [Machine.resolve, certificateResolved]
    split
    case h_1 => exact ⟨_, hsame⟩
    case h_2 h hfind =>
      split
      case isTrue => exact ⟨_, rfl⟩
      case isFalse => exact ⟨_, hsame⟩
  | session asker last current =>
    refine ⟨_, Eq.trans ?_ hsame⟩
    simp [Machine.resolve, sessionResolved, hs.sessions]

end Flush

theorem Quiet.flushed {s : State} (hs : Quiet s) (o : Origin) :
    Quiet (s.withCustody (flushedCustody [] [o] s.domain.custody)) := by
  have hids := flushedCustody_ids [] [o] s.domain.custody
  refine ⟨⟨le_trans (by simpa using hids.length_le) hs.custody.1, hids.nodup hs.custody.2⟩, hs.mode, hs.offers, hs.sessions,
    fun h hh => ?_⟩
  obtain ⟨x, hx, rfl⟩ := List.mem_map.mp hh
  have hx := hs.arrived x (List.mem_filter.mp hx).1
  simp only [flushedState]
  split
  · rfl
  · exact hx

/-- The flush of a list of telegrams. -/
theorem Quiet.flushAll {s : State} (hs : Quiet s) (l : List TxEntry) :
    flushAll s l = s.withCustody (flushedCustody [] (l.map (·.origin)) s.domain.custody) := by
  have hcustody := (flushAll_flushed l s hs.custody (.inr hs.offers)).1
  rw [hs.offers] at hcustody
  suffices h : ∃ c, Machine.flushAll s l = s.withCustody c by
    obtain ⟨c, hc⟩ := h
    rw [hc] at hcustody ⊢
    exact congrArg s.withCustody hcustody
  clear hcustody
  induction l generalizing s with
  | nil => exact ⟨_, rfl⟩
  | cons e es ih =>
    rw [Machine.flushAll, hs.resolve]
    obtain ⟨c, hc⟩ := ih (hs.flushed e.origin)
    exact ⟨c, hc⟩

/-! ### The entry to HOLD_PENDING (R19, R105, R106, R122, R169) -/

/-- A telegram of the queue once every session has ended and every ARRIVING record is removed. -/
def closedEntry (s : State) (e : TxEntry) : TxEntry :=
  markEnded (fun _ => true)
    (markLeft (((closeAllOffers s).domain.custody.filter fun h => h.state.isArriving).map (·.record.id)) e)

theorem closedEntry_kept (s : State) (e : TxEntry) :
    (closedEntry s e).telegram = e.telegram ∧ (closedEntry s e).sending = e.sending ∧
      (closedEntry s e).spoiled = e.spoiled := by
  obtain ⟨htelegram, hsending, hspoiled⟩ := markEnded_telegram (fun _ => true)
    (markLeft (((closeAllOffers s).domain.custody.filter fun h => h.state.isArriving).map (·.record.id)) e)
  obtain ⟨htelegram', hsending', hspoiled'⟩ :=
    markLeft_telegram (((closeAllOffers s).domain.custody.filter fun h => h.state.isArriving).map (·.record.id)) e
  exact ⟨htelegram.trans htelegram', hsending.trans hsending', hspoiled.trans hspoiled'⟩

/-- Only puts and sessions are marked. -/
theorem closedEntry_origin (s : State) (e : TxEntry) {o : Origin} (hput : ∀ id staying, o ≠ .mirrorPut id staying)
    (hsession : ∀ a last current, o ≠ .session a last current) : (closedEntry s e).origin = o ↔ e.origin = o := by
  obtain ⟨telegram, origin, sending, spoiled⟩ := e
  cases origin with
  | mirrorPut id staying =>
    have hnew := hput id staying
    simp only [closedEntry, markLeft]
    split <;> simp [markEnded, Ne.symm, hput]
  | session a last current => simp [closedEntry, markLeft, markEnded, Ne.symm, hsession]
  | _ => exact Iff.rfl

/-- The Custody Table once the offers have closed and the ARRIVING records are gone. -/
def closedCustody (s : State) : List Holding :=
  ((s.domain.custody.map fun h => if h.state = .offered then { h with state := .held } else h).filter fun h =>
    !h.state.isArriving)

theorem closed_queue (s : State) :
    (endAllSessions ((closeAllOffers s).removeWhere fun h => h.state.isArriving)).bus.queue =
      s.bus.queue.map (closedEntry s) :=
  List.map_map ..

theorem closed_eq (s : State) :
    ((closeAllOffers s).removeWhere fun h => h.state.isArriving) =
      { s with
        offers := []
        bus :=
          { s.bus with
            queue := s.bus.queue.map
              (markLeft (((closeAllOffers s).domain.custody.filter fun h => h.state.isArriving).map (·.record.id))) }
        domain := { s.domain with custody := closedCustody s } } := by
  simp only [removeWhere_eq, closedCustody, closeAllOffers_eq]

theorem onlySending_eq (s : State) :
    onlySending s =
      { s with
        sessions := [], freeCount := s.freeCount + 1
        bus :=
          { s.bus with
            beaconHold := none
            queue := ((s.bus.queue.map (markEnded fun _ => true)).filter (·.sending)).map
              (spoilAccept (Config.checkBitsSent s.freeCount)) } } := rfl

theorem beforeFlush_eq (s : State) :
    beforeFlush s =
      { s with
        offers := [], sessions := [], freeCount := s.freeCount + 1
        bus :=
          { s.bus with
            beaconHold := none
            queue := ((s.bus.queue.map (closedEntry s)).filter (·.sending)).map
              (spoilAccept (Config.checkBitsSent s.freeCount)) }
        domain := { s.domain with custody := closedCustody s } } := by
  rw [beforeFlush, closed_eq, onlySending_eq]
  simp only [List.map_map]
  rfl

theorem flushedAtEntry_eq (s : State) :
    flushedAtEntry s = (s.bus.queue.map (closedEntry s)).filter fun e => !e.sending := by
  rw [← closed_queue]
  rfl

theorem beforeFlush_quiet {s : State} (hlaw : s.custodyLaw) (hmode : s.mode = .active) : Quiet (beforeFlush s) := by
  have hcustody := beforeFlush_custodyLaw hlaw
  rw [beforeFlush_eq] at hcustody ⊢
  refine ⟨hcustody, hmode, rfl, rfl, fun h hh => ?_⟩
  simpa using (List.mem_filter.mp hh).2

/-- A waiting certificate is among the telegrams flushed at the entry. -/
theorem certificate_flushed_iff (s : State) (id : Nat) :
    Origin.certificate id ∈ (flushedAtEntry s).map (·.origin) ↔
      ∃ e ∈ s.bus.queue, e.origin = .certificate id ∧ e.sending = false := by
  rw [flushedAtEntry_eq]
  have horigin (e : TxEntry) := closedEntry_origin s e (o := .certificate id) (by simp) (by simp)
  have hsending (e : TxEntry) : (closedEntry s e).sending = e.sending := (closedEntry_kept s e).2.1
  simp only [List.mem_map, List.mem_filter, Bool.not_eq_true']
  constructor
  · rintro ⟨_, ⟨⟨e, he, rfl⟩, hwaits⟩, hcertificate⟩
    exact ⟨e, he, (horigin e).mp hcertificate, (hsending e).symm.trans hwaits⟩
  · rintro ⟨e, he, hcertificate, hwaits⟩
    exact ⟨_, ⟨⟨e, he, rfl⟩, (hsending e).trans hwaits⟩, (horigin e).mpr hcertificate⟩

/-- A record after the entry: RELEASING while its certificate is in transmission, HELD otherwise. -/
def Holding.warned (q : List TxEntry) (h : Holding) : Holding :=
  { h with
    state :=
      if h.state = .releasing ∧ ∀ e ∈ q, e.origin = .certificate h.record.id → e.sending = true then .releasing
      else .held }

/-- A record whose offer has closed. -/
def Holding.offerClosed (h : Holding) : Holding := if h.state = .offered then { h with state := .held } else h

theorem Holding.offerClosed_isArriving (h : Holding) : h.offerClosed.state.isArriving = h.state.isArriving := by
  unfold Holding.offerClosed
  split
  case isTrue hoffered => rw [hoffered]; rfl
  case isFalse => rfl

/-- Closing and flushing leave each record that stays HELD, or RELEASING. -/
theorem flushedState_offerClosed {s : State} {h : Holding} (hstays : h.state.isArriving = false) :
    flushedState [] ((flushedAtEntry s).map (·.origin)) h.offerClosed = (h.warned s.bus.queue).state := by
  have hwaits := certificate_flushed_iff s h.record.id
  cases hstate : h.state with
  | arriving receipt sender => rw [hstate] at hstays; cases hstays
  | held => simp [flushedState, Holding.offerClosed, Holding.warned, hstate]
  | offered => simp [flushedState, Holding.offerClosed, Holding.warned, hstate]
  | releasing =>
    have hkept : (∀ e ∈ s.bus.queue, e.origin = .certificate h.record.id → e.sending = true) ↔
        ¬ Origin.certificate h.record.id ∈ (flushedAtEntry s).map (·.origin) := by
      rw [hwaits]
      simp
    simp only [flushedState, Holding.offerClosed, Holding.warned, hstate, hkept]
    by_cases hflushed : Origin.certificate h.record.id ∈ (flushedAtEntry s).map (·.origin) <;> simp [hflushed, hstate]

theorem entered_custody (s : State) :
    flushedCustody [] ((flushedAtEntry s).map (·.origin)) (closedCustody s) =
      (s.domain.custody.filter fun h => !h.state.isArriving).map (Holding.warned s.bus.queue) := by
  have hclosed : closedCustody s =
      (s.domain.custody.filter fun h => !h.state.isArriving).map Holding.offerClosed := by
    rw [closedCustody]
    refine (List.filter_map ..).trans (congrArg _ (List.filter_congr fun h _ => ?_))
    exact congrArg (!·) h.offerClosed_isArriving
  have hall : ∀ h ∈ (s.domain.custody.filter fun h => !h.state.isArriving).map Holding.offerClosed,
      (!flushedAway ((flushedAtEntry s).map (·.origin)) h) = true := by
    intro h hh
    obtain ⟨x, hx, rfl⟩ := List.mem_map.mp hh
    have hstays : x.state.isArriving = false := by simpa using (List.mem_filter.mp hx).2
    simp [flushedAway, Holding.offerClosed_isArriving, hstays]
  rw [hclosed, flushedCustody, List.filter_eq_self.mpr hall, List.map_map]
  refine List.map_congr_left fun h hh => ?_
  have hstays : h.state.isArriving = false := by simpa using (List.mem_filter.mp hh).2
  have hstate := flushedState_offerClosed (s := s) hstays
  have hrecord : h.offerClosed.record = h.record ∧ h.offerClosed.accountedTo = h.accountedTo := by
    unfold Holding.offerClosed
    split <;> exact ⟨rfl, rfl⟩
  simp only [Function.comp, hstate, hrecord]
  rfl

/-- What is left in the queue at the entry, before the HOLD telegram. -/
def leftInQueue (s : State) : List TxEntry :=
  ((s.bus.queue.map (closedEntry s)).filter (·.sending)).map (spoilAccept (Config.checkBitsSent s.freeCount))

/-- The state in which the HOLD telegram is offered. -/
def entered (s : State) : State :=
  { s with
    mode := .holdPending, offers := [], sessions := [], freeCount := s.freeCount + 1
    bus := { s.bus with beaconHold := none, queue := leftInQueue s }
    domain :=
      { s.domain with
        custody := (s.domain.custody.filter fun h => !h.state.isArriving).map (Holding.warned s.bus.queue) } }

theorem enterHoldPending_entered {s : State} (hlaw : s.custodyLaw) (hmode : s.mode = .active) :
    enterHoldPending s = (send (entered s) ⟨0, .hold, beBytes 4 s.tripNumber⟩ .hold).1 := by
  have hflushed : (flushAll (beforeFlush s) (flushedAtEntry s)).withMode .holdPending = entered s := by
    rw [(beforeFlush_quiet hlaw hmode).flushAll, beforeFlush_eq]
    unfold entered
    rw [← entered_custody]
    rfl
  rw [enterHoldPending_eq]
  dsimp only
  rw [hflushed]
  rfl

/-- Telegrams in transmission are left, in their order. -/
theorem leftInQueue_eq (s : State) :
    leftInQueue s =
      (s.bus.queue.filter (·.sending)).map fun e => spoilAccept (Config.checkBitsSent s.freeCount) (closedEntry s e) := by
  have hsending : (fun e : TxEntry => e.sending) ∘ closedEntry s = fun e => e.sending :=
    funext fun e => (closedEntry_kept s e).2.1
  rw [leftInQueue, List.filter_map, List.map_map, hsending]
  rfl

theorem spoilAccept_kept (checkSent : Bool) (e : TxEntry) :
    (spoilAccept checkSent e).telegram = e.telegram ∧ (spoilAccept checkSent e).sending = e.sending := by
  unfold spoilAccept
  split <;> exact ⟨rfl, rfl⟩

/-- An ACCEPT in transmission is spoiled unless its check bits had all been sent. -/
theorem spoilAccept_of_accept {e : TxEntry} {id : Nat} (horigin : e.origin = .accept id) (checkSent : Bool) :
    (spoilAccept checkSent e).spoiled = (e.spoiled || !checkSent) := by
  simp only [spoilAccept, horigin]

/-- The queue at the entry: the telegram in transmission, if any, then the HOLD telegram. -/
theorem enterHoldPending_queue {s : State} (hlaw : s.custodyLaw) (hmode : s.mode = .active) :
    (s.bus.queue.filter (·.sending) = [] →
      (enterHoldPending s).bus.queue.map (·.telegram) = [⟨0, .hold, beBytes 4 s.tripNumber⟩]) ∧
    ∀ e, s.bus.queue.filter (·.sending) = [e] →
      (enterHoldPending s).bus.queue.map (·.telegram) = [e.telegram, ⟨0, .hold, beBytes 4 s.tripNumber⟩] ∧
      (enterHoldPending s).bus.queue.map (·.sending) = [true, false] ∧
      ∀ id, e.origin = .accept id → ((enterHoldPending s).bus.queue.map (·.spoiled)).head? =
        some (e.spoiled || !Config.checkBitsSent s.freeCount) := by
  have hqueue (hroom : (leftInQueue s).length < 8) := send_queue_of_room (s := entered s) (by rfl) hroom
    ⟨0, .hold, beBytes 4 s.tripNumber⟩ .hold
  rw [enterHoldPending_entered hlaw hmode]
  refine ⟨fun hidle => ?idle, fun e hone => ?one⟩
  case idle =>
    have hleft : leftInQueue s = [] := by rw [leftInQueue_eq, hidle]; rfl
    obtain ⟨sending, _, hplace⟩ := hqueue (by rw [hleft]; decide)
    rw [hplace]
    show ((leftInQueue s ++ _).map _) = _
    rw [hleft]
    rfl
  case one =>
    have hleft : leftInQueue s = [spoilAccept (Config.checkBitsSent s.freeCount) (closedEntry s e)] := by
      rw [leftInQueue_eq, hone]
      rfl
    obtain ⟨htelegram, hsending, hspoiled⟩ := closedEntry_kept s e
    obtain ⟨htelegram', hsending'⟩ := spoilAccept_kept (Config.checkBitsSent s.freeCount) (closedEntry s e)
    have hbegun : e.sending = true := (List.mem_filter.mp (hone ▸ List.mem_singleton_self e)).2
    obtain ⟨sending, hempty, hplace⟩ := hqueue (by simp [hleft])
    have hwaits : sending = false := by
      refine Bool.eq_false_iff.mpr fun h => ?_
      have hnil : leftInQueue s = [] := hempty h
      simp [hleft] at hnil
    have hboth : (send (entered s) ⟨0, .hold, beBytes 4 s.tripNumber⟩ .hold).1.bus.queue =
        [spoilAccept (Config.checkBitsSent s.freeCount) (closedEntry s e),
          ⟨⟨0, .hold, beBytes 4 s.tripNumber⟩, .hold, false, false⟩] := by
      rw [hplace, hwaits]
      exact congrArg (· ++ _) hleft
    rw [hboth]
    refine ⟨?_, ?_, fun id horigin => ?_⟩
    · simp [htelegram', htelegram]
    · simp [hsending', hsending, hbegun]
    · have haccept : (closedEntry s e).origin = .accept id := (closedEntry_origin s e (by simp) (by simp)).mpr horigin
      simp [spoilAccept_of_accept haccept, hspoiled]

/-- The entry leaves the state in which the HOLD telegram is offered, but for that telegram. -/
theorem enterHoldPending_frame {s : State} (hlaw : s.custodyLaw) (hmode : s.mode = .active) :
    enterHoldPending s = (entered s).transmitOf (enterHoldPending s) := by
  rw [enterHoldPending_entered hlaw hmode]
  exact (send_sends ..).1

theorem Holding.warned_state (h : Holding) (q : List TxEntry) :
    (h.warned q).state = .held ∨ (h.warned q).state = .releasing := by
  unfold Holding.warned
  dsimp only
  split
  · exact .inr rfl
  · exact .inl rfl

/-- A record after the entry is one from before it, as it was or HELD. -/
theorem warned_of_mem {q : List TxEntry} {l : List Holding} {h : Holding}
    (hh : h ∈ (l.filter fun h => !h.state.isArriving).map (Holding.warned q)) :
    ∃ h' ∈ l, h.record = h'.record ∧ h.accountedTo = h'.accountedTo ∧ (h.state = h'.state ∨ h.state = .held) := by
  obtain ⟨x, hx, rfl⟩ := List.mem_map.mp hh
  refine ⟨x, (List.mem_filter.mp hx).1, rfl, rfl, ?_⟩
  unfold Holding.warned
  dsimp only
  split
  case isTrue hreleasing => exact .inl hreleasing.1.symm
  case isFalse => exact .inr rfl

/-- HELD and OFFERED records are HELD after it. -/
theorem mem_warned {q : List TxEntry} {l : List Holding} {h : Holding} (hh : h ∈ l)
    (hstate : h.state = .held ∨ h.state = .offered) :
    ⟨h.record, h.accountedTo, .held⟩ ∈ (l.filter fun h => !h.state.isArriving).map (Holding.warned q) := by
  refine List.mem_map.mpr ⟨h, List.mem_filter.mpr ⟨hh, ?_⟩, ?_⟩
  · obtain hstate | hstate := hstate <;> rw [hstate] <;> rfl
  · have hnot : h.state ≠ .releasing := by
      obtain hstate | hstate := hstate <;> rw [hstate] <;> simp
    simp [Holding.warned, hnot]

theorem supplyWarningEntersHoldPending : Clause.SupplyWarningEntersHoldPending := by
  intro s mv hrunning hlaw
  refine ⟨fun hmode hwarning => ?_, fun hother => ?_⟩
  · have htest : (s.running && s.mode == .active && decide (mv < Config.warningMv)) = true := by
      rw [hrunning, hmode]
      exact decide_eq_true hwarning
    obtain ⟨hidle, hone⟩ := enterHoldPending_queue (s := { s with supplyMv := mv }) hlaw hmode
    have hframe := enterHoldPending_frame (s := { s with supplyMv := mv }) hlaw hmode
    refine ⟨enterHoldPending { s with supplyMv := mv }, congrArg Host.Outcome.next (if_pos htest), ?_⟩
    generalize enterHoldPending { s with supplyMv := mv } = t at *
    have hcustody : t.domain.custody =
        (s.domain.custody.filter fun h => !h.state.isArriving).map (Holding.warned s.bus.queue) := by
      rw [hframe]
      rfl
    refine ⟨by rw [hframe]; rfl, by rw [hframe]; rfl, by rw [hframe]; rfl, by rw [hframe]; rfl, by rw [hframe]; rfl,
      by rw [hframe]; rfl, by rw [hframe]; rfl, ?_, ?_, ?_, ?_, ?_, hidle, hone⟩
    · have hbus : t.bus = ((entered { s with supplyMv := mv }).transmitOf t).bus := congrArg (·.bus) hframe
      rw [hcustody, hbus]
      exact hframe
    · rw [hcustody]
      exact fun h hh => warned_of_mem hh
    · rw [hcustody]
      exact fun h hh hstate => mem_warned hh hstate
    · rw [hcustody]
      intro h hh
      obtain ⟨x, _, rfl⟩ := List.mem_map.mp hh
      exact x.warned_state s.bus.queue
    · rw [hcustody]
      refine congrArg (List.map _) (List.filter_congr fun h _ => ?_)
      cases h.state <;> rfl
  · have htest : ¬ (s.running && s.mode == .active && decide (mv < Config.warningMv)) = true := by
      rw [hrunning, Bool.true_and, Bool.and_eq_true, beq_iff_eq, decide_eq_true_eq]
      rintro ⟨hmode, hlow⟩
      obtain h | h := hother
      · exact h hmode
      · exact absurd hlow (Nat.not_lt.mpr h)
    exact congrArg Host.Outcome.next (if_neg htest)

theorem supplyReleaseLeavesHold : Clause.SupplyReleaseLeavesHold := by
  intro s mv hrunning
  refine ⟨fun hmode hrelease => ?_, fun hother => ?_⟩
  · have htest : (s.running && s.mode == .hold && decide (Config.releaseMv < mv)) = true := by
      rw [hrunning, hmode]
      exact decide_eq_true hrelease
    refine congrArg Host.Outcome.next ((if_pos htest).trans ?_)
    rw [leaveHold, buddyDeadline_eq]
    rfl
  · have htest : ¬ (s.running && s.mode == .hold && decide (Config.releaseMv < mv)) = true := by
      rw [hrunning, Bool.true_and, Bool.and_eq_true, beq_iff_eq, decide_eq_true_eq]
      rintro ⟨hmode, hhigh⟩
      obtain h | h := hother
      · exact h hmode
      · exact absurd hhigh (Nat.not_lt.mpr h)
    exact congrArg Host.Outcome.next (if_neg htest)

/-! ### A supply that has sagged when ACTIVE begins (R172) -/

theorem becomeActive_of_sagged {s : State} (hlow : s.supplyMv < 8000) :
    becomeActive s =
      enterHoldPending ((s.withMode .active).withRoster (s.roster.map fun e =>
        if s.committed.buddy = some e.address ∧ e.state = .unheard then
          { e with deadline := some (s.domain.clock + 3 * s.committed.epoch) }
        else e)) := by
  have hsagged : (buddyDeadline (s.withMode .active)).supplyMv < Config.warningMv := by
    rw [buddyDeadline_eq]
    exact hlow
  refine (if_pos hsagged).trans ?_
  rw [buddyDeadline_eq]
  rfl

theorem becomeActive_mode_of_sagged {s : State} (hlow : s.supplyMv < 8000) : (becomeActive s).mode = .holdPending := by
  rw [becomeActive_of_sagged hlow]
  exact enterHoldPending_mode _

/-- The REPLY that follows does not change the mode. -/
theorem sendPlain_mode (s : State) (t : TxTelegram) : (sendPlain s t).mode = s.mode :=
  (sendPlain_sends s t).fields.2.2.1

theorem send_supplyMv (s : State) (t : TxTelegram) (o : Origin) : (send s t o).1.supplyMv = s.supplyMv :=
  (send_sends s t o).untouched.2.2.2.2.1

theorem enterHoldPending_supplyMv (s : State) : (enterHoldPending s).supplyMv = s.supplyMv := by
  have hbefore : (beforeFlush s).supplyMv = s.supplyMv := by rw [beforeFlush_eq]
  have hflushed : (flushAll (beforeFlush s) (flushedAtEntry s)).supplyMv = (beforeFlush s).supplyMv :=
    (flushAll_untouched (beforeFlush s) (flushedAtEntry s)).2.2.2.2.1
  rw [enterHoldPending_eq]
  dsimp only
  rw [send_supplyMv]
  exact hflushed.trans hbefore

/-- The state of a warm start before it becomes ACTIVE, by the supply it finds. -/
def warmActive (s : State) (straps : BitVec 4) (mv : Nat) : State :=
  startBlocks (warmBase { atTest s straps mv s.store.setup with resetCause := startCause s true })

theorem saggedSupplyHoldsAtOnce : Clause.SaggedSupplyHoldsAtOnce := by
  refine ⟨fun s hlow => ⟨fun w requester disabled hrunning hmode hwrite hjob => ?tripStart,
    fun m rest d n hfront hlength hmode hphase => ?restoreEnd, fun m rest b hfront hbeacon hsender htrip hmode hphase => ?beacon,
    fun w requester hrunning hmode hwrite hjob => ?tripEnd, fun d n hrunning hmode hphase hdue => ?deadline⟩,
    fun s straps mv hstopped hstraps hcell hstore hrunning htrip hlow => ?warm⟩
  case tripStart =>
    refine ⟨tripStartEnds true s, congrArg Host.Outcome.next (if_pos (by simp [hrunning, hmode])), ?_⟩
    rw [tripStartEnds_of_write hwrite hjob]
    exact (sendPlain_mode _ _).trans (becomeActive_mode_of_sagged hlow)
  case restoreEnd =>
    refine ⟨_, (exec_taken hfront rfl).trans (congrArg _
      (takeRestoreEnd_of_receiving (s := s.withRx rest) hphase hlength hmode)), ?_⟩
    exact becomeActive_mode_of_sagged hlow
  case beacon =>
    have htake := takeBeacon_of_listening (s := s.withRx rest) hbeacon hsender htrip hmode hphase
    exact ⟨_, (exec_taken hfront rfl).trans (congrArg _ htake), becomeActive_mode_of_sagged hlow⟩
  case tripEnd =>
    refine ⟨tripEndEnds false s, congrArg Host.Outcome.next (if_pos (by simp [hrunning, hmode])), ?_⟩
    rw [tripEndEnds_of_write hwrite hjob]
    exact (sendPlain_mode _ _).trans (becomeActive_mode_of_sagged hlow)
  case deadline =>
    have hover : s.receivingOver = true := (receivingOver_iff s).mpr ⟨hrunning, hmode, d, n, hphase, hdue⟩
    exact ⟨_, congrArg Host.Outcome.next (if_pos hover), becomeActive_mode_of_sagged hlow⟩
  case warm =>
    have hexec (v : Nat) : exec (.start straps true true v) s = .next (becomeActive (warmActive s straps v)) := by
      have hstart := exec_start_strapped true true v hstopped hstraps
      rw [hcell, hstore, Bool.not_true, Bool.or_false, Bool.and_true, if_pos rfl,
        proceed_of_warm (by exact hrunning) (by exact htrip)] at hstart
      exact hstart
    have hsagged := becomeActive_of_sagged (s := warmActive s straps mv) hlow
    have hsupplied := becomeActive_supplied (warmActive s straps 8000) (Nat.le_refl 8000)
    refine ⟨_, _, hexec mv, becomeActive_mode_of_sagged hlow, ?_, hexec 8000, ?_, ?_⟩
    · rw [hsagged]
      exact enterHoldPending_supplyMv _
    · rw [hsupplied]
      rfl
    · rw [hsagged, hsupplied]
      exact congrArg Host.Outcome.next (if_pos (decide_eq_true hlow))

/-- Settles O59: the two commands at their levels, and a supply below the warning level when ACTIVE begins. -/
theorem supplyLevelsMoveTheMode : Obligations.SupplyLevelsMoveTheMode :=
  ⟨supplyWarningEntersHoldPending, supplyReleaseLeavesHold, saggedSupplyHoldsAtOnce⟩

end Sys2Proof.Machine
end
